-- ==== Sys2Proof/Word.lean ====
section
/-! DEFINITION. The word types of DVCORE (00_scope.md R7, R9): bytes, halfwords, 32-bit host words and bit strings. -/

namespace Sys2Proof

/-- One byte of SEG or COEF (20_memory.md R73). -/
abbrev Byte := BitVec 8

/-- One coefficient as stored (10_state.md R44). -/
abbrev Half := BitVec 16

/-- One 32-bit register, command word or host data word (10_state.md R21, 30_encoding.md R100). -/
abbrev Word := BitVec 32

/-- A bit string, first bit first (00_scope.md R9). -/
abbrev Bits := List Bool

end Sys2Proof
end

