-- ==== Sys2Proof/Syntax.lean ====
section
/-! DEFINITION. The commands of DVCORE-1 as syntax: one constructor per row of the opcode table (30_encoding.md R105). -/

namespace Sys2Proof

/-- The 27 commands. `b` is a block index and `m` a macroblock index (the IDX field), `n` a count (the IMM field), as the
formats of 30_encoding.md R101 say. A field the format ignores is no part of the command. -/
inductive Instr where
  /-- NOP, OP 0x00, format N (47 R320). -/
  | nop
  /-- SEG_CLEAR, OP 0x01, format N (41 R135). -/
  | segClear
  /-- BR_PEEK n, OP 0x08, format I (41 R132). -/
  | brPeek (n : Nat)
  /-- BR_SKIP n, OP 0x09, format I (41 R133). -/
  | brSkip (n : Nat)
  /-- BW_PUT n, OP 0x0A, format IA (41 R134). -/
  | bwPut (n : Nat)
  /-- VLC_DEC_SYM n, OP 0x10, format IA (42 R160). -/
  | vlcDecSym (n : Nat)
  /-- VLC_ENC_SYM, OP 0x11, format A (42 R161). -/
  | vlcEncSym
  /-- VLC_BITS, OP 0x12, format A (42 R162). -/
  | vlcBits
  /-- VLC_BLK_BITS b, OP 0x13, format B (42 R163). -/
  | vlcBlkBits (b : Nat)
  /-- ZZ_TO_SCAN b, OP 0x18, format B (43 R183). -/
  | zzToScan (b : Nat)
  /-- ZZ_TO_NAT b, OP 0x19, format B (43 R184). -/
  | zzToNat (b : Nat)
  /-- PLACE411, OP 0x1A, format A (43 R195). -/
  | place411
  /-- PLACE420, OP 0x1B, format A (43 R196). -/
  | place420
  /-- PLACE_MB m, OP 0x1C, format M (43 R197). -/
  | placeMb (m : Nat)
  /-- WEIGHT_FWD b, OP 0x20, format B (44 R213). -/
  | weightFwd (b : Nat)
  /-- WEIGHT_INV b, OP 0x21, format B (44 R214). -/
  | weightInv (b : Nat)
  /-- CLASSIFY b, OP 0x22, format B (44 R225). -/
  | classify (b : Nat)
  /-- QSEARCH m, OP 0x23, format M (44 R231). -/
  | qsearch (m : Nat)
  /-- QUANT b, OP 0x24, format B (44 R219). -/
  | quant (b : Nat)
  /-- DEQUANT b, OP 0x25, format B (44 R220). -/
  | dequant (b : Nat)
  /-- FDCT b, OP 0x28, format B (45 R258). -/
  | fdct (b : Nat)
  /-- IDCT b, OP 0x29, format B (45 R259). -/
  | idct (b : Nat)
  /-- NEED248 b, OP 0x2A, format B (45 R262). -/
  | need248 (b : Nat)
  /-- VLC_DEC_SEG, OP 0x30, format N (46 R290). -/
  | vlcDecSeg
  /-- VLC_ENC_SEG, OP 0x31, format N (46 R300). -/
  | vlcEncSeg
  /-- DECODE_SEG, OP 0x38, format N (47 R321). -/
  | decodeSeg
  /-- ENCODE_SEG, OP 0x39, format N (47 R322). -/
  | encodeSeg
  deriving DecidableEq, Repr

end Sys2Proof
end

