-- ==== Sys2Proof/WellFormed.lean ====
section
/-! DEFINITION. Well-formed commands: those whose index and count fit the fields of the command word (30_encoding.md R100). A
well-formed command may still fail when it runs: the legal ranges of an index and a count are checked by the command itself
(60_exceptions.md R341). -/

namespace Sys2Proof

/-- An index fits IDX, 5 bits (30_encoding.md R100). -/
def fitsIdx (x : Nat) : Bool := decide (x < 32)

/-- A count fits IMM, 16 bits (30_encoding.md R100). -/
def fitsImm (n : Nat) : Bool := decide (n < 65536)

/-- The command can be written as a command word. -/
def Instr.wf : Instr → Bool
  | .nop => true
  | .segClear => true
  | .brPeek n => fitsImm n
  | .brSkip n => fitsImm n
  | .bwPut n => fitsImm n
  | .vlcDecSym n => fitsImm n
  | .vlcEncSym => true
  | .vlcBits => true
  | .vlcBlkBits b => fitsIdx b
  | .zzToScan b => fitsIdx b
  | .zzToNat b => fitsIdx b
  | .place411 => true
  | .place420 => true
  | .placeMb m => fitsIdx m
  | .weightFwd b => fitsIdx b
  | .weightInv b => fitsIdx b
  | .classify b => fitsIdx b
  | .qsearch m => fitsIdx m
  | .quant b => fitsIdx b
  | .dequant b => fitsIdx b
  | .fdct b => fitsIdx b
  | .idct b => fitsIdx b
  | .need248 b => fitsIdx b
  | .vlcDecSeg => true
  | .vlcEncSeg => true
  | .decodeSeg => true
  | .encodeSeg => true

end Sys2Proof
end

