-- ==== Sys2Proof/Decode.lean ====
section
/-! DEFINITION. The decoder of command words, total on any bytes, and after it the encoder (30_encoding.md R100, R101, R105). -/

namespace Sys2Proof

/-- Why bytes are no command. -/
inductive DecodeError where
  /-- Fewer than the four bytes of a command word (30_encoding.md R107: every command is one 32-bit word). -/
  | truncated
  /-- OP is one of the 229 reserved values (30_encoding.md R106). The engine fails such a command with ILLEGAL_OP. -/
  | reservedOp (op : Byte)
  deriving DecidableEq, Repr

/-- OP, bits [7:0] of the command word (30_encoding.md R100). -/
def opField (w : Word) : Byte := w.extractLsb' 0 8

/-- IDX, bits [12:8], zero-extended and unscaled (30_encoding.md R100, R101). -/
def idxField (w : Word) : Nat := (w.extractLsb' 8 5).toNat

/-- IMM, bits [31:16], zero-extended (30_encoding.md R100, R101). -/
def immField (w : Word) : Nat := (w.extractLsb' 16 16).toNat

/-- The decoder: OP alone selects the command (30_encoding.md R104, R105), and its format the fields it takes (R101). -/
def decodeWord (w : Word) : Except DecodeError Instr :=
  match (opField w).toNat with
  | 0x00 => .ok .nop
  | 0x01 => .ok .segClear
  | 0x08 => .ok (.brPeek (immField w))
  | 0x09 => .ok (.brSkip (immField w))
  | 0x0A => .ok (.bwPut (immField w))
  | 0x10 => .ok (.vlcDecSym (immField w))
  | 0x11 => .ok .vlcEncSym
  | 0x12 => .ok .vlcBits
  | 0x13 => .ok (.vlcBlkBits (idxField w))
  | 0x18 => .ok (.zzToScan (idxField w))
  | 0x19 => .ok (.zzToNat (idxField w))
  | 0x1A => .ok .place411
  | 0x1B => .ok .place420
  | 0x1C => .ok (.placeMb (idxField w))
  | 0x20 => .ok (.weightFwd (idxField w))
  | 0x21 => .ok (.weightInv (idxField w))
  | 0x22 => .ok (.classify (idxField w))
  | 0x23 => .ok (.qsearch (idxField w))
  | 0x24 => .ok (.quant (idxField w))
  | 0x25 => .ok (.dequant (idxField w))
  | 0x28 => .ok (.fdct (idxField w))
  | 0x29 => .ok (.idct (idxField w))
  | 0x2A => .ok (.need248 (idxField w))
  | 0x30 => .ok .vlcDecSeg
  | 0x31 => .ok .vlcEncSeg
  | 0x38 => .ok .decodeSeg
  | 0x39 => .ok .encodeSeg
  | _ => .error (.reservedOp (opField w))

/-- The command word of four bytes in host order, the byte at the lowest address first (20_memory.md R73). -/
def wordOfBytes (b0 b1 b2 b3 : Byte) : Word := b3 ++ b2 ++ b1 ++ b0

/-- The decoder on bytes: one command and the bytes after it. -/
def decodeBytes : List Byte → Except DecodeError (Instr × List Byte)
  | b0 :: b1 :: b2 :: b3 :: rest =>
    match decodeWord (wordOfBytes b0 b1 b2 b3) with
    | .ok i => .ok (i, rest)
    | .error e => .error e
  | _ => .error .truncated

/-- The command word `{IMM, 0b000, IDX, OP}` (30_encoding.md R108). -/
def assemble (op : Byte) (idx imm : Nat) : Word :=
  BitVec.ofNat 16 imm ++ (0#3 ++ (BitVec.ofNat 5 idx ++ op))

/-- The opcode of each command (30_encoding.md R105). -/
def Instr.op : Instr → Byte
  | .nop => 0x00
  | .segClear => 0x01
  | .brPeek _ => 0x08
  | .brSkip _ => 0x09
  | .bwPut _ => 0x0A
  | .vlcDecSym _ => 0x10
  | .vlcEncSym => 0x11
  | .vlcBits => 0x12
  | .vlcBlkBits _ => 0x13
  | .zzToScan _ => 0x18
  | .zzToNat _ => 0x19
  | .place411 => 0x1A
  | .place420 => 0x1B
  | .placeMb _ => 0x1C
  | .weightFwd _ => 0x20
  | .weightInv _ => 0x21
  | .classify _ => 0x22
  | .qsearch _ => 0x23
  | .quant _ => 0x24
  | .dequant _ => 0x25
  | .fdct _ => 0x28
  | .idct _ => 0x29
  | .need248 _ => 0x2A
  | .vlcDecSeg => 0x30
  | .vlcEncSeg => 0x31
  | .decodeSeg => 0x38
  | .encodeSeg => 0x39

/-- The encoder: the word of a well-formed command, ignored fields 0 (30_encoding.md R101, R108). -/
def encode (i : Instr) : Word :=
  match i with
  | .nop => assemble i.op 0 0
  | .segClear => assemble i.op 0 0
  | .brPeek n => assemble i.op 0 n
  | .brSkip n => assemble i.op 0 n
  | .bwPut n => assemble i.op 0 n
  | .vlcDecSym n => assemble i.op 0 n
  | .vlcEncSym => assemble i.op 0 0
  | .vlcBits => assemble i.op 0 0
  | .vlcBlkBits b => assemble i.op b 0
  | .zzToScan b => assemble i.op b 0
  | .zzToNat b => assemble i.op b 0
  | .place411 => assemble i.op 0 0
  | .place420 => assemble i.op 0 0
  | .placeMb m => assemble i.op m 0
  | .weightFwd b => assemble i.op b 0
  | .weightInv b => assemble i.op b 0
  | .classify b => assemble i.op b 0
  | .qsearch m => assemble i.op m 0
  | .quant b => assemble i.op b 0
  | .dequant b => assemble i.op b 0
  | .fdct b => assemble i.op b 0
  | .idct b => assemble i.op b 0
  | .need248 b => assemble i.op b 0
  | .vlcDecSeg => assemble i.op 0 0
  | .vlcEncSeg => assemble i.op 0 0
  | .decodeSeg => assemble i.op 0 0
  | .encodeSeg => assemble i.op 0 0

/-- The low `nbits` bits of `w` as a command word, bits above them 0: the word the opcode table numbers. -/
def tableWord (nbits w : Nat) : Word := BitVec.ofNat 32 (w % 2 ^ nbits)

/-- The command the decoder reads from a word of the opcode table, laid out as the host bus lays it out (20_memory.md R73). -/
def decodeTableWord (nbits w : Nat) : Option Instr :=
  let v := tableWord nbits w
  match decodeBytes [v.extractLsb' 0 8, v.extractLsb' 8 8, v.extractLsb' 16 8, v.extractLsb' 24 8] with
  | .ok (i, _) => some i
  | .error _ => none

end Sys2Proof
end

