-- ==== Sys2Proof/Machine/Arith.lean ====
section
/-! DEFINITION. The exact arithmetic of the pseudocode and its narrowing functions (00_scope.md R10, R11), and bit strings read
and written as numbers (R9). -/

namespace Sys2Proof.Machine

open Sys2Proof

/-- `wrap16(v) = sext_16(v)`: the low 16 bits as two's complement (00_scope.md R10). -/
def wrap16 (v : Int) : Int := (BitVec.ofInt 16 v).toInt

/-- `sat(lo, hi, v) = min(hi, max(lo, v))` (00_scope.md R10). -/
def sat (lo hi v : Int) : Int := min hi (max lo v)

/-- `sat16(v) = sat(-32768, 32767, v)` (00_scope.md R10). -/
def sat16 (v : Int) : Int := sat (-32768) 32767 v

/-- `R(a, n)`: a / 2^n to the nearest integer, ties away from zero (00_scope.md R11). -/
def roundShift (a : Int) (n : Nat) : Int :=
  if n = 0 then a
  else if 0 ≤ a then (a + (2 ^ (n - 1) : Nat)) >>> n
  else -((-a + (2 ^ (n - 1) : Nat)) >>> n)

/-- A bit string as an unsigned number, first bit most significant (00_scope.md R9, R12). -/
def natOfBits (s : Bits) : Nat := s.foldl (fun acc b => 2 * acc + b.toNat) 0

/-- The low `n` bits of `v` as a bit string, most significant first (00_scope.md R9). -/
def bitsOfNat (n v : Nat) : Bits := (List.range n).map fun i => v.testBit (n - 1 - i)

/-- The sum of `f 0`, …, `f (n - 1)`. -/
def sumTo (n : Nat) (f : Nat → Int) : Int := (List.range n).foldl (fun acc i => acc + f i) 0

/-- The largest of `f 0`, …, `f (n - 1)`, at least 0. -/
def maxTo (n : Nat) (f : Nat → Nat) : Nat := (List.range n).foldl (fun acc i => max acc (f i)) 0

end Sys2Proof.Machine
end

