-- ==== Sys2Proof/Config.lean ====
section
/-! DEFINITION. What an implementation of DVCORE fixes (00_scope.md R8) and the model's free values. The constants with no body
are opaque: nothing in Lean can evaluate them, so a theorem holds whatever they are. -/

namespace Sys2Proof

/-- P_THR248_RESET, the open reset value of THR248 (00_scope.md R8, 93 U2). DESIGN CHOICE of the form (log 2); safe. -/
opaque Config.thr248Reset : Word

/-- The free values: the arbitrary word drawn at draw number `draw` for the location at host byte address `addr`. It serves
reads of unspecified registers while BUSY (20_memory.md R80, 93 U4), the locations of an aborted command (70 R383, 93 U5) and
the RAM after a hardware reset (70 R381, 93 U1). DESIGN CHOICE of the form (log 5, 7, 8); safe. -/
opaque Config.freeWord (draw addr : Nat) : Word

/-- What a byte of SEG or COEF that nothing has written since power-on reads as: the model's value of P_RAM_INIT.
DESIGN CHOICE (log 1); unsafe: the spec leaves it open (93 U1). -/
def Config.unwritten : Byte := 0x00

end Sys2Proof
end

