-- ==== Sys2Proof/Machine/State.lean ====
section
/-! DEFINITION. The state of DVCORE as plain data (10_state.md), the reasons a step can stop (none of the spec's), and the state
after power-on reset (70_reset_and_hazards.md R381). INVENTORY.md lists each field with its rule and reset value. -/

namespace Sys2Proof.Machine

open Sys2Proof

/-- The two phases of the machine (10_state.md R20). -/
inductive Phase where
  | idle
  | busy
  deriving DecidableEq, Repr, Inhabited

/-- The error codes 1 to 5 of a failed command (60_exceptions.md R340). -/
inductive ErrCode where
  | illegalOp
  | badIndex
  | badArg
  | bitRange
  | ampRange
  deriving DecidableEq, Repr, Inhabited

/-- CTRL's stored fields (10_state.md R23). The reserved bits and SRST read 0 and have no storage. -/
structure Ctrl where
  sys : Bool
  sampling : Bool
  passes : BitVec 2
  auto248 : Bool
  autoq : Bool
  irqEn : Bool
  deriving DecidableEq, Repr, Inhabited

/-- STATUS's stored fields (10_state.md R26). BUSY is the phase and is not stored twice (log 4). -/
structure Status where
  done : Bool
  err : Bool
  errcode : BitVec 4
  reject : Bool
  buserr : Bool
  trunc : Bool
  vlcerr : Bool
  qover : Bool
  deriving DecidableEq, Repr, Inhabited

/-- The control and status registers that hold a value (10_state.md R21). ID and the reserved offsets are constants. -/
structure Csr where
  ctrl : Ctrl
  /-- CMD's read value; while BUSY also the captured command word (10_state.md R25, log 4). -/
  cmd : Word
  status : Status
  arg0 : Word
  res0 : Word
  res1 : Word
  res2 : Word
  bitpos : BitVec 12
  thr248 : Word
  /-- T1 [7:0], T2 [15:8], T3 [23:16] for luma blocks (10_state.md R32). -/
  clsthrY : BitVec 24
  /-- The same for chroma blocks (10_state.md R32). -/
  clsthrC : BitVec 24
  ovfCount : Word
  errcmd : Word
  deriving DecidableEq, Repr, Inhabited

/-- One block's metadata BLK[b] (10_state.md R36, R37). -/
structure BlkMeta where
  dctMode : Bool
  cls : BitVec 2
  fin : Bool
  eob : Bool
  mark : Bool
  overBudget : Bool
  pos : BitVec 7
  offset : BitVec 12
  endPos : BitVec 12
  deriving DecidableEq, Repr, Inhabited

/-- One macroblock's metadata MB[m] (10_state.md R39 to R41). -/
structure MbMeta where
  qno : BitVec 4
  sta : BitVec 4
  vlcError : BitVec 8
  eobCount : BitVec 3
  k : BitVec 5
  j : BitVec 3
  i : BitVec 4
  x : BitVec 10
  y : BitVec 10
  deriving DecidableEq, Repr, Inhabited

/-- The bytes of SEG and COEF at their host byte addresses (20_memory.md R72): addresses strictly rising, no entry equal to
what an unlisted address reads as (`Memory.wf`). -/
abbrev Memory := List Host.Cell

/-- The width of a host access (20_memory.md R70). -/
inductive Width where
  | byte
  | half
  | word
  deriving DecidableEq, Repr, Inhabited

/-- One access of the host port (20_memory.md R70). A write narrower than a word takes the low bits of `v` (R73). -/
inductive Access where
  | read (addr : BitVec 16) (width : Width)
  | write (addr : BitVec 16) (width : Width) (v : Word)
  deriving DecidableEq, Repr, Inhabited

/-- What the outside world does in one slot: nothing, an access of the host port, the hardware reset input
(70_reset_and_hazards.md R380), or one of the three steps of a driver that depend on the machine (log 17). -/
inductive HostEvent where
  | idle
  | access (a : Access)
  | hardReset
  /-- The host waits for STATUS.BUSY = 0 (47 R324, R325): the slot is taken again while BUSY. -/
  | await
  /-- The host stores the word its last read returned, with the bits of `clear` cleared and those of `set` set (30 R109). -/
  | rewrite (addr : BitVec 16) (clear set : Word)
  /-- The host goes on with the slices of the code that its last three reads, RES0, RES1 and RES2, returned (30 R109). -/
  | putCode
  deriving DecidableEq, Repr, Inhabited

/-- The outside of the machine as data (logs 3, 9, 10, 11). -/
structure Port where
  /-- The slots to come, oldest first. -/
  host : List HostEvent
  /-- The accesses stalled while BUSY, oldest first (20_memory.md R79). -/
  stalled : List Access
  /-- The words the completed reads returned, newest first. -/
  replies : List Word
  /-- The durations P_LATENCY of the commands to come (00_scope.md R8, 70 R395); where the list ends a command takes 1. -/
  latency : List Nat
  deriving DecidableEq, Repr, Inhabited

/-- The state of DVCORE. -/
structure State where
  /-- IDLE or BUSY (10_state.md R20). -/
  phase : Phase
  /-- Host-port slots before the command in flight executes: what is left of P_LATENCY (70 R395, log 3). -/
  wait : Nat
  csr : Csr
  /-- BLK[0..29] (10_state.md R36). -/
  blk : Vector BlkMeta 30
  /-- MB[0..4] (10_state.md R39). -/
  mb : Vector MbMeta 5
  /-- SEG and COEF (10_state.md R43, R44). -/
  mem : Memory
  port : Port
  /-- The next draw of a free value (log 5). -/
  fresh : Nat
  deriving DecidableEq, Repr

/-- Nothing in DVCORE stops the machine: every host access and every command, failed or not, leads to a next state
(20_memory.md R76, 60_exceptions.md R343 to R346). So there is no fault; nobody raises one, and that is safe. -/
inductive Fault
  deriving DecidableEq, Repr

/-- Why the model would give an instruction no meaning. -/
inductive Refusal where
  /-- An arm of exec whose instruction has no meaning yet; raised by no arm now. Safe: the model stops. -/
  | notModelled (mnemonic : String)
  deriving DecidableEq, Repr

/-- CTRL after any reset: 0x0000002C (10_state.md R23). -/
def Ctrl.reset : Ctrl :=
  { sys := false, sampling := false, passes := 3, auto248 := false, autoq := true, irqEn := false }

/-- STATUS after any reset: 0 (10_state.md R26). -/
def Status.reset : Status :=
  { done := false, err := false, errcode := 0, reject := false, buserr := false, trunc := false, vlcerr := false, qover := false }

/-- Every CSR at its reset value (70_reset_and_hazards.md R381). -/
def Csr.reset : Csr :=
  { ctrl := .reset, cmd := 0, status := .reset, arg0 := 0, res0 := 0, res1 := 0, res2 := 0, bitpos := 0,
    thr248 := Config.thr248Reset, clsthrY := 0x23170B, clsthrC := 0x23170B, ovfCount := 0, errcmd := 0 }

/-- Power-on reset with P_RAM_INIT as its argument (70_reset_and_hazards.md R381, 93 U1). -/
def State.powerOn (mem : Memory) (blk : Vector BlkMeta 30) (mb : Vector MbMeta 5) : State :=
  { phase := .idle, wait := 0, csr := .reset, blk, mb, mem,
    port := { host := [], stalled := [], replies := [], latency := [] }, fresh := 0 }

/-- BLK[b] with every bit 0: the model's P_RAM_INIT. DESIGN CHOICE (log 1). -/
def BlkMeta.unwritten : BlkMeta :=
  { dctMode := false, cls := 0, fin := false, eob := false, mark := false, overBudget := false, pos := 0, offset := 0, endPos := 0 }

/-- MB[m] with every bit 0: the model's P_RAM_INIT. DESIGN CHOICE (log 1). -/
def MbMeta.unwritten : MbMeta :=
  { qno := 0, sta := 0, vlcError := 0, eobCount := 0, k := 0, j := 0, i := 0, x := 0, y := 0 }

/-- The machine right after power-on reset, P_RAM_INIT at the model's named values (70 R381, log 1). -/
def State.reset : State :=
  .powerOn [] (.replicate 30 .unwritten) (.replicate 5 .unwritten)

end Sys2Proof.Machine
end

