-- ==== Sys2Proof/Machine/Ops.lean ====
section
/-! DEFINITION. The named operations over memory, metadata and registers, and the completion of a command: success, or the
failure DVCORE takes in place of an exception (60_exceptions.md R343 to R345). -/

namespace Sys2Proof.Machine

open Sys2Proof

/-! ### The byte memory -/

/-- The canonical form: addresses strictly rising, and no entry equal to what an unlisted address reads as. -/
abbrev Memory.wf (m : Memory) : Prop :=
  m.Pairwise (fun c d => c.1 < d.1) ∧ ∀ c ∈ m, c.2 ≠ Config.unwritten

/-- `byte(a)`: the byte of the memory at address `a` (20_memory.md R73). -/
def Memory.byte : Memory → Nat → Byte
  | [], _ => Config.unwritten
  | (x, v) :: m, a => if x = a then v else Memory.byte m a

/-- The cells of the bytes `bs` laid out from address `a`, without those that read as unwritten. -/
def Memory.cells : Nat → List Byte → Memory
  | _, [] => []
  | a, b :: bs => if b = Config.unwritten then Memory.cells (a + 1) bs else (a, b) :: Memory.cells (a + 1) bs

/-- The memory with the bytes `bs` stored from address `a` on. Every write of any width is this one operation
(20_memory.md R73). -/
def Memory.store (m : Memory) (a : Nat) (bs : List Byte) : Memory :=
  m.filter (fun c => decide (c.1 < a)) ++
    (Memory.cells a bs ++ m.filter (fun c => decide (a + bs.length ≤ c.1)))

/-- The part of the memory at addresses `a` to `a + n - 1`. -/
def Memory.window (m : Memory) (a n : Nat) : Memory :=
  m.filter fun c => decide (a ≤ c.1) && decide (c.1 < a + n)

/-- The halfword at `a`, little-endian (20_memory.md R73). -/
def Memory.half (m : Memory) (a : Nat) : Half := m.byte (a + 1) ++ m.byte a

/-- `MemRead(a, 4)`, little-endian (20_memory.md R73). -/
def Memory.word (m : Memory) (a : Nat) : Word :=
  m.byte (a + 3) ++ (m.byte (a + 2) ++ (m.byte (a + 1) ++ m.byte a))

/-- The bytes of a halfword, lowest address first (20_memory.md R73). -/
def halfBytes (h : Half) : List Byte := [h.extractLsb' 0 8, h.extractLsb' 8 8]

/-- The bytes of a word, lowest address first (20_memory.md R73). -/
def wordBytes (w : Word) : List Byte :=
  [w.extractLsb' 0 8, w.extractLsb' 8 8, w.extractLsb' 16 8, w.extractLsb' 24 8]

/-! ### SEG, the segment buffer -/

/-- The host byte address of SEG[0] (10_state.md R43). -/
def segBase : Nat := 0x0400

/-- SEG[a] (10_state.md R43). -/
def segByte (m : Memory) (a : Nat) : Byte := m.byte (segBase + a)

/-- `SegBit(p)`: bit (7 - p mod 8) of SEG[p div 8] (00_scope.md R12). -/
def segBit (m : Memory) (p : Nat) : Bool := (segByte m (p / 8)).getLsbD (7 - p % 8)

/-- `SegBits(p, q)`, empty when q ≤ p (00_scope.md R12). -/
def segBits (m : Memory) (p q : Nat) : Bits := (List.range' p (q - p)).map (segBit m)

/-- `SegPeek(p, n)`: n bits from p on, the first the most significant (00_scope.md R12). -/
def segPeek (m : Memory) (p n : Nat) : Nat := natOfBits (segBits m p (p + n))

/-- `SegBit(p) <- SegBit(p) | x` (00_scope.md R12). -/
def segOrBit (m : Memory) (p : Nat) (x : Bool) : Memory :=
  if x then m.store (segBase + p / 8) [segByte m (p / 8) ||| (1#8 <<< (7 - p % 8))] else m

/-- `SegOr(p, n, v)`: SegBit(p+i) <- SegBit(p+i) | v[n-1-i] for i = 0..n-1 (00_scope.md R12). -/
def segOr (m : Memory) (p n : Nat) (v : Word) : Memory :=
  (List.range n).foldl (fun m i => segOrBit m (p + i) (v.getLsbD (n - 1 - i))) m

/-! ### COEF, the coefficient RAM -/

/-- The host byte address of COEF[b][n] (10_state.md R44). -/
def coefAddr (b n : Nat) : Nat := 0x1000 + 128 * b + 2 * n

/-- COEF[b][n], two's complement (10_state.md R44). -/
def coef (m : Memory) (b n : Nat) : Int := (m.half (coefAddr b n)).toInt

/-- COEF[b]: the 64 coefficients in natural order (00_scope.md R13). -/
def coefBlock (m : Memory) (b : Nat) : List Int :=
  let w := m.window (coefAddr b 0) 128
  (List.range 64).map (coef w b)

/-- COEF[b] <- c, each value as its low 16 bits (00_scope.md R10: the callers narrow first). -/
def storeCoefs (m : Memory) (b : Nat) (c : List Int) : Memory :=
  m.store (coefAddr b 0) (c.flatMap fun v => halfBytes (BitVec.ofInt 16 v))

/-- Entry `n` of a block or table. -/
def at0 (c : List Int) (n : Nat) : Int := c.getD n 0

/-- The block whose entry `n` is `f n` (00_scope.md R13). -/
def mkBlock (f : Nat → Int) : List Int := (List.range 64).map f

/-! ### Metadata. An index outside 0..29 or 0..4 is never used: every command checks it first (log 12). -/

/-- BLK[b] (10_state.md R36). -/
def State.blkAt (s : State) (b : Nat) : BlkMeta := s.blk.getD b .unwritten

/-- MB[m] (10_state.md R39). -/
def State.mbAt (s : State) (m : Nat) : MbMeta := s.mb.getD m .unwritten

/-- BLK[b] <- x. -/
def State.setBlk (s : State) (b : Nat) (x : BlkMeta) : State := { s with blk := s.blk.setIfInBounds b x }

/-- MB[m] <- x. -/
def State.setMb (s : State) (m : Nat) (x : MbMeta) : State := { s with mb := s.mb.setIfInBounds m x }

/-! ### Registers and RAM -/

def State.setMem (s : State) (m : Memory) : State := { s with mem := m }
def State.setRes0 (s : State) (v : Word) : State := { s with csr := { s.csr with res0 := v } }
def State.setRes1 (s : State) (v : Word) : State := { s with csr := { s.csr with res1 := v } }
def State.setRes2 (s : State) (v : Word) : State := { s with csr := { s.csr with res2 := v } }
def State.setBitpos (s : State) (v : BitVec 12) : State := { s with csr := { s.csr with bitpos := v } }
def State.setStatus (s : State) (v : Status) : State := { s with csr := { s.csr with status := v } }
def State.setOvfCount (s : State) (v : Word) : State := { s with csr := { s.csr with ovfCount := v } }

/-- The host's list becomes `l`. -/
def State.setHost (s : State) (l : List HostEvent) : State := { s with port := { s.port with host := l } }

/-- COEF[b] (00_scope.md R13). -/
def State.coefs (s : State) (b : Nat) : List Int := coefBlock s.mem b

/-- COEF[b] <- c. -/
def State.setCoefs (s : State) (b : Nat) (c : List Int) : State := s.setMem (storeCoefs s.mem b c)

/-! ### Completion and failure -/

/-- The number of an error code (60_exceptions.md R340). -/
def ErrCode.number : ErrCode → BitVec 4
  | .illegalOp => 1
  | .badIndex => 2
  | .badArg => 3
  | .bitRange => 4
  | .ampRange => 5

/-- `Complete(v, 0)`: the end of a command that succeeded (60_exceptions.md R344). -/
def complete (s : State) : State :=
  { s with phase := .idle, wait := 0, csr := { s.csr with status := { s.csr.status with done := true, errcode := 0 } } }

/-- `Complete(v, code)` with code ≠ 0, DVCORE's whole exception entry: no trap, no saved pc, no vector; ERRCODE, ERR and ERRCMD
are recorded and DONE is set (60_exceptions.md R344, R345). There is no return from it (R346): the host clears DONE and ERR by
writing STATUS (10_state.md R27). The failing command's word is CMD's value (log 4). -/
def fail (e : ErrCode) (s : State) : State :=
  { s with phase := .idle, wait := 0, csr := { s.csr with
      errcmd := s.csr.cmd
      status := { s.csr.status with done := true, err := true, errcode := e.number } } }

/-- A command that runs atomically and precisely: its pseudocode runs on a copy of the state; what it wrote is kept when it
succeeds and discarded when it raises an error (60_exceptions.md R343). -/
def runCommand (body : State → Except ErrCode State) (s : State) : Host.Outcome State Fault Refusal :=
  match body s with
  | .ok t => .next (complete t)
  | .error e => .next (fail e s)

/-- `raise Error(e)` when the check fails (60_exceptions.md R341, R342). -/
def require (ok : Bool) (e : ErrCode) (then_ : Except ErrCode State) : Except ErrCode State :=
  if ok then then_ else .error e

end Sys2Proof.Machine
end

