-- ==== Sys2Proof/Machine/Flags.lean ====
section
/-! DEFINITION. STATUS and the other field registers as the words the host reads, the interrupt line, the report bits the
commands set (10_state.md R23, R26, R36 to R41; 60_exceptions.md R347, R350) and the layouts of the result registers
(30_encoding.md R103). -/

namespace Sys2Proof.Machine

open Sys2Proof

/-- One bit of a word. -/
def bit (b : Bool) : BitVec 1 := BitVec.ofBool b

/-- CTRL as read: [0] SYS, [1] SAMPLING, [3:2] PASSES, [4] AUTO248, [5] AUTOQ, [8] IRQ_EN (10_state.md R23). -/
def Ctrl.toWord (c : Ctrl) : Word :=
  0#23 ++ (bit c.irqEn ++ (0#2 ++ (bit c.autoq ++ (bit c.auto248 ++ (c.passes ++ (bit c.sampling ++ bit c.sys))))))

/-- CTRL's fields from a written word; PASSES 0 stores 3 (10_state.md R24). -/
def Ctrl.ofWord (v : Word) : Ctrl :=
  { sys := v.getLsbD 0
    sampling := v.getLsbD 1
    passes := if v.extractLsb' 2 2 = 0 then 3 else v.extractLsb' 2 2
    auto248 := v.getLsbD 4
    autoq := v.getLsbD 5
    irqEn := v.getLsbD 8 }

/-- STATUS as read; BUSY is the phase (10_state.md R26). -/
def State.statusWord (s : State) : Word :=
  let t := s.csr.status
  0#19 ++ (bit t.qover ++ (bit t.vlcerr ++ (bit t.trunc ++ (bit t.buserr ++ (bit t.reject ++
    (t.errcode ++ (0#1 ++ (bit t.err ++ (bit t.done ++ bit (decide (s.phase = .busy)))))))))))

/-- STATUS after a host write of `v`: each W1C bit written 1 is cleared (10_state.md R27). -/
def Status.clear (t : Status) (v : Word) : Status :=
  { t with
    done := t.done && !v.getLsbD 1
    err := t.err && !v.getLsbD 2
    reject := t.reject && !v.getLsbD 8
    buserr := t.buserr && !v.getLsbD 9
    trunc := t.trunc && !v.getLsbD 10
    vlcerr := t.vlcerr && !v.getLsbD 11
    qover := t.qover && !v.getLsbD 12 }

/-- `IRQ = CTRL.IRQ_EN & (STATUS.DONE | STATUS.ERR)` (60_exceptions.md R350). -/
def State.irq (s : State) : Bool := s.csr.ctrl.irqEn && (s.csr.status.done || s.csr.status.err)

/-- STATUS.REJECT <- 1: a refused CSR write (60_exceptions.md R348). -/
def State.markReject (s : State) : State := s.setStatus { s.csr.status with reject := true }

/-- STATUS.BUSERR <- 1: an illegal access (20_memory.md R76). -/
def State.markBuserr (s : State) : State := s.setStatus { s.csr.status with buserr := true }

/-- STATUS.TRUNC <- 1 when the condition holds (46_segment.md R298). -/
def State.markTrunc (s : State) (c : Bool) : State :=
  s.setStatus { s.csr.status with trunc := s.csr.status.trunc || c }

/-- STATUS.VLCERR <- 1 when the condition holds (46_segment.md R290). -/
def State.markVlcerr (s : State) (c : Bool) : State :=
  s.setStatus { s.csr.status with vlcerr := s.csr.status.vlcerr || c }

/-- STATUS.QOVER <- 1 when the condition holds (44_quant.md R231). -/
def State.markQover (s : State) (c : Bool) : State :=
  s.setStatus { s.csr.status with qover := s.csr.status.qover || c }

/-- BLK[b] word 0 as read (10_state.md R36). -/
def BlkMeta.word0 (x : BlkMeta) : Word :=
  0#17 ++ (x.pos ++ (bit x.overBudget ++ (bit x.mark ++ (bit x.eob ++ (bit x.fin ++ (0#1 ++ (x.cls ++ bit x.dctMode)))))))

/-- BLK[b] word 1 as read (10_state.md R37). -/
def BlkMeta.word1 (x : BlkMeta) : Word := 0#4 ++ (x.endPos ++ (0#4 ++ x.offset))

/-- BLK[b] after a host write of word 0: only DCT_MODE and CLASS change (10_state.md R38). -/
def BlkMeta.writeWord0 (x : BlkMeta) (v : Word) : BlkMeta :=
  { x with dctMode := v.getLsbD 0, cls := v.extractLsb' 1 2 }

/-- MB[m] word 0 as read (10_state.md R39). -/
def MbMeta.word0 (x : MbMeta) : Word := 0#13 ++ (x.eobCount ++ (x.vlcError ++ (x.sta ++ x.qno)))

/-- MB[m] word 1 as read (10_state.md R40). -/
def MbMeta.word1 (x : MbMeta) : Word := 0#20 ++ (x.i ++ (x.j ++ x.k))

/-- Two positions as `{y[9:0] at [25:16], x[9:0] at [9:0]}` (43 R195, 10_state.md R41). -/
def xyWord (x y : BitVec 10) : Word := 0#6 ++ (y ++ (0#6 ++ x))

/-- MB[m] word 2 as read (10_state.md R41). -/
def MbMeta.word2 (x : MbMeta) : Word := xyWord x.x x.y

/-- MB[m] after a host write of word 0: only QNO and STA change (10_state.md R42). -/
def MbMeta.writeWord0 (x : MbMeta) (v : Word) : MbMeta :=
  { x with qno := v.extractLsb' 0 4, sta := v.extractLsb' 4 4 }

/-- MB[m] after a host write of word 1: K, J and I (10_state.md R40). -/
def MbMeta.writeWord1 (x : MbMeta) (v : Word) : MbMeta :=
  { x with k := v.extractLsb' 0 5, j := v.extractLsb' 5 3, i := v.extractLsb' 8 4 }

/-- RES0 of VLC_DEC_SYM: KIND [25:24], LEN [20:16], SIGN [15], RUN [13:8], AMP [7:0] (30_encoding.md R103, 42_vlc.md R160). -/
def symWord (kind : BitVec 2) (len run amp : Nat) (sign : Bool) : Word :=
  0#6 ++ (kind ++ (0#3 ++ (BitVec.ofNat 5 len ++ (bit sign ++ (0#1 ++ (BitVec.ofNat 6 run ++ BitVec.ofNat 8 amp))))))

/-- `zext_32` of a number (00_scope.md R10). -/
def word32 (n : Nat) : Word := BitVec.ofNat 32 n

end Sys2Proof.Machine
end

