-- ==== Sys2Proof/Machine/Operands.lean ====
section
/-! DEFINITION. The operand forms of the commands: the checks of the index and count fields (60_exceptions.md R341) and the
layouts of ARG0 (30_encoding.md R102). -/

namespace Sys2Proof.Machine

open Sys2Proof

/-- Format B: IDX is a block index 0..29, else BAD_INDEX (60_exceptions.md R341). -/
def withBlock (b : Nat) (body : Except ErrCode State) : Except ErrCode State :=
  require (decide (b ≤ 29)) .badIndex body

/-- Format M: IDX is a macroblock index 0..4, else BAD_INDEX (60_exceptions.md R341). -/
def withMb (m : Nat) (body : Except ErrCode State) : Except ErrCode State :=
  require (decide (m ≤ 4)) .badIndex body

/-- AMP, ARG0[7:0] (30_encoding.md R102). -/
def argAmp (a : Word) : Nat := (a.extractLsb' 0 8).toNat

/-- RUN, ARG0[13:8] (30_encoding.md R102). -/
def argRun (a : Word) : Nat := (a.extractLsb' 8 6).toNat

/-- SIGN, ARG0[16] (30_encoding.md R102). -/
def argSign (a : Word) : Bool := a.getLsbD 16

/-- K, ARG0[4:0] of PLACE411 and PLACE420 (30_encoding.md R102). -/
def argK (a : Word) : Nat := (a.extractLsb' 0 5).toNat

/-- J, ARG0[10:8] of PLACE411 and PLACE420 (30_encoding.md R102). -/
def argJ (a : Word) : Nat := (a.extractLsb' 8 3).toNat

/-- I, ARG0[19:16] of PLACE411 and PLACE420 (30_encoding.md R102). -/
def argI (a : Word) : Nat := (a.extractLsb' 16 4).toNat

/-- The first `nv` bits of WINDOW = ARG0[15:0]: w[15], w[14], …, w[16-nv] (42_vlc.md R160). -/
def argWindow (a : Word) (nv : Nat) : Bits := (List.range nv).map fun i => a.getLsbD (15 - i)

/-- BITPOS as a position (10_state.md R30). -/
def State.cursor (s : State) : Nat := s.csr.bitpos.toNat

/-- `imax`: the last superblock row of the system (43 R195). -/
def State.imax (s : State) : Nat := if s.csr.ctrl.sys then 11 else 9

/-- T1, T2, T3 of a threshold register (10_state.md R32). -/
def clsThresholds (t : BitVec 24) : Nat × Nat × Nat :=
  ((t.extractLsb' 0 8).toNat, (t.extractLsb' 8 8).toNat, (t.extractLsb' 16 8).toNat)

end Sys2Proof.Machine
end

