-- ==== Sys2Proof/Machine/BitIo.lean ====
section
/-! DEFINITION. The bit reader and writer over SEG: SEG_CLEAR, BR_PEEK, BR_SKIP, BW_PUT (41_bitio.md). -/

namespace Sys2Proof.Machine

open Sys2Proof

/-- The number of bits of SEG (00_scope.md R7). -/
def segLength : Nat := 3200

/-- The count of BR_PEEK and BW_PUT is 1..24, else BAD_ARG (41 R132, R134). -/
def countOk (n : Nat) : Bool := decide (1 ≤ n) && decide (n ≤ 24)

/-- `BITPOS + n ≤ 3200`, else BIT_RANGE (41 R131). -/
def inSegment (s : State) (n : Nat) : Bool := decide (s.cursor + n ≤ segLength)

/-- The pseudocode of SEG_CLEAR (41 R135). -/
def segClear (s : State) : State :=
  (s.setMem (s.mem.store segBase (List.replicate 400 0x00))).setBitpos 0

/-- The pseudocode of BR_PEEK (41 R132). -/
def brPeek (n : Nat) (s : State) : Except ErrCode State :=
  require (countOk n) .badArg <|
  require (inSegment s n) .bitRange <|
  .ok (s.setRes0 (word32 (segPeek s.mem s.cursor n)))

/-- The pseudocode of BR_SKIP (41 R133). -/
def brSkip (n : Nat) (s : State) : Except ErrCode State :=
  require (inSegment s n) .bitRange <|
  .ok (s.setBitpos (BitVec.ofNat 12 (s.cursor + n)))

/-- The pseudocode of BW_PUT (41 R134). -/
def bwPut (n : Nat) (s : State) : Except ErrCode State :=
  require (countOk n) .badArg <|
  require (inSegment s n) .bitRange <|
  .ok (((s.setMem (segOr s.mem s.cursor n s.csr.arg0)).setBitpos (BitVec.ofNat 12 (s.cursor + n))).setRes0
    (word32 (s.cursor + n)))

/-- SEG_CLEAR (41 R135). -/
def execSegClear (s : State) : Host.Outcome State Fault Refusal := runCommand (fun s => .ok (segClear s)) s

/-- BR_PEEK n (41 R132). -/
def execBrPeek (n : Nat) (s : State) : Host.Outcome State Fault Refusal := runCommand (brPeek n) s

/-- BR_SKIP n (41 R133). -/
def execBrSkip (n : Nat) (s : State) : Host.Outcome State Fault Refusal := runCommand (brSkip n) s

/-- BW_PUT n (41 R134). -/
def execBwPut (n : Nat) (s : State) : Host.Outcome State Fault Refusal := runCommand (bwPut n) s

end Sys2Proof.Machine
end

