-- ==== Sys2Proof/Machine/Rom.lean ====
section
/-! DEFINITION. The ROM tables of DVCORE (10_state.md R45), copied from the tables of the rules each names. -/

namespace Sys2Proof.Machine

open Sys2Proof

/-- One code word of VLCTAB: the pair (run, amp) and a code of `len` bits, sign bit excluded (42_vlc.md R150). -/
structure VlcEntry where
  run : Nat
  amp : Nat
  len : Nat
  code : Nat
  deriving DecidableEq, Repr, Inhabited

/-- The code word as a bit string. -/
def VlcEntry.bits (e : VlcEntry) : Bits := bitsOfNat e.len e.code

/-- VLCTAB, entries 1 to 88 in order (42_vlc.md R150). Entry 0, EOB, is `eobCode`. -/
def VLCTAB : List VlcEntry :=
  [⟨0, 1, 2, 0b00⟩, ⟨0, 2, 3, 0b010⟩, ⟨1, 1, 4, 0b0111⟩, ⟨0, 3, 4, 0b1000⟩,
   ⟨0, 4, 4, 0b1001⟩, ⟨2, 1, 5, 0b10100⟩, ⟨1, 2, 5, 0b10101⟩, ⟨0, 5, 5, 0b10110⟩,
   ⟨0, 6, 5, 0b10111⟩, ⟨3, 1, 6, 0b110000⟩, ⟨4, 1, 6, 0b110001⟩, ⟨0, 7, 6, 0b110010⟩,
   ⟨0, 8, 6, 0b110011⟩, ⟨5, 1, 7, 0b1101000⟩, ⟨6, 1, 7, 0b1101001⟩, ⟨2, 2, 7, 0b1101010⟩] ++
  [⟨1, 3, 7, 0b1101011⟩, ⟨1, 4, 7, 0b1101100⟩, ⟨0, 9, 7, 0b1101101⟩, ⟨0, 10, 7, 0b1101110⟩,
   ⟨0, 11, 7, 0b1101111⟩, ⟨7, 1, 8, 0b11100000⟩, ⟨8, 1, 8, 0b11100001⟩, ⟨9, 1, 8, 0b11100010⟩,
   ⟨10, 1, 8, 0b11100011⟩, ⟨3, 2, 8, 0b11100100⟩, ⟨4, 2, 8, 0b11100101⟩, ⟨2, 3, 8, 0b11100110⟩,
   ⟨1, 5, 8, 0b11100111⟩, ⟨1, 6, 8, 0b11101000⟩, ⟨1, 7, 8, 0b11101001⟩, ⟨0, 12, 8, 0b11101010⟩] ++
  [⟨0, 13, 8, 0b11101011⟩, ⟨0, 14, 8, 0b11101100⟩, ⟨0, 15, 8, 0b11101101⟩, ⟨0, 16, 8, 0b11101110⟩,
   ⟨0, 17, 8, 0b11101111⟩, ⟨11, 1, 9, 0b111100000⟩, ⟨12, 1, 9, 0b111100001⟩, ⟨13, 1, 9, 0b111100010⟩,
   ⟨14, 1, 9, 0b111100011⟩, ⟨5, 2, 9, 0b111100100⟩, ⟨6, 2, 9, 0b111100101⟩, ⟨3, 3, 9, 0b111100110⟩,
   ⟨4, 3, 9, 0b111100111⟩, ⟨2, 4, 9, 0b111101000⟩, ⟨2, 5, 9, 0b111101001⟩, ⟨1, 8, 9, 0b111101010⟩] ++
  [⟨0, 18, 9, 0b111101011⟩, ⟨0, 19, 9, 0b111101100⟩, ⟨0, 20, 9, 0b111101101⟩, ⟨0, 21, 9, 0b111101110⟩,
   ⟨0, 22, 9, 0b111101111⟩, ⟨5, 3, 10, 0b1111100000⟩, ⟨3, 4, 10, 0b1111100001⟩, ⟨3, 5, 10, 0b1111100010⟩,
   ⟨2, 6, 10, 0b1111100011⟩, ⟨1, 9, 10, 0b1111100100⟩, ⟨1, 10, 10, 0b1111100101⟩, ⟨1, 11, 10, 0b1111100110⟩,
   ⟨0, 0, 11, 0b11111001110⟩, ⟨1, 0, 11, 0b11111001111⟩, ⟨6, 3, 11, 0b11111010000⟩, ⟨4, 4, 11, 0b11111010001⟩] ++
  [⟨3, 6, 11, 0b11111010010⟩, ⟨1, 12, 11, 0b11111010011⟩, ⟨1, 13, 11, 0b11111010100⟩, ⟨1, 14, 11, 0b11111010101⟩,
   ⟨2, 0, 12, 0b111110101100⟩, ⟨3, 0, 12, 0b111110101101⟩, ⟨4, 0, 12, 0b111110101110⟩, ⟨5, 0, 12, 0b111110101111⟩,
   ⟨7, 2, 12, 0b111110110000⟩, ⟨8, 2, 12, 0b111110110001⟩, ⟨9, 2, 12, 0b111110110010⟩, ⟨10, 2, 12, 0b111110110011⟩,
   ⟨7, 3, 12, 0b111110110100⟩, ⟨8, 3, 12, 0b111110110101⟩, ⟨4, 5, 12, 0b111110110110⟩, ⟨3, 7, 12, 0b111110110111⟩] ++
  [⟨2, 7, 12, 0b111110111000⟩, ⟨2, 8, 12, 0b111110111001⟩, ⟨2, 9, 12, 0b111110111010⟩, ⟨2, 10, 12, 0b111110111011⟩,
   ⟨2, 11, 12, 0b111110111100⟩, ⟨1, 15, 12, 0b111110111101⟩, ⟨1, 16, 12, 0b111110111110⟩, ⟨1, 17, 12, 0b111110111111⟩]

/-- EOB, the code `0110` (42_vlc.md R152). -/
def eobCode : Bits := [false, true, true, false]

/-- The marker `1111110` of the run escape (42_vlc.md R153). -/
def runMarker : Bits := [true, true, true, true, true, true, false]

/-- The marker `1111111` of the amplitude escape (42_vlc.md R153). -/
def ampMarker : Bits := [true, true, true, true, true, true, true]

/-- ZZ88: scan position to natural index of an 88 block (43 R180). -/
def ZZ88 : List Nat :=
  [0, 1, 8, 16, 9, 2, 3, 10, 17, 24, 32, 25, 18, 11, 4, 5,
   12, 19, 26, 33, 40, 48, 41, 34, 27, 20, 13, 6, 7, 14, 21, 28,
   35, 42, 49, 56, 57, 50, 43, 36, 29, 22, 15, 23, 30, 37, 44, 51,
   58, 59, 52, 45, 38, 31, 39, 46, 53, 60, 61, 54, 47, 55, 62, 63]

/-- ZZ248: scan position to natural index of a 248 block (43 R181). -/
def ZZ248 : List Nat :=
  [0, 32, 1, 33, 8, 40, 2, 34, 9, 41, 16, 48, 24, 56, 17, 49,
   10, 42, 3, 35, 4, 36, 11, 43, 18, 50, 25, 57, 26, 58, 19, 51,
   12, 44, 5, 37, 6, 38, 13, 45, 20, 52, 27, 59, 28, 60, 21, 53,
   14, 46, 7, 39, 15, 47, 22, 54, 29, 61, 30, 62, 23, 55, 31, 63]

/-- INVZZ88: natural index to scan position (43 R182). -/
def INVZZ88 : List Nat :=
  [0, 1, 5, 6, 14, 15, 27, 28, 2, 4, 7, 13, 16, 26, 29, 42,
   3, 8, 12, 17, 25, 30, 41, 43, 9, 11, 18, 24, 31, 40, 44, 53,
   10, 19, 23, 32, 39, 45, 52, 54, 20, 22, 33, 38, 46, 51, 55, 60,
   21, 34, 37, 47, 50, 56, 59, 61, 35, 36, 48, 49, 57, 58, 62, 63]

/-- INVZZ248: natural index to scan position (43 R182). -/
def INVZZ248 : List Nat :=
  [0, 2, 6, 18, 20, 34, 36, 50, 4, 8, 16, 22, 32, 38, 48, 52,
   10, 14, 24, 30, 40, 46, 54, 60, 12, 26, 28, 42, 44, 56, 58, 62,
   1, 3, 7, 19, 21, 35, 37, 51, 5, 9, 17, 23, 33, 39, 49, 53,
   11, 15, 25, 31, 41, 47, 55, 61, 13, 27, 29, 43, 45, 57, 59, 63]

/-- WFQ(0): forward weights of an 88 block, Q16 (44_quant.md R212). -/
def WFQ88 : List Int :=
  [16384, 32138, 30274, 29490, 28672, 27867, 25080, 23624,
   32138, 31521, 29692, 28924, 28121, 27331, 24598, 23170,
   30274, 29692, 27969, 27246, 26489, 25746, 23170, 21826,
   29490, 28924, 27246, 26541, 25804, 25080, 22571, 21261] ++
  [28672, 28121, 26489, 25804, 25088, 24384, 21945, 20671,
   27867, 27331, 25746, 25080, 24384, 23699, 21328, 20091,
   25080, 24598, 23170, 22571, 21945, 21328, 19195, 18081,
   23624, 23170, 21826, 21261, 20671, 20091, 18081, 17032]

/-- WFQ(1): forward weights of a 248 block, Q16 (44_quant.md R212). -/
def WFQ248 : List Int :=
  [16384, 32138, 30274, 29490, 28672, 27867, 25080, 23624,
   30274, 29692, 27969, 27246, 26489, 25746, 23170, 21826,
   28672, 28121, 26489, 25804, 25088, 24384, 21945, 20671,
   25080, 24598, 23170, 22571, 21945, 21328, 19195, 18081] ++
  [32768, 32138, 30274, 29490, 28672, 27867, 25080, 23624,
   30274, 29692, 27969, 27246, 26489, 25746, 23170, 21826,
   28672, 28121, 26489, 25804, 25088, 24384, 21945, 20671,
   25080, 24598, 23170, 22571, 21945, 21328, 19195, 18081]

/-- WIQ(0): inverse weights of an 88 block, Q16 (44_quant.md R212). -/
def WIQ88 : List Int :=
  [262144, 133641, 141870, 145641, 149797, 154124, 171251, 181805,
   133641, 136257, 144651, 148491, 152732, 157146, 174606, 185368,
   141870, 144651, 153562, 157637, 162142, 166821, 185368, 196782,
   145641, 148491, 157637, 161824, 166446, 171251, 190287, 202012] ++
  [149797, 152732, 162142, 166446, 171196, 176139, 195715, 207777,
   154124, 157146, 166821, 171251, 176139, 181230, 201377, 213776,
   171251, 174606, 185368, 190287, 195715, 201377, 223754, 237540,
   181805, 185368, 196782, 202012, 207777, 213776, 237540, 252170]

/-- WIQ(1): inverse weights of a 248 block, Q16 (44_quant.md R212). -/
def WIQ248 : List Int :=
  [262144, 133641, 141870, 145641, 149797, 154124, 171251, 181805,
   141870, 144651, 153562, 157637, 162142, 166821, 185368, 196782,
   149797, 152732, 162142, 166446, 171196, 176139, 195715, 207777,
   171251, 174606, 185368, 190287, 195715, 201377, 223754, 237540] ++
  [131072, 133641, 141870, 145641, 149797, 154124, 171251, 181805,
   141870, 144651, 153562, 157637, 162142, 166821, 185368, 196782,
   149797, 152732, 162142, 166446, 171196, 176139, 195715, 207777,
   171251, 174606, 185368, 190287, 195715, 201377, 223754, 237540]

/-- AREA(0): natural index to quantisation band of an 88 block (44_quant.md R216). -/
def AREA88 : List Nat :=
  [0, 0, 0, 1, 1, 1, 2, 2, 0, 0, 1, 1, 1, 2, 2, 2,
   0, 1, 1, 1, 2, 2, 2, 3, 1, 1, 1, 2, 2, 2, 3, 3,
   1, 1, 2, 2, 2, 3, 3, 3, 1, 2, 2, 2, 3, 3, 3, 3,
   2, 2, 2, 3, 3, 3, 3, 3, 2, 2, 3, 3, 3, 3, 3, 3]

/-- AREA(1): natural index to quantisation band of a 248 block (44_quant.md R216). -/
def AREA248 : List Nat :=
  [0, 0, 1, 1, 1, 2, 2, 3, 0, 1, 1, 2, 2, 2, 3, 3,
   1, 1, 2, 2, 2, 3, 3, 3, 1, 2, 2, 2, 3, 3, 3, 3,
   0, 0, 1, 1, 2, 2, 2, 3, 0, 1, 1, 2, 2, 2, 3, 3,
   1, 1, 2, 2, 2, 3, 3, 3, 1, 2, 2, 3, 3, 3, 3, 3]

/-- QSHIFT: shift by (qno + QOFF[class], band) (44_quant.md R217). -/
def QSHIFT : List (List Nat) :=
  [[3, 3, 4, 4], [3, 3, 4, 4], [2, 3, 3, 4], [2, 3, 3, 4],
   [2, 2, 3, 3], [2, 2, 3, 3], [1, 2, 2, 3], [1, 2, 2, 3],
   [1, 1, 2, 2], [1, 1, 2, 2], [0, 1, 1, 2], [0, 1, 1, 2],
   [0, 0, 1, 1], [0, 0, 1, 1], [0, 0, 0, 1], [0, 0, 0, 0]] ++
  [[0, 0, 0, 0], [0, 0, 0, 0], [0, 0, 0, 0], [0, 0, 0, 0],
   [0, 0, 0, 0], [0, 0, 0, 0]]

/-- QOFF = [6, 3, 0, 1] by class (44_quant.md R217). -/
def QOFF : List Nat := [6, 3, 0, 1]

/-- M8: the 8-point basis, row k, column n (45_dct.md R252). -/
def M8 : List (List Int) :=
  [[23171, 23171, 23171, 23171, 23171, 23171, 23171, 23171], [32138, 27246, 18205, 6393, -6393, -18205, -27246, -32138],
   [30274, 12540, -12540, -30274, -30274, -12540, 12540, 30274], [27246, -6393, -32138, -18205, 18205, 32138, 6393, -27246],
   [23171, -23171, -23171, 23171, 23171, -23171, -23171, 23171], [18205, -32138, 6393, 27246, -27246, -6393, 32138, -18205],
   [12540, -30274, 30274, -12540, -12540, 30274, -30274, 12540], [6393, -18205, 27246, -32138, 32138, -27246, 18205, -6393]]

/-- M4: the 4-point basis, row v, column z (45_dct.md R252). -/
def M4 : List (List Int) :=
  [[23171, 23171, 23171, 23171], [30274, 12540, -12540, -30274],
   [23171, -23171, -23171, 23171], [12540, -30274, 30274, -12540]]

/-- The constant table K[0..8] of the DCT (45_dct.md R251). -/
def KTAB : List Int := [32768, 32138, 30274, 27246, 23171, 18205, 12540, 6393, 0]

/-- COLOFF, the first 4:1:1 macroblock column of each superblock column (43 R192). -/
def COLOFF : List Nat := [0, 4, 9, 13, 18]

/-- BLKSTART[t], the first bit of block t in its DIF block (46_segment.md R281). -/
def BLKSTART : List Nat := [32, 144, 256, 368, 480, 560]

/-- BLKEND[t], one past the last bit of block t in its DIF block (46_segment.md R281). -/
def BLKEND : List Nat := [144, 256, 368, 480, 560, 640]

/-- ZZ(mode): ZZ88 for DCT_MODE 0 and ZZ248 for DCT_MODE 1 (43 R182). -/
def zz (mode : Bool) : List Nat := if mode then ZZ248 else ZZ88

/-- INVZZ(mode) (43 R182). -/
def invzz (mode : Bool) : List Nat := if mode then INVZZ248 else INVZZ88

/-- WFQ(mode) (44_quant.md R212). -/
def wfq (mode : Bool) : List Int := if mode then WFQ248 else WFQ88

/-- WIQ(mode) (44_quant.md R212). -/
def wiq (mode : Bool) : List Int := if mode then WIQ248 else WIQ88

/-- AREA(mode) (44_quant.md R216). -/
def area (mode : Bool) : List Nat := if mode then AREA248 else AREA88

/-- M8[k][n] (45_dct.md R252). -/
def m8 (k n : Nat) : Int := (M8.getD k []).getD n 0

/-- M4[v][z] (45_dct.md R252). -/
def m4 (v z : Nat) : Int := (M4.getD v []).getD z 0

/-- `kcos(m)` folds any m to the table K (45_dct.md R251). -/
def kcos (m : Nat) : Int :=
  let m := m % 32
  let m := if m > 16 then 32 - m else m
  if m > 8 then -(KTAB.getD (16 - m) 0) else KTAB.getD m 0

end Sys2Proof.Machine
end

