-- ==== Sys2Proof/Machine/Dct.lean ====
section
/-! DEFINITION. The forward and inverse DCT in both modes and the 248 decision: FDCT, IDCT, NEED248 (45_dct.md). -/

namespace Sys2Proof.Machine

open Sys2Proof

/-- Sample or coefficient (r, c) of a block in raster order (00_scope.md R13). -/
def rc (s : List Int) (r c : Nat) : Int := at0 s (8 * r + c)

/-- The single rounding of the transforms: `sat16(R(acc, 32))` (45 R253). -/
def dctRound (acc : Int) : Int := sat16 (roundShift acc 32)

/-- FDCT88(s) (45 R253). -/
def fdct88 (s : List Int) : List Int :=
  mkBlock fun n =>
    let v := n / 8
    let u := n % 8
    dctRound (sumTo 8 fun y => sumTo 8 fun x => m8 v y * m8 u x * rc s y x)

/-- IDCT88(F) (45 R254). -/
def idct88 (f : List Int) : List Int :=
  mkBlock fun n =>
    let y := n / 8
    let x := n % 8
    dctRound (sumTo 8 fun v => sumTo 8 fun u => m8 v y * m8 u x * rc f v u)

/-- FDCT248(s): row-pair sums in rows 0..3 and differences in rows 4..7 (45 R255). -/
def fdct248 (s : List Int) : List Int :=
  mkBlock fun n =>
    let v := n / 8
    let u := n % 8
    if v < 4 then
      dctRound (sumTo 4 fun z => sumTo 8 fun x => m4 v z * m8 u x * (rc s (2 * z) x + rc s (2 * z + 1) x))
    else
      dctRound (sumTo 4 fun z => sumTo 8 fun x => m4 (v - 4) z * m8 u x * (rc s (2 * z) x - rc s (2 * z + 1) x))

/-- IDCT248(F): rows 2z from F + F′ and rows 2z + 1 from F - F′ (45 R256). -/
def idct248 (f : List Int) : List Int :=
  mkBlock fun n =>
    let z := n / 8 / 2
    let x := n % 8
    if n / 8 % 2 = 0 then
      dctRound (sumTo 4 fun v => sumTo 8 fun u => m4 v z * m8 u x * (rc f v u + rc f (v + 4) u))
    else
      dctRound (sumTo 4 fun v => sumTo 8 fun u => m4 v z * m8 u x * (rc f v u - rc f (v + 4) u))

/-- The forward transform of a mode (45 R258). -/
def fdctBlock (mode : Bool) (s : List Int) : List Int := if mode then fdct248 s else fdct88 s

/-- The inverse transform of a mode (45 R259). -/
def idctBlock (mode : Bool) (f : List Int) : List Int := if mode then idct248 f else idct88 f

/-- V(s), the 248 activity: the sum of absolute differences of vertically adjacent samples (45 R261). -/
def activity (s : List Int) : Nat :=
  (sumTo 7 fun y => sumTo 8 fun x => ((rc s (y + 1) x - rc s y x).natAbs : Int)).toNat

/-- The write of FDCT b (45 R258). -/
def applyFdct (b : Nat) (s : State) : State := s.setCoefs b (fdctBlock (s.blkAt b).dctMode (s.coefs b))

/-- The write of IDCT b (45 R259). -/
def applyIdct (b : Nat) (s : State) : State := s.setCoefs b (idctBlock (s.blkAt b).dctMode (s.coefs b))

/-- The metadata write of NEED248 b: DCT_MODE <- (V > THR248) (45 R262). -/
def applyNeed248 (b : Nat) (s : State) : State :=
  s.setBlk b { s.blkAt b with dctMode := decide (s.csr.thr248.toNat < activity (s.coefs b)) }

/-- FDCT b (45 R258). -/
def execFdct (b : Nat) (s : State) : Host.Outcome State Fault Refusal :=
  runCommand (fun s => withBlock b (.ok (applyFdct b s))) s

/-- IDCT b (45 R259). -/
def execIdct (b : Nat) (s : State) : Host.Outcome State Fault Refusal :=
  runCommand (fun s => withBlock b (.ok (applyIdct b s))) s

/-- NEED248 b (45 R262). -/
def execNeed248 (b : Nat) (s : State) : Host.Outcome State Fault Refusal :=
  runCommand (fun s => withBlock b (.ok ((applyNeed248 b s).setRes0 (word32 (activity (s.coefs b)))))) s

end Sys2Proof.Machine
end

