-- ==== Sys2Proof/Machine/Vlc.lean ====
section
/-! DEFINITION. The VLC symbol coder and VLC_DEC_SYM, VLC_ENC_SYM, VLC_BITS, VLC_BLK_BITS (42_vlc.md). -/

namespace Sys2Proof.Machine

open Sys2Proof

/-! ### Encoding a symbol -/

/-- The code word of (run, amp) in VLCTAB, if the pair is there (42 R150). -/
def tableCode (run amp : Nat) : Option Bits :=
  (VLCTAB.find? fun e => e.run == run && e.amp == amp).map VlcEntry.bits

/-- The 13-bit run escape (42 R153). -/
def runEscape (run : Nat) : Bits := runMarker ++ bitsOfNat 6 run

/-- The 16-bit amplitude escape (42 R153). -/
def ampEscape (amp : Nat) (sign : Bool) : Bits := ampMarker ++ (bitsOfNat 8 amp ++ [sign])

/-- VlcEncode(run, 0, 0): run + 1 zero coefficients (42 R155, the cases with amp = 0). -/
def vlcZeros (run : Nat) : Bits :=
  match tableCode run 0 with
  | some c => c
  | none => if run ≤ 61 then runEscape run else runEscape 61 ++ runEscape (run - 62)

/-- VlcEncode(0, amp, sign) with amp ≠ 0 (42 R155, the cases with run = 0). -/
def vlcLevel (amp : Nat) (sign : Bool) : Bits :=
  match tableCode 0 amp with
  | some c => c ++ [sign]
  | none => ampEscape amp sign

/-- VlcEncode(run, amp, sign) (42 R155). -/
def vlcEncode (run amp : Nat) (sign : Bool) : Bits :=
  if amp = 0 then vlcZeros run
  else match tableCode run amp with
    | some c => c ++ [sign]
    | none => if run = 0 then ampEscape amp sign else vlcZeros (run - 1) ++ vlcLevel amp sign

/-- `vlc_num_bits(run, amp, sign)` (42 R156). -/
def vlcNumBits (run amp : Nat) (sign : Bool) : Nat := (vlcEncode run amp sign).length

/-! ### Decoding a symbol -/

/-- What VlcDecode reports (42 R158). -/
inductive SymKind where
  | sym
  | eob
  | nobits
  deriving DecidableEq, Repr, Inhabited

/-- KIND as RES0 holds it: SYM 0, EOB 1, NOBITS 2 (42 R160). -/
def kindBits : SymKind → BitVec 2
  | .sym => 0
  | .eob => 1
  | .nobits => 2

/-- The result (kind, run, amp, sign, len) of VlcDecode (42 R158). -/
structure VlcSym where
  kind : SymKind
  run : Nat
  amp : Nat
  sign : Bool
  len : Nat
  deriving DecidableEq, Repr, Inhabited

/-- The NOBITS result (42 R158). -/
def noBits : VlcSym := ⟨.nobits, 0, 0, false, 0⟩

/-- VlcDecode(t) on the next bits of the stream, 0 to 16 of them (42 R157, R158). -/
def vlcDecode (t : Bits) : VlcSym :=
  if eobCode.isPrefixOf t then ⟨.eob, 0, 0, false, 4⟩
  else if runMarker.isPrefixOf t then
    if 13 ≤ t.length then ⟨.sym, natOfBits ((t.drop 7).take 6), 0, false, 13⟩ else noBits
  else if ampMarker.isPrefixOf t then
    if 16 ≤ t.length then
      let a := natOfBits ((t.drop 7).take 8)
      ⟨.sym, 0, a, decide (a ≠ 0) && t.getD 15 false, 16⟩
    else noBits
  else match VLCTAB.find? (fun e => e.bits.isPrefixOf t) with
    | some e =>
      if e.amp = 0 then ⟨.sym, e.run, 0, false, e.len⟩
      else if e.len < t.length then ⟨.sym, e.run, e.amp, t.getD e.len false, e.len + 1⟩
      else noBits
    | none => noBits

/-! ### The code of a block -/

/-- One AC symbol of a block (42 R159). -/
structure Entry where
  run : Nat
  amp : Nat
  sign : Bool
  deriving DecidableEq, Repr, Inhabited

/-- The entries at the scan positions listed, `prev` the last position with a non-zero coefficient (42 R159). -/
def entriesFrom (c : List Int) (z : List Nat) : Nat → List Nat → List Entry
  | _, [] => []
  | prev, s :: rest =>
    let v := at0 c (z.getD s 0)
    if v = 0 then entriesFrom c z prev rest
    else ⟨s - prev - 1, v.natAbs, decide (v < 0)⟩ :: entriesFrom c z s rest

/-- BlockEntries(c, mode): the AC symbols in scan order (42 R159). -/
def blockEntries (c : List Int) (mode : Bool) : List Entry := entriesFrom c (zz mode) 0 (List.range' 1 63)

/-- The code of one entry (42 R159). -/
def Entry.code (e : Entry) : Bits := vlcEncode e.run e.amp e.sign

/-- The length of an entry's code (42 R159). -/
def Entry.bits (e : Entry) : Nat := vlcNumBits e.run e.amp e.sign

/-- BlockCode(E), EOB included (42 R159). -/
def blockCode (es : List Entry) : Bits := es.flatMap Entry.code ++ eobCode

/-- BlockBits(E) = 4 + the sum of the entries' lengths (42 R159). -/
def blockBits (es : List Entry) : Nat := 4 + (es.map Entry.bits).sum

/-- The largest magnitude among the AC coefficients, n = 1..63 (44 R225). -/
def maxAc (c : List Int) : Nat := maxTo 63 fun n => (at0 c (n + 1)).natAbs

/-- No AC coefficient has magnitude above 255, else AMP_RANGE (42 R159, R163). -/
def ampOk (c : List Int) : Bool := decide (maxAc c ≤ 255)

/-! ### Commands -/

/-- The pseudocode of VLC_DEC_SYM (42 R160). -/
def vlcDecSym (nv : Nat) (s : State) : Except ErrCode State :=
  require (decide (nv ≤ 16)) .badArg <|
  let d := vlcDecode (argWindow s.csr.arg0 nv)
  .ok (s.setRes0 (symWord (kindBits d.kind) d.len d.run d.amp d.sign))

/-- The pseudocode of VLC_ENC_SYM (42 R161). -/
def vlcEncSym (s : State) : State :=
  let a := s.csr.arg0
  let c := vlcEncode (argRun a) (argAmp a) (argSign a)
  let v := natOfBits c
  ((s.setRes0 (word32 v)).setRes1 (word32 (v >>> 32))).setRes2 (word32 c.length)

/-- The pseudocode of VLC_BITS (42 R162). -/
def vlcBits (s : State) : State :=
  let a := s.csr.arg0
  s.setRes0 (word32 (vlcNumBits (argRun a) (argAmp a) (argSign a)))

/-- The pseudocode of VLC_BLK_BITS (42 R163). -/
def vlcBlkBits (b : Nat) (s : State) : Except ErrCode State :=
  withBlock b <|
  require (ampOk (s.coefs b)) .ampRange <|
  .ok (s.setRes0 (word32 (blockBits (blockEntries (s.coefs b) (s.blkAt b).dctMode))))

/-- VLC_DEC_SYM n (42 R160). -/
def execVlcDecSym (n : Nat) (s : State) : Host.Outcome State Fault Refusal := runCommand (vlcDecSym n) s

/-- VLC_ENC_SYM (42 R161). -/
def execVlcEncSym (s : State) : Host.Outcome State Fault Refusal := runCommand (fun s => .ok (vlcEncSym s)) s

/-- VLC_BITS (42 R162). -/
def execVlcBits (s : State) : Host.Outcome State Fault Refusal := runCommand (fun s => .ok (vlcBits s)) s

/-- VLC_BLK_BITS b (42 R163). -/
def execVlcBlkBits (b : Nat) (s : State) : Host.Outcome State Fault Refusal := runCommand (vlcBlkBits b) s

end Sys2Proof.Machine
end

