-- ==== Sys2Proof/Machine/Quant.lean ====
section
/-! DEFINITION. Weighting, classification, quantisation and the qno search: WEIGHT_FWD, WEIGHT_INV, CLASSIFY, QSEARCH, QUANT,
DEQUANT (44_quant.md). -/

namespace Sys2Proof.Machine

open Sys2Proof

/-- WEIGHT_FWD on one block (44 R213). -/
def weightForward (mode : Bool) (c : List Int) : List Int :=
  mkBlock fun n => sat16 (roundShift (at0 c n * at0 (wfq mode) n) 16)

/-- WEIGHT_INV on one block (44 R214). -/
def weightInverse (mode : Bool) (c : List Int) : List Int :=
  mkBlock fun n => sat16 (roundShift (at0 c n * at0 (wiq mode) n) 16)

/-- `qshift(qno, class, band)` (44 R218). -/
def qshift (q k band : Nat) : Nat :=
  (QSHIFT.getD (q + QOFF.getD k 0) []).getD band 0 + (if k = 3 then 1 else 0)

/-- QUANT on one coefficient: the magnitude shifted and saturated to 255, the sign kept (44 R219). -/
def quantOne (v : Int) (sh : Nat) : Int :=
  let a : Int := (min (v.natAbs >>> sh) 255 : Nat)
  if v < 0 then -a else a

/-- Quantize(c, mode, q, k): QUANT on one block, the DC unchanged (44 R219, R230). -/
def quantize (c : List Int) (mode : Bool) (q k : Nat) : List Int :=
  mkBlock fun n => if n = 0 then at0 c 0 else quantOne (at0 c n) (qshift q k ((area mode).getD n 0))

/-- DEQUANT on one block, the DC unchanged (44 R220). -/
def dequantize (c : List Int) (mode : Bool) (q k : Nat) : List Int :=
  mkBlock fun n =>
    if n = 0 then at0 c 0 else wrap16 (at0 c n * (2 ^ qshift q k ((area mode).getD n 0) : Nat))

/-- The number of thresholds `mx` exceeds (44 R225). -/
def classOf (t : BitVec 24) (mx : Nat) : Nat :=
  let (t1, t2, t3) := clsThresholds t
  (if t1 < mx then 1 else 0) + (if t2 < mx then 1 else 0) + (if t3 < mx then 1 else 0)

/-- CLSTHR_Y for a luma block, CLSTHR_C for a chroma block (44 R225). -/
def State.thresholds (s : State) (b : Nat) : BitVec 24 := if b % 6 < 4 then s.csr.clsthrY else s.csr.clsthrC

/-- The AC area of position t in the macroblock: 100 or 68 bits (46_segment.md R281, 44 R230). -/
def areaBits (t : Nat) : Nat := if t < 4 then 100 else 68

/-- The block fits the budget at qno `q` (44 R230). -/
def fitsAt (c : List Int) (mode : Bool) (k t q : Nat) : Bool :=
  decide (blockBits (blockEntries (quantize c mode q k) mode) ≤ areaBits t - 4)

/-- The search of QSearchBlock from qno `q` down to 0 (44 R230). -/
def qSearchFrom (c : List Int) (mode : Bool) (k t : Nat) : Nat → Nat × Bool
  | 0 => if fitsAt c mode k t 0 then (0, false) else (0, true)
  | q + 1 => if fitsAt c mode k t (q + 1) then (q + 1, false) else qSearchFrom c mode k t q

/-- QSearchBlock(c, mode, k, t) = (qno, OVER) (44 R230). -/
def qSearchBlock (c : List Int) (mode : Bool) (k t : Nat) : Nat × Bool := qSearchFrom c mode k t 15

/-- QSearchBlock of block 6m + t (44 R231). -/
def State.searchBlock (s : State) (m t : Nat) : Nat × Bool :=
  let b := 6 * m + t
  qSearchBlock (s.coefs b) (s.blkAt b).dctMode (s.blkAt b).cls.toNat t

/-- The six results of QSEARCH m (44 R231). -/
def State.searchMb (s : State) (m : Nat) : List (Nat × Bool) := (List.range 6).map (s.searchBlock m)

/-- The least of a list of qnos, at most 15 (44 R231). -/
def minQno (qs : List (Nat × Bool)) : Nat := qs.foldl (fun acc q => min acc q.1) 15

/-- `{q[5], …, q[0]}` with q[t] in [4t+3:4t] (44 R231). -/
def packQnos (qs : List (Nat × Bool)) : Word := word32 (qs.foldr (fun q acc => q.1 + 16 * acc) 0)

/-- BLK[b].OVER <- ov. -/
def State.setOver (s : State) (b : Nat) (ov : Bool) : State := s.setBlk b { s.blkAt b with overBudget := ov }

/-- The metadata writes of QSEARCH m: MB[m].QNO, BLK[6m..6m+5].OVER and STATUS.QOVER (44 R231). -/
def applyQsearch (m : Nat) (s : State) : State :=
  let r := s.searchMb m
  let s1 := s.setMb m { s.mbAt m with qno := BitVec.ofNat 4 (minQno r) }
  let s2 := (List.range 6).foldl (fun u t => u.setOver (6 * m + t) (r.getD t (0, false)).2) s1
  s2.markQover (r.any fun q => q.2)

/-- The metadata write of CLASSIFY b: BLK[b].CLASS (44 R225). -/
def applyClassify (b : Nat) (s : State) : State :=
  s.setBlk b { s.blkAt b with cls := BitVec.ofNat 2 (classOf (s.thresholds b) (maxAc (s.coefs b))) }

/-- The write of QUANT b (44 R219). -/
def applyQuant (b : Nat) (s : State) : State :=
  s.setCoefs b (quantize (s.coefs b) (s.blkAt b).dctMode (s.mbAt (b / 6)).qno.toNat (s.blkAt b).cls.toNat)

/-- The write of DEQUANT b (44 R220). -/
def applyDequant (b : Nat) (s : State) : State :=
  s.setCoefs b (dequantize (s.coefs b) (s.blkAt b).dctMode (s.mbAt (b / 6)).qno.toNat (s.blkAt b).cls.toNat)

/-- The write of WEIGHT_FWD b (44 R213). -/
def applyWeightFwd (b : Nat) (s : State) : State :=
  s.setCoefs b (weightForward (s.blkAt b).dctMode (s.coefs b))

/-- The write of WEIGHT_INV b (44 R214). -/
def applyWeightInv (b : Nat) (s : State) : State :=
  s.setCoefs b (weightInverse (s.blkAt b).dctMode (s.coefs b))

/-- The pseudocode of CLASSIFY (44 R225). -/
def classify (b : Nat) (s : State) : Except ErrCode State :=
  withBlock b <| .ok ((applyClassify b s).setRes0 (word32 (maxAc (s.coefs b))))

/-- The pseudocode of QSEARCH (44 R231). -/
def qsearch (m : Nat) (s : State) : Except ErrCode State :=
  withMb m <| .ok ((applyQsearch m s).setRes0 (packQnos (s.searchMb m)))

/-- WEIGHT_FWD b (44 R213). -/
def execWeightFwd (b : Nat) (s : State) : Host.Outcome State Fault Refusal :=
  runCommand (fun s => withBlock b (.ok (applyWeightFwd b s))) s

/-- WEIGHT_INV b (44 R214). -/
def execWeightInv (b : Nat) (s : State) : Host.Outcome State Fault Refusal :=
  runCommand (fun s => withBlock b (.ok (applyWeightInv b s))) s

/-- CLASSIFY b (44 R225). -/
def execClassify (b : Nat) (s : State) : Host.Outcome State Fault Refusal := runCommand (classify b) s

/-- QSEARCH m (44 R231). -/
def execQsearch (m : Nat) (s : State) : Host.Outcome State Fault Refusal := runCommand (qsearch m) s

/-- QUANT b (44 R219). -/
def execQuant (b : Nat) (s : State) : Host.Outcome State Fault Refusal :=
  runCommand (fun s => withBlock b (.ok (applyQuant b s))) s

/-- DEQUANT b (44 R220). -/
def execDequant (b : Nat) (s : State) : Host.Outcome State Fault Refusal :=
  runCommand (fun s => withBlock b (.ok (applyDequant b s))) s

end Sys2Proof.Machine
end

