-- ==== Sys2Proof/Machine/Segment.lean ====
section
/-! DEFINITION. The segment commands: the 3-pass decode VLC_DEC_SEG and the mirrored encode VLC_ENC_SEG (46_segment.md). -/

namespace Sys2Proof.Machine

open Sys2Proof

/-! ### The segment's layout -/

/-- ST(m, t) of block b = 6m + t (46 R281). -/
def startBit (b : Nat) : Nat := 640 * (b / 6) + BLKSTART.getD (b % 6) 0

/-- EN(m, t) of block b = 6m + t (46 R281). -/
def endBit (b : Nat) : Nat := 640 * (b / 6) + BLKEND.getD (b % 6) 0

/-- Blocks 6m..6m+5 of a list over the 30 blocks. -/
def ofMb {α : Type} (m : Nat) (l : List α) : List α := (l.drop (6 * m)).take 6

/-! ### Decode -/

/-- The working state of one block during VLC_DEC_SEG (46 R285), with the pass 1 outcome (R287). -/
structure Work where
  mode : Bool
  cls : Nat
  pos : Nat
  fin : Bool
  eob : Bool
  err : Nat
  carry : Bits
  coefs : List Int
  donor : Bits
  mark : Bool
  offset : Nat
  endPos : Nat
  deriving DecidableEq, Repr, Inhabited

/-- The loop of DecodeRun on the bits `st` still ahead, `i` bits after the start; it returns also how many bits it consumed in
all. Every decoded code takes at least one bit, so `fuel` = the number of bits ahead never runs out first (46 R286). -/
def decodeLoop : Nat → Bits → Nat → Work → Work × Nat
  | 0, _, i, w => (w, i)
  | fuel + 1, st, i, w =>
    let d := vlcDecode (st.take 16)
    match d.kind with
    | .nobits => (w, i)
    | .eob => ({ w with fin := true, eob := true }, i + d.len)
    | .sym =>
      let p := w.pos + d.run
      if 63 < p then ({ w with fin := true, err := w.err + 1 }, i + d.len)
      else
        let v : Int := if d.sign then -(d.amp : Int) else d.amp
        decodeLoop fuel (st.drop d.len) (i + d.len)
          { w with coefs := w.coefs.set ((zz w.mode).getD p 0) v, pos := p + 1 }

/-- DecodeRun(b, bits) for an unfinished block: the block's new state and the number of bits of `bits` it consumed
(46 R286). -/
def decodeRun (w : Work) (bits : Bits) : Work × Nat :=
  let st := w.carry ++ bits
  let r := decodeLoop st.length st 0 w
  if r.1.fin then ({ r.1 with carry := [] }, r.2 - w.carry.length)
  else ({ r.1 with carry := st.drop r.2 }, bits.length)

/-- The DC of a block's header, 9 bits two's complement (46 R283). -/
def headerDc (m : Memory) (p : Nat) : Int := (BitVec.ofNat 9 (segPeek m p 9)).toInt

/-- The working state of block b after its header (46 R283, R285); OFFSET, END and MARK as for a block that does not finish. -/
def startWork (m : Memory) (b : Nat) : Work :=
  let p := startBit b
  { mode := segBit m (p + 9), cls := segPeek m (p + 10) 2, pos := 1, fin := false, eob := false, err := 0, carry := [],
    coefs := (List.replicate 64 0).set 0 (headerDc m p), donor := [], mark := true, offset := endBit b, endPos := endBit b }

/-- The bits of block b's own AC area (46 R287). -/
def ownBits (m : Memory) (b : Nat) : Bits := segBits m (startBit b + 12) (endBit b)

/-- Pass 1 on block b: its header and its own area (46 R287). -/
def passOwn (m : Memory) (b : Nat) : Work :=
  let r := decodeRun (startWork m b) (ownBits m b)
  if r.1.fin then
    { r.1 with donor := (ownBits m b).drop r.2, offset := startBit b + 12 + r.2, mark := false }
  else r.1

/-- One lending pass: the unfinished blocks take bits from the pool in order; what is left of the pool is returned
(46 R288, R289). -/
def lend : List Work → Bits → List Work × Bits
  | [], pool => ([], pool)
  | w :: ws, pool =>
    if w.fin then
      let r := lend ws pool
      (w :: r.1, r.2)
    else
      let d := decodeRun w pool
      let r := lend ws (pool.drop d.2)
      (d.1 :: r.1, r.2)

/-- Pass 2 on macroblock m (46 R288). -/
def passMb (ws : List Work) (m : Nat) : List Work × Bits :=
  let g := ofMb m ws
  lend g (g.flatMap Work.donor)

/-- The three passes over the segment (46 R287 to R289). -/
def decodeSegment (m : Memory) : List Work :=
  let w1 := (List.range 30).map (passOwn m)
  let g := (List.range 5).map (passMb w1)
  (lend (g.flatMap Prod.fst) (g.flatMap Prod.snd)).1

/-- Block b's result in a list of 30. -/
def workAt (ws : List Work) (b : Nat) : Work := ws.getD b default

/-- BLK[b] after VLC_DEC_SEG; OVER is unchanged (46 R290). -/
def Work.toBlk (w : Work) (old : BlkMeta) : BlkMeta :=
  { old with
    dctMode := w.mode
    cls := BitVec.ofNat 2 w.cls
    fin := w.fin
    eob := w.eob
    mark := w.mark
    pos := BitVec.ofNat 7 w.pos
    offset := BitVec.ofNat 12 w.offset
    endPos := BitVec.ofNat 12 w.endPos }

/-- MB[m].VLC_ERROR after VLC_DEC_SEG (46 R290). -/
def vlcErrorOf (ws : List Work) (m : Nat) : Nat :=
  min ((ofMb m ws).map fun w => w.err + (if w.fin then 0 else 1)).sum 255

/-- MB[m].EOB_COUNT after VLC_DEC_SEG (46 R290). -/
def eobCountOf (ws : List Work) (m : Nat) : Nat := ((ofMb m ws).map fun w => w.eob.toNat).sum

/-- MB[m] after VLC_DEC_SEG: QNO and STA from byte 3 of DIF block m (46 R282, R290). -/
def mbOfSegment (mem : Memory) (ws : List Work) (m : Nat) (old : MbMeta) : MbMeta :=
  { old with
    qno := (segByte mem (80 * m + 3)).extractLsb' 0 4
    sta := (segByte mem (80 * m + 3)).extractLsb' 4 4
    vlcError := BitVec.ofNat 8 (vlcErrorOf ws m)
    eobCount := BitVec.ofNat 3 (eobCountOf ws m) }

/-- The blocks' coefficients into COEF (46 R290). -/
def storeBlocks (ws : List Work) (mem : Memory) : Memory :=
  (List.range 30).foldl (fun m b => storeCoefs m b (workAt ws b).coefs) mem

/-- Every BLK[b] from its result (46 R290). -/
def recordBlocks (ws : List Work) (s : State) : State :=
  (List.range 30).foldl (fun u b => u.setBlk b ((workAt ws b).toBlk (u.blkAt b))) s

/-- Every MB[m] from the segment's bytes and the results (46 R290). -/
def recordMbs (mem : Memory) (ws : List Work) (s : State) : State :=
  (List.range 5).foldl (fun u m => u.setMb m (mbOfSegment mem ws m (u.mbAt m))) s

/-- The sum of the macroblocks' VLC_ERROR (46 R290). -/
def vlcErrorTotal (ws : List Work) : Nat := ((List.range 5).map (vlcErrorOf ws)).sum

/-- The sum of the macroblocks' EOB_COUNT (46 R290). -/
def eobTotal (ws : List Work) : Nat := ((List.range 5).map (eobCountOf ws)).sum

/-- The pseudocode of VLC_DEC_SEG (46 R290). -/
def vlcDecSeg (s : State) : State :=
  let ws := decodeSegment s.mem
  let t := recordMbs s.mem ws (recordBlocks ws (s.setMem (storeBlocks ws s.mem)))
  (((t.setRes0 (word32 (vlcErrorTotal ws))).setRes1 (word32 (eobTotal ws))).markVlcerr (decide (0 < vlcErrorTotal ws)))

/-! ### Encode: the fit step -/

/-- One sweep of the fit step over the blocks of a group: the last entry of every block that has one goes, until the group
fits. The triple is the entries, the total and the entries removed so far (46 R295). -/
def sweep (cap : Nat) : List (List Entry) → Nat → Nat → List (List Entry) × Nat × Nat
  | [], total, trunc => ([], total, trunc)
  | es :: rest, total, trunc =>
    match es.getLast? with
    | none =>
      let r := sweep cap rest total trunc
      (es :: r.1, r.2)
    | some e =>
      let total' := total - e.bits
      if total' ≤ cap then (es.dropLast :: rest, total', trunc + 1)
      else
        let r := sweep cap rest total' (trunc + 1)
        (es.dropLast :: r.1, r.2)

/-- Sweeps until the group fits. Each sweep of a group that does not fit removes an entry, so `fuel` = the number of entries
never runs out first (46 R295). -/
def fitLoop (cap : Nat) : Nat → List (List Entry) → Nat → Nat → List (List Entry) × Nat
  | 0, es, _, trunc => (es, trunc)
  | fuel + 1, es, total, trunc =>
    if total ≤ cap then (es, trunc)
    else
      let r := sweep cap es total trunc
      fitLoop cap fuel r.1 r.2.1 r.2.2

/-- The fit step on one group: its kept entries and how many were removed (46 R295). -/
def fitGroup (cap : Nat) (es : List (List Entry)) : List (List Entry) × Nat :=
  fitLoop cap (es.map List.length).sum es (es.map blockBits).sum 0

/-- The groups of CTRL.PASSES with their capacities (46 R294). PASSES is 1, 2 or 3; a value 0, which no write stores, is
taken as 3 (log 12). -/
def fitGroups (passes : BitVec 2) (es : List (List Entry)) : List (Nat × List (List Entry)) :=
  if passes = 1 then (List.range 30).map fun b => (areaBits (b % 6), [es.getD b []])
  else if passes = 2 then (List.range 5).map fun m => (536, ofMb m es)
  else [(2680, es)]

/-- The fit step over all groups: the kept entries of the 30 blocks and the number removed (46 R295). -/
def fitStep (passes : BitVec 2) (es : List (List Entry)) : List (List Entry) × Nat :=
  let r := (fitGroups passes es).map fun g => fitGroup g.1 g.2
  (r.flatMap Prod.fst, (r.map Prod.snd).sum)

/-! ### Encode: placement -/

/-- The segment as one bit string: bit p of the segment is bit 3199 - p (00_scope.md R12). -/
abbrev Image := BitVec 3200

/-- SegBit(p) <- x in an image. -/
def imgPut (g : Image) (p : Nat) (x : Bool) : Image :=
  if x then g ||| (1#3200 <<< (3199 - p)) else g &&& ~~~(1#3200 <<< (3199 - p))

/-- "write s at positions": as many bits as both lists have (46 R297). -/
def imgWrite (g : Image) (ps : List Nat) (s : Bits) : Image :=
  (ps.zip s).foldl (fun g x => imgPut g x.1 x.2) g

/-- Byte a of an image (00_scope.md R12). -/
def imgByte (g : Image) (a : Nat) : Byte := (g >>> (8 * (399 - a))).setWidth 8

/-- The positions of block b's own area, in order (46 R281, R297). -/
def ownArea (b : Nat) : List Nat := List.range' (startBit b + 12) (endBit b - (startBit b + 12))

/-- Pass 1 of the placement: every code into its own area (46 R297). -/
def placeOwn (codes : List Bits) (g : Image) : Image :=
  (List.range 30).foldl (fun g b => imgWrite g (ownArea b) (codes.getD b [])) g

/-- R[b] after pass 1: the bits that did not fit the own area (46 R297). -/
def restOf (codes : List Bits) (b : Nat) : Bits := (codes.getD b []).drop (ownArea b).length

/-- The donor positions of block b: the free positions of a block whose code fitted (46 R297). -/
def donorsOf (codes : List Bits) (b : Nat) : List Nat :=
  if restOf codes b = [] then (ownArea b).drop (codes.getD b []).length else []

/-- One lending pass of the placement: the rests go to the positions `q` in order. It returns the new rests, the positions left
and the image (46 R297). -/
def lendPlaces : List Bits → List Nat → Image → List Bits × List Nat × Image
  | [], q, g => ([], q, g)
  | r :: rs, q, g =>
    let k := min r.length q.length
    let t := lendPlaces rs (q.drop k) (imgWrite g (q.take k) (r.take k))
    (r.drop k :: t.1, t.2)

/-- Pass 2 over the macroblocks listed: rests, positions left over and image (46 R297). -/
def placeMbs (codes : List Bits) : List Nat → Image → List Bits × List Nat × Image
  | [], g => ([], [], g)
  | m :: ms, g =>
    let bs := (List.range 6).map fun t => 6 * m + t
    let r := lendPlaces (bs.map (restOf codes)) (bs.flatMap (donorsOf codes)) g
    let t := placeMbs codes ms r.2.2
    (r.1 ++ t.1, r.2.1 ++ t.2.1, t.2.2)

/-- The three passes of the placement (46 R297). -/
def placeCodes (codes : List Bits) (g : Image) : Image :=
  let r := placeMbs codes (List.range 5) (placeOwn codes g)
  (lendPlaces r.1 r.2.1 r.2.2).2.2

/-- The 12 header bits of a block: DC saturated to 9 bits, DCT_MODE, CLASS (46 R283, R299). -/
def headerBits (dc : Int) (x : BlkMeta) : Bits :=
  bitsOfNat 9 (BitVec.ofInt 9 (sat (-256) 255 dc)).toNat ++ (x.dctMode :: bitsOfNat 2 x.cls.toNat)

/-- Byte 3 of DIF block m: `{STA, QNO}` (46 R282, R299). -/
def byte3 (x : MbMeta) : Byte := x.sta ++ x.qno

/-- The headers of the cleared segment (46 R299). -/
def headerImage (s : State) : Image :=
  let g := (List.range 5).foldl
    (fun g m => imgWrite g (List.range' (640 * m + 24) 8) (bitsOfNat 8 (byte3 (s.mbAt m)).toNat)) 0
  (List.range 30).foldl
    (fun g b => imgWrite g (List.range' (startBit b) 12) (headerBits (coef s.mem b 0) (s.blkAt b))) g

/-- Bytes 3..79 of every DIF block from an image; bytes 0..2 are left as they are (46 R299). -/
def storeImage (g : Image) (mem : Memory) : Memory :=
  (List.range 5).foldl
    (fun m i => m.store (segBase + (80 * i + 3)) ((List.range 77).map fun a => imgByte g (80 * i + 3 + a))) mem

/-- `min(OVF_COUNT + trunc, 0xFFFFFFFF)` (46 R298). -/
def addSaturating (c : Word) (trunc : Nat) : Word := word32 (min (c.toNat + trunc) 0xFFFFFFFF)

/-- E[b] for the 30 blocks as VLC_ENC_SEG finds them (46 R293). -/
def State.entries (s : State) : List (List Entry) :=
  (List.range 30).map fun b => blockEntries (s.coefs b) (s.blkAt b).dctMode

/-- No AC coefficient of any block has magnitude above 255 (46 R293). -/
def State.allAmpOk (s : State) : Bool := (List.range 30).all fun b => ampOk (s.coefs b)

/-- The writes of VLC_ENC_SEG when every amplitude fits (46 R300). -/
def encodeSegment (s : State) : State :=
  let f := fitStep s.csr.ctrl.passes s.entries
  let codes := f.1.map blockCode
  let t := s.setMem (storeImage (placeCodes codes (headerImage s)) s.mem)
  (((t.setOvfCount (addSaturating s.csr.ovfCount f.2)).markTrunc (decide (0 < f.2))).setRes0 (word32 f.2)).setRes1
    (word32 (codes.map List.length).sum)

/-- The pseudocode of VLC_ENC_SEG (46 R300). -/
def vlcEncSeg (s : State) : Except ErrCode State :=
  require s.allAmpOk .ampRange <| .ok (encodeSegment s)

/-- VLC_DEC_SEG (46 R290). -/
def execVlcDecSeg (s : State) : Host.Outcome State Fault Refusal := runCommand (fun s => .ok (vlcDecSeg s)) s

/-- VLC_ENC_SEG (46 R300). -/
def execVlcEncSeg (s : State) : Host.Outcome State Fault Refusal := runCommand vlcEncSeg s

end Sys2Proof.Machine
end

