-- ==== Sys2Proof/Machine/Macro.lean ====
section
/-! DEFINITION. NOP and the macro commands DECODE_SEG and ENCODE_SEG (47_macro_system.md). -/

namespace Sys2Proof.Machine

open Sys2Proof

/-- DEQUANT, WEIGHT_INV and IDCT of one block (47 R321). -/
def reconstruct (s : State) (b : Nat) : State := applyIdct b (applyWeightInv b (applyDequant b s))

/-- The pseudocode of DECODE_SEG (47 R321). -/
def decodeSeg (s : State) : State := (List.range 30).foldl reconstruct (vlcDecSeg s)

/-- The first loop of ENCODE_SEG on one block: NEED248 if AUTO248, FDCT, WEIGHT_FWD, CLASSIFY if AUTOQ; the RES0 writes of
NEED248 and CLASSIFY are not performed (47 R322). -/
def analyse (s : State) (b : Nat) : State :=
  let s1 := if s.csr.ctrl.auto248 then applyNeed248 b s else s
  let s2 := applyWeightFwd b (applyFdct b s1)
  if s.csr.ctrl.autoq then applyClassify b s2 else s2

/-- The state of ENCODE_SEG before VLC_ENC_SEG (47 R322). -/
def encodePrepare (s : State) : State :=
  let s1 := (List.range 30).foldl analyse s
  let s2 := if s.csr.ctrl.autoq then (List.range 5).foldl (fun u m => applyQsearch m u) s1 else s1
  (List.range 30).foldl (fun u b => applyQuant b u) s2

/-- The pseudocode of ENCODE_SEG (47 R322). QUANT saturates every AC magnitude to 255, so VLC_ENC_SEG's check holds. -/
def encodeSeg (s : State) : Except ErrCode State := vlcEncSeg (encodePrepare s)

/-- NOP (47 R320). -/
def execNop (s : State) : Host.Outcome State Fault Refusal := runCommand (fun s => .ok s) s

/-- DECODE_SEG (47 R321). -/
def execDecodeSeg (s : State) : Host.Outcome State Fault Refusal := runCommand (fun s => .ok (decodeSeg s)) s

/-- ENCODE_SEG (47 R322). -/
def execEncodeSeg (s : State) : Host.Outcome State Fault Refusal := runCommand encodeSeg s

end Sys2Proof.Machine
end

