-- ==== Sys2Proof/Machine/Reorder.lean ====
section
/-! DEFINITION. The zig-zag reorder and macroblock placement: ZZ_TO_SCAN, ZZ_TO_NAT, PLACE411, PLACE420, PLACE_MB
(43_reorder_place.md). -/

namespace Sys2Proof.Machine

open Sys2Proof

/-- A block from natural order into scan order (43 R183). -/
def toScan (mode : Bool) (old : List Int) : List Int := mkBlock fun i => at0 old ((zz mode).getD i 0)

/-- A block from scan order into natural order: entry Z[i] <- old[i], in order (43 R184). -/
def toNatural (mode : Bool) (old : List Int) : List Int :=
  (List.range 64).foldl (fun c i => c.set ((zz mode).getD i 0) (at0 old i)) old

/-- Place411(i, j, k) = (x, y) (43 R191, R193). -/
def placePos411 (i j k : Nat) : Nat × Nat :=
  if j = 4 ∧ 24 ≤ k then (704, 48 * i + 16 * (k - 24))
  else
    let n := k + (if j % 2 = 1 then 3 else 0)
    let col := n / 6 + COLOFF.getD j 0
    let r := n % 6
    let row := if (n / 6) % 2 = 0 then r else 5 - r
    (32 * col, 48 * i + 8 * row)

/-- Place420(i, j, k) = (x, y) (43 R194). -/
def placePos420 (i j k : Nat) : Nat × Nat :=
  let col := k / 3 + 9 * j
  let r := k % 3
  let row := if (k / 3) % 2 = 0 then r else 2 - r
  (16 * col, 48 * i + 16 * row)

/-- K ≤ 26, J ≤ 4 and I ≤ imax, else BAD_ARG (43 R195 to R197). -/
def placeOk (s : State) (i j k : Nat) : Bool := decide (k ≤ 26) && (decide (j ≤ 4) && decide (i ≤ s.imax))

/-- A position as RES0 holds it (43 R195). -/
def posWord (p : Nat × Nat) : Word := xyWord (BitVec.ofNat 10 p.1) (BitVec.ofNat 10 p.2)

/-- The pseudocode of ZZ_TO_SCAN (43 R183). -/
def zzToScan (b : Nat) (s : State) : Except ErrCode State :=
  withBlock b <| .ok (s.setCoefs b (toScan (s.blkAt b).dctMode (s.coefs b)))

/-- The pseudocode of ZZ_TO_NAT (43 R184). -/
def zzToNat (b : Nat) (s : State) : Except ErrCode State :=
  withBlock b <| .ok (s.setCoefs b (toNatural (s.blkAt b).dctMode (s.coefs b)))

/-- The pseudocode of PLACE411 (43 R195). -/
def place411 (s : State) : Except ErrCode State :=
  let a := s.csr.arg0
  require (placeOk s (argI a) (argJ a) (argK a)) .badArg <|
  .ok (s.setRes0 (posWord (placePos411 (argI a) (argJ a) (argK a))))

/-- The pseudocode of PLACE420 (43 R196). -/
def place420 (s : State) : Except ErrCode State :=
  let a := s.csr.arg0
  require (placeOk s (argI a) (argJ a) (argK a)) .badArg <|
  .ok (s.setRes0 (posWord (placePos420 (argI a) (argJ a) (argK a))))

/-- The position of a stored macroblock under CTRL.SAMPLING (43 R197). -/
def placeStored (s : State) (x : MbMeta) : Nat × Nat :=
  if s.csr.ctrl.sampling then placePos420 x.i.toNat x.j.toNat x.k.toNat
  else placePos411 x.i.toNat x.j.toNat x.k.toNat

/-- The pseudocode of PLACE_MB (43 R197). -/
def placeMb (m : Nat) (s : State) : Except ErrCode State :=
  withMb m <|
  let x := s.mbAt m
  require (placeOk s x.i.toNat x.j.toNat x.k.toNat) .badArg <|
  let p := placeStored s x
  .ok ((s.setMb m { x with x := BitVec.ofNat 10 p.1, y := BitVec.ofNat 10 p.2 }).setRes0 (posWord p))

/-- ZZ_TO_SCAN b (43 R183). -/
def execZzToScan (b : Nat) (s : State) : Host.Outcome State Fault Refusal := runCommand (zzToScan b) s

/-- ZZ_TO_NAT b (43 R184). -/
def execZzToNat (b : Nat) (s : State) : Host.Outcome State Fault Refusal := runCommand (zzToNat b) s

/-- PLACE411 (43 R195). -/
def execPlace411 (s : State) : Host.Outcome State Fault Refusal := runCommand place411 s

/-- PLACE420 (43 R196). -/
def execPlace420 (s : State) : Host.Outcome State Fault Refusal := runCommand place420 s

/-- PLACE_MB m (43 R197). -/
def execPlaceMb (m : Nat) (s : State) : Host.Outcome State Fault Refusal := runCommand (placeMb m) s

end Sys2Proof.Machine
end

