-- ==== Sys2Proof/Machine/Abort.lean ====
section
/-! DEFINITION. A command aborted by a soft reset: every location its rule could write takes an unspecified value, each a free
value of its own; every other location keeps its value (70_reset_and_hazards.md R383, 93 U5; log 7). A command whose checks fail
could write nothing, since all checks are made before any write (60 R342). -/

namespace Sys2Proof.Machine

open Sys2Proof

/-- The free byte of draw `k` for host byte address `a`. -/
def freeByte (k a : Nat) : Byte := (Config.freeWord k a).setWidth 8

/-- The free coefficients of draw `k` for COEF[b]. -/
def freeCoefs (k b : Nat) : List Int := mkBlock fun n => ((Config.freeWord k (coefAddr b n)).setWidth 16).toInt

/-- COEF[b][0..63] become free. -/
def abortCoefs (k b : Nat) (s : State) : State := if b ≤ 29 then s.setCoefs b (freeCoefs k b) else s

/-- COEF[b][1..63] become free; the DC keeps its value (QUANT and DEQUANT write no DC). -/
def abortAc (k b : Nat) (s : State) : State :=
  if b ≤ 29 then
    s.setCoefs b (mkBlock fun n => if n = 0 then at0 (s.coefs b) 0 else at0 (freeCoefs k b) n)
  else s

/-- `SegBit(p) <- x`. -/
def segPutBit (m : Memory) (p : Nat) (x : Bool) : Memory :=
  let mask : Byte := 1#8 <<< (7 - p % 8)
  m.store (segBase + p / 8) [if x then segByte m (p / 8) ||| mask else segByte m (p / 8) &&& ~~~mask]

/-- SegBit(p) .. SegBit(p + n - 1) become free. -/
def abortSegBits (k p n : Nat) (m : Memory) : Memory :=
  (List.range n).foldl
    (fun m i => segPutBit m (p + i) ((freeByte k (segBase + (p + i) / 8)).getLsbD (7 - (p + i) % 8))) m

/-- Bytes `a` to `a + n - 1` of SEG become free. -/
def abortSegBytes (k a n : Nat) (m : Memory) : Memory :=
  m.store (segBase + a) ((List.range n).map fun i => freeByte k (segBase + (a + i)))

/-- Bytes 3..79 of every DIF block become free. -/
def abortImage (k : Nat) (m : Memory) : Memory :=
  (List.range 5).foldl (fun m i => abortSegBytes k (80 * i + 3) 77 m) m

/-- The free word of draw `k` for BLK[b] word `j`. -/
def freeBlkWord (k b j : Nat) : Word := Config.freeWord k (0x0100 + 8 * b + 4 * j)

/-- The free word of draw `k` for MB[m] word `j`. -/
def freeMbWord (k m j : Nat) : Word := Config.freeWord k (0x0200 + 12 * m + 4 * j)

/-- What BW_PUT n could write: the field of n bits from BITPOS, when its checks pass (41 R134, 60 R342). -/
def abortBwPut (k n : Nat) (s : State) : State :=
  if countOk n && inSegment s n then s.setMem (abortSegBits k s.cursor n s.mem) else s

/-- BLK[b].DCT_MODE becomes free. -/
def abortMode (k b : Nat) (s : State) : State :=
  s.setBlk b { s.blkAt b with dctMode := (freeBlkWord k b 0).getLsbD 0 }

/-- BLK[b].CLASS becomes free. -/
def abortClass (k b : Nat) (s : State) : State :=
  s.setBlk b { s.blkAt b with cls := (freeBlkWord k b 0).extractLsb' 1 2 }

/-- BLK[b].OVER becomes free. -/
def abortOver (k b : Nat) (s : State) : State := s.setOver b ((freeBlkWord k b 0).getLsbD 7)

/-- MB[m].QNO becomes free. -/
def abortQno (k m : Nat) (s : State) : State :=
  s.setMb m { s.mbAt m with qno := (freeMbWord k m 0).extractLsb' 0 4 }

/-- What QSEARCH m could write: OVER of the six blocks and MB[m].QNO, when the index names a macroblock (44 R231, 60 R342). -/
def abortQsearch (k m : Nat) (s : State) : State :=
  if m ≤ 4 then abortQno k m ((List.range 6).foldl (fun u t => abortOver k (6 * m + t) u) s) else s

/-- What PLACE_MB m could write: MB[m].X and Y, when the stored coordinates pass the check (43 R197, 60 R342). -/
def abortXy (k m : Nat) (s : State) : State :=
  if placeOk s (s.mbAt m).i.toNat (s.mbAt m).j.toNat (s.mbAt m).k.toNat then
    s.setMb m { s.mbAt m with x := (freeMbWord k m 2).extractLsb' 0 10, y := (freeMbWord k m 2).extractLsb' 16 10 }
  else s

/-- The fields of BLK[b] that VLC_DEC_SEG writes become free; OVER keeps its value (46 R290). -/
def abortDecodedBlk (k b : Nat) (s : State) : State :=
  let w := freeBlkWord k b 0
  let v := freeBlkWord k b 1
  s.setBlk b { s.blkAt b with
    dctMode := w.getLsbD 0, cls := w.extractLsb' 1 2, fin := w.getLsbD 4, eob := w.getLsbD 5, mark := w.getLsbD 6,
    pos := w.extractLsb' 8 7, offset := v.extractLsb' 0 12, endPos := v.extractLsb' 16 12 }

/-- The fields of MB[m] that VLC_DEC_SEG writes become free; K, J, I, X and Y keep their values (46 R290). -/
def abortDecodedMb (k m : Nat) (s : State) : State :=
  let w := freeMbWord k m 0
  s.setMb m { s.mbAt m with
    qno := w.extractLsb' 0 4, sta := w.extractLsb' 4 4, vlcError := w.extractLsb' 8 8, eobCount := w.extractLsb' 16 3 }

/-- The step `f` over the 30 blocks. -/
def forBlocks (f : Nat → State → State) (s : State) : State := (List.range 30).foldl (fun u b => f b u) s

/-- The step `f` over the 5 macroblocks. -/
def forMbs (f : Nat → State → State) (s : State) : State := (List.range 5).foldl (fun u m => f m u) s

/-- What VLC_ENC_SEG could write: bytes 3..79 of every DIF block, when every amplitude fits (46 R293, R300, 60 R342). -/
def abortEncSeg (k : Nat) (s : State) : State := if s.allAmpOk then s.setMem (abortImage k s.mem) else s

/-- What VLC_DEC_SEG could write (46 R290). -/
def abortDecode (k : Nat) (s : State) : State :=
  forMbs (abortDecodedMb k) (forBlocks (abortDecodedBlk k) (forBlocks (abortCoefs k) s))

/-- What ENCODE_SEG could write: SEG bytes 3..79, COEF, DCT_MODE when AUTO248 = 1, CLASS, OVER and QNO when AUTOQ = 1
(47 R322). -/
def abortEncode (k : Nat) (s : State) : State :=
  let s1 := forBlocks (abortCoefs k) (s.setMem (abortImage k s.mem))
  let s2 := if s.csr.ctrl.auto248 then forBlocks (abortMode k) s1 else s1
  if s.csr.ctrl.autoq then
    forMbs (abortQno k) (forBlocks (abortOver k) (forBlocks (abortClass k) s2))
  else s2

/-- The RAM and metadata locations the rule of `i` could write take free values of draw `k` (70 R383). -/
def abortWrites (k : Nat) (i : Instr) (s : State) : State :=
  match i with
  | .nop => s
  | .segClear => s.setMem (abortSegBytes k 0 400 s.mem)
  | .brPeek _ => s
  | .brSkip _ => s
  | .bwPut n => abortBwPut k n s
  | .vlcDecSym _ => s
  | .vlcEncSym => s
  | .vlcBits => s
  | .vlcBlkBits _ => s
  | .zzToScan b => abortCoefs k b s
  | .zzToNat b => abortCoefs k b s
  | .place411 => s
  | .place420 => s
  | .placeMb m => abortXy k m s
  | .weightFwd b => abortCoefs k b s
  | .weightInv b => abortCoefs k b s
  | .classify b => abortClass k b s
  | .qsearch m => abortQsearch k m s
  | .quant b => abortAc k b s
  | .dequant b => abortAc k b s
  | .fdct b => abortCoefs k b s
  | .idct b => abortCoefs k b s
  | .need248 b => abortMode k b s
  | .vlcDecSeg => abortDecode k s
  | .vlcEncSeg => abortEncSeg k s
  | .decodeSeg => abortDecode k s
  | .encodeSeg => abortEncode k s

/-- The command in flight is aborted: no completion, its writable locations free (70 R383). A reserved OP writes nothing. -/
def abortCommand (s : State) : State :=
  match decodeWord s.csr.cmd with
  | .ok i => { abortWrites s.fresh i s with fresh := s.fresh + 1 }
  | .error _ => s

end Sys2Proof.Machine
end

