-- ==== Sys2Proof/Machine/Pseudo.lean ====
section
/-! DEFINITION. The pseudo-commands as the host accesses they expand to (30_encoding.md R108, R109), with the host's waits for
STATUS.BUSY = 0 between the commands (47_macro.md R324, 70_reset_and_hazards.md R392; log 17). -/

namespace Sys2Proof.Machine

open Sys2Proof

/-- `W addr, v`: a 32-bit host store (30 R108). -/
def hostW (addr : BitVec 16) (v : Word) : HostEvent := .access (.write addr .word v)

/-- `R addr`: a 32-bit host read (30 R108). -/
def hostR (addr : BitVec 16) : HostEvent := .access (.read addr .word)

/-- A command and the wait for its completion: its word stored to CMD (30 R108, 47 R324). -/
def hostCmd (i : Instr) : List HostEvent := [hostW 0x0008 (encode i), .await]

/-- `BR_GET n` (30 R109). -/
def brGet (n : Nat) : List HostEvent := .await :: (hostCmd (.brPeek n) ++ hostCmd (.brSkip n))

/-- The address of BLK[b] word 0 (10 R36). -/
def blkWord0Addr (b : Nat) : BitVec 16 := BitVec.ofNat 16 (0x0100 + 8 * b)

/-- BLK[b] word 0 is read and written back with the bits of `clear` cleared and those of `set` set, then the command runs
(30 R109). -/
def modeThen (b : Nat) (clear set : Word) (i : Instr) : List HostEvent :=
  [.await, hostR (blkWord0Addr b), .rewrite (blkWord0Addr b) clear set] ++ hostCmd i

/-- `FDCT88 b` (30 R109). -/
def fdct88At (b : Nat) : List HostEvent := modeThen b 1 0 (.fdct b)

/-- `FDCT248 b` (30 R109). -/
def fdct248At (b : Nat) : List HostEvent := modeThen b 0 1 (.fdct b)

/-- `IDCT88 b` (30 R109). -/
def idct88At (b : Nat) : List HostEvent := modeThen b 1 0 (.idct b)

/-- `IDCT248 b` (30 R109). -/
def idct248At (b : Nat) : List HostEvent := modeThen b 0 1 (.idct b)

/-- One `ARG0 = slice; BW_PUT len(slice)` (30 R109). -/
def putSlice (c : Bits) : List HostEvent := hostW 0x0010 (word32 (natOfBits c)) :: hostCmd (.bwPut c.length)

/-- The slices of a code of at most 48 bits, 24 bits or fewer each, from the first bit (30 R109). -/
def putSlices (c : Bits) : List HostEvent :=
  if c.length ≤ 24 then putSlice c else putSlice (c.take 24) ++ putSlice (c.drop 24)

/-- The code that reads of RES0, RES1 and RES2 returned: its low RES2 bits of RES1:RES0 (42 R161). The newest reply is first. -/
def codeOfReplies (replies : List Word) : Bits :=
  bitsOfNat (replies.getD 0 0).toNat (replies.getD 1 0 ++ replies.getD 2 0).toNat

/-- `PUT_SYM` (run, amp, sign): the code is read from RES0, RES1 and RES2 and put slice by slice (30 R109). -/
def putSym (run amp : Nat) (sign : Bool) : List HostEvent :=
  [.await, hostW 0x0010 (0#15 ++ (bit sign ++ (0#2 ++ (BitVec.ofNat 6 run ++ BitVec.ofNat 8 amp))))] ++ hostCmd .vlcEncSym ++
    [hostR 0x0018, hostR 0x001C, hostR 0x0020, .putCode]

end Sys2Proof.Machine
end

