-- ==== Sys2Proof/Machine/Bus.lean ====
section
/-! DEFINITION. The host port: the address map, legal and illegal accesses, the CSRs and metadata as the host reads and writes
them, stalls while BUSY, soft reset and the hardware reset input (10_state.md, 20_memory.md, 70_reset_and_hazards.md). -/

namespace Sys2Proof.Machine

open Sys2Proof

/-! ### The address map -/

/-- The mapped regions (20 R72). -/
inductive Region where
  | csr
  | blkmeta
  | mbmeta
  | seg
  | coef
  deriving DecidableEq, Repr, Inhabited

/-- The region a host byte address lies in (20 R72). -/
def regionOf (a : Nat) : Option Region :=
  if a ≤ 0x003F then some .csr
  else if 0x0100 ≤ a ∧ a ≤ 0x01EF then some .blkmeta
  else if 0x0200 ≤ a ∧ a ≤ 0x023B then some .mbmeta
  else if 0x0400 ≤ a ∧ a ≤ 0x058F then some .seg
  else if 0x1000 ≤ a ∧ a ≤ 0x1EFF then some .coef
  else none

/-- The number of bytes of an access (20 R70). -/
def Width.bytes : Width → Nat
  | .byte => 1
  | .half => 2
  | .word => 4

/-- The legal widths of a region (20 R72). -/
def Region.allows : Region → Width → Bool
  | .csr, w => w == .word
  | .blkmeta, w => w == .word
  | .mbmeta, w => w == .word
  | .seg, _ => true
  | .coef, w => w == .half || w == .word

/-- The region of a legal access, or none when it is illegal (20 R74, R75). -/
def legalRegion (a : Nat) (w : Width) : Option Region :=
  match regionOf a with
  | none => none
  | some r =>
    if r.allows w && (decide (a % w.bytes = 0) && decide (regionOf (a + w.bytes - 1) = some r)) then some r else none

/-! ### Reads -/

/-- A CSR as read while its value is specified (10 R21; R35 for the reserved offsets). -/
def readCsr (s : State) (a : Nat) : Word :=
  match a with
  | 0x00 => 0x44560001
  | 0x04 => s.csr.ctrl.toWord
  | 0x08 => s.csr.cmd
  | 0x0C => s.statusWord
  | 0x10 => s.csr.arg0
  | 0x18 => s.csr.res0
  | 0x1C => s.csr.res1
  | 0x20 => s.csr.res2
  | 0x24 => s.csr.bitpos.setWidth 32
  | 0x28 => s.csr.thr248
  | 0x2C => s.csr.clsthrY.setWidth 32
  | 0x30 => s.csr.clsthrC.setWidth 32
  | 0x34 => s.csr.ovfCount
  | 0x38 => s.csr.errcmd
  | _ => 0

/-- RES0, RES1, RES2, BITPOS, OVF_COUNT and ERRCMD: unspecified when read while BUSY (20 R80, 93 U4). The whole word of BITPOS is
taken as unspecified, bits [31:12] with it, though R30 and 93 U9 say that these read 0. DESIGN CHOICE (log 16). -/
def unspecifiedBusy (a : Nat) : Bool :=
  a == 0x18 || a == 0x1C || a == 0x20 || a == 0x24 || a == 0x34 || a == 0x38

/-- A metadata word (10 R36, R37, R39 to R41). -/
def readMeta (s : State) (r : Region) (a : Nat) : Word :=
  match r with
  | .blkmeta =>
    let x := s.blkAt ((a - 0x0100) / 8)
    if (a - 0x0100) / 4 % 2 = 0 then x.word0 else x.word1
  | .mbmeta =>
    let x := s.mbAt ((a - 0x0200) / 12)
    if (a - 0x0200) / 4 % 3 = 0 then x.word0 else if (a - 0x0200) / 4 % 3 = 1 then x.word1 else x.word2
  | _ => 0

/-- `MemRead(a, n)` of the RAM, no extension beyond zeros above (20 R73). -/
def readRam (m : Memory) (a : Nat) (w : Width) : Word :=
  match w with
  | .byte => (m.byte a).setWidth 32
  | .half => (m.half a).setWidth 32
  | .word => m.word a

/-- The value of a legal access to metadata or RAM (20 R73). -/
def readLegal (s : State) (r : Region) (a : Nat) (w : Width) : Word :=
  match r with
  | .csr => readCsr s a
  | .blkmeta => readMeta s r a
  | .mbmeta => readMeta s r a
  | .seg => readRam s.mem a w
  | .coef => readRam s.mem a w

/-- The port returns `v` to the host (log 10). -/
def State.reply (s : State) (v : Word) : State := { s with port := { s.port with replies := v :: s.port.replies } }

/-- The access waits for the phase to return to IDLE (20 R79). -/
def State.stall (s : State) (x : Access) : State := { s with port := { s.port with stalled := s.port.stalled ++ [x] } }

/-- A host read (20 R73 to R76, R79, R80). While BUSY six registers read as a free word of 32 bits, bits [31:12] of BITPOS
included: DESIGN CHOICE (logs 5 and 16). -/
def hostRead (addr : BitVec 16) (w : Width) (s : State) : State :=
  let a := addr.toNat
  match legalRegion a w with
  | none => s.markBuserr.reply 0
  | some .csr =>
    if s.phase = .busy ∧ unspecifiedBusy a = true then
      { s.reply (Config.freeWord s.fresh a) with fresh := s.fresh + 1 }
    else s.reply (readCsr s a)
  | some r => if s.phase = .busy then s.stall (.read addr w) else s.reply (readLegal s r a w)

/-! ### Writes -/

/-- Soft reset: the command in flight is aborted, every CSR takes its reset value, IDLE (70 R382). -/
def softReset (s : State) : State :=
  let t := if s.phase = .busy then abortCommand s else s
  { t with phase := .idle, wait := 0, csr := .reset }

/-- A command word is accepted (10 R25); P_LATENCY's next value says how many slots it takes (70 R395, log 3). -/
def acceptCommand (v : Word) (s : State) : State :=
  { s with
    phase := .busy
    wait := s.port.latency.headD 1 - 1
    csr := { s.csr with cmd := v }
    port := { s.port with latency := s.port.latency.tail } }

/-- A write refused while BUSY (60 R348), else the write. -/
def refuseBusy (s : State) (t : State) : State := if s.phase = .busy then s.markReject else t

/-- A legal CSR write (10 R22 to R35). -/
def writeCsr (a : Nat) (v : Word) (s : State) : State :=
  match a with
  | 0x04 => if v.getLsbD 31 then softReset s else refuseBusy s { s with csr := { s.csr with ctrl := .ofWord v } }
  | 0x08 => refuseBusy s (acceptCommand v s)
  | 0x0C => s.setStatus (s.csr.status.clear v)
  | 0x10 => refuseBusy s { s with csr := { s.csr with arg0 := v } }
  | 0x24 => refuseBusy s (s.setBitpos (v.setWidth 12))
  | 0x28 => refuseBusy s { s with csr := { s.csr with thr248 := v } }
  | 0x2C => refuseBusy s { s with csr := { s.csr with clsthrY := v.setWidth 24 } }
  | 0x30 => refuseBusy s { s with csr := { s.csr with clsthrC := v.setWidth 24 } }
  | 0x34 => refuseBusy s (s.setOvfCount 0)
  | _ => s

/-- The bytes a write of width `w` stores, lowest address first (20 R73). -/
def writeBytes (w : Width) (v : Word) : List Byte :=
  match w with
  | .byte => [v.setWidth 8]
  | .half => halfBytes (v.setWidth 16)
  | .word => wordBytes v

/-- A legal metadata write: only the RW fields change (10 R38, R40, R42). -/
def writeMeta (r : Region) (a : Nat) (v : Word) (s : State) : State :=
  match r with
  | .blkmeta =>
    let b := (a - 0x0100) / 8
    if (a - 0x0100) / 4 % 2 = 0 then s.setBlk b ((s.blkAt b).writeWord0 v) else s
  | .mbmeta =>
    let m := (a - 0x0200) / 12
    if (a - 0x0200) / 4 % 3 = 0 then s.setMb m ((s.mbAt m).writeWord0 v)
    else if (a - 0x0200) / 4 % 3 = 1 then s.setMb m ((s.mbAt m).writeWord1 v)
    else s
  | _ => s

/-- A legal write to metadata or RAM (20 R73). -/
def writeLegal (r : Region) (a : Nat) (w : Width) (v : Word) (s : State) : State :=
  match r with
  | .csr => writeCsr a v s
  | .blkmeta => writeMeta r a v s
  | .mbmeta => writeMeta r a v s
  | .seg => s.setMem (s.mem.store a (writeBytes w v))
  | .coef => s.setMem (s.mem.store a (writeBytes w v))

/-- A host write (20 R73 to R76, R79). -/
def hostWrite (addr : BitVec 16) (w : Width) (v : Word) (s : State) : State :=
  let a := addr.toNat
  match legalRegion a w with
  | none => s.markBuserr
  | some .csr => writeCsr a v s
  | some r => if s.phase = .busy then s.stall (.write addr w v) else writeLegal r a w v s

/-! ### Events -/

/-- One access of the host port. -/
def hostAccess (x : Access) (s : State) : State :=
  match x with
  | .read addr w => hostRead addr w s
  | .write addr w v => hostWrite addr w v s

/-- BLK[b] with every bit free (93 U1). -/
def freeBlk (k b : Nat) : BlkMeta :=
  let w := freeBlkWord k b 0
  let v := freeBlkWord k b 1
  { dctMode := w.getLsbD 0, cls := w.extractLsb' 1 2, fin := w.getLsbD 4, eob := w.getLsbD 5, mark := w.getLsbD 6,
    overBudget := w.getLsbD 7, pos := w.extractLsb' 8 7, offset := v.extractLsb' 0 12, endPos := v.extractLsb' 16 12 }

/-- MB[m] with every bit free (93 U1). -/
def freeMb (k m : Nat) : MbMeta :=
  let w := freeMbWord k m 0
  let v := freeMbWord k m 1
  let u := freeMbWord k m 2
  { qno := w.extractLsb' 0 4, sta := w.extractLsb' 4 4, vlcError := w.extractLsb' 8 8, eobCount := w.extractLsb' 16 3,
    k := v.extractLsb' 0 5, j := v.extractLsb' 5 3, i := v.extractLsb' 8 4,
    x := u.extractLsb' 0 10, y := u.extractLsb' 16 10 }

/-- SEG and COEF with every byte free (93 U1). -/
def freeRam (k : Nat) : Memory :=
  (List.range 30).foldl (fun m b => storeCoefs m b (freeCoefs k b)) (abortSegBytes k 0 400 [])

/-- The hardware reset input: as power-on, P_RAM_INIT free; what the host does goes on (70 R380, R381; log 8). -/
def hardReset (s : State) : State :=
  { s with
    phase := .idle
    wait := 0
    csr := .reset
    blk := .ofFn fun b => freeBlk s.fresh b
    mb := .ofFn fun m => freeMb s.fresh m
    mem := freeRam s.fresh
    fresh := s.fresh + 1 }

/-- One slot of the host's list; `s.port.host` is what follows it (log 17 for a driver's steps). -/
def hostEvent (e : HostEvent) (s : State) : State :=
  match e with
  | .idle => s
  | .access x => hostAccess x s
  | .hardReset => hardReset s
  | .await => if s.phase = .busy then s.setHost (.await :: s.port.host) else s
  | .rewrite addr clear set => hostWrite addr .word ((s.port.replies.headD 0 &&& ~~~clear) ||| set) s
  | .putCode => s.setHost (putSlices (codeOfReplies s.port.replies) ++ s.port.host)

/-- The next slot of the host's list happens; at its end nothing more does (log 6). -/
def hostSlot (s : State) : State :=
  match s.port.host with
  | [] => s
  | e :: rest => hostEvent e (s.setHost rest)

/-- An event while IDLE: an access that was stalled is performed first (20 R79, log 11), then the host's next slot. -/
def idleSlot (s : State) : State :=
  match s.port.stalled with
  | x :: rest => hostAccess x { s with port := { s.port with stalled := rest } }
  | [] => hostSlot s

/-- A slot while the command in flight still runs (70 R395, log 3). -/
def busySlot (s : State) : State := hostSlot { s with wait := s.wait - 1 }

end Sys2Proof.Machine
end

