-- ==== Sys2Proof/Machine/Dispatch.lean ====
section
/-! DEFINITION. The dispatch of a command to its meaning: one arm per constructor (30_encoding.md R104). -/

namespace Sys2Proof.Machine

open Sys2Proof

/-- One command executed atomically and completed (60_exceptions.md R343, R344). -/
def exec (i : Instr) (s : State) : Host.Outcome State Fault Refusal :=
  match i with
  | .nop => Sys2Proof.Machine.execNop s
  | .segClear => Sys2Proof.Machine.execSegClear s
  | .brPeek n => Sys2Proof.Machine.execBrPeek n s
  | .brSkip n => Sys2Proof.Machine.execBrSkip n s
  | .bwPut n => Sys2Proof.Machine.execBwPut n s
  | .vlcDecSym n => Sys2Proof.Machine.execVlcDecSym n s
  | .vlcEncSym => Sys2Proof.Machine.execVlcEncSym s
  | .vlcBits => Sys2Proof.Machine.execVlcBits s
  | .vlcBlkBits b => Sys2Proof.Machine.execVlcBlkBits b s
  | .zzToScan b => Sys2Proof.Machine.execZzToScan b s
  | .zzToNat b => Sys2Proof.Machine.execZzToNat b s
  | .place411 => Sys2Proof.Machine.execPlace411 s
  | .place420 => Sys2Proof.Machine.execPlace420 s
  | .placeMb m => Sys2Proof.Machine.execPlaceMb m s
  | .weightFwd b => Sys2Proof.Machine.execWeightFwd b s
  | .weightInv b => Sys2Proof.Machine.execWeightInv b s
  | .classify b => Sys2Proof.Machine.execClassify b s
  | .qsearch m => Sys2Proof.Machine.execQsearch m s
  | .quant b => Sys2Proof.Machine.execQuant b s
  | .dequant b => Sys2Proof.Machine.execDequant b s
  | .fdct b => Sys2Proof.Machine.execFdct b s
  | .idct b => Sys2Proof.Machine.execIdct b s
  | .need248 b => Sys2Proof.Machine.execNeed248 b s
  | .vlcDecSeg => Sys2Proof.Machine.execVlcDecSeg s
  | .vlcEncSeg => Sys2Proof.Machine.execVlcEncSeg s
  | .decodeSeg => Sys2Proof.Machine.execDecodeSeg s
  | .encodeSeg => Sys2Proof.Machine.execEncodeSeg s

end Sys2Proof.Machine
end

