-- ==== Sys2Proof/Machine/Engine.lean ====
section
/-! DEFINITION. The engine runs the captured command word (60_exceptions.md R343), and the placing of a word as the command in
flight. -/

namespace Sys2Proof.Machine

open Sys2Proof

/-- The captured command is decoded and executed; a reserved OP fails with ILLEGAL_OP (30 R106, 60 R340, R343). -/
def runCaptured (s : State) : Host.Outcome State Fault Refusal :=
  match decodeWord s.csr.cmd with
  | .ok i => exec i s
  | .error _ => .next (fail .illegalOp s)

/-- The command word `v` captured, with no slot left before it runs (10 R25, log 9). -/
def State.capture (s : State) (v : Word) : State :=
  { s with phase := .busy, wait := 0, csr := { s.csr with cmd := v } }

end Sys2Proof.Machine
end

