-- ==== Sys2Proof/Machine/Step.lean ====
section
/-! DEFINITION. One step of DVCORE: one event of the total order of host accesses and atomic command executions
(20_memory.md R81). -/

namespace Sys2Proof.Machine

open Sys2Proof

/-- One event. While BUSY with no slot left, the captured command executes and completes; else a host-port slot happens. -/
def step (s : State) : Host.Outcome State Fault Refusal :=
  match s.phase with
  | .idle => .next (idleSlot s)
  | .busy => if s.wait = 0 then runCaptured s else .next (busySlot s)

/-- `s` with the word of the opcode table captured as the command in flight, due at the next step. DVCORE fetches nothing
(10 R20): a command comes to run by a host write of CMD, and this stands for that write accepted (log 9). -/
def State.withFetchWord (s : State) (nbits w : Nat) : State := s.capture (tableWord nbits w)

end Sys2Proof.Machine
end

