-- ==== Sys2Proof/Safety.lean ====
section
/-! DEFINITION. What counts as a sound state of DVCORE and a safe event, and the words the statements are made of: what a command
leaves behind when it completes or fails, and what it leaves alone. -/

namespace Sys2Proof.Machine

open Sys2Proof

/-! ### The invariant -/

/-- Every listed byte lies in SEG or COEF (20_memory.md R72). -/
abbrev State.memInRam (s : State) : Prop :=
  ∀ c ∈ s.mem, regionOf c.1 = some .seg ∨ regionOf c.1 = some .coef

/-- An access that stalls while BUSY: a legal access to metadata or RAM (20_memory.md R79). -/
def stalls : Access → Bool
  | .read addr w => (legalRegion addr.toNat w).any (· != .csr)
  | .write addr w _ => (legalRegion addr.toNat w).any (· != .csr)

/-- The invariant of the machine: canonical memory inside the RAM, CTRL.PASSES 1, 2 or 3 (10 R23), ERRCODE at most 5
(60 R340), no slot pending while IDLE, and only accesses that stall among the stalled ones. -/
structure State.Inv (s : State) : Prop where
  mem_wf : s.mem.wf
  mem_in_ram : s.memInRam
  passes_legal : s.csr.ctrl.passes ≠ 0
  errcode_legal : s.csr.status.errcode ≤ 5
  idle_no_wait : s.phase = .idle → s.wait = 0
  stalled_stall : ∀ x ∈ s.port.stalled, stalls x = true

/-- What counts as a safe event: the machine goes on. Every event of DVCORE is one (INVENTORY.md, Faults). -/
def goesOn (o : Host.Outcome State Fault Refusal) : Prop := ∃ t, o = .next t

/-! ### What a command leaves -/

/-- `t` follows `s` by a command that succeeded: `Complete(v, 0)` (60 R344), and everything that no command writes is as it was:
CTRL, CMD, ARG0, the thresholds, ERRCMD, ERR, the host-side reports and the port (10 R28, R34; 20 R84; 60 R348). -/
structure Completed (s t : State) : Prop where
  idle : t.phase = .idle
  no_wait : t.wait = 0
  done : t.csr.status.done = true
  errcode : t.csr.status.errcode = 0
  err : t.csr.status.err = s.csr.status.err
  reject : t.csr.status.reject = s.csr.status.reject
  buserr : t.csr.status.buserr = s.csr.status.buserr
  errcmd : t.csr.errcmd = s.csr.errcmd
  ctrl : t.csr.ctrl = s.csr.ctrl
  cmd : t.csr.cmd = s.csr.cmd
  arg0 : t.csr.arg0 = s.csr.arg0
  thr248 : t.csr.thr248 = s.csr.thr248
  clsthrY : t.csr.clsthrY = s.csr.clsthrY
  clsthrC : t.csr.clsthrC = s.csr.clsthrC
  port : t.port = s.port
  fresh : t.fresh = s.fresh

/-- RES0, RES1 and RES2 keep their values. -/
structure ResultsKept (s t : State) : Prop where
  res0 : t.csr.res0 = s.csr.res0
  res1 : t.csr.res1 = s.csr.res1
  res2 : t.csr.res2 = s.csr.res2

/-- The soft reports TRUNC, VLCERR and QOVER and OVF_COUNT keep their values. -/
structure ReportsKept (s t : State) : Prop where
  trunc : t.csr.status.trunc = s.csr.status.trunc
  vlcerr : t.csr.status.vlcerr = s.csr.status.vlcerr
  qover : t.csr.status.qover = s.csr.status.qover
  ovfCount : t.csr.ovfCount = s.csr.ovfCount

/-- Every BLK[b] and MB[m] keeps its value. -/
structure MetaKept (s t : State) : Prop where
  blk : t.blk = s.blk
  mb : t.mb = s.mb

/-- Every byte of SEG and COEF reads as before. -/
def BytesKept (s t : State) : Prop := ∀ a, t.mem.byte a = s.mem.byte a

/-- Every byte outside the `len` bytes from address `base` reads as before. -/
def BytesKeptOutside (base len : Nat) (s t : State) : Prop :=
  ∀ a, a < base ∨ base + len ≤ a → t.mem.byte a = s.mem.byte a

/-- `t` follows `s` by a command that failed with code `e`: `Complete(v, code)`, the failing word in ERRCMD, and every other
register, status bit, metadata field and byte as it was (60 R343 to R345). -/
structure Failed (e : ErrCode) (s t : State) : Prop where
  idle : t.phase = .idle
  no_wait : t.wait = 0
  done : t.csr.status.done = true
  err : t.csr.status.err = true
  errcode : t.csr.status.errcode = e.number
  errcmd : t.csr.errcmd = s.csr.cmd
  reject : t.csr.status.reject = s.csr.status.reject
  buserr : t.csr.status.buserr = s.csr.status.buserr
  reports : ReportsKept s t
  results : ResultsKept s t
  ctrl : t.csr.ctrl = s.csr.ctrl
  cmd : t.csr.cmd = s.csr.cmd
  arg0 : t.csr.arg0 = s.csr.arg0
  bitpos : t.csr.bitpos = s.csr.bitpos
  thr248 : t.csr.thr248 = s.csr.thr248
  clsthrY : t.csr.clsthrY = s.csr.clsthrY
  clsthrC : t.csr.clsthrC = s.csr.clsthrC
  meta_kept : MetaKept s t
  bytes_kept : BytesKept s t
  port : t.port = s.port
  fresh : t.fresh = s.fresh

/-- `t` follows `s` by a command that succeeded and may have written RES0 only. -/
structure OnlyRes0 (s t : State) : Prop where
  completed : Completed s t
  res1 : t.csr.res1 = s.csr.res1
  res2 : t.csr.res2 = s.csr.res2
  bitpos : t.csr.bitpos = s.csr.bitpos
  reports : ReportsKept s t
  meta_kept : MetaKept s t
  bytes_kept : BytesKept s t

/-- `t` follows `s` by a command that succeeded and may have written COEF[b] only: the 128 bytes from `coefAddr b 0`. -/
structure OnlyBlock (b : Nat) (s t : State) : Prop where
  completed : Completed s t
  results : ResultsKept s t
  bitpos : t.csr.bitpos = s.csr.bitpos
  reports : ReportsKept s t
  meta_kept : MetaKept s t
  bytes_kept : BytesKeptOutside (coefAddr b 0) 128 s t

/-- `t` follows `s` by a command that succeeded and may have written RES0 and BLK[b] only. -/
structure OnlyBlkRes0 (b : Nat) (s t : State) : Prop where
  completed : Completed s t
  res1 : t.csr.res1 = s.csr.res1
  res2 : t.csr.res2 = s.csr.res2
  bitpos : t.csr.bitpos = s.csr.bitpos
  reports : ReportsKept s t
  mb : t.mb = s.mb
  blk : ∀ x, x ≠ b → t.blkAt x = s.blkAt x
  bytes_kept : BytesKept s t

/-- The command ends as failed with code `e` and nothing else. -/
def failsWith (i : Instr) (s : State) (e : ErrCode) : Prop := ∃ t, exec i s = .next t ∧ Failed e s t

/-- Commands executed one after another, each to its completion (47 R323). -/
def execAll : List Instr → State → Host.Outcome State Fault Refusal
  | [], s => .next s
  | i :: is, s =>
    match exec i s with
    | .next t => execAll is t
    | .fault f => .fault f
    | .refused r => .refused r

/-- `n` steps of the machine. -/
def stepN : Nat → State → Host.Outcome State Fault Refusal
  | 0, s => .next s
  | n + 1, s =>
    match step s with
    | .next t => stepN n t
    | .fault f => .fault f
    | .refused r => .refused r

/-- The machine comes from `s` to `t` in some number of steps. -/
def Reaches (s t : State) : Prop := ∃ n, stepN n s = .next t

/-- The single-stage commands of DECODE_SEG, in order (47 R321). -/
def decodeSteps : List Instr :=
  .vlcDecSeg :: (List.range 30).flatMap fun b => [.dequant b, .weightInv b, .idct b]

/-- The single-stage commands of ENCODE_SEG under CTRL, in order (47 R322). -/
def encodeSteps (c : Ctrl) : List Instr :=
  ((List.range 30).flatMap fun b =>
    (if c.auto248 then [Instr.need248 b] else []) ++ [.fdct b, .weightFwd b] ++ (if c.autoq then [.classify b] else [])) ++
  ((if c.autoq then (List.range 5).map .qsearch else []) ++
  ((List.range 30).map .quant ++ [.vlcEncSeg]))

/-! ### The fields a command word has, and the blocks its codes stand for -/

/-- The format of a command uses IDX: B and M (30 R101, R105). -/
def usesIdx (i : Instr) : Bool :=
  [0x13, 0x18, 0x19, 0x1C, 0x20, 0x21, 0x22, 0x23, 0x24, 0x25, 0x28, 0x29, 0x2A].contains i.op.toNat

/-- The format of a command uses IMM: I and IA (30 R101, R105). -/
def usesImm (i : Instr) : Bool := [0x08, 0x09, 0x0A, 0x10].contains i.op.toNat

/-- The block that AC symbols stand for: from scan position `pos` on, each symbol skips `run` positions and fills one
(42 R154, R159). -/
def fillEntries (z : List Nat) : Nat → List Entry → List Int → List Int
  | _, [], c => c
  | pos, e :: es, c =>
    fillEntries z (pos + e.run + 1) es (c.set (z.getD (pos + e.run) 0) (if e.sign then -(e.amp : Int) else e.amp))

/-- The blocks of a group after `r` whole sweeps and the sweep of the blocks before `c`: every block without its last `r` entries,
and the blocks before `c` without one more (46 R295). -/
def afterSweeps (es : List (List Entry)) (r c : Nat) : List (List Entry) :=
  es.mapIdx fun j x => x.take (x.length - r - (if j < c then 1 else 0))

/-- The fit step left `kept` of the group `es` with capacity `cap`: a group that fits keeps every entry; else entries went in the
rounds of the sweeps, the last of them from a block `c` that still had one, the group fits, and with that entry put back it does
not (46 R295). -/
def FitRule (cap : Nat) (es kept : List (List Entry)) : Prop :=
  ((es.map blockBits).sum ≤ cap ∧ kept = es) ∨
  (cap < (es.map blockBits).sum ∧ (kept.map blockBits).sum ≤ cap ∧
    ∃ r c, r < (es.getD c []).length ∧ kept = afterSweeps es r (c + 1) ∧ cap < ((afterSweeps es r c).map blockBits).sum)

/-- The positions of block b's own AC area, in order (46 R281, R297). -/
def acPlaces (b : Nat) : List Nat := List.range' (640 * (b / 6) + BLKSTART.getD (b % 6) 0 + 12) (if b % 6 < 4 then 100 else 68)

/-- The positions of macroblock m that its blocks' codes leave free in their own areas, in order (46 R297, pass 2's Q). -/
def freePlaces (codes : Nat → Bits) (m : Nat) : List Nat :=
  (List.range 6).flatMap fun t => (acPlaces (6 * m + t)).drop (codes (6 * m + t)).length

/-- The bits of macroblock m's codes that their own areas do not hold, in order (46 R297, the R[b] after pass 1). -/
def restBits (codes : Nat → Bits) (m : Nat) : Bits :=
  (List.range 6).flatMap fun t => (codes (6 * m + t)).drop (acPlaces (6 * m + t)).length

/-- Every position that the three passes write, with its bit: each code into its own area; each macroblock's rests into its free
positions; what is then left of the rests into the free positions left in the segment (46 R297). -/
def placedBits (codes : Nat → Bits) : List (Nat × Bool) :=
  (List.range 30).flatMap (fun b => (acPlaces b).zip (codes b)) ++
  ((List.range 5).flatMap (fun m => (freePlaces codes m).zip (restBits codes m)) ++
  ((List.range 5).flatMap fun m => (freePlaces codes m).drop (restBits codes m).length).zip
    ((List.range 5).flatMap fun m => (restBits codes m).drop (freePlaces codes m).length))

/-- A kept list of entries is the original with its last entries removed (46 R295). -/
def Truncates (kept old : List (List Entry)) : Prop :=
  kept.length = old.length ∧ ∀ b, kept.getD b [] <+: old.getD b []

end Sys2Proof.Machine
end

