-- ==== Sys2Proof/Certificates/Slice0/Obligations.lean ====
section
/-! DEFINITION. The statements about DVCORE for the provers. Each formalises the rule or rules its docstring names. -/

open Sys2Proof Sys2Proof.Machine

/-! ### Encoding, dispatch and completion -/

/-- 30 R100, R101, R108: the bytes of every well-formed command decode to it, every operand at every value its field admits, and
the bytes that follow are left. -/
def Obligations.DecodeEncode : Prop :=
  ∀ (i : Instr) (rest : List Byte), i.wf = true → decodeBytes (wordBytes (encode i) ++ rest) = .ok (i, rest)

/-- 30 R101, R104: the command a word decodes to is fixed by OP and by the fields its format uses; bits [15:13] and the fields a
format does not use have no effect. What decodes is well formed and has the word's OP. -/
def Obligations.DecodeUsesFormat : Prop :=
  ∀ (v w : Word) (i : Instr), decodeWord v = .ok i →
    i.wf = true ∧ i.op = opField v ∧
    (opField w = opField v → (usesIdx i = true → idxField w = idxField v) → (usesImm i = true → immField w = immField v) →
      decodeWord w = .ok i)

/-- 30 R106, 60 R340: the reserved OP values are the 229 of the ranges listed, and the engine fails a command with one of them with
ILLEGAL_OP, changing nothing but the completion state. -/
def Obligations.ReservedOpFails : Prop :=
  (∀ w : Word, decodeWord w = .error (.reservedOp (opField w)) ↔
    ∃ r ∈ [(0x02, 0x07), (0x0B, 0x0F), (0x14, 0x17), (0x1D, 0x1F), (0x26, 0x27), (0x2B, 0x2F), (0x32, 0x37), (0x3A, 0xFF)],
      r.1 ≤ (opField w).toNat ∧ (opField w).toNat ≤ r.2) ∧
  (∀ (s : State) (e : DecodeError), s.phase = .busy → s.wait = 0 → decodeWord s.csr.cmd = .error e →
    ∃ t, step s = .next t ∧ Failed .illegalOp s t)

/-- 60 R343 with the model's step (log 3, 9): while BUSY with no slot left the captured word is decoded and executed; before that
a host-port slot passes; while IDLE the next host event happens; and a word placed by withFetchWord is executed by the next step. -/
def Obligations.StepRunsCommand : Prop :=
  (∀ (s : State) (i : Instr), s.phase = .busy → s.wait = 0 → decodeWord s.csr.cmd = .ok i → step s = exec i s) ∧
  (∀ s : State, s.phase = .busy → s.wait ≠ 0 → step s = .next (busySlot s)) ∧
  (∀ s : State, s.phase = .idle → step s = .next (idleSlot s)) ∧
  (∀ (s : State) (i : Instr), i.wf = true → step (s.withFetchWord 32 (encode i).toNat) = exec i (s.capture (encode i)))

/-- 30 R105, R108 and the encodings of 95_test_vectors.md: words written out from the spec decode to the commands they stand for,
one per family, with ignored fields set in some. -/
def Obligations.DecodedWords : Prop :=
  decodeWord 0x000C0008 = .ok (.brPeek 12) ∧ decodeWord 0x00000728 = .ok (.fdct 7) ∧ decodeWord 0x00000000 = .ok .nop ∧
  decodeWord 0xFFFF0000 = .ok .nop ∧ decodeWord 0x0018000A = .ok (.bwPut 24) ∧ decodeWord 0x00100010 = .ok (.vlcDecSym 16) ∧
  decodeWord 0x00001D13 = .ok (.vlcBlkBits 29) ∧ decodeWord 0x0000021C = .ok (.placeMb 2) ∧
  decodeWord 0x00000423 = .ok (.qsearch 4) ∧ decodeWord 0x0000E728 = .ok (.fdct 7) ∧ decodeWord 0x12340038 = .ok .decodeSeg ∧
  decodeWord 0x00001F39 = .ok .encodeSeg ∧ decodeWord 0x00000031 = .ok .vlcEncSeg ∧
  decodeWord 0x00000002 = .error (.reservedOp 0x02) ∧ decodeWord 0x000000FF = .error (.reservedOp 0xFF)

/-- 60 R344: every command in every state, failed or not, ends with Complete: IDLE, DONE, ERRCODE its code, and for a failure ERR
set and ERRCMD the command word; a failed command changes nothing else (R343, R345). The same of a step that runs the captured
word, a reserved one included. -/
def Obligations.AcceptedCommandCompletes : Prop :=
  (∀ (i : Instr) (s : State), ∃ t, exec i s = .next t ∧ (Completed s t ∨ ∃ e, e ≠ .illegalOp ∧ Failed e s t)) ∧
  (∀ s : State, s.phase = .busy → s.wait = 0 → ∃ t, step s = .next t ∧ (Completed s t ∨ ∃ e, Failed e s t))

/-- 60 R341: a block index above 29 or a macroblock index above 4 fails every command of formats B and M with BAD_INDEX. -/
def Obligations.BadIndexFails : Prop :=
  (∀ (b : Nat) (s : State), 29 < b →
    ∀ i ∈ [Instr.vlcBlkBits b, .zzToScan b, .zzToNat b, .weightFwd b, .weightInv b, .classify b, .quant b, .dequant b, .fdct b,
      .idct b, .need248 b], failsWith i s .badIndex) ∧
  (∀ (m : Nat) (s : State), 4 < m → ∀ i ∈ [Instr.qsearch m, .placeMb m], failsWith i s .badIndex)

/-! ### Bit reader and writer -/

/-- 47 R320: NOP does nothing but complete, and every word with OP 0x00 is a NOP. -/
def Obligations.NopResult : Prop :=
  (∀ w : Word, opField w = 0x00 → decodeWord w = .ok .nop) ∧
  ∀ s : State, ∃ t, exec .nop s = .next t ∧ Completed s t ∧ ResultsKept s t ∧ ReportsKept s t ∧ t.csr.bitpos = s.csr.bitpos ∧
    MetaKept s t ∧ BytesKept s t

/-- 41 R135: SEG_CLEAR zeroes the 400 bytes of SEG and BITPOS, and changes nothing else. -/
def Obligations.SegClearResult : Prop :=
  (∀ w : Word, opField w = 0x01 → decodeWord w = .ok .segClear) ∧
  ∀ s : State, ∃ t, exec .segClear s = .next t ∧ Completed s t ∧ ResultsKept s t ∧ ReportsKept s t ∧ MetaKept s t ∧
    t.csr.bitpos = 0 ∧ (∀ a, a < 400 → segByte t.mem a = 0x00) ∧ BytesKeptOutside 0x0400 400 s t

/-- 41 R132: BR_PEEK n reads the n bits at BITPOS into RES0, the first the most significant, and writes nothing else. A count
outside 1..24 fails with BAD_ARG; else bits past 3200 fail with BIT_RANGE. -/
def Obligations.BrPeekResult : Prop :=
  (∀ w : Word, opField w = 0x08 → decodeWord w = .ok (.brPeek (immField w))) ∧
  ∀ (n : Nat) (s : State),
    (1 ≤ n → n ≤ 24 → s.csr.bitpos.toNat + n ≤ 3200 →
      ∃ t, exec (.brPeek n) s = .next t ∧ OnlyRes0 s t ∧
        (∀ i, i < n → t.csr.res0.getLsbD (n - 1 - i) = segBit s.mem (s.csr.bitpos.toNat + i)) ∧
        ∀ i, n ≤ i → t.csr.res0.getLsbD i = false) ∧
    (n < 1 ∨ 24 < n → failsWith (.brPeek n) s .badArg) ∧
    (1 ≤ n → n ≤ 24 → 3200 < s.csr.bitpos.toNat + n → failsWith (.brPeek n) s .bitRange)

/-- 41 R133: BR_SKIP n advances BITPOS by n and writes nothing else; past 3200 it fails with BIT_RANGE. -/
def Obligations.BrSkipResult : Prop :=
  (∀ w : Word, opField w = 0x09 → decodeWord w = .ok (.brSkip (immField w))) ∧
  ∀ (n : Nat) (s : State),
    (s.csr.bitpos.toNat + n ≤ 3200 →
      ∃ t, exec (.brSkip n) s = .next t ∧ Completed s t ∧ ResultsKept s t ∧ ReportsKept s t ∧ MetaKept s t ∧ BytesKept s t ∧
        t.csr.bitpos.toNat = s.csr.bitpos.toNat + n) ∧
    (3200 < s.csr.bitpos.toNat + n → failsWith (.brSkip n) s .bitRange)

/-- 41 R134: BW_PUT n ORs the low n bits of ARG0 into the bits of SEG from BITPOS on, leaves every other bit and byte, and sets
BITPOS and RES0 to the new position. The failures are those of BR_PEEK. -/
def Obligations.BwPutResult : Prop :=
  (∀ w : Word, opField w = 0x0A → decodeWord w = .ok (.bwPut (immField w))) ∧
  ∀ (n : Nat) (s : State),
    (1 ≤ n → n ≤ 24 → s.csr.bitpos.toNat + n ≤ 3200 →
      ∃ t, exec (.bwPut n) s = .next t ∧ Completed s t ∧ t.csr.res1 = s.csr.res1 ∧ t.csr.res2 = s.csr.res2 ∧
        ReportsKept s t ∧ MetaKept s t ∧
        t.csr.bitpos.toNat = s.csr.bitpos.toNat + n ∧ t.csr.res0.toNat = s.csr.bitpos.toNat + n ∧
        (∀ i, i < n → segBit t.mem (s.csr.bitpos.toNat + i) =
          (segBit s.mem (s.csr.bitpos.toNat + i) || s.csr.arg0.getLsbD (n - 1 - i))) ∧
        (∀ p, p < s.csr.bitpos.toNat ∨ s.csr.bitpos.toNat + n ≤ p → segBit t.mem p = segBit s.mem p) ∧
        ∀ a, a < 0x0400 + s.csr.bitpos.toNat / 8 ∨ 0x0400 + (s.csr.bitpos.toNat + n - 1) / 8 < a →
          t.mem.byte a = s.mem.byte a) ∧
    (n < 1 ∨ 24 < n → failsWith (.bwPut n) s .badArg) ∧
    (1 ≤ n → n ≤ 24 → 3200 < s.csr.bitpos.toNat + n → failsWith (.bwPut n) s .bitRange)

/-! ### The VLC symbol coder -/

/-- 42 R160: VLC_DEC_SYM decodes the first nv bits of ARG0[15:0] and lays the result out in RES0; nv above 16 is BAD_ARG. -/
def Obligations.VlcDecSymResult : Prop :=
  ∀ (nv : Nat) (s : State),
    (nv ≤ 16 →
      ∃ t, exec (.vlcDecSym nv) s = .next t ∧ OnlyRes0 s t ∧
        let d := vlcDecode ((List.range nv).map fun i => s.csr.arg0.getLsbD (15 - i))
        (t.csr.res0.extractLsb' 0 8).toNat = d.amp ∧ (t.csr.res0.extractLsb' 8 6).toNat = d.run ∧
        t.csr.res0.getLsbD 14 = false ∧ t.csr.res0.getLsbD 15 = d.sign ∧ (t.csr.res0.extractLsb' 16 5).toNat = d.len ∧
        t.csr.res0.extractLsb' 21 3 = 0 ∧
        t.csr.res0.extractLsb' 24 2 = (match d.kind with | .sym => 0 | .eob => 1 | .nobits => 2) ∧
        t.csr.res0.extractLsb' 26 6 = 0) ∧
    (16 < nv → failsWith (.vlcDecSym nv) s .badArg)

/-- 42 R161, R162: VLC_ENC_SYM leaves the code of ARG0's symbol right-aligned in RES1:RES0 and its length in RES2; VLC_BITS leaves
the length in RES0. -/
def Obligations.VlcEncSymResult : Prop :=
  ∀ s : State,
    let c := vlcEncode (s.csr.arg0.extractLsb' 8 6).toNat (s.csr.arg0.extractLsb' 0 8).toNat (s.csr.arg0.getLsbD 16)
    (∃ t, exec .vlcEncSym s = .next t ∧ Completed s t ∧ t.csr.bitpos = s.csr.bitpos ∧ ReportsKept s t ∧ MetaKept s t ∧
      BytesKept s t ∧ t.csr.res2.toNat = c.length ∧
      (∀ i, i < 32 → t.csr.res0.getLsbD i = (decide (i < c.length) && c.getD (c.length - 1 - i) false)) ∧
      ∀ i, i < 32 → t.csr.res1.getLsbD i = (decide (32 + i < c.length) && c.getD (c.length - 1 - (32 + i)) false)) ∧
    ∃ t, exec .vlcBits s = .next t ∧ OnlyRes0 s t ∧ t.csr.res0.toNat = c.length

/-- 42 R155, R156: VlcEncode for every run 0..63 and amplitude 0..255, as the rule's cases give it; its length is 3..42 and does
not depend on the sign. -/
def Obligations.VlcEncodeRule : Prop :=
  ∀ (run amp : Nat) (sign : Bool), run ≤ 63 → amp ≤ 255 →
    vlcEncode run amp sign =
      (match tableCode run amp with
      | some c => c ++ (if amp = 0 then [] else [sign])
      | none =>
        if amp = 0 ∧ 6 ≤ run ∧ run ≤ 61 then runMarker ++ bitsOfNat 6 run
        else if amp = 0 ∧ 62 ≤ run then (runMarker ++ bitsOfNat 6 61) ++ (runMarker ++ bitsOfNat 6 (run - 62))
        else if run = 0 then ampMarker ++ (bitsOfNat 8 amp ++ [sign])
        else vlcEncode (run - 1) 0 false ++ vlcEncode 0 amp sign) ∧
    3 ≤ (vlcEncode run amp sign).length ∧ (vlcEncode run amp sign).length ≤ 42 ∧
    (vlcEncode run amp (!sign)).length = (vlcEncode run amp sign).length

/-- 42 R157, R158: VlcDecode on a string that begins with a code word gives its symbol, whatever follows; a result other than
NOBITS depends only on the bits it consumes; 16 bits never give NOBITS. -/
def Obligations.VlcDecodeRule : Prop :=
  (∀ rest : Bits, vlcDecode ([false, true, true, false] ++ rest) = ⟨.eob, 0, 0, false, 4⟩) ∧
  (∀ (r : Nat) (rest : Bits), r ≤ 63 → vlcDecode (runMarker ++ bitsOfNat 6 r ++ rest) = ⟨.sym, r, 0, false, 13⟩) ∧
  (∀ (a : Nat) (s : Bool) (rest : Bits), a ≤ 255 →
    vlcDecode (ampMarker ++ (bitsOfNat 8 a ++ [s]) ++ rest) = ⟨.sym, 0, a, if a = 0 then false else s, 16⟩) ∧
  (∀ e ∈ VLCTAB, ∀ (s : Bool) (rest : Bits),
    vlcDecode (e.bits ++ (if e.amp = 0 then [] else [s]) ++ rest) =
      ⟨.sym, e.run, e.amp, if e.amp = 0 then false else s, e.len + (if e.amp = 0 then 0 else 1)⟩) ∧
  (∀ t : Bits, (vlcDecode t).kind = .nobits → vlcDecode t = ⟨.nobits, 0, 0, false, 0⟩ ∧ t.length < 16) ∧
  ∀ t rest : Bits, (vlcDecode t).kind ≠ .nobits →
    (vlcDecode t).len ≤ t.length ∧ vlcDecode (t.take (vlcDecode t).len ++ rest) = vlcDecode t

/-- 42 R163: VLC_BLK_BITS b leaves in RES0 the 4 bits of EOB and the lengths of the block's symbol codes. An AC magnitude above 255
fails with AMP_RANGE. -/
def Obligations.VlcBlkBitsResult : Prop :=
  ∀ (b : Nat) (s : State), b ≤ 29 →
    ((∀ n, 1 ≤ n → n ≤ 63 → (coef s.mem b n).natAbs ≤ 255) →
      ∃ t, exec (.vlcBlkBits b) s = .next t ∧ OnlyRes0 s t ∧
        t.csr.res0.toNat =
          4 + ((blockEntries ((List.range 64).map (coef s.mem b)) (s.blkAt b).dctMode).map
            fun e => (vlcEncode e.run e.amp e.sign).length).sum) ∧
    ((∃ n, 1 ≤ n ∧ n ≤ 63 ∧ 255 < (coef s.mem b n).natAbs) → failsWith (.vlcBlkBits b) s .ampRange)

/-- 42 R154, R159: the entries of a block stand for exactly its AC coefficients: filling the scan positions they name, from position
1 on in a block that has only the DC, rebuilds the block. Every entry's amplitude is not 0. -/
def Obligations.BlockEntriesRebuild : Prop :=
  ∀ (c : List Int) (mode : Bool), c.length = 64 →
    fillEntries (zz mode) 1 (blockEntries c mode) ((List.replicate 64 0).set 0 (at0 c 0)) = c ∧
    ∀ e ∈ blockEntries c mode, e.amp ≠ 0 ∧ e.run ≤ 62

/-- 42 R159, 46 R286, R301 at one block: decoding the code of a block's entries from a fresh working state gives the block back,
reads EOB, counts no error and consumes exactly the code. -/
def Obligations.BlockRoundTrip : Prop :=
  ∀ (c : List Int) (w : Work) (rest : Bits), c.length = 64 → (∀ n, 1 ≤ n → n ≤ 63 → (at0 c n).natAbs ≤ 255) →
    w.pos = 1 → w.fin = false → w.err = 0 → w.carry = [] → w.coefs = (List.replicate 64 0).set 0 (at0 c 0) →
    let r := decodeRun w (blockCode (blockEntries c w.mode) ++ rest)
    r.1.coefs = c ∧ r.1.fin = true ∧ r.1.eob = true ∧ r.1.err = 0 ∧ r.1.carry = [] ∧
      r.2 = (blockCode (blockEntries c w.mode)).length

/-! ### Reorder and placement -/

/-- 43 R183: ZZ_TO_SCAN b permutes COEF[b] into scan order in place and writes nothing else; b > 29 fails with BAD_INDEX. -/
def Obligations.ZzToScanResult : Prop :=
  (∀ w : Word, opField w = 0x18 → decodeWord w = .ok (.zzToScan (idxField w))) ∧
  ∀ (b : Nat) (s : State),
    (b ≤ 29 → ∃ t, exec (.zzToScan b) s = .next t ∧ OnlyBlock b s t ∧
      ∀ i, i < 64 → coef t.mem b i = coef s.mem b ((if (s.blkAt b).dctMode then ZZ248 else ZZ88).getD i 0)) ∧
    (29 < b → failsWith (.zzToScan b) s .badIndex)

/-- 43 R184: ZZ_TO_NAT b permutes COEF[b] from scan order into natural order in place and writes nothing else; b > 29 fails with
BAD_INDEX. -/
def Obligations.ZzToNatResult : Prop :=
  (∀ w : Word, opField w = 0x19 → decodeWord w = .ok (.zzToNat (idxField w))) ∧
  ∀ (b : Nat) (s : State),
    (b ≤ 29 → ∃ t, exec (.zzToNat b) s = .next t ∧ OnlyBlock b s t ∧
      ∀ i, i < 64 → coef t.mem b ((if (s.blkAt b).dctMode then ZZ248 else ZZ88).getD i 0) = coef s.mem b i) ∧
    (29 < b → failsWith (.zzToNat b) s .badIndex)

/-- 43 R183, R184: ZZ_TO_NAT after ZZ_TO_SCAN with the same DCT_MODE is the identity on all of memory. -/
def Obligations.ZzInverse : Prop :=
  ∀ (b : Nat) (s : State), b ≤ 29 →
    ∃ t u, exec (.zzToScan b) s = .next t ∧ exec (.zzToNat b) t = .next u ∧ BytesKept s u

/-- 43 R191, R193 to R196: the positions of Place411 and Place420 by the rules' formulas, and PLACE411 and PLACE420 leave the
position of the macroblock in ARG0 in RES0, x in [9:0] and y in [25:16]. K > 26, J > 4 or I past the system's last row fails with
BAD_ARG. -/
def Obligations.PlaceResult : Prop :=
  (∀ i j k, j ≤ 4 → k ≤ 26 →
    placePos411 i j k =
      (if j = 4 ∧ 24 ≤ k then (704, 48 * i + 16 * (k - 24))
      else
        let n := k + (if j % 2 = 1 then 3 else 0)
        let row := if n / 6 % 2 = 0 then n % 6 else 5 - n % 6
        (32 * (n / 6 + [0, 4, 9, 13, 18].getD j 0), 48 * i + 8 * row)) ∧
    placePos420 i j k =
      (let row := if k / 3 % 2 = 0 then k % 3 else 2 - k % 3
       (16 * (k / 3 + 9 * j), 48 * i + 16 * row))) ∧
  ∀ s : State,
    let k := (s.csr.arg0.extractLsb' 0 5).toNat
    let j := (s.csr.arg0.extractLsb' 8 3).toNat
    let i := (s.csr.arg0.extractLsb' 16 4).toNat
    let imax := if s.csr.ctrl.sys then 11 else 9
    (k ≤ 26 → j ≤ 4 → i ≤ imax →
      (∃ t, exec .place411 s = .next t ∧ OnlyRes0 s t ∧ (t.csr.res0.extractLsb' 0 10).toNat = (placePos411 i j k).1 ∧
        (t.csr.res0.extractLsb' 16 10).toNat = (placePos411 i j k).2 ∧ t.csr.res0.extractLsb' 10 6 = 0 ∧
        t.csr.res0.extractLsb' 26 6 = 0) ∧
      ∃ t, exec .place420 s = .next t ∧ OnlyRes0 s t ∧ (t.csr.res0.extractLsb' 0 10).toNat = (placePos420 i j k).1 ∧
        (t.csr.res0.extractLsb' 16 10).toNat = (placePos420 i j k).2 ∧ t.csr.res0.extractLsb' 10 6 = 0 ∧
        t.csr.res0.extractLsb' 26 6 = 0) ∧
    (26 < k ∨ 4 < j ∨ imax < i → failsWith .place411 s .badArg ∧ failsWith .place420 s .badArg)

/-- 43 R197: PLACE_MB m records the position of MB[m]'s stored coordinates under CTRL.SAMPLING (placePos411 and placePos420, which
PlaceResult spells out) in MB[m].X and Y and in RES0, and writes nothing else; stored coordinates out of range fail with BAD_ARG. -/
def Obligations.PlaceMbResult : Prop :=
  ∀ (m : Nat) (s : State), m ≤ 4 →
    let x := s.mbAt m
    let imax := if s.csr.ctrl.sys then 11 else 9
    let p := if s.csr.ctrl.sampling then placePos420 x.i.toNat x.j.toNat x.k.toNat else placePos411 x.i.toNat x.j.toNat x.k.toNat
    (x.k.toNat ≤ 26 → x.j.toNat ≤ 4 → x.i.toNat ≤ imax →
      ∃ t, exec (.placeMb m) s = .next t ∧ Completed s t ∧ t.csr.res1 = s.csr.res1 ∧ t.csr.res2 = s.csr.res2 ∧
        t.csr.bitpos = s.csr.bitpos ∧ ReportsKept s t ∧ t.blk = s.blk ∧ BytesKept s t ∧
        (∃ px py, t.mbAt m = { x with x := px, y := py } ∧ px.toNat = p.1 ∧ py.toNat = p.2) ∧
        (∀ n, n ≠ m → t.mbAt n = s.mbAt n) ∧
        (t.csr.res0.extractLsb' 0 10).toNat = p.1 ∧ (t.csr.res0.extractLsb' 16 10).toNat = p.2 ∧
        t.csr.res0.extractLsb' 10 6 = 0 ∧ t.csr.res0.extractLsb' 26 6 = 0) ∧
    (26 < x.k.toNat ∨ 4 < x.j.toNat ∨ imax < x.i.toNat → failsWith (.placeMb m) s .badArg)

/-- 43 R198: for each system the macroblock rectangles of Place411 (32 x 8, or 16 x 16 at the edge) and the squares of Place420
tile the frame exactly once: every luma sample lies in exactly one. -/
def Obligations.PlacementTiles : Prop :=
  ∀ imax, imax = 9 ∨ imax = 11 → ∀ x y, x < 720 → y < 48 * (imax + 1) →
    (∃! p : Nat × Nat × Nat, p.1 ≤ imax ∧ p.2.1 ≤ 4 ∧ p.2.2 ≤ 26 ∧
      let q := placePos411 p.1 p.2.1 p.2.2
      let edge := p.2.1 = 4 ∧ 24 ≤ p.2.2
      q.1 ≤ x ∧ x < q.1 + (if edge then 16 else 32) ∧ q.2 ≤ y ∧ y < q.2 + (if edge then 16 else 8)) ∧
    (∃! p : Nat × Nat × Nat, p.1 ≤ imax ∧ p.2.1 ≤ 4 ∧ p.2.2 ≤ 26 ∧
      let q := placePos420 p.1 p.2.1 p.2.2
      q.1 ≤ x ∧ x < q.1 + 16 ∧ q.2 ≤ y ∧ y < q.2 + 16)

/-! ### Weighting, quantisation, classification and the qno search -/

/-- 44 R213, R214: WEIGHT_FWD and WEIGHT_INV replace every coefficient of COEF[b] by sat16(R(c * w, 16)) with the weight of its
position and mode, and write nothing else. -/
def Obligations.WeightResult : Prop :=
  ∀ (b : Nat) (s : State), b ≤ 29 →
    (∃ t, exec (.weightFwd b) s = .next t ∧ OnlyBlock b s t ∧
      ∀ n, n < 64 → coef t.mem b n =
        sat16 (roundShift (coef s.mem b n * at0 (if (s.blkAt b).dctMode then WFQ248 else WFQ88) n) 16)) ∧
    ∃ t, exec (.weightInv b) s = .next t ∧ OnlyBlock b s t ∧
      ∀ n, n < 64 → coef t.mem b n =
        sat16 (roundShift (coef s.mem b n * at0 (if (s.blkAt b).dctMode then WIQ248 else WIQ88) n) 16)

/-- 44 R215: (a) for every coefficient whose inverse weighting does not saturate, WEIGHT_FWD after WEIGHT_INV gives it back; (b)
WEIGHT_INV after WEIGHT_FWD is off by at most 2. Stated of the commands, one coefficient at a time. -/
def Obligations.WeightRoundTrip : Prop :=
  ∀ (b n : Nat) (s : State), b ≤ 29 → n < 64 →
    (∃ t u, exec (.weightInv b) s = .next t ∧ exec (.weightFwd b) t = .next u ∧
      ∀ r, r = roundShift (coef s.mem b n * at0 (wiq (s.blkAt b).dctMode) n) 16 → -32768 ≤ r → r ≤ 32767 →
        coef u.mem b n = coef s.mem b n) ∧
    ∃ t u, exec (.weightFwd b) s = .next t ∧ exec (.weightInv b) t = .next u ∧
      (coef u.mem b n - coef s.mem b n).natAbs ≤ 2

/-- 44 R218, R219: QUANT b shifts every AC magnitude of COEF[b] down by the step of its band, its block's class and its
macroblock's qno, saturates it to 255 and keeps the sign; the DC and everything else are unchanged. -/
def Obligations.QuantResult : Prop :=
  ∀ (b : Nat) (s : State), b ≤ 29 →
    ∃ t, exec (.quant b) s = .next t ∧ OnlyBlock b s t ∧ coef t.mem b 0 = coef s.mem b 0 ∧
      ∀ n, 1 ≤ n → n ≤ 63 →
        let k := (s.blkAt b).cls.toNat
        let band := (if (s.blkAt b).dctMode then AREA248 else AREA88).getD n 0
        let sh := (QSHIFT.getD ((s.mbAt (b / 6)).qno.toNat + QOFF.getD k 0) []).getD band 0 + (if k = 3 then 1 else 0)
        let a := min ((coef s.mem b n).natAbs / 2 ^ sh) 255
        coef t.mem b n = if coef s.mem b n < 0 then -(a : Int) else a

/-- 44 R220: DEQUANT b multiplies every AC coefficient of COEF[b] by its step, wrapping to 16 bits; the DC and everything else are
unchanged. -/
def Obligations.DequantResult : Prop :=
  ∀ (b : Nat) (s : State), b ≤ 29 →
    ∃ t, exec (.dequant b) s = .next t ∧ OnlyBlock b s t ∧ coef t.mem b 0 = coef s.mem b 0 ∧
      ∀ n, 1 ≤ n → n ≤ 63 →
        let k := (s.blkAt b).cls.toNat
        let band := (if (s.blkAt b).dctMode then AREA248 else AREA88).getD n 0
        let sh := (QSHIFT.getD ((s.mbAt (b / 6)).qno.toNat + QOFF.getD k 0) []).getD band 0 + (if k = 3 then 1 else 0)
        coef t.mem b n = wrap16 (coef s.mem b n * 2 ^ sh)

/-- 44 R225: CLASSIFY b sets BLK[b].CLASS to the number of the block's thresholds that its largest AC magnitude exceeds and RES0 to
that magnitude, and writes nothing else. -/
def Obligations.ClassifyResult : Prop :=
  ∀ (b : Nat) (s : State), b ≤ 29 →
    ∃ t, exec (.classify b) s = .next t ∧ OnlyBlkRes0 b s t ∧
      ∃ mx : Nat, t.csr.res0.toNat = mx ∧ (∀ n, 1 ≤ n → n ≤ 63 → (coef s.mem b n).natAbs ≤ mx) ∧
        (∃ n, 1 ≤ n ∧ n ≤ 63 ∧ (coef s.mem b n).natAbs = mx) ∧
        let th := if b % 6 < 4 then s.csr.clsthrY else s.csr.clsthrC
        ∃ k, t.blkAt b = { s.blkAt b with cls := k } ∧
          k.toNat = (if (th.extractLsb' 0 8).toNat < mx then 1 else 0) + (if (th.extractLsb' 8 8).toNat < mx then 1 else 0) +
            (if (th.extractLsb' 16 8).toNat < mx then 1 else 0)

/-- 44 R230, R231: QSEARCH m leaves for each of its six blocks, in RES0, the finest qno at which the quantised block fits its budget
(96 bits luma, 64 chroma), or 0 with OVER when none does; MB[m].QNO is the least of them, QOVER is set when some OVER is, and
nothing else is written. -/
def Obligations.QsearchResult : Prop :=
  ∀ (m : Nat) (s : State), m ≤ 4 →
    ∃ t, exec (.qsearch m) s = .next t ∧ Completed s t ∧ t.csr.res1 = s.csr.res1 ∧ t.csr.res2 = s.csr.res2 ∧
      t.csr.bitpos = s.csr.bitpos ∧ t.csr.ovfCount = s.csr.ovfCount ∧ t.csr.status.trunc = s.csr.status.trunc ∧
      t.csr.status.vlcerr = s.csr.status.vlcerr ∧ BytesKept s t ∧
      (∀ b, b < 6 * m ∨ 6 * m + 6 ≤ b → t.blkAt b = s.blkAt b) ∧ (∀ n, n ≠ m → t.mbAt n = s.mbAt n) ∧
      (let q := fun j => (t.csr.res0.extractLsb' (4 * j) 4).toNat
       let ov := fun j => (t.blkAt (6 * m + j)).overBudget
       t.csr.res0.extractLsb' 24 8 = 0 ∧
       (∀ j, j < 6 →
        let x := s.blkAt (6 * m + j)
        let fits := fun q =>
          blockBits (blockEntries (quantize ((List.range 64).map (coef s.mem (6 * m + j))) x.dctMode q x.cls.toNat) x.dctMode) ≤
            (if j < 4 then 100 else 68) - 4
        t.blkAt (6 * m + j) = { x with overBudget := ov j } ∧
        ((ov j = false ∧ fits (q j) ∧ ∀ q', q j < q' → q' ≤ 15 → ¬ fits q') ∨
          (ov j = true ∧ q j = 0 ∧ ∀ q', q' ≤ 15 → ¬ fits q'))) ∧
       (∃ least, t.mbAt m = { s.mbAt m with qno := least } ∧ (∀ j, j < 6 → least.toNat ≤ q j) ∧
        ∃ j, j < 6 ∧ least.toNat = q j) ∧
       (t.csr.status.qover = true ↔ s.csr.status.qover = true ∨ ∃ j, j < 6 ∧ ov j = true))

/-! ### The transforms -/

/-- 45 R253, R255, R258: FDCT b replaces COEF[b] by its forward transform in the block's mode, each output the exact sum rounded
once, and writes nothing else. -/
def Obligations.FdctResult : Prop :=
  ∀ (b : Nat) (s : State), b ≤ 29 →
    ∃ t, exec (.fdct b) s = .next t ∧ OnlyBlock b s t ∧
      let x := fun r c => coef s.mem b (8 * r + c)
      if (s.blkAt b).dctMode then
        ∀ v u, v < 4 → u < 8 →
          coef t.mem b (8 * v + u) = sat16 (roundShift (Finset.sum (Finset.range 4) fun z => Finset.sum (Finset.range 8) fun c =>
            m4 v z * m8 u c * (x (2 * z) c + x (2 * z + 1) c)) 32) ∧
          coef t.mem b (8 * (v + 4) + u) = sat16 (roundShift (Finset.sum (Finset.range 4) fun z =>
            Finset.sum (Finset.range 8) fun c => m4 v z * m8 u c * (x (2 * z) c - x (2 * z + 1) c)) 32)
      else
        ∀ v u, v < 8 → u < 8 →
          coef t.mem b (8 * v + u) = sat16 (roundShift (Finset.sum (Finset.range 8) fun y => Finset.sum (Finset.range 8) fun c =>
            m8 v y * m8 u c * x y c) 32)

/-- 45 R254, R256, R259: IDCT b replaces COEF[b] by its inverse transform in the block's mode and writes nothing else. -/
def Obligations.IdctResult : Prop :=
  ∀ (b : Nat) (s : State), b ≤ 29 →
    ∃ t, exec (.idct b) s = .next t ∧ OnlyBlock b s t ∧
      let f := fun v u => coef s.mem b (8 * v + u)
      if (s.blkAt b).dctMode then
        ∀ z x, z < 4 → x < 8 →
          coef t.mem b (8 * (2 * z) + x) = sat16 (roundShift (Finset.sum (Finset.range 4) fun v =>
            Finset.sum (Finset.range 8) fun u => m4 v z * m8 u x * (f v u + f (v + 4) u)) 32) ∧
          coef t.mem b (8 * (2 * z + 1) + x) = sat16 (roundShift (Finset.sum (Finset.range 4) fun v =>
            Finset.sum (Finset.range 8) fun u => m4 v z * m8 u x * (f v u - f (v + 4) u)) 32)
      else
        ∀ y x, y < 8 → x < 8 →
          coef t.mem b (8 * y + x) = sat16 (roundShift (Finset.sum (Finset.range 8) fun v =>
            Finset.sum (Finset.range 8) fun u => m8 v y * m8 u x * f v u) 32)

/-- 45 R251, R252, R258, R259: the bases are the folded cosine table; in either mode FDCT of a flat block of a value a of a sample
(-256..255) has DC 8a and every other entry 0, and IDCT gives the flat block back. -/
def Obligations.FlatBlock : Prop :=
  (∀ k n, k < 8 → n < 8 → m8 k n = if k = 0 then 23171 else kcos ((2 * n + 1) * k)) ∧
  (∀ v z, v < 4 → z < 4 → m4 v z = if v = 0 then 23171 else kcos (2 * v * (2 * z + 1))) ∧
  ∀ (b : Nat) (s : State) (a : Int), b ≤ 29 → -256 ≤ a → a ≤ 255 → (∀ n, n < 64 → coef s.mem b n = a) →
    ∃ t u, exec (.fdct b) s = .next t ∧ exec (.idct b) t = .next u ∧ coef t.mem b 0 = 8 * a ∧
      (∀ n, 1 ≤ n → n < 64 → coef t.mem b n = 0) ∧ ∀ n, n < 64 → coef u.mem b n = a

/-- 45 R261, R262: NEED248 b leaves in RES0 the sum V of the absolute differences of vertically adjacent samples and sets
BLK[b].DCT_MODE to 1 exactly when V exceeds THR248; nothing else is written. -/
def Obligations.Need248Result : Prop :=
  (∀ w : Word, opField w = 0x2A → decodeWord w = .ok (.need248 (idxField w))) ∧
  ∀ (b : Nat) (s : State),
    (b ≤ 29 → ∃ t, exec (.need248 b) s = .next t ∧ OnlyBlkRes0 b s t ∧
      let v := Finset.sum (Finset.range 7) fun y => Finset.sum (Finset.range 8) fun x =>
        (coef s.mem b (8 * (y + 1) + x) - coef s.mem b (8 * y + x)).natAbs
      t.csr.res0.toNat = v ∧ v ≤ 3669960 ∧
        t.blkAt b = { s.blkAt b with dctMode := decide (s.csr.thr248.toNat < v) }) ∧
    (29 < b → failsWith (.need248 b) s .badIndex)

/-! ### The segment commands -/

/-- 46 R281 to R283, R287, R290: VLC_DEC_SEG writes the headers' fields, the decoded coefficients, the markers and the counters, and
nothing else: SEG, BITPOS, RES2, OVER, the placement fields and the other reports keep their values. The coefficients, FIN, EOB,
MARK, POS, OFFSET and END of block b are those of the three passes' result for it, and every block without an EOB counts exactly
one error: VLC_ERROR is 6 less EOB_COUNT, VLCERR is set when some block has no EOB, and an unfinished block or one that overflowed
is such a block. -/
def Obligations.VlcDecSegResult : Prop :=
  ∀ s : State, ∃ t, exec .vlcDecSeg s = .next t ∧ Completed s t ∧ t.csr.bitpos = s.csr.bitpos ∧ t.csr.res2 = s.csr.res2 ∧
    t.csr.ovfCount = s.csr.ovfCount ∧ t.csr.status.trunc = s.csr.status.trunc ∧ t.csr.status.qover = s.csr.status.qover ∧
    BytesKeptOutside 0x1000 3840 s t ∧
    (∀ b, b < 30 →
      let x := t.blkAt b
      let st := 640 * (b / 6) + BLKSTART.getD (b % 6) 0
      let w := workAt (decodeSegment s.mem) b
      coef t.mem b 0 = (BitVec.ofNat 9 (segPeek s.mem st 9)).toInt ∧
      (∀ n, n < 64 → coef t.mem b n = at0 w.coefs n) ∧
      x.fin = w.fin ∧ x.eob = w.eob ∧ x.mark = w.mark ∧ x.pos.toNat = w.pos ∧ x.offset.toNat = w.offset ∧
      w.err + (if w.fin then 0 else 1) + w.eob.toNat = 1 ∧
      x.dctMode = segBit s.mem (st + 9) ∧ x.cls.toNat = segPeek s.mem (st + 10) 2 ∧
      x.overBudget = (s.blkAt b).overBudget ∧ x.endPos.toNat = 640 * (b / 6) + BLKEND.getD (b % 6) 0 ∧
      1 ≤ x.pos.toNat ∧ x.pos.toNat ≤ 64 ∧ (x.eob = true → x.fin = true) ∧
      (x.mark = true → x.offset = x.endPos) ∧ (x.mark = false → x.fin = true ∧ x.offset.toNat ≤ x.endPos.toNat)) ∧
    (∀ m, m < 5 →
      let y := t.mbAt m
      y.qno = (segByte s.mem (80 * m + 3)).extractLsb' 0 4 ∧ y.sta = (segByte s.mem (80 * m + 3)).extractLsb' 4 4 ∧
      y.k = (s.mbAt m).k ∧ y.j = (s.mbAt m).j ∧ y.i = (s.mbAt m).i ∧ y.x = (s.mbAt m).x ∧ y.y = (s.mbAt m).y ∧
      y.vlcError.toNat = 6 - y.eobCount.toNat ∧
      y.eobCount.toNat = ((List.range 6).map fun j => ((t.blkAt (6 * m + j)).eob).toNat).sum) ∧
    t.csr.res0.toNat = ((List.range 5).map fun m => (t.mbAt m).vlcError.toNat).sum ∧
    t.csr.res1.toNat = ((List.range 5).map fun m => (t.mbAt m).eobCount.toNat).sum ∧
    (t.csr.status.vlcerr = true ↔ s.csr.status.vlcerr = true ∨ ∃ b, b < 30 ∧ (t.blkAt b).eob = false)

/-- 46 R291: VLC_DEC_SEG is a function of SEG: two states with the same 400 bytes of SEG get the same coefficients, the same
metadata but for the fields it does not write, and the same RES0 and RES1, whatever COEF and the metadata held. -/
def Obligations.VlcDecSegDependsOnSegOnly : Prop :=
  ∀ s u : State, (∀ a, a < 400 → segByte s.mem a = segByte u.mem a) →
    ∃ s' u', exec .vlcDecSeg s = .next s' ∧ exec .vlcDecSeg u = .next u' ∧
      (∀ b n, b < 30 → n < 64 → coef s'.mem b n = coef u'.mem b n) ∧
      (∀ b, b < 30 → { s'.blkAt b with overBudget := false } = { u'.blkAt b with overBudget := false }) ∧
      (∀ m, m < 5 → (s'.mbAt m).qno = (u'.mbAt m).qno ∧ (s'.mbAt m).sta = (u'.mbAt m).sta ∧
        (s'.mbAt m).vlcError = (u'.mbAt m).vlcError ∧ (s'.mbAt m).eobCount = (u'.mbAt m).eobCount) ∧
      s'.csr.res0 = u'.csr.res0 ∧ s'.csr.res1 = u'.csr.res1

/-- 46 R293, R297 (pass 1), R298 to R300: VLC_ENC_SEG writes byte 3 and the headers, into every own area the first bits of its
block's code, and the counters; bytes 0..2 of each DIF block and everything outside the segment image keep their values. An AC
magnitude above 255 in any block fails with AMP_RANGE. -/
def Obligations.VlcEncSegResult : Prop :=
  ∀ s : State,
    ((∀ b n, b < 30 → 1 ≤ n → n ≤ 63 → (coef s.mem b n).natAbs ≤ 255) →
      ∃ t, exec .vlcEncSeg s = .next t ∧ Completed s t ∧ t.csr.bitpos = s.csr.bitpos ∧ t.csr.res2 = s.csr.res2 ∧
        t.csr.status.vlcerr = s.csr.status.vlcerr ∧ t.csr.status.qover = s.csr.status.qover ∧ MetaKept s t ∧
        (∀ a, a < 0x0400 ∨ 0x0400 + 400 ≤ a ∨ (a - 0x0400) % 80 < 3 → t.mem.byte a = s.mem.byte a) ∧
        (∀ m, m < 5 → segByte t.mem (80 * m + 3) = (s.mbAt m).sta ++ (s.mbAt m).qno) ∧
        (∀ b, b < 30 →
          let st := 640 * (b / 6) + BLKSTART.getD (b % 6) 0
          segPeek t.mem st 9 = (BitVec.ofInt 9 (sat (-256) 255 (coef s.mem b 0))).toNat ∧
          segBit t.mem (st + 9) = (s.blkAt b).dctMode ∧ segPeek t.mem (st + 10) 2 = (s.blkAt b).cls.toNat) ∧
        let f := fitStep s.csr.ctrl.passes
          ((List.range 30).map fun b => blockEntries ((List.range 64).map (coef s.mem b)) (s.blkAt b).dctMode)
        (∀ b i, b < 30 → i < (blockCode (f.1.getD b [])).length → i < (if b % 6 < 4 then 100 else 68) →
          segBit t.mem (640 * (b / 6) + BLKSTART.getD (b % 6) 0 + 12 + i) = (blockCode (f.1.getD b [])).getD i false) ∧
        t.csr.res0.toNat = f.2 ∧ t.csr.res1.toNat = (f.1.map blockBits).sum ∧
        t.csr.ovfCount.toNat = min (s.csr.ovfCount.toNat + f.2) 0xFFFFFFFF ∧
        (t.csr.status.trunc = true ↔ s.csr.status.trunc = true ∨ 0 < f.2)) ∧
    ((∃ b n, b < 30 ∧ 1 ≤ n ∧ n ≤ 63 ∧ 255 < (coef s.mem b n).natAbs) → failsWith .vlcEncSeg s .ampRange)

/-- 46 R294, R295: the fit step only removes last entries and counts them. Every group of CTRL.PASSES (each block with 100 or 68
bits, each macroblock with 536, the segment with 2680) that fits keeps all its entries; of a group that does not, entries go in
rounds, the last one of every block that has one, in block order, until the group just fits: with the entry removed last put back
it does not. -/
def Obligations.FitStepFits : Prop :=
  ∀ (passes : BitVec 2) (es : List (List Entry)), es.length = 30 → passes ≠ 0 →
    let r := fitStep passes es
    Truncates r.1 es ∧ r.2 + (r.1.map List.length).sum = (es.map List.length).sum ∧
    (passes = 1 → ∀ b, b < 30 → FitRule (if b % 6 < 4 then 100 else 68) [es.getD b []] [r.1.getD b []]) ∧
    (passes = 2 → ∀ m, m < 5 → FitRule 536 ((es.drop (6 * m)).take 6) ((r.1.drop (6 * m)).take 6)) ∧
    (passes = 3 → FitRule 2680 es r.1)

/-- 46 R301: VLC_DEC_SEG after VLC_ENC_SEG, under any PASSES, gives back every block as its kept entries and its DC, every
DCT_MODE, CLASS, QNO and STA, no VLC error and six EOBs a macroblock; where nothing was truncated, every coefficient. -/
def Obligations.SegmentRoundTrip : Prop :=
  ∀ s : State, (∀ b n, b < 30 → 1 ≤ n → n ≤ 63 → (coef s.mem b n).natAbs ≤ 255) →
    (∀ b, b < 30 → -256 ≤ coef s.mem b 0 ∧ coef s.mem b 0 ≤ 255) →
    ∃ t u, exec .vlcEncSeg s = .next t ∧ exec .vlcDecSeg t = .next u ∧
      (∀ b, b < 30 →
        let kept := (fitStep s.csr.ctrl.passes
          ((List.range 30).map fun b => blockEntries ((List.range 64).map (coef s.mem b)) (s.blkAt b).dctMode)).1.getD b []
        (∀ n, n < 64 → coef u.mem b n =
          at0 (fillEntries (zz (s.blkAt b).dctMode) 1 kept ((List.replicate 64 0).set 0 (coef s.mem b 0))) n) ∧
        (u.blkAt b).dctMode = (s.blkAt b).dctMode ∧ (u.blkAt b).cls = (s.blkAt b).cls ∧ (u.blkAt b).fin = true ∧
        (u.blkAt b).eob = true) ∧
      (∀ m, m < 5 → (u.mbAt m).qno = (s.mbAt m).qno ∧ (u.mbAt m).sta = (s.mbAt m).sta ∧ (u.mbAt m).vlcError = 0 ∧
        (u.mbAt m).eobCount = 6) ∧
      (t.csr.res0 = 0 → ∀ b n, b < 30 → n < 64 → coef u.mem b n = coef s.mem b n)

/-- 47 R321, R323: DECODE_SEG completes in every state, with the end state of the host's sequence VLC_DEC_SEG then DEQUANT,
WEIGHT_INV and IDCT of each block; it leaves SEG, BITPOS, RES2, TRUNC, QOVER and OVF_COUNT. -/
def Obligations.DecodeSegIsSequence : Prop :=
  ∀ s : State, ∃ t, exec .decodeSeg s = .next t ∧ execAll decodeSteps s = .next t ∧ Completed s t ∧
    t.csr.bitpos = s.csr.bitpos ∧ t.csr.res2 = s.csr.res2 ∧ t.csr.ovfCount = s.csr.ovfCount ∧
    t.csr.status.trunc = s.csr.status.trunc ∧ t.csr.status.qover = s.csr.status.qover ∧ BytesKeptOutside 0x1000 3840 s t

/-- 47 R322, R323: ENCODE_SEG completes in every state, with the end state of the host's sequence of single-stage commands that
CTRL.AUTO248 and AUTOQ select. It leaves BITPOS, RES2, VLCERR, bytes 0..2 of every DIF block, the placement fields and STA, and with
AUTOQ = 0 and AUTO248 = 0 all the metadata. -/
def Obligations.EncodeSegIsSequence : Prop :=
  ∀ s : State, ∃ t, exec .encodeSeg s = .next t ∧ execAll (encodeSteps s.csr.ctrl) s = .next t ∧ Completed s t ∧
    t.csr.bitpos = s.csr.bitpos ∧ t.csr.res2 = s.csr.res2 ∧ t.csr.status.vlcerr = s.csr.status.vlcerr ∧
    (∀ m, m < 5 → ∃ q, t.mbAt m = { s.mbAt m with qno := q }) ∧
    (s.csr.ctrl.autoq = false → t.mb = s.mb ∧ t.csr.status.qover = s.csr.status.qover ∧
      (s.csr.ctrl.auto248 = false → t.blk = s.blk)) ∧
    ∀ a, (a < 0x0400 ∨ 0x0400 + 400 ≤ a ∨ (a - 0x0400) % 80 < 3) → (a < 0x1000 ∨ 0x1000 + 3840 ≤ a) →
      t.mem.byte a = s.mem.byte a

/-! ### The host port -/

/-- 10 R24: a CTRL write with v[31] = 1 is a soft reset; while BUSY it is refused; else it stores the fields of v, PASSES 0 as 3.
SRST reads 0. -/
def Obligations.CtrlWrite : Prop :=
  (∀ c : Ctrl, c.toWord.getLsbD 31 = false) ∧
  ∀ (s : State) (v : Word),
    (v.getLsbD 31 = true → hostWrite 0x0004 .word v s = softReset s) ∧
    (v.getLsbD 31 = false → s.phase = .busy → hostWrite 0x0004 .word v s = s.markReject) ∧
    (v.getLsbD 31 = false → s.phase = .idle →
      ∃ c : Ctrl, hostWrite 0x0004 .word v s = { s with csr := { s.csr with ctrl := c } } ∧ c.sys = v.getLsbD 0 ∧
        c.sampling = v.getLsbD 1 ∧ c.passes = (if v.extractLsb' 2 2 = 0 then 3 else v.extractLsb' 2 2) ∧
        c.auto248 = v.getLsbD 4 ∧ c.autoq = v.getLsbD 5 ∧ c.irqEn = v.getLsbD 8)

/-- 10 R27: a STATUS write, in either phase, clears exactly the W1C bits written 1 and changes nothing else. -/
def Obligations.StatusWrite : Prop :=
  ∀ (s : State) (v : Word), ∃ x : Status, hostWrite 0x000C .word v s = { s with csr := { s.csr with status := x } } ∧
    x.done = (if v.getLsbD 1 then false else s.csr.status.done) ∧ x.err = (if v.getLsbD 2 then false else s.csr.status.err) ∧
    x.errcode = s.csr.status.errcode ∧ x.reject = (if v.getLsbD 8 then false else s.csr.status.reject) ∧
    x.buserr = (if v.getLsbD 9 then false else s.csr.status.buserr) ∧
    x.trunc = (if v.getLsbD 10 then false else s.csr.status.trunc) ∧
    x.vlcerr = (if v.getLsbD 11 then false else s.csr.status.vlcerr) ∧
    x.qover = (if v.getLsbD 12 then false else s.csr.status.qover)

/-- 10 R25, R34: a CMD write while IDLE captures the word, sets CMD's read value and enters BUSY, and changes no other register, no
metadata and no byte; while BUSY it is refused. -/
def Obligations.CmdWrite : Prop :=
  ∀ (s : State) (v : Word),
    (s.phase = .idle →
      let u := hostWrite 0x0008 .word v s
      u.phase = .busy ∧ u.csr = { s.csr with cmd := v } ∧ readCsr u 0x08 = v ∧ (readCsr u 0x0C).getLsbD 0 = true ∧
        MetaKept s u ∧ u.mem = s.mem) ∧
    (s.phase = .busy → hostWrite 0x0008 .word v s = s.markReject)

/-- 10 R22, R28 to R35, 20 R80, 60 R348: writes of ARG0, BITPOS, THR248, the class thresholds and OVF_COUNT store their fields while
IDLE and are refused while BUSY; writes of the read-only and reserved registers do nothing in either phase. -/
def Obligations.CsrWrites : Prop :=
  (∀ (s : State) (v : Word), s.phase = .idle →
    hostWrite 0x0010 .word v s = { s with csr := { s.csr with arg0 := v } } ∧
    hostWrite 0x0024 .word v s = { s with csr := { s.csr with bitpos := v.extractLsb' 0 12 } } ∧
    hostWrite 0x0028 .word v s = { s with csr := { s.csr with thr248 := v } } ∧
    hostWrite 0x002C .word v s = { s with csr := { s.csr with clsthrY := v.extractLsb' 0 24 } } ∧
    hostWrite 0x0030 .word v s = { s with csr := { s.csr with clsthrC := v.extractLsb' 0 24 } } ∧
    hostWrite 0x0034 .word v s = { s with csr := { s.csr with ovfCount := 0 } }) ∧
  (∀ (s : State) (v : Word), s.phase = .busy →
    ∀ a ∈ [0x0010, 0x0024, 0x0028, 0x002C, 0x0030, 0x0034], hostWrite a .word v s = s.markReject) ∧
  ∀ (s : State) (v : Word), ∀ a ∈ [0x0000, 0x0014, 0x0018, 0x001C, 0x0020, 0x0038, 0x003C], hostWrite a .word v s = s

/-- 10 R21 to R35, 20 R78, R80: what a CSR read returns; it changes nothing but the model's reply list. While BUSY the result
registers, BITPOS, OVF_COUNT and ERRCMD return some value, which the statement leaves open (the model draws a free value, log 5). -/
def Obligations.CsrReads : Prop :=
  (∀ s : State,
    hostRead 0x0000 .word s = s.reply 0x44560001 ∧ hostRead 0x0008 .word s = s.reply s.csr.cmd ∧
    hostRead 0x0010 .word s = s.reply s.csr.arg0 ∧ hostRead 0x0014 .word s = s.reply 0 ∧
    hostRead 0x0028 .word s = s.reply s.csr.thr248 ∧ hostRead 0x002C .word s = s.reply (0#8 ++ s.csr.clsthrY) ∧
    hostRead 0x0030 .word s = s.reply (0#8 ++ s.csr.clsthrC) ∧ hostRead 0x003C .word s = s.reply 0 ∧
    (∃ v, hostRead 0x0004 .word s = s.reply v ∧ v.getLsbD 0 = s.csr.ctrl.sys ∧ v.getLsbD 1 = s.csr.ctrl.sampling ∧
      v.extractLsb' 2 2 = s.csr.ctrl.passes ∧ v.getLsbD 4 = s.csr.ctrl.auto248 ∧ v.getLsbD 5 = s.csr.ctrl.autoq ∧
      v.extractLsb' 6 2 = 0 ∧ v.getLsbD 8 = s.csr.ctrl.irqEn ∧ v.extractLsb' 9 23 = 0) ∧
    (∃ v, hostRead 0x000C .word s = s.reply v ∧ v.getLsbD 0 = decide (s.phase = .busy) ∧ v.getLsbD 1 = s.csr.status.done ∧
      v.getLsbD 2 = s.csr.status.err ∧ v.getLsbD 3 = false ∧ v.extractLsb' 4 4 = s.csr.status.errcode ∧
      v.getLsbD 8 = s.csr.status.reject ∧ v.getLsbD 9 = s.csr.status.buserr ∧ v.getLsbD 10 = s.csr.status.trunc ∧
      v.getLsbD 11 = s.csr.status.vlcerr ∧ v.getLsbD 12 = s.csr.status.qover ∧ v.extractLsb' 13 19 = 0)) ∧
  (∀ s : State, s.phase = .idle →
    hostRead 0x0018 .word s = s.reply s.csr.res0 ∧ hostRead 0x001C .word s = s.reply s.csr.res1 ∧
    hostRead 0x0020 .word s = s.reply s.csr.res2 ∧ hostRead 0x0024 .word s = s.reply (0#20 ++ s.csr.bitpos) ∧
    hostRead 0x0034 .word s = s.reply s.csr.ovfCount ∧ hostRead 0x0038 .word s = s.reply s.csr.errcmd) ∧
  ∀ s : State, s.phase = .busy → ∀ a ∈ [0x0018, 0x001C, 0x0020, 0x0024, 0x0034, 0x0038],
    ∃ v, hostRead a .word s = { s.reply v with fresh := s.fresh + 1 }

/-- 20 R72, R74 to R76: an access that no row of the address map allows (region, width, alignment, last byte in the same region)
sets BUSERR and does nothing else, in either phase; a read of it returns 0. -/
def Obligations.IllegalAccess : Prop :=
  ∀ (addr : BitVec 16) (w : Width) (v : Word) (s : State),
    let a := addr.toNat
    let n := w.bytes
    (¬ (a % n = 0 ∧ ∃ row ∈ [(0x0000, 0x003F, [4]), (0x0100, 0x01EF, [4]), (0x0200, 0x023B, [4]), (0x0400, 0x058F, [1, 2, 4]),
        (0x1000, 0x1EFF, [2, 4])], row.1 ≤ a ∧ a + n - 1 ≤ row.2.1 ∧ n ∈ row.2.2)) →
      hostRead addr w s = s.markBuserr.reply 0 ∧ hostWrite addr w v s = s.markBuserr

/-- 20 R79, R81, 60 R343: while BUSY a legal access to metadata or RAM is put off and changes nothing else; while IDLE the oldest
access put off is performed first, against the state the command left. -/
def Obligations.StalledAccess : Prop :=
  (∀ (addr : BitVec 16) (w : Width) (v : Word) (s : State) (r : Region), s.phase = .busy →
    legalRegion addr.toNat w = some r → r ≠ .csr →
    hostRead addr w s = { s with port := { s.port with stalled := s.port.stalled ++ [.read addr w] } } ∧
    hostWrite addr w v s = { s with port := { s.port with stalled := s.port.stalled ++ [.write addr w v] } }) ∧
  ∀ (s : State) (x : Access) (rest : List Access), s.phase = .idle → s.port.stalled = x :: rest →
    step s = .next (hostAccess x { s with port := { s.port with stalled := rest } })

/-- 20 R73, R77: while IDLE a legal write to SEG or COEF sets byte(a + i) to v[8i+7:8i] and changes no other byte and nothing else; a
legal read returns the bytes, the lowest address least significant. The zeros above the bytes of a narrow read are the model's
choice (log 10): the spec does not describe these lanes. -/
def Obligations.RamLittleEndian : Prop :=
  ∀ (addr : BitVec 16) (w : Width) (v : Word) (s : State) (r : Region), s.phase = .idle →
    legalRegion addr.toNat w = some r → r = .seg ∨ r = .coef →
    (∃ m, hostWrite addr w v s = { s with mem := m } ∧
      (∀ i, i < w.bytes → m.byte (addr.toNat + i) = v.extractLsb' (8 * i) 8) ∧
      ∀ x, x < addr.toNat ∨ addr.toNat + w.bytes ≤ x → m.byte x = s.mem.byte x) ∧
    ∃ u, hostRead addr w s = s.reply u ∧
      (∀ i, i < w.bytes → u.extractLsb' (8 * i) 8 = s.mem.byte (addr.toNat + i)) ∧
      ∀ i, 8 * w.bytes ≤ i → u.getLsbD i = false

/-- 10 R36 to R42: while IDLE a write of word 0 of BLK[b] changes DCT_MODE and CLASS only, a write of word 1 nothing; a write of
word 0 of MB[m] changes QNO and STA only, of word 1 K, J and I, of word 2 nothing. -/
def Obligations.MetadataWrites : Prop :=
  ∀ (s : State) (v : Word), s.phase = .idle →
    (∀ b, b < 30 →
      hostWrite (BitVec.ofNat 16 (0x0100 + 8 * b)) .word v s =
        s.setBlk b { s.blkAt b with dctMode := v.getLsbD 0, cls := v.extractLsb' 1 2 } ∧
      hostWrite (BitVec.ofNat 16 (0x0104 + 8 * b)) .word v s = s) ∧
    ∀ m, m < 5 →
      hostWrite (BitVec.ofNat 16 (0x0200 + 12 * m)) .word v s =
        s.setMb m { s.mbAt m with qno := v.extractLsb' 0 4, sta := v.extractLsb' 4 4 } ∧
      hostWrite (BitVec.ofNat 16 (0x0204 + 12 * m)) .word v s =
        s.setMb m { s.mbAt m with k := v.extractLsb' 0 5, j := v.extractLsb' 5 3, i := v.extractLsb' 8 4 } ∧
      hostWrite (BitVec.ofNat 16 (0x0208 + 12 * m)) .word v s = s

/-- 10 R36, R37, R39 to R41: while IDLE the words of BLK[b] and MB[m] read as the rules lay them out, the reserved bits 0. -/
def Obligations.MetadataReads : Prop :=
  ∀ s : State, s.phase = .idle →
    (∀ b, b < 30 →
      (∃ v, hostRead (BitVec.ofNat 16 (0x0100 + 8 * b)) .word s = s.reply v ∧ v.getLsbD 0 = (s.blkAt b).dctMode ∧
        v.extractLsb' 1 2 = (s.blkAt b).cls ∧ v.getLsbD 3 = false ∧ v.getLsbD 4 = (s.blkAt b).fin ∧
        v.getLsbD 5 = (s.blkAt b).eob ∧ v.getLsbD 6 = (s.blkAt b).mark ∧ v.getLsbD 7 = (s.blkAt b).overBudget ∧
        v.extractLsb' 8 7 = (s.blkAt b).pos ∧ v.extractLsb' 15 17 = 0) ∧
      ∃ v, hostRead (BitVec.ofNat 16 (0x0104 + 8 * b)) .word s = s.reply v ∧ v.extractLsb' 0 12 = (s.blkAt b).offset ∧
        v.extractLsb' 12 4 = 0 ∧ v.extractLsb' 16 12 = (s.blkAt b).endPos ∧ v.extractLsb' 28 4 = 0) ∧
    ∀ m, m < 5 →
      (∃ v, hostRead (BitVec.ofNat 16 (0x0200 + 12 * m)) .word s = s.reply v ∧ v.extractLsb' 0 4 = (s.mbAt m).qno ∧
        v.extractLsb' 4 4 = (s.mbAt m).sta ∧ v.extractLsb' 8 8 = (s.mbAt m).vlcError ∧
        v.extractLsb' 16 3 = (s.mbAt m).eobCount ∧ v.extractLsb' 19 13 = 0) ∧
      (∃ v, hostRead (BitVec.ofNat 16 (0x0204 + 12 * m)) .word s = s.reply v ∧ v.extractLsb' 0 5 = (s.mbAt m).k ∧
        v.extractLsb' 5 3 = (s.mbAt m).j ∧ v.extractLsb' 8 4 = (s.mbAt m).i ∧ v.extractLsb' 12 20 = 0) ∧
      ∃ v, hostRead (BitVec.ofNat 16 (0x0208 + 12 * m)) .word s = s.reply v ∧ v.extractLsb' 0 10 = (s.mbAt m).x ∧
        v.extractLsb' 10 6 = 0 ∧ v.extractLsb' 16 10 = (s.mbAt m).y ∧ v.extractLsb' 26 6 = 0

/-! ### Reset, interrupt and the invariant -/

/-- 70 R382, R383, 60 R342: a soft reset puts every CSR at its reset value and the phase at IDLE and keeps what stalled. While IDLE
the RAM and the metadata keep their values; while BUSY every location that the aborted command's rule does not write keeps its
value. A reserved OP, a command whose checks fail and one that writes no RAM and no metadata leave all of it; SEG_CLEAR writes SEG
only; a COEF block command its block only, QUANT and DEQUANT not its DC; BW_PUT the bits of its field only; CLASSIFY, NEED248,
PLACE_MB and QSEARCH their own fields of the records they name only. (SoftResetSegment states the segment and macro commands. What
the writable locations then hold is free: log 7.) -/
def Obligations.SoftReset : Prop :=
  (∀ s : State, (softReset s).csr = Csr.reset ∧ (softReset s).phase = .idle ∧ (softReset s).port = s.port) ∧
  (∀ s : State, s.phase = .idle → MetaKept s (softReset s) ∧ BytesKept s (softReset s)) ∧
  (∀ (s : State) (e : DecodeError), s.phase = .busy → decodeWord s.csr.cmd = .error e →
    MetaKept s (softReset s) ∧ BytesKept s (softReset s)) ∧
  ∀ (s : State) (i : Instr), s.phase = .busy → decodeWord s.csr.cmd = .ok i →
    ((∃ e, failsWith i s e) → MetaKept s (softReset s) ∧ BytesKept s (softReset s)) ∧
    (i ∈ [Instr.nop, .vlcEncSym, .vlcBits, .place411, .place420] ∨ i.op ∈ [0x08#8, 0x09#8, 0x10#8, 0x13#8] →
      MetaKept s (softReset s) ∧ BytesKept s (softReset s)) ∧
    (i = .segClear → MetaKept s (softReset s) ∧ BytesKeptOutside 0x0400 400 s (softReset s)) ∧
    (∀ b, i ∈ [Instr.zzToScan b, .zzToNat b, .weightFwd b, .weightInv b, .quant b, .dequant b, .fdct b, .idct b] →
      MetaKept s (softReset s) ∧ BytesKeptOutside (coefAddr b 0) 128 s (softReset s)) ∧
    (∀ b, i = .quant b ∨ i = .dequant b → coef (softReset s).mem b 0 = coef s.mem b 0) ∧
    (∀ n, i = .bwPut n → MetaKept s (softReset s) ∧ BytesKeptOutside 0x0400 400 s (softReset s) ∧
      ∀ p, p < 3200 → p < s.csr.bitpos.toNat ∨ s.csr.bitpos.toNat + n ≤ p →
        segBit (softReset s).mem p = segBit s.mem p) ∧
    (∀ b, i = .classify b →
      (softReset s).mb = s.mb ∧ BytesKept s (softReset s) ∧ (∀ c, c ≠ b → (softReset s).blkAt c = s.blkAt c) ∧
      ∃ k, (softReset s).blkAt b = { s.blkAt b with cls := k }) ∧
    (∀ b, i = .need248 b →
      (softReset s).mb = s.mb ∧ BytesKept s (softReset s) ∧ (∀ c, c ≠ b → (softReset s).blkAt c = s.blkAt c) ∧
      ∃ d, (softReset s).blkAt b = { s.blkAt b with dctMode := d }) ∧
    (∀ m, i = .placeMb m →
      (softReset s).blk = s.blk ∧ BytesKept s (softReset s) ∧ (∀ c, c ≠ m → (softReset s).mbAt c = s.mbAt c) ∧
      ∃ x y, (softReset s).mbAt m = { s.mbAt m with x := x, y := y }) ∧
    ∀ m, i = .qsearch m →
      BytesKept s (softReset s) ∧ (∀ c, c ≠ m → (softReset s).mbAt c = s.mbAt c) ∧
      (∃ q, (softReset s).mbAt m = { s.mbAt m with qno := q }) ∧
      (∀ b, b < 6 * m ∨ 6 * m + 6 ≤ b → (softReset s).blkAt b = s.blkAt b) ∧
      ∀ b, ∃ o, (softReset s).blkAt b = { s.blkAt b with overBudget := o }

/-- 70 R381: after a power-on reset with any contents of RAM and metadata, and after a hardware reset of any state, the phase is
IDLE, every CSR reads its reset value (THR248 the open P_THR248_RESET) and the interrupt line is low. -/
def Obligations.ResetValues : Prop :=
  ∀ s : State, (∃ (mem : Memory) (blk : Vector BlkMeta 30) (mb : Vector MbMeta 5), s = State.powerOn mem blk mb) ∨
      (∃ u : State, s = hardReset u) →
    s.phase = .idle ∧ readCsr s 0x00 = 0x44560001 ∧ readCsr s 0x04 = 0x0000002C ∧ readCsr s 0x08 = 0 ∧ readCsr s 0x0C = 0 ∧
    readCsr s 0x10 = 0 ∧ readCsr s 0x18 = 0 ∧ readCsr s 0x1C = 0 ∧ readCsr s 0x20 = 0 ∧ readCsr s 0x24 = 0 ∧
    readCsr s 0x28 = Config.thr248Reset ∧ readCsr s 0x2C = 0x0023170B ∧ readCsr s 0x30 = 0x0023170B ∧ readCsr s 0x34 = 0 ∧
    readCsr s 0x38 = 0 ∧ s.irq = false

/-- 60 R350: IRQ = CTRL.IRQ_EN & (STATUS.DONE | STATUS.ERR); so it rises with every completion while IRQ_EN = 1, and a write of 1 to
DONE and ERR lowers it. BUSERR, REJECT, TRUNC, VLCERR and QOVER have no effect on it. -/
def Obligations.InterruptLine : Prop :=
  (∀ s : State, s.irq = (s.csr.ctrl.irqEn && (s.csr.status.done || s.csr.status.err))) ∧
  (∀ (i : Instr) (s t : State), exec i s = .next t → t.irq = s.csr.ctrl.irqEn) ∧
  (∀ (s : State) (v : Word), v.getLsbD 1 = true → v.getLsbD 2 = true → (hostWrite 0x000C .word v s).irq = false) ∧
  ∀ (s : State) (r b x y q : Bool),
    (s.setStatus { s.csr.status with reject := r, buserr := b, trunc := x, vlcerr := y, qover := q }).irq = s.irq

/-- 20 R72, R76, R79, 10 R23, 60 R340 and the model's memory form: every step from a state that meets the invariant goes to a next
state, and that state meets it: memory canonical and inside SEG and COEF, CTRL.PASSES never 0, ERRCODE at most 5, nothing pending
while IDLE, and only accesses that stall put off. -/
def Obligations.StepKeepsInv : Prop :=
  ∀ s : State, s.Inv → ∃ t, step s = .next t ∧ t.Inv

/-- The state after reset meets the invariant. The contents of its memory are the model's choice (log 1). -/
def Obligations.ResetInv : Prop := State.reset.Inv

/-! ### The segment image, aborted segment commands, and the pseudo-commands -/

/-- 46 R297, R299: after VLC_ENC_SEG every position that the three passes of the placement write holds its bit of the codes, no
position is written twice and no bit of a code is left out, and every position of the AC areas that no code uses is 0, whatever SEG
held. With the headers and byte 3 of VlcEncSegResult this is every bit of bytes 3..79 of every DIF block. -/
def Obligations.SegmentImage : Prop :=
  ∀ s : State, (∀ b n, b < 30 → 1 ≤ n → n ≤ 63 → (coef s.mem b n).natAbs ≤ 255) →
    ∃ t, exec .vlcEncSeg s = .next t ∧
      let kept := (fitStep s.csr.ctrl.passes
        ((List.range 30).map fun b => blockEntries ((List.range 64).map (coef s.mem b)) (s.blkAt b).dctMode)).1
      let codes := fun b => blockCode (kept.getD b [])
      let placed := placedBits codes
      (∀ x ∈ placed, segBit t.mem x.1 = x.2) ∧ (placed.map Prod.fst).Nodup ∧
      placed.length = ((List.range 30).map fun b => (codes b).length).sum ∧
      ∀ b q, b < 30 → q ∈ acPlaces b → q ∉ placed.map Prod.fst → segBit t.mem q = false

/-- 70 R382, R383, 46 R290, R300, 47 R321, R322: what a soft reset leaves alone while a segment or macro command is in flight.
VLC_DEC_SEG and DECODE_SEG: SEG, OVER, K, J, I, X and Y. VLC_ENC_SEG: COEF, the metadata and bytes 0..2 of every DIF block.
ENCODE_SEG: bytes 0..2 of every DIF block, FIN, EOB, MARK, POS, OFFSET and END, DCT_MODE with AUTO248 = 0, CLASS and OVER with
AUTOQ = 0, and of a macroblock all but QNO, QNO too with AUTOQ = 0. (What the writable locations then hold is free: log 7.) -/
def Obligations.SoftResetSegment : Prop :=
  ∀ (s : State) (i : Instr), s.phase = .busy → decodeWord s.csr.cmd = .ok i →
    (i = .vlcDecSeg ∨ i = .decodeSeg →
      BytesKeptOutside 0x1000 3840 s (softReset s) ∧
      (∀ b, ((softReset s).blkAt b).overBudget = (s.blkAt b).overBudget) ∧
      ∀ m, let x := (softReset s).mbAt m
        x.k = (s.mbAt m).k ∧ x.j = (s.mbAt m).j ∧ x.i = (s.mbAt m).i ∧ x.x = (s.mbAt m).x ∧ x.y = (s.mbAt m).y) ∧
    (i = .vlcEncSeg →
      MetaKept s (softReset s) ∧
      ∀ a, a < 0x0400 ∨ 0x0400 + 400 ≤ a ∨ (a - 0x0400) % 80 < 3 → (softReset s).mem.byte a = s.mem.byte a) ∧
    (i = .encodeSeg →
      (∀ a, (a < 0x0400 ∨ 0x0400 + 400 ≤ a ∨ (a - 0x0400) % 80 < 3) → (a < 0x1000 ∨ 0x1000 + 3840 ≤ a) →
        (softReset s).mem.byte a = s.mem.byte a) ∧
      (∀ b, ∃ d k o, (softReset s).blkAt b = { s.blkAt b with dctMode := d, cls := k, overBudget := o } ∧
        (s.csr.ctrl.auto248 = false → d = (s.blkAt b).dctMode) ∧
        (s.csr.ctrl.autoq = false → k = (s.blkAt b).cls ∧ o = (s.blkAt b).overBudget)) ∧
      ∀ m, ∃ q, (softReset s).mbAt m = { s.mbAt m with qno := q } ∧ (s.csr.ctrl.autoq = false → q = (s.mbAt m).qno))

/-- 30 R109: from a state that is IDLE with nothing put off, whatever the latencies of the commands, a host that runs a
pseudo-command comes to a state that is IDLE again, with the rest of its list to do. BR_GET n leaves the n bits in RES0 and BITPOS
advanced by n; FDCT88, FDCT248, IDCT88 and IDCT248 leave RAM and metadata as FDCT or IDCT does with DCT_MODE cleared or set and
CLASS kept; PUT_SYM appends the symbol's code at BITPOS. (That the waits and the read, change and write of word 0 are steps of the
host's list is the model's form: log 17.) -/
def Obligations.PseudoCommands : Prop :=
  ∀ (s : State) (rest : List HostEvent), s.phase = .idle → s.port.stalled = [] →
    (∀ n, 1 ≤ n → n ≤ 24 → s.csr.bitpos.toNat + n ≤ 3200 →
      ∃ t, Reaches (s.setHost (brGet n ++ rest)) (t.setHost rest) ∧ t.phase = .idle ∧ t.port.stalled = [] ∧ MetaKept s t ∧
        BytesKept s t ∧ t.csr.bitpos.toNat = s.csr.bitpos.toNat + n ∧
        (∀ i, i < n → t.csr.res0.getLsbD (n - 1 - i) = segBit s.mem (s.csr.bitpos.toNat + i)) ∧
        ∀ i, n ≤ i → t.csr.res0.getLsbD i = false) ∧
    (∀ b, b ≤ 29 → ∀ p ∈ [(fdct88At b, Instr.fdct b, false), (fdct248At b, .fdct b, true), (idct88At b, .idct b, false),
        (idct248At b, .idct b, true)],
      ∃ t u, Reaches (s.setHost (p.1 ++ rest)) (t.setHost rest) ∧ t.phase = .idle ∧ t.port.stalled = [] ∧
        exec p.2.1 (s.setBlk b { s.blkAt b with dctMode := p.2.2 }) = .next u ∧ t.mem = u.mem ∧ MetaKept u t) ∧
    ∀ (run amp : Nat) (sign : Bool), run ≤ 63 → amp ≤ 255 →
      let c := vlcEncode run amp sign
      s.csr.bitpos.toNat + c.length ≤ 3200 →
      ∃ t, Reaches (s.setHost (putSym run amp sign ++ rest)) (t.setHost rest) ∧ t.phase = .idle ∧ t.port.stalled = [] ∧
        MetaKept s t ∧ BytesKeptOutside 0x0400 400 s t ∧ t.csr.bitpos.toNat = s.csr.bitpos.toNat + c.length ∧
        (∀ i, i < c.length → segBit t.mem (s.csr.bitpos.toNat + i) =
          (segBit s.mem (s.csr.bitpos.toNat + i) || c.getD i false)) ∧
        ∀ p, p < 3200 → p < s.csr.bitpos.toNat ∨ s.csr.bitpos.toNat + c.length ≤ p → segBit t.mem p = segBit s.mem p
end

