-- ==== Sys2Proof/Laws/Memory.lean ====
section
/-! SUPPORT. What the memory operations do: one byte read after a store, the canonical form kept, and the coefficient view. -/

namespace Sys2Proof.Machine

open Sys2Proof

/-! ### One byte -/

theorem Memory.byte_of_not_mem {m : Memory} {x : Nat} (h : ∀ c ∈ m, c.1 ≠ x) : m.byte x = Config.unwritten := by
  induction m with
  | nil => rfl
  | cons c m ih =>
    obtain ⟨y, v⟩ := c
    have hy : y ≠ x := h (y, v) (by simp)
    simp only [Memory.byte, if_neg hy]
    exact ih fun c hc => h c (by simp [hc])

theorem Memory.byte_append_left {m n : Memory} {x : Nat} (h : ∀ c ∈ n, c.1 ≠ x) : Memory.byte (m ++ n) x = m.byte x := by
  induction m with
  | nil => simpa [Memory.byte] using Memory.byte_of_not_mem h
  | cons c m ih => obtain ⟨y, v⟩ := c; simp only [List.cons_append, Memory.byte, ih]

theorem Memory.byte_append_right {m n : Memory} {x : Nat} (h : ∀ c ∈ m, c.1 ≠ x) : Memory.byte (m ++ n) x = n.byte x := by
  induction m with
  | nil => rfl
  | cons c m ih =>
    obtain ⟨y, v⟩ := c
    have hy : y ≠ x := h (y, v) (by simp)
    simp only [List.cons_append, Memory.byte, if_neg hy]
    exact ih fun c hc => h c (by simp [hc])

theorem Memory.byte_filter (m : Memory) (p : Nat → Bool) (x : Nat) :
    Memory.byte (m.filter fun c => p c.1) x = if p x then m.byte x else Config.unwritten := by
  induction m with
  | nil => simp [Memory.byte]
  | cons c m ih =>
    obtain ⟨y, v⟩ := c
    by_cases hp : p y = true
    · simp only [List.filter_cons, hp, if_true, Memory.byte, ih]
      by_cases hy : y = x
      · subst hy; simp [hp]
      · simp [hy]
    · simp only [List.filter_cons, hp, Memory.byte, ih]
      by_cases hy : y = x
      · subst hy; simp only [if_true, hp]; simpa [hp] using ih
      · simpa [hy] using ih

theorem Memory.mem_cells {a : Nat} {bs : List Byte} {c : Host.Cell} (h : c ∈ Memory.cells a bs) :
    a ≤ c.1 ∧ c.1 < a + bs.length ∧ c.2 ≠ Config.unwritten := by
  induction bs generalizing a with
  | nil => simp [Memory.cells] at h
  | cons b bs ih =>
    simp only [Memory.cells] at h
    split at h
    · obtain ⟨h1, h2, h3⟩ := ih h
      exact ⟨by omega, by simp; omega, h3⟩
    · rcases List.mem_cons.1 h with rfl | h
      · exact ⟨Nat.le_refl _, by simp, by assumption⟩
      · obtain ⟨h1, h2, h3⟩ := ih h
        exact ⟨by omega, by simp; omega, h3⟩

theorem Memory.byte_cells (a : Nat) (bs : List Byte) (x : Nat) :
    (Memory.cells a bs).byte x = if a ≤ x ∧ x < a + bs.length then bs.getD (x - a) 0 else Config.unwritten := by
  induction bs generalizing a with
  | nil => simp [Memory.cells, Memory.byte]
  | cons b bs ih =>
    have hd : ∀ h : a + 1 ≤ x, (b :: bs).getD (x - a) 0 = bs.getD (x - (a + 1)) 0 := by
      intro h
      obtain ⟨k, hk⟩ : ∃ k, x - a = k + 1 := ⟨x - a - 1, by omega⟩
      rw [hk, show x - (a + 1) = k by omega]; rfl
    simp only [Memory.cells, List.length_cons]
    split
    · rename_i hb
      rw [ih]
      by_cases h1 : a + 1 ≤ x ∧ x < a + 1 + bs.length
      · rw [if_pos h1, if_pos (by omega), hd h1.1]
      · rw [if_neg h1]
        by_cases hx : x = a
        · subst hx; simp [hb]
        · rw [if_neg (by omega)]
    · simp only [Memory.byte]
      by_cases hx : a = x
      · subst hx; simp
      · rw [if_neg hx, ih]
        by_cases h1 : a + 1 ≤ x ∧ x < a + 1 + bs.length
        · rw [if_pos h1, if_pos (by omega), hd h1.1]
        · rw [if_neg h1, if_neg (by omega)]

/-- A byte read after a store: the stored byte inside, the old byte outside (20_memory.md R73). -/
theorem Memory.byte_store (m : Memory) (a : Nat) (bs : List Byte) (x : Nat) :
    (m.store a bs).byte x = if a ≤ x ∧ x < a + bs.length then bs.getD (x - a) 0 else m.byte x := by
  unfold Memory.store
  by_cases h : a ≤ x ∧ x < a + bs.length
  · rw [Memory.byte_append_right, Memory.byte_append_left, Memory.byte_cells, if_pos h, if_pos h]
    · intro c hc; have := (List.mem_filter.1 hc).2; simp at this; omega
    · intro c hc; have := (List.mem_filter.1 hc).2; simp at this; omega
  · rw [if_neg h]
    by_cases hx : x < a
    · rw [Memory.byte_append_left, Memory.byte_filter m (fun y => decide (y < a))]
      · simp [hx]
      · intro c hc
        rcases List.mem_append.1 hc with hc | hc
        · have := Memory.mem_cells hc; omega
        · have := (List.mem_filter.1 hc).2; simp at this; omega
    · rw [Memory.byte_append_right, Memory.byte_append_right, Memory.byte_filter m (fun y => decide (a + bs.length ≤ y))]
      · simp; omega
      · intro c hc; have := Memory.mem_cells hc; omega
      · intro c hc; have := (List.mem_filter.1 hc).2; simp at this; omega

theorem Memory.byte_store_inside {m : Memory} {a x : Nat} {bs : List Byte} (h1 : a ≤ x) (h2 : x < a + bs.length) :
    (m.store a bs).byte x = bs.getD (x - a) 0 := by rw [Memory.byte_store, if_pos ⟨h1, h2⟩]

theorem Memory.byte_store_outside {m : Memory} {a x : Nat} {bs : List Byte} (h : x < a ∨ a + bs.length ≤ x) :
    (m.store a bs).byte x = m.byte x := by rw [Memory.byte_store, if_neg (by omega)]

theorem Memory.byte_window {m : Memory} {a n x : Nat} (h1 : a ≤ x) (h2 : x < a + n) : (m.window a n).byte x = m.byte x := by
  unfold Memory.window
  rw [Memory.byte_filter m (fun y => decide (a ≤ y) && decide (y < a + n))]
  simp [h1, h2]

/-! ### The canonical form -/

theorem Memory.wf_nil : Memory.wf [] := by simp [Memory.wf]

theorem Memory.wf_filter {m : Memory} (p : Host.Cell → Bool) (h : m.wf) : Memory.wf (m.filter p) :=
  ⟨h.1.sublist List.filter_sublist, fun c hc => h.2 c (List.mem_filter.1 hc).1⟩

theorem Memory.wf_cells (a : Nat) (bs : List Byte) : (Memory.cells a bs).wf := by
  refine ⟨?_, fun c hc => (Memory.mem_cells hc).2.2⟩
  induction bs generalizing a with
  | nil => simp [Memory.cells]
  | cons b bs ih =>
    simp only [Memory.cells]
    split
    · exact ih _
    · exact List.pairwise_cons.2 ⟨fun c hc => by have := Memory.mem_cells hc; simp; omega, ih _⟩

/-- Every store keeps the canonical form. -/
theorem Memory.wf_store {m : Memory} (a : Nat) (bs : List Byte) (h : m.wf) : (m.store a bs).wf := by
  have h1 := Memory.wf_filter (fun c => decide (c.1 < a)) h
  have h2 := Memory.wf_cells a bs
  have h3 := Memory.wf_filter (fun c => decide (a + bs.length ≤ c.1)) h
  refine ⟨?_, ?_⟩
  · unfold Memory.store
    refine List.pairwise_append.2 ⟨h1.1, List.pairwise_append.2 ⟨h2.1, h3.1, ?_⟩, ?_⟩
    · intro c hc d hd
      have := Memory.mem_cells hc
      have := (List.mem_filter.1 hd).2
      simp at this; omega
    · intro c hc d hd
      have h4 := (List.mem_filter.1 hc).2
      simp at h4
      rcases List.mem_append.1 hd with hd | hd
      · have := Memory.mem_cells hd; omega
      · have := (List.mem_filter.1 hd).2; simp at this; omega
  · intro c hc
    unfold Memory.store at hc
    rcases List.mem_append.1 hc with hc | hc
    · exact h1.2 c hc
    · rcases List.mem_append.1 hc with hc | hc
      · exact h2.2 c hc
      · exact h3.2 c hc

/-- Every entry after a store is an old one or lies in the stored range. -/
theorem Memory.mem_store {m : Memory} {a : Nat} {bs : List Byte} {c : Host.Cell} (h : c ∈ m.store a bs) :
    c ∈ m ∨ (a ≤ c.1 ∧ c.1 < a + bs.length) := by
  unfold Memory.store at h
  rcases List.mem_append.1 h with h | h
  · exact .inl (List.mem_filter.1 h).1
  · rcases List.mem_append.1 h with h | h
    · exact .inr ⟨(Memory.mem_cells h).1, (Memory.mem_cells h).2.1⟩
    · exact .inl (List.mem_filter.1 h).1

theorem Memory.byte_ne_of_mem {m : Memory} (h : m.wf) {c : Host.Cell} (hc : c ∈ m) : m.byte c.1 = c.2 := by
  induction m with
  | nil => simp at hc
  | cons d m ih =>
    obtain ⟨y, v⟩ := d
    have hp := List.pairwise_cons.1 h.1
    rcases List.mem_cons.1 hc with rfl | hc
    · simp [Memory.byte]
    · have : y ≠ c.1 := Nat.ne_of_lt (hp.1 c hc)
      simp only [Memory.byte, if_neg this]
      exact ih ⟨hp.2, fun d hd => h.2 d (by simp [hd])⟩ hc

/-- Equal memories are equal data: two canonical memories that read alike at every address are the same list. -/
theorem Memory.ext_byte {m n : Memory} (hm : m.wf) (hn : n.wf) (h : ∀ a, m.byte a = n.byte a) : m = n := by
  induction m generalizing n with
  | nil =>
    cases n with
    | nil => rfl
    | cons d n =>
      have := Memory.byte_ne_of_mem hn (List.mem_cons_self (a := d) (l := n))
      exact absurd (this.symm.trans (h d.1).symm) (hn.2 d (by simp))
  | cons c m ih =>
    cases n with
    | nil =>
      have := Memory.byte_ne_of_mem hm (List.mem_cons_self (a := c) (l := m))
      exact absurd (this.symm.trans (h c.1)) (hm.2 c (by simp))
    | cons d n =>
      obtain ⟨x, v⟩ := c; obtain ⟨y, w⟩ := d
      have hpm := List.pairwise_cons.1 hm.1
      have hpn := List.pairwise_cons.1 hn.1
      have hxy : x = y := by
        rcases Nat.lt_trichotomy x y with hlt | heq | hgt
        · have h1 := h x
          rw [show Memory.byte ((x, v) :: m) x = v by simp [Memory.byte]] at h1
          rw [Memory.byte_of_not_mem (m := (y, w) :: n)] at h1
          · exact absurd h1 (hm.2 (x, v) (by simp))
          · intro c hc
            rcases List.mem_cons.1 hc with rfl | hc
            · exact Nat.ne_of_gt hlt
            · have := hpn.1 c hc; simp at this; omega
        · exact heq
        · have h1 := h y
          rw [show Memory.byte ((y, w) :: n) y = w by simp [Memory.byte]] at h1
          rw [Memory.byte_of_not_mem (m := (x, v) :: m)] at h1
          · exact absurd h1.symm (hn.2 (y, w) (by simp))
          · intro c hc
            rcases List.mem_cons.1 hc with rfl | hc
            · exact Nat.ne_of_gt hgt
            · have := hpm.1 c hc; simp at this; omega
      subst hxy
      have hvw : v = w := by have := h x; simpa [Memory.byte] using this
      subst hvw
      congr 1
      refine ih ⟨hpm.2, fun d hd => hm.2 d (by simp [hd])⟩ ⟨hpn.2, fun d hd => hn.2 d (by simp [hd])⟩ fun a => ?_
      by_cases ha : x = a
      · subst ha
        rw [Memory.byte_of_not_mem, Memory.byte_of_not_mem]
        · intro c hc; exact Nat.ne_of_gt (hpn.1 c hc)
        · intro c hc; exact Nat.ne_of_gt (hpm.1 c hc)
      · have := h a; simpa [Memory.byte, if_neg ha] using this

/-! ### Halfwords and coefficients -/

theorem halfBytes_length (h : Half) : (halfBytes h).length = 2 := rfl

theorem half_of_halfBytes (h : Half) : (halfBytes h).getD 1 0 ++ (halfBytes h).getD 0 0 = h := by
  simp only [halfBytes, List.getD_cons_zero, List.getD_cons_succ]
  ext i hi
  simp only [BitVec.getElem_append, BitVec.getElem_extractLsb']
  split <;> simp_all <;> congr 1 <;> omega

theorem at0_getElem (l : List Int) (n : Nat) (h : n < l.length) : at0 l n = l[n] := by
  simp [at0, List.getD_eq_getElem?_getD, List.getElem?_eq_getElem h]

theorem at0_mkBlock (f : Nat → Int) {n : Nat} (h : n < 64) : at0 (mkBlock f) n = f n := by
  rw [at0_getElem _ _ (by simpa [mkBlock] using h)]; simp [mkBlock]

theorem mkBlock_length (f : Nat → Int) : (mkBlock f).length = 64 := by simp [mkBlock]

theorem coef_window {m : Memory} {b n : Nat} (h : n < 64) : coef (m.window (coefAddr b 0) 128) b n = coef m b n := by
  unfold coef Memory.half
  rw [Memory.byte_window, Memory.byte_window] <;> unfold coefAddr <;> omega

theorem coefBlock_length (m : Memory) (b : Nat) : (coefBlock m b).length = 64 := by simp [coefBlock]

/-- Entry n of the block read is COEF[b][n]. -/
theorem at0_coefBlock (m : Memory) (b : Nat) {n : Nat} (h : n < 64) : at0 (coefBlock m b) n = coef m b n := by
  rw [at0_getElem _ _ (by simpa [coefBlock] using h)]
  simp only [coefBlock, List.getElem_map, List.getElem_range]
  exact coef_window h

theorem coefBytes_length (c : List Int) : (c.flatMap fun v => halfBytes (BitVec.ofInt 16 v)).length = 2 * c.length := by
  induction c with
  | nil => rfl
  | cons v c ih => simp only [List.flatMap_cons, List.length_append, ih, List.length_cons, halfBytes_length]; omega

theorem coefBytes_getD (c : List Int) (n i : Nat) (hn : n < c.length) (hi : i < 2) :
    (c.flatMap fun v => halfBytes (BitVec.ofInt 16 v)).getD (2 * n + i) 0 = (halfBytes (BitVec.ofInt 16 (at0 c n))).getD i 0 := by
  induction c generalizing n with
  | nil => simp at hn
  | cons v c ih =>
    cases n with
    | zero =>
      simp only [List.flatMap_cons, at0, List.getD_cons_zero, Nat.mul_zero, Nat.zero_add]
      rw [List.getD_append _ _ _ _ (by simpa [halfBytes_length] using hi)]
    | succ n =>
      simp only [List.flatMap_cons]
      rw [List.getD_append_right _ _ _ _ (by simp [halfBytes_length]; omega), halfBytes_length,
        show 2 * (n + 1) + i - 2 = 2 * n + i by omega, ih n (by simpa using hn)]
      simp [at0]

/-- COEF[b][n] after COEF[b] <- c: the low 16 bits of entry n. -/
theorem coef_storeCoefs {m : Memory} {b n : Nat} {c : List Int} (hc : c.length = 64) (hn : n < 64) :
    coef (storeCoefs m b c) b n = wrap16 (at0 c n) := by
  have hl := coefBytes_length c
  unfold coef storeCoefs Memory.half
  rw [Memory.byte_store_inside (by unfold coefAddr; omega) (by rw [hl]; unfold coefAddr; omega),
    Memory.byte_store_inside (by unfold coefAddr; omega) (by rw [hl]; unfold coefAddr; omega)]
  rw [show coefAddr b n + 1 - coefAddr b 0 = 2 * n + 1 by unfold coefAddr; omega,
    show coefAddr b n - coefAddr b 0 = 2 * n + 0 by unfold coefAddr; omega,
    coefBytes_getD c n 1 (by omega) (by omega), coefBytes_getD c n 0 (by omega) (by omega), half_of_halfBytes]
  rfl

theorem byte_storeCoefs_outside {m : Memory} {b : Nat} {c : List Int} (hc : c.length = 64) {x : Nat}
    (h : x < coefAddr b 0 ∨ coefAddr b 0 + 128 ≤ x) : (storeCoefs m b c).byte x = m.byte x := by
  unfold storeCoefs
  exact Memory.byte_store_outside (by rw [coefBytes_length]; omega)

/-- COEF[b'] keeps its value when another block is stored. -/
theorem coef_storeCoefs_ne {m : Memory} {b b' n : Nat} {c : List Int} (hc : c.length = 64) (hb : b' ≠ b) (hn : n < 64) :
    coef (storeCoefs m b c) b' n = coef m b' n := by
  have h1 : coefAddr b' n < coefAddr b 0 ∧ coefAddr b' n + 1 < coefAddr b 0 ∨
      coefAddr b 0 + 128 ≤ coefAddr b' n ∧ coefAddr b 0 + 128 ≤ coefAddr b' n + 1 := by
    unfold coefAddr; omega
  unfold coef Memory.half
  rw [byte_storeCoefs_outside hc (by omega), byte_storeCoefs_outside hc (by omega)]

theorem wrap16_of_range {v : Int} (h1 : -32768 ≤ v) (h2 : v ≤ 32767) : wrap16 v = v := by
  unfold wrap16; rw [BitVec.toInt_ofInt]; simp [Int.bmod]; omega

theorem coef_range (m : Memory) (b n : Nat) : -32768 ≤ coef m b n ∧ coef m b n ≤ 32767 := by
  unfold coef
  have h1 := BitVec.le_toInt (m.half (coefAddr b n))
  have h2 := BitVec.toInt_lt (x := m.half (coefAddr b n))
  constructor <;> omega

theorem sat16_range (v : Int) : -32768 ≤ sat16 v ∧ sat16 v ≤ 32767 := by unfold sat16 sat; omega

theorem wrap16_range (v : Int) : -32768 ≤ wrap16 v ∧ wrap16 v ≤ 32767 := by
  unfold wrap16
  have h1 := BitVec.le_toInt (BitVec.ofInt 16 v)
  have h2 := BitVec.toInt_lt (x := BitVec.ofInt 16 v)
  constructor <;> omega

theorem storeCoefs_wf {m : Memory} (b : Nat) (c : List Int) (h : m.wf) : (storeCoefs m b c).wf := Memory.wf_store _ _ h

theorem segOrBit_wf {m : Memory} (p : Nat) (x : Bool) (h : m.wf) : (segOrBit m p x).wf := by
  unfold segOrBit; split
  · exact Memory.wf_store _ _ h
  · exact h

theorem segOr_wf {m : Memory} (p n : Nat) (v : Word) (h : m.wf) : (segOr m p n v).wf := by
  unfold segOr
  generalize List.range n = l
  induction l generalizing m with
  | nil => exact h
  | cons i l ih => exact ih (segOrBit_wf _ _ h)

end Sys2Proof.Machine
end

