-- ==== Sys2Proof/Laws/Bits.lean ====
section
/-! SUPPORT. Bit strings as numbers, the rounding, and bits of SEG after a store. -/

namespace Sys2Proof.Machine

open Sys2Proof

theorem natOfBits_append_singleton (l : Bits) (b : Bool) : natOfBits (l ++ [b]) = 2 * natOfBits l + b.toNat := by
  simp [natOfBits, List.foldl_append]

/-- Bit i of the number of a bit string, its last bit bit 0. -/
theorem testBit_natOfBits (l : Bits) (i : Nat) :
    (natOfBits l).testBit i = (decide (i < l.length) && l.getD (l.length - 1 - i) false) := by
  induction l using List.reverseRecOn generalizing i with
  | nil => simp [natOfBits]
  | append_singleton l b ih =>
    rw [natOfBits_append_singleton]
    cases i with
    | zero => cases b <;> simp [Nat.testBit_zero, Nat.add_mod]
    | succ i =>
      have h1 : (2 * natOfBits l + b.toNat).testBit (i + 1) = (natOfBits l).testBit i := by
        rw [Nat.testBit_succ]; congr 1; cases b <;> simp; omega
      rw [h1, ih]
      by_cases hi : i < l.length
      · simp only [List.length_append, List.length_singleton, hi, decide_true, Bool.true_and, show i + 1 < l.length + 1 by omega]
        rw [show l.length + 1 - 1 - (i + 1) = l.length - 1 - i by omega, List.getD_append _ _ _ _ (by omega)]
      · simp [hi]

theorem natOfBits_lt (l : Bits) : natOfBits l < 2 ^ l.length := by
  induction l using List.reverseRecOn with
  | nil => simp [natOfBits]
  | append_singleton l b ih =>
    rw [natOfBits_append_singleton, List.length_append, List.length_singleton, Nat.pow_succ]
    cases b <;> simp <;> omega

theorem bitsOfNat_length (n v : Nat) : (bitsOfNat n v).length = n := by simp [bitsOfNat]

/-- The number of the low n bits of v. -/
theorem natOfBits_bitsOfNat {n v : Nat} (h : v < 2 ^ n) : natOfBits (bitsOfNat n v) = v := by
  apply Nat.eq_of_testBit_eq
  intro i
  rw [testBit_natOfBits, bitsOfNat_length]
  by_cases hi : i < n
  · simp only [hi, decide_true, Bool.true_and, bitsOfNat]
    rw [List.getD_eq_getElem _ _ (by simp; omega)]
    simp only [List.getElem_map, List.getElem_range]
    congr 1; omega
  · simp only [hi, decide_false, Bool.false_and]
    exact (Nat.testBit_lt_two_pow (Nat.lt_of_lt_of_le h (Nat.pow_le_pow_right (by omega) (by omega)))).symm

theorem bitsOfNat_natOfBits (l : Bits) : bitsOfNat l.length (natOfBits l) = l := by
  apply List.ext_getElem
  · simp [bitsOfNat]
  · intro i h1 h2
    simp only [bitsOfNat, List.getElem_map, List.getElem_range, testBit_natOfBits]
    rw [show l.length - 1 - (l.length - 1 - i) = i by omega, List.getD_eq_getElem _ _ h2]
    simp; omega

theorem segBits_length (m : Memory) (p q : Nat) : (segBits m p q).length = q - p := by simp [segBits]

theorem segBits_getD (m : Memory) (p q : Nat) {i : Nat} (h : i < q - p) : (segBits m p q).getD i false = segBit m (p + i) := by
  rw [List.getD_eq_getElem _ _ (by simpa [segBits] using h)]
  simp [segBits]

theorem segPeek_lt (m : Memory) (p n : Nat) : segPeek m p n < 2 ^ n := by
  have := natOfBits_lt (segBits m p (p + n))
  rwa [segBits_length, show p + n - p = n by omega] at this

/-- Bit n - 1 - i of SegPeek(p, n) is SegBit(p + i) (00_scope.md R12). -/
theorem testBit_segPeek (m : Memory) (p n : Nat) {i : Nat} (h : i < n) : (segPeek m p n).testBit (n - 1 - i) = segBit m (p + i) := by
  unfold segPeek
  rw [testBit_natOfBits, segBits_length, show p + n - p = n by omega]
  rw [segBits_getD m p (p + n) (by omega)]
  simp only [show n - 1 - (n - 1 - i) = i by omega, show n - 1 - i < n by omega, decide_true, Bool.true_and]

/-- Two memories whose SEG bits agree from p to p + n - 1 peek alike. -/
theorem segPeek_congr {m k : Memory} {p n : Nat} (h : ∀ i, i < n → segBit m (p + i) = segBit k (p + i)) :
    segPeek m p n = segPeek k p n := by
  unfold segPeek
  congr 1
  apply List.ext_getElem
  · simp [segBits]
  · intro i h1 h2
    simp only [segBits_length] at h1
    simp only [segBits, List.getElem_map, List.getElem_range', Nat.one_mul]
    exact h i (by omega)

theorem segBit_congr {m k : Memory} {p : Nat} (h : segByte m (p / 8) = segByte k (p / 8)) : segBit m p = segBit k p := by
  unfold segBit; rw [h]

/-! ### SegOr -/

theorem segByte_store (m : Memory) (a x : Nat) (v : Byte) :
    segByte (m.store (segBase + a) [v]) x = if x = a then v else segByte m x := by
  unfold segByte
  rw [Memory.byte_store]
  by_cases h : x = a
  · subst h; simp
  · rw [if_neg (by simp; omega), if_neg h]

theorem bit_mask (k j : Nat) (hk : k < 8) (hj : j < 8) : (1#8 <<< k).getLsbD j = decide (j = k) := by
  simp only [BitVec.getLsbD_shiftLeft, hj, decide_true, Bool.true_and]
  by_cases h : j = k
  · subst h; simp
  · by_cases h2 : j < k
    · simp [h2]; omega
    · simp [h2, h]; omega

theorem segBit_segOrBit (m : Memory) (p q : Nat) (x : Bool) :
    segBit (segOrBit m p x) q = (segBit m q || (decide (q = p) && x)) := by
  unfold segOrBit
  cases x with
  | false => simp
  | true =>
    simp only [if_true, Bool.and_true]
    unfold segBit
    rw [segByte_store]
    by_cases h : q / 8 = p / 8
    · rw [if_pos h, BitVec.getLsbD_or, bit_mask _ _ (by omega) (by omega), h]
      congr 1
      apply decide_eq_decide.2
      omega
    · rw [if_neg h]
      have : q ≠ p := fun e => h (by rw [e])
      simp [this]

theorem byte_segOrBit (m : Memory) (p : Nat) (x : Bool) {a : Nat} (h : a ≠ segBase + p / 8) :
    (segOrBit m p x).byte a = m.byte a := by
  unfold segOrBit
  cases x with
  | false => rfl
  | true => exact Memory.byte_store_outside (by simp; omega)

theorem segOr_succ (m : Memory) (p n k : Nat) (v : Word) :
    (List.range (k + 1)).foldl (fun m i => segOrBit m (p + i) (v.getLsbD (n - 1 - i))) m =
      segOrBit ((List.range k).foldl (fun m i => segOrBit m (p + i) (v.getLsbD (n - 1 - i))) m) (p + k) (v.getLsbD (n - 1 - k)) := by
  rw [List.range_succ, List.foldl_append]; rfl

/-- SegOr on every bit of SEG (00_scope.md R12). -/
theorem segBit_segOr (m : Memory) (p n q : Nat) (v : Word) :
    segBit (segOr m p n v) q = (segBit m q || (decide (p ≤ q ∧ q < p + n) && v.getLsbD (n - 1 - (q - p)))) := by
  unfold segOr
  suffices h : ∀ k, segBit ((List.range k).foldl (fun m i => segOrBit m (p + i) (v.getLsbD (n - 1 - i))) m) q =
      (segBit m q || (decide (p ≤ q ∧ q < p + k) && v.getLsbD (n - 1 - (q - p)))) from h n
  intro k
  induction k with
  | zero =>
    have : ¬ (p ≤ q ∧ q < p + 0) := by omega
    simp [this]
  | succ k ih =>
    rw [segOr_succ, segBit_segOrBit, ih]
    by_cases h : q = p + k
    · subst h
      have h1 : ¬ (p ≤ p + k ∧ p + k < p + k) := by omega
      have h2 : p ≤ p + k ∧ p + k < p + (k + 1) := by omega
      simp [h1, h2]
    · have : (p ≤ q ∧ q < p + k) ↔ (p ≤ q ∧ q < p + (k + 1)) := by omega
      simp [h, this]

theorem byte_segOr (m : Memory) (p n : Nat) (v : Word) {a : Nat} (h : a < segBase + p / 8 ∨ segBase + (p + n - 1) / 8 < a) :
    (segOr m p n v).byte a = m.byte a := by
  unfold segOr
  suffices h : ∀ k, k ≤ n → ((List.range k).foldl (fun m i => segOrBit m (p + i) (v.getLsbD (n - 1 - i))) m).byte a = m.byte a from
    h n (Nat.le_refl _)
  intro k
  induction k with
  | zero => intro _; rfl
  | succ k ih =>
    intro hk
    rw [segOr_succ, byte_segOrBit _ _ _ (by omega)]
    exact ih (by omega)

/-! ### Rounding -/

/-- The rounding as division (00_scope.md R11). -/
theorem roundShift_of_nonneg {a : Int} {n : Nat} (hn : n ≠ 0) (h : 0 ≤ a) : roundShift a n = (a + 2 ^ (n - 1)) / 2 ^ n := by
  unfold roundShift; rw [if_neg hn, if_pos h, Int.shiftRight_eq_div_pow]; push_cast; rfl

theorem roundShift_of_neg {a : Int} {n : Nat} (hn : n ≠ 0) (h : a < 0) : roundShift a n = -((-a + 2 ^ (n - 1)) / 2 ^ n) := by
  unfold roundShift; rw [if_neg hn, if_neg (by omega), Int.shiftRight_eq_div_pow]; push_cast; rfl

theorem roundShift_neg (a : Int) {n : Nat} (hn : n ≠ 0) : roundShift (-a) n = -roundShift a n := by
  rcases Int.lt_trichotomy a 0 with h | h | h
  · rw [roundShift_of_nonneg hn (by omega), roundShift_of_neg hn h]; simp
  · subst h
    have : (0 : Int) / 2 ^ n = 0 := by simp
    have h2 : (2 : Int) ^ (n - 1) / 2 ^ n = 0 :=
      Int.ediv_eq_zero_of_lt (by positivity) (by exact_mod_cast Nat.pow_lt_pow_right (by omega) (by omega))
    rw [Int.neg_zero, roundShift_of_nonneg hn (Int.le_refl 0)]; simp [h2]
  · rw [roundShift_of_neg hn (by omega), roundShift_of_nonneg hn (by omega)]; simp

end Sys2Proof.Machine
end

