-- ==== Sys2Proof/Laws/State.lean ====
section
/-! SUPPORT. One lemma per field and update of State, so that no later proof unfolds a record update. -/

namespace Sys2Proof.Machine

open Sys2Proof

/-! setMem -/

@[simp] theorem State.setMem_phase (s : State) (m : Memory) : (s.setMem m).phase = s.phase := rfl
@[simp] theorem State.setMem_wait (s : State) (m : Memory) : (s.setMem m).wait = s.wait := rfl
@[simp] theorem State.setMem_blk (s : State) (m : Memory) : (s.setMem m).blk = s.blk := rfl
@[simp] theorem State.setMem_mb (s : State) (m : Memory) : (s.setMem m).mb = s.mb := rfl
@[simp] theorem State.setMem_mem (s : State) (m : Memory) : (s.setMem m).mem = m := rfl
@[simp] theorem State.setMem_port (s : State) (m : Memory) : (s.setMem m).port = s.port := rfl
@[simp] theorem State.setMem_fresh (s : State) (m : Memory) : (s.setMem m).fresh = s.fresh := rfl
@[simp] theorem State.setMem_csr (s : State) (m : Memory) : (s.setMem m).csr = s.csr := rfl

/-! setRes0 -/

@[simp] theorem State.setRes0_phase (s : State) (v : Word) : (s.setRes0 v).phase = s.phase := rfl
@[simp] theorem State.setRes0_wait (s : State) (v : Word) : (s.setRes0 v).wait = s.wait := rfl
@[simp] theorem State.setRes0_blk (s : State) (v : Word) : (s.setRes0 v).blk = s.blk := rfl
@[simp] theorem State.setRes0_mb (s : State) (v : Word) : (s.setRes0 v).mb = s.mb := rfl
@[simp] theorem State.setRes0_mem (s : State) (v : Word) : (s.setRes0 v).mem = s.mem := rfl
@[simp] theorem State.setRes0_port (s : State) (v : Word) : (s.setRes0 v).port = s.port := rfl
@[simp] theorem State.setRes0_fresh (s : State) (v : Word) : (s.setRes0 v).fresh = s.fresh := rfl
@[simp] theorem State.setRes0_ctrl (s : State) (v : Word) : (s.setRes0 v).csr.ctrl = s.csr.ctrl := rfl
@[simp] theorem State.setRes0_cmd (s : State) (v : Word) : (s.setRes0 v).csr.cmd = s.csr.cmd := rfl
@[simp] theorem State.setRes0_status (s : State) (v : Word) : (s.setRes0 v).csr.status = s.csr.status := rfl
@[simp] theorem State.setRes0_arg0 (s : State) (v : Word) : (s.setRes0 v).csr.arg0 = s.csr.arg0 := rfl
@[simp] theorem State.setRes0_res0 (s : State) (v : Word) : (s.setRes0 v).csr.res0 = v := rfl
@[simp] theorem State.setRes0_res1 (s : State) (v : Word) : (s.setRes0 v).csr.res1 = s.csr.res1 := rfl
@[simp] theorem State.setRes0_res2 (s : State) (v : Word) : (s.setRes0 v).csr.res2 = s.csr.res2 := rfl
@[simp] theorem State.setRes0_bitpos (s : State) (v : Word) : (s.setRes0 v).csr.bitpos = s.csr.bitpos := rfl
@[simp] theorem State.setRes0_thr248 (s : State) (v : Word) : (s.setRes0 v).csr.thr248 = s.csr.thr248 := rfl
@[simp] theorem State.setRes0_clsthrY (s : State) (v : Word) : (s.setRes0 v).csr.clsthrY = s.csr.clsthrY := rfl
@[simp] theorem State.setRes0_clsthrC (s : State) (v : Word) : (s.setRes0 v).csr.clsthrC = s.csr.clsthrC := rfl
@[simp] theorem State.setRes0_ovfCount (s : State) (v : Word) : (s.setRes0 v).csr.ovfCount = s.csr.ovfCount := rfl
@[simp] theorem State.setRes0_errcmd (s : State) (v : Word) : (s.setRes0 v).csr.errcmd = s.csr.errcmd := rfl

/-! setRes1 -/

@[simp] theorem State.setRes1_phase (s : State) (v : Word) : (s.setRes1 v).phase = s.phase := rfl
@[simp] theorem State.setRes1_wait (s : State) (v : Word) : (s.setRes1 v).wait = s.wait := rfl
@[simp] theorem State.setRes1_blk (s : State) (v : Word) : (s.setRes1 v).blk = s.blk := rfl
@[simp] theorem State.setRes1_mb (s : State) (v : Word) : (s.setRes1 v).mb = s.mb := rfl
@[simp] theorem State.setRes1_mem (s : State) (v : Word) : (s.setRes1 v).mem = s.mem := rfl
@[simp] theorem State.setRes1_port (s : State) (v : Word) : (s.setRes1 v).port = s.port := rfl
@[simp] theorem State.setRes1_fresh (s : State) (v : Word) : (s.setRes1 v).fresh = s.fresh := rfl
@[simp] theorem State.setRes1_ctrl (s : State) (v : Word) : (s.setRes1 v).csr.ctrl = s.csr.ctrl := rfl
@[simp] theorem State.setRes1_cmd (s : State) (v : Word) : (s.setRes1 v).csr.cmd = s.csr.cmd := rfl
@[simp] theorem State.setRes1_status (s : State) (v : Word) : (s.setRes1 v).csr.status = s.csr.status := rfl
@[simp] theorem State.setRes1_arg0 (s : State) (v : Word) : (s.setRes1 v).csr.arg0 = s.csr.arg0 := rfl
@[simp] theorem State.setRes1_res0 (s : State) (v : Word) : (s.setRes1 v).csr.res0 = s.csr.res0 := rfl
@[simp] theorem State.setRes1_res1 (s : State) (v : Word) : (s.setRes1 v).csr.res1 = v := rfl
@[simp] theorem State.setRes1_res2 (s : State) (v : Word) : (s.setRes1 v).csr.res2 = s.csr.res2 := rfl
@[simp] theorem State.setRes1_bitpos (s : State) (v : Word) : (s.setRes1 v).csr.bitpos = s.csr.bitpos := rfl
@[simp] theorem State.setRes1_thr248 (s : State) (v : Word) : (s.setRes1 v).csr.thr248 = s.csr.thr248 := rfl
@[simp] theorem State.setRes1_clsthrY (s : State) (v : Word) : (s.setRes1 v).csr.clsthrY = s.csr.clsthrY := rfl
@[simp] theorem State.setRes1_clsthrC (s : State) (v : Word) : (s.setRes1 v).csr.clsthrC = s.csr.clsthrC := rfl
@[simp] theorem State.setRes1_ovfCount (s : State) (v : Word) : (s.setRes1 v).csr.ovfCount = s.csr.ovfCount := rfl
@[simp] theorem State.setRes1_errcmd (s : State) (v : Word) : (s.setRes1 v).csr.errcmd = s.csr.errcmd := rfl

/-! setRes2 -/

@[simp] theorem State.setRes2_phase (s : State) (v : Word) : (s.setRes2 v).phase = s.phase := rfl
@[simp] theorem State.setRes2_wait (s : State) (v : Word) : (s.setRes2 v).wait = s.wait := rfl
@[simp] theorem State.setRes2_blk (s : State) (v : Word) : (s.setRes2 v).blk = s.blk := rfl
@[simp] theorem State.setRes2_mb (s : State) (v : Word) : (s.setRes2 v).mb = s.mb := rfl
@[simp] theorem State.setRes2_mem (s : State) (v : Word) : (s.setRes2 v).mem = s.mem := rfl
@[simp] theorem State.setRes2_port (s : State) (v : Word) : (s.setRes2 v).port = s.port := rfl
@[simp] theorem State.setRes2_fresh (s : State) (v : Word) : (s.setRes2 v).fresh = s.fresh := rfl
@[simp] theorem State.setRes2_ctrl (s : State) (v : Word) : (s.setRes2 v).csr.ctrl = s.csr.ctrl := rfl
@[simp] theorem State.setRes2_cmd (s : State) (v : Word) : (s.setRes2 v).csr.cmd = s.csr.cmd := rfl
@[simp] theorem State.setRes2_status (s : State) (v : Word) : (s.setRes2 v).csr.status = s.csr.status := rfl
@[simp] theorem State.setRes2_arg0 (s : State) (v : Word) : (s.setRes2 v).csr.arg0 = s.csr.arg0 := rfl
@[simp] theorem State.setRes2_res0 (s : State) (v : Word) : (s.setRes2 v).csr.res0 = s.csr.res0 := rfl
@[simp] theorem State.setRes2_res1 (s : State) (v : Word) : (s.setRes2 v).csr.res1 = s.csr.res1 := rfl
@[simp] theorem State.setRes2_res2 (s : State) (v : Word) : (s.setRes2 v).csr.res2 = v := rfl
@[simp] theorem State.setRes2_bitpos (s : State) (v : Word) : (s.setRes2 v).csr.bitpos = s.csr.bitpos := rfl
@[simp] theorem State.setRes2_thr248 (s : State) (v : Word) : (s.setRes2 v).csr.thr248 = s.csr.thr248 := rfl
@[simp] theorem State.setRes2_clsthrY (s : State) (v : Word) : (s.setRes2 v).csr.clsthrY = s.csr.clsthrY := rfl
@[simp] theorem State.setRes2_clsthrC (s : State) (v : Word) : (s.setRes2 v).csr.clsthrC = s.csr.clsthrC := rfl
@[simp] theorem State.setRes2_ovfCount (s : State) (v : Word) : (s.setRes2 v).csr.ovfCount = s.csr.ovfCount := rfl
@[simp] theorem State.setRes2_errcmd (s : State) (v : Word) : (s.setRes2 v).csr.errcmd = s.csr.errcmd := rfl

/-! setBitpos -/

@[simp] theorem State.setBitpos_phase (s : State) (v : BitVec 12) : (s.setBitpos v).phase = s.phase := rfl
@[simp] theorem State.setBitpos_wait (s : State) (v : BitVec 12) : (s.setBitpos v).wait = s.wait := rfl
@[simp] theorem State.setBitpos_blk (s : State) (v : BitVec 12) : (s.setBitpos v).blk = s.blk := rfl
@[simp] theorem State.setBitpos_mb (s : State) (v : BitVec 12) : (s.setBitpos v).mb = s.mb := rfl
@[simp] theorem State.setBitpos_mem (s : State) (v : BitVec 12) : (s.setBitpos v).mem = s.mem := rfl
@[simp] theorem State.setBitpos_port (s : State) (v : BitVec 12) : (s.setBitpos v).port = s.port := rfl
@[simp] theorem State.setBitpos_fresh (s : State) (v : BitVec 12) : (s.setBitpos v).fresh = s.fresh := rfl
@[simp] theorem State.setBitpos_ctrl (s : State) (v : BitVec 12) : (s.setBitpos v).csr.ctrl = s.csr.ctrl := rfl
@[simp] theorem State.setBitpos_cmd (s : State) (v : BitVec 12) : (s.setBitpos v).csr.cmd = s.csr.cmd := rfl
@[simp] theorem State.setBitpos_status (s : State) (v : BitVec 12) : (s.setBitpos v).csr.status = s.csr.status := rfl
@[simp] theorem State.setBitpos_arg0 (s : State) (v : BitVec 12) : (s.setBitpos v).csr.arg0 = s.csr.arg0 := rfl
@[simp] theorem State.setBitpos_res0 (s : State) (v : BitVec 12) : (s.setBitpos v).csr.res0 = s.csr.res0 := rfl
@[simp] theorem State.setBitpos_res1 (s : State) (v : BitVec 12) : (s.setBitpos v).csr.res1 = s.csr.res1 := rfl
@[simp] theorem State.setBitpos_res2 (s : State) (v : BitVec 12) : (s.setBitpos v).csr.res2 = s.csr.res2 := rfl
@[simp] theorem State.setBitpos_bitpos (s : State) (v : BitVec 12) : (s.setBitpos v).csr.bitpos = v := rfl
@[simp] theorem State.setBitpos_thr248 (s : State) (v : BitVec 12) : (s.setBitpos v).csr.thr248 = s.csr.thr248 := rfl
@[simp] theorem State.setBitpos_clsthrY (s : State) (v : BitVec 12) : (s.setBitpos v).csr.clsthrY = s.csr.clsthrY := rfl
@[simp] theorem State.setBitpos_clsthrC (s : State) (v : BitVec 12) : (s.setBitpos v).csr.clsthrC = s.csr.clsthrC := rfl
@[simp] theorem State.setBitpos_ovfCount (s : State) (v : BitVec 12) : (s.setBitpos v).csr.ovfCount = s.csr.ovfCount := rfl
@[simp] theorem State.setBitpos_errcmd (s : State) (v : BitVec 12) : (s.setBitpos v).csr.errcmd = s.csr.errcmd := rfl

/-! setStatus -/

@[simp] theorem State.setStatus_phase (s : State) (v : Status) : (s.setStatus v).phase = s.phase := rfl
@[simp] theorem State.setStatus_wait (s : State) (v : Status) : (s.setStatus v).wait = s.wait := rfl
@[simp] theorem State.setStatus_blk (s : State) (v : Status) : (s.setStatus v).blk = s.blk := rfl
@[simp] theorem State.setStatus_mb (s : State) (v : Status) : (s.setStatus v).mb = s.mb := rfl
@[simp] theorem State.setStatus_mem (s : State) (v : Status) : (s.setStatus v).mem = s.mem := rfl
@[simp] theorem State.setStatus_port (s : State) (v : Status) : (s.setStatus v).port = s.port := rfl
@[simp] theorem State.setStatus_fresh (s : State) (v : Status) : (s.setStatus v).fresh = s.fresh := rfl
@[simp] theorem State.setStatus_ctrl (s : State) (v : Status) : (s.setStatus v).csr.ctrl = s.csr.ctrl := rfl
@[simp] theorem State.setStatus_cmd (s : State) (v : Status) : (s.setStatus v).csr.cmd = s.csr.cmd := rfl
@[simp] theorem State.setStatus_status (s : State) (v : Status) : (s.setStatus v).csr.status = v := rfl
@[simp] theorem State.setStatus_arg0 (s : State) (v : Status) : (s.setStatus v).csr.arg0 = s.csr.arg0 := rfl
@[simp] theorem State.setStatus_res0 (s : State) (v : Status) : (s.setStatus v).csr.res0 = s.csr.res0 := rfl
@[simp] theorem State.setStatus_res1 (s : State) (v : Status) : (s.setStatus v).csr.res1 = s.csr.res1 := rfl
@[simp] theorem State.setStatus_res2 (s : State) (v : Status) : (s.setStatus v).csr.res2 = s.csr.res2 := rfl
@[simp] theorem State.setStatus_bitpos (s : State) (v : Status) : (s.setStatus v).csr.bitpos = s.csr.bitpos := rfl
@[simp] theorem State.setStatus_thr248 (s : State) (v : Status) : (s.setStatus v).csr.thr248 = s.csr.thr248 := rfl
@[simp] theorem State.setStatus_clsthrY (s : State) (v : Status) : (s.setStatus v).csr.clsthrY = s.csr.clsthrY := rfl
@[simp] theorem State.setStatus_clsthrC (s : State) (v : Status) : (s.setStatus v).csr.clsthrC = s.csr.clsthrC := rfl
@[simp] theorem State.setStatus_ovfCount (s : State) (v : Status) : (s.setStatus v).csr.ovfCount = s.csr.ovfCount := rfl
@[simp] theorem State.setStatus_errcmd (s : State) (v : Status) : (s.setStatus v).csr.errcmd = s.csr.errcmd := rfl

/-! setHost -/

@[simp] theorem State.setHost_phase (s : State) (l : List HostEvent) : (s.setHost l).phase = s.phase := rfl
@[simp] theorem State.setHost_wait (s : State) (l : List HostEvent) : (s.setHost l).wait = s.wait := rfl
@[simp] theorem State.setHost_blk (s : State) (l : List HostEvent) : (s.setHost l).blk = s.blk := rfl
@[simp] theorem State.setHost_mb (s : State) (l : List HostEvent) : (s.setHost l).mb = s.mb := rfl
@[simp] theorem State.setHost_mem (s : State) (l : List HostEvent) : (s.setHost l).mem = s.mem := rfl
@[simp] theorem State.setHost_csr (s : State) (l : List HostEvent) : (s.setHost l).csr = s.csr := rfl
@[simp] theorem State.setHost_fresh (s : State) (l : List HostEvent) : (s.setHost l).fresh = s.fresh := rfl
@[simp] theorem State.setHost_stalled (s : State) (l : List HostEvent) : (s.setHost l).port.stalled = s.port.stalled := rfl
@[simp] theorem State.setHost_replies (s : State) (l : List HostEvent) : (s.setHost l).port.replies = s.port.replies := rfl
@[simp] theorem State.setHost_latency (s : State) (l : List HostEvent) : (s.setHost l).port.latency = s.port.latency := rfl
@[simp] theorem State.setHost_host (s : State) (l : List HostEvent) : (s.setHost l).port.host = l := rfl
@[simp] theorem State.setHost_setHost (s : State) (l r : List HostEvent) : (s.setHost l).setHost r = s.setHost r := rfl

/-! setOvfCount -/

@[simp] theorem State.setOvfCount_phase (s : State) (v : Word) : (s.setOvfCount v).phase = s.phase := rfl
@[simp] theorem State.setOvfCount_wait (s : State) (v : Word) : (s.setOvfCount v).wait = s.wait := rfl
@[simp] theorem State.setOvfCount_blk (s : State) (v : Word) : (s.setOvfCount v).blk = s.blk := rfl
@[simp] theorem State.setOvfCount_mb (s : State) (v : Word) : (s.setOvfCount v).mb = s.mb := rfl
@[simp] theorem State.setOvfCount_mem (s : State) (v : Word) : (s.setOvfCount v).mem = s.mem := rfl
@[simp] theorem State.setOvfCount_port (s : State) (v : Word) : (s.setOvfCount v).port = s.port := rfl
@[simp] theorem State.setOvfCount_fresh (s : State) (v : Word) : (s.setOvfCount v).fresh = s.fresh := rfl
@[simp] theorem State.setOvfCount_ctrl (s : State) (v : Word) : (s.setOvfCount v).csr.ctrl = s.csr.ctrl := rfl
@[simp] theorem State.setOvfCount_cmd (s : State) (v : Word) : (s.setOvfCount v).csr.cmd = s.csr.cmd := rfl
@[simp] theorem State.setOvfCount_status (s : State) (v : Word) : (s.setOvfCount v).csr.status = s.csr.status := rfl
@[simp] theorem State.setOvfCount_arg0 (s : State) (v : Word) : (s.setOvfCount v).csr.arg0 = s.csr.arg0 := rfl
@[simp] theorem State.setOvfCount_res0 (s : State) (v : Word) : (s.setOvfCount v).csr.res0 = s.csr.res0 := rfl
@[simp] theorem State.setOvfCount_res1 (s : State) (v : Word) : (s.setOvfCount v).csr.res1 = s.csr.res1 := rfl
@[simp] theorem State.setOvfCount_res2 (s : State) (v : Word) : (s.setOvfCount v).csr.res2 = s.csr.res2 := rfl
@[simp] theorem State.setOvfCount_bitpos (s : State) (v : Word) : (s.setOvfCount v).csr.bitpos = s.csr.bitpos := rfl
@[simp] theorem State.setOvfCount_thr248 (s : State) (v : Word) : (s.setOvfCount v).csr.thr248 = s.csr.thr248 := rfl
@[simp] theorem State.setOvfCount_clsthrY (s : State) (v : Word) : (s.setOvfCount v).csr.clsthrY = s.csr.clsthrY := rfl
@[simp] theorem State.setOvfCount_clsthrC (s : State) (v : Word) : (s.setOvfCount v).csr.clsthrC = s.csr.clsthrC := rfl
@[simp] theorem State.setOvfCount_ovfCount (s : State) (v : Word) : (s.setOvfCount v).csr.ovfCount = v := rfl
@[simp] theorem State.setOvfCount_errcmd (s : State) (v : Word) : (s.setOvfCount v).csr.errcmd = s.csr.errcmd := rfl

/-! setBlk -/

@[simp] theorem State.setBlk_phase (s : State) (b : Nat) (x : BlkMeta) : (s.setBlk b x).phase = s.phase := rfl
@[simp] theorem State.setBlk_wait (s : State) (b : Nat) (x : BlkMeta) : (s.setBlk b x).wait = s.wait := rfl
@[simp] theorem State.setBlk_blk (s : State) (b : Nat) (x : BlkMeta) : (s.setBlk b x).blk = s.blk.setIfInBounds b x := rfl
@[simp] theorem State.setBlk_mb (s : State) (b : Nat) (x : BlkMeta) : (s.setBlk b x).mb = s.mb := rfl
@[simp] theorem State.setBlk_mem (s : State) (b : Nat) (x : BlkMeta) : (s.setBlk b x).mem = s.mem := rfl
@[simp] theorem State.setBlk_port (s : State) (b : Nat) (x : BlkMeta) : (s.setBlk b x).port = s.port := rfl
@[simp] theorem State.setBlk_fresh (s : State) (b : Nat) (x : BlkMeta) : (s.setBlk b x).fresh = s.fresh := rfl
@[simp] theorem State.setBlk_csr (s : State) (b : Nat) (x : BlkMeta) : (s.setBlk b x).csr = s.csr := rfl

/-! setMb -/

@[simp] theorem State.setMb_phase (s : State) (m : Nat) (x : MbMeta) : (s.setMb m x).phase = s.phase := rfl
@[simp] theorem State.setMb_wait (s : State) (m : Nat) (x : MbMeta) : (s.setMb m x).wait = s.wait := rfl
@[simp] theorem State.setMb_blk (s : State) (m : Nat) (x : MbMeta) : (s.setMb m x).blk = s.blk := rfl
@[simp] theorem State.setMb_mb (s : State) (m : Nat) (x : MbMeta) : (s.setMb m x).mb = s.mb.setIfInBounds m x := rfl
@[simp] theorem State.setMb_mem (s : State) (m : Nat) (x : MbMeta) : (s.setMb m x).mem = s.mem := rfl
@[simp] theorem State.setMb_port (s : State) (m : Nat) (x : MbMeta) : (s.setMb m x).port = s.port := rfl
@[simp] theorem State.setMb_fresh (s : State) (m : Nat) (x : MbMeta) : (s.setMb m x).fresh = s.fresh := rfl
@[simp] theorem State.setMb_csr (s : State) (m : Nat) (x : MbMeta) : (s.setMb m x).csr = s.csr := rfl

/-! setCoefs -/

@[simp] theorem State.setCoefs_phase (s : State) (b : Nat) (c : List Int) : (s.setCoefs b c).phase = s.phase := rfl
@[simp] theorem State.setCoefs_wait (s : State) (b : Nat) (c : List Int) : (s.setCoefs b c).wait = s.wait := rfl
@[simp] theorem State.setCoefs_blk (s : State) (b : Nat) (c : List Int) : (s.setCoefs b c).blk = s.blk := rfl
@[simp] theorem State.setCoefs_mb (s : State) (b : Nat) (c : List Int) : (s.setCoefs b c).mb = s.mb := rfl
@[simp] theorem State.setCoefs_mem (s : State) (b : Nat) (c : List Int) : (s.setCoefs b c).mem = storeCoefs s.mem b c := rfl
@[simp] theorem State.setCoefs_port (s : State) (b : Nat) (c : List Int) : (s.setCoefs b c).port = s.port := rfl
@[simp] theorem State.setCoefs_fresh (s : State) (b : Nat) (c : List Int) : (s.setCoefs b c).fresh = s.fresh := rfl
@[simp] theorem State.setCoefs_csr (s : State) (b : Nat) (c : List Int) : (s.setCoefs b c).csr = s.csr := rfl

/-! markTrunc -/

@[simp] theorem State.markTrunc_phase (s : State) (c : Bool) : (s.markTrunc c).phase = s.phase := rfl
@[simp] theorem State.markTrunc_wait (s : State) (c : Bool) : (s.markTrunc c).wait = s.wait := rfl
@[simp] theorem State.markTrunc_blk (s : State) (c : Bool) : (s.markTrunc c).blk = s.blk := rfl
@[simp] theorem State.markTrunc_mb (s : State) (c : Bool) : (s.markTrunc c).mb = s.mb := rfl
@[simp] theorem State.markTrunc_mem (s : State) (c : Bool) : (s.markTrunc c).mem = s.mem := rfl
@[simp] theorem State.markTrunc_port (s : State) (c : Bool) : (s.markTrunc c).port = s.port := rfl
@[simp] theorem State.markTrunc_fresh (s : State) (c : Bool) : (s.markTrunc c).fresh = s.fresh := rfl
@[simp] theorem State.markTrunc_ctrl (s : State) (c : Bool) : (s.markTrunc c).csr.ctrl = s.csr.ctrl := rfl
@[simp] theorem State.markTrunc_cmd (s : State) (c : Bool) : (s.markTrunc c).csr.cmd = s.csr.cmd := rfl
@[simp] theorem State.markTrunc_status (s : State) (c : Bool) : (s.markTrunc c).csr.status = { s.csr.status with trunc := s.csr.status.trunc || c } := rfl
@[simp] theorem State.markTrunc_arg0 (s : State) (c : Bool) : (s.markTrunc c).csr.arg0 = s.csr.arg0 := rfl
@[simp] theorem State.markTrunc_res0 (s : State) (c : Bool) : (s.markTrunc c).csr.res0 = s.csr.res0 := rfl
@[simp] theorem State.markTrunc_res1 (s : State) (c : Bool) : (s.markTrunc c).csr.res1 = s.csr.res1 := rfl
@[simp] theorem State.markTrunc_res2 (s : State) (c : Bool) : (s.markTrunc c).csr.res2 = s.csr.res2 := rfl
@[simp] theorem State.markTrunc_bitpos (s : State) (c : Bool) : (s.markTrunc c).csr.bitpos = s.csr.bitpos := rfl
@[simp] theorem State.markTrunc_thr248 (s : State) (c : Bool) : (s.markTrunc c).csr.thr248 = s.csr.thr248 := rfl
@[simp] theorem State.markTrunc_clsthrY (s : State) (c : Bool) : (s.markTrunc c).csr.clsthrY = s.csr.clsthrY := rfl
@[simp] theorem State.markTrunc_clsthrC (s : State) (c : Bool) : (s.markTrunc c).csr.clsthrC = s.csr.clsthrC := rfl
@[simp] theorem State.markTrunc_ovfCount (s : State) (c : Bool) : (s.markTrunc c).csr.ovfCount = s.csr.ovfCount := rfl
@[simp] theorem State.markTrunc_errcmd (s : State) (c : Bool) : (s.markTrunc c).csr.errcmd = s.csr.errcmd := rfl

/-! markVlcerr -/

@[simp] theorem State.markVlcerr_phase (s : State) (c : Bool) : (s.markVlcerr c).phase = s.phase := rfl
@[simp] theorem State.markVlcerr_wait (s : State) (c : Bool) : (s.markVlcerr c).wait = s.wait := rfl
@[simp] theorem State.markVlcerr_blk (s : State) (c : Bool) : (s.markVlcerr c).blk = s.blk := rfl
@[simp] theorem State.markVlcerr_mb (s : State) (c : Bool) : (s.markVlcerr c).mb = s.mb := rfl
@[simp] theorem State.markVlcerr_mem (s : State) (c : Bool) : (s.markVlcerr c).mem = s.mem := rfl
@[simp] theorem State.markVlcerr_port (s : State) (c : Bool) : (s.markVlcerr c).port = s.port := rfl
@[simp] theorem State.markVlcerr_fresh (s : State) (c : Bool) : (s.markVlcerr c).fresh = s.fresh := rfl
@[simp] theorem State.markVlcerr_ctrl (s : State) (c : Bool) : (s.markVlcerr c).csr.ctrl = s.csr.ctrl := rfl
@[simp] theorem State.markVlcerr_cmd (s : State) (c : Bool) : (s.markVlcerr c).csr.cmd = s.csr.cmd := rfl
@[simp] theorem State.markVlcerr_status (s : State) (c : Bool) : (s.markVlcerr c).csr.status = { s.csr.status with vlcerr := s.csr.status.vlcerr || c } := rfl
@[simp] theorem State.markVlcerr_arg0 (s : State) (c : Bool) : (s.markVlcerr c).csr.arg0 = s.csr.arg0 := rfl
@[simp] theorem State.markVlcerr_res0 (s : State) (c : Bool) : (s.markVlcerr c).csr.res0 = s.csr.res0 := rfl
@[simp] theorem State.markVlcerr_res1 (s : State) (c : Bool) : (s.markVlcerr c).csr.res1 = s.csr.res1 := rfl
@[simp] theorem State.markVlcerr_res2 (s : State) (c : Bool) : (s.markVlcerr c).csr.res2 = s.csr.res2 := rfl
@[simp] theorem State.markVlcerr_bitpos (s : State) (c : Bool) : (s.markVlcerr c).csr.bitpos = s.csr.bitpos := rfl
@[simp] theorem State.markVlcerr_thr248 (s : State) (c : Bool) : (s.markVlcerr c).csr.thr248 = s.csr.thr248 := rfl
@[simp] theorem State.markVlcerr_clsthrY (s : State) (c : Bool) : (s.markVlcerr c).csr.clsthrY = s.csr.clsthrY := rfl
@[simp] theorem State.markVlcerr_clsthrC (s : State) (c : Bool) : (s.markVlcerr c).csr.clsthrC = s.csr.clsthrC := rfl
@[simp] theorem State.markVlcerr_ovfCount (s : State) (c : Bool) : (s.markVlcerr c).csr.ovfCount = s.csr.ovfCount := rfl
@[simp] theorem State.markVlcerr_errcmd (s : State) (c : Bool) : (s.markVlcerr c).csr.errcmd = s.csr.errcmd := rfl

/-! markQover -/

@[simp] theorem State.markQover_phase (s : State) (c : Bool) : (s.markQover c).phase = s.phase := rfl
@[simp] theorem State.markQover_wait (s : State) (c : Bool) : (s.markQover c).wait = s.wait := rfl
@[simp] theorem State.markQover_blk (s : State) (c : Bool) : (s.markQover c).blk = s.blk := rfl
@[simp] theorem State.markQover_mb (s : State) (c : Bool) : (s.markQover c).mb = s.mb := rfl
@[simp] theorem State.markQover_mem (s : State) (c : Bool) : (s.markQover c).mem = s.mem := rfl
@[simp] theorem State.markQover_port (s : State) (c : Bool) : (s.markQover c).port = s.port := rfl
@[simp] theorem State.markQover_fresh (s : State) (c : Bool) : (s.markQover c).fresh = s.fresh := rfl
@[simp] theorem State.markQover_ctrl (s : State) (c : Bool) : (s.markQover c).csr.ctrl = s.csr.ctrl := rfl
@[simp] theorem State.markQover_cmd (s : State) (c : Bool) : (s.markQover c).csr.cmd = s.csr.cmd := rfl
@[simp] theorem State.markQover_status (s : State) (c : Bool) : (s.markQover c).csr.status = { s.csr.status with qover := s.csr.status.qover || c } := rfl
@[simp] theorem State.markQover_arg0 (s : State) (c : Bool) : (s.markQover c).csr.arg0 = s.csr.arg0 := rfl
@[simp] theorem State.markQover_res0 (s : State) (c : Bool) : (s.markQover c).csr.res0 = s.csr.res0 := rfl
@[simp] theorem State.markQover_res1 (s : State) (c : Bool) : (s.markQover c).csr.res1 = s.csr.res1 := rfl
@[simp] theorem State.markQover_res2 (s : State) (c : Bool) : (s.markQover c).csr.res2 = s.csr.res2 := rfl
@[simp] theorem State.markQover_bitpos (s : State) (c : Bool) : (s.markQover c).csr.bitpos = s.csr.bitpos := rfl
@[simp] theorem State.markQover_thr248 (s : State) (c : Bool) : (s.markQover c).csr.thr248 = s.csr.thr248 := rfl
@[simp] theorem State.markQover_clsthrY (s : State) (c : Bool) : (s.markQover c).csr.clsthrY = s.csr.clsthrY := rfl
@[simp] theorem State.markQover_clsthrC (s : State) (c : Bool) : (s.markQover c).csr.clsthrC = s.csr.clsthrC := rfl
@[simp] theorem State.markQover_ovfCount (s : State) (c : Bool) : (s.markQover c).csr.ovfCount = s.csr.ovfCount := rfl
@[simp] theorem State.markQover_errcmd (s : State) (c : Bool) : (s.markQover c).csr.errcmd = s.csr.errcmd := rfl

/-! markReject -/

@[simp] theorem State.markReject_phase (s : State) : (s.markReject).phase = s.phase := rfl
@[simp] theorem State.markReject_wait (s : State) : (s.markReject).wait = s.wait := rfl
@[simp] theorem State.markReject_blk (s : State) : (s.markReject).blk = s.blk := rfl
@[simp] theorem State.markReject_mb (s : State) : (s.markReject).mb = s.mb := rfl
@[simp] theorem State.markReject_mem (s : State) : (s.markReject).mem = s.mem := rfl
@[simp] theorem State.markReject_port (s : State) : (s.markReject).port = s.port := rfl
@[simp] theorem State.markReject_fresh (s : State) : (s.markReject).fresh = s.fresh := rfl
@[simp] theorem State.markReject_ctrl (s : State) : (s.markReject).csr.ctrl = s.csr.ctrl := rfl
@[simp] theorem State.markReject_cmd (s : State) : (s.markReject).csr.cmd = s.csr.cmd := rfl
@[simp] theorem State.markReject_status (s : State) : (s.markReject).csr.status = { s.csr.status with reject := true } := rfl
@[simp] theorem State.markReject_arg0 (s : State) : (s.markReject).csr.arg0 = s.csr.arg0 := rfl
@[simp] theorem State.markReject_res0 (s : State) : (s.markReject).csr.res0 = s.csr.res0 := rfl
@[simp] theorem State.markReject_res1 (s : State) : (s.markReject).csr.res1 = s.csr.res1 := rfl
@[simp] theorem State.markReject_res2 (s : State) : (s.markReject).csr.res2 = s.csr.res2 := rfl
@[simp] theorem State.markReject_bitpos (s : State) : (s.markReject).csr.bitpos = s.csr.bitpos := rfl
@[simp] theorem State.markReject_thr248 (s : State) : (s.markReject).csr.thr248 = s.csr.thr248 := rfl
@[simp] theorem State.markReject_clsthrY (s : State) : (s.markReject).csr.clsthrY = s.csr.clsthrY := rfl
@[simp] theorem State.markReject_clsthrC (s : State) : (s.markReject).csr.clsthrC = s.csr.clsthrC := rfl
@[simp] theorem State.markReject_ovfCount (s : State) : (s.markReject).csr.ovfCount = s.csr.ovfCount := rfl
@[simp] theorem State.markReject_errcmd (s : State) : (s.markReject).csr.errcmd = s.csr.errcmd := rfl

/-! markBuserr -/

@[simp] theorem State.markBuserr_phase (s : State) : (s.markBuserr).phase = s.phase := rfl
@[simp] theorem State.markBuserr_wait (s : State) : (s.markBuserr).wait = s.wait := rfl
@[simp] theorem State.markBuserr_blk (s : State) : (s.markBuserr).blk = s.blk := rfl
@[simp] theorem State.markBuserr_mb (s : State) : (s.markBuserr).mb = s.mb := rfl
@[simp] theorem State.markBuserr_mem (s : State) : (s.markBuserr).mem = s.mem := rfl
@[simp] theorem State.markBuserr_port (s : State) : (s.markBuserr).port = s.port := rfl
@[simp] theorem State.markBuserr_fresh (s : State) : (s.markBuserr).fresh = s.fresh := rfl
@[simp] theorem State.markBuserr_ctrl (s : State) : (s.markBuserr).csr.ctrl = s.csr.ctrl := rfl
@[simp] theorem State.markBuserr_cmd (s : State) : (s.markBuserr).csr.cmd = s.csr.cmd := rfl
@[simp] theorem State.markBuserr_status (s : State) : (s.markBuserr).csr.status = { s.csr.status with buserr := true } := rfl
@[simp] theorem State.markBuserr_arg0 (s : State) : (s.markBuserr).csr.arg0 = s.csr.arg0 := rfl
@[simp] theorem State.markBuserr_res0 (s : State) : (s.markBuserr).csr.res0 = s.csr.res0 := rfl
@[simp] theorem State.markBuserr_res1 (s : State) : (s.markBuserr).csr.res1 = s.csr.res1 := rfl
@[simp] theorem State.markBuserr_res2 (s : State) : (s.markBuserr).csr.res2 = s.csr.res2 := rfl
@[simp] theorem State.markBuserr_bitpos (s : State) : (s.markBuserr).csr.bitpos = s.csr.bitpos := rfl
@[simp] theorem State.markBuserr_thr248 (s : State) : (s.markBuserr).csr.thr248 = s.csr.thr248 := rfl
@[simp] theorem State.markBuserr_clsthrY (s : State) : (s.markBuserr).csr.clsthrY = s.csr.clsthrY := rfl
@[simp] theorem State.markBuserr_clsthrC (s : State) : (s.markBuserr).csr.clsthrC = s.csr.clsthrC := rfl
@[simp] theorem State.markBuserr_ovfCount (s : State) : (s.markBuserr).csr.ovfCount = s.csr.ovfCount := rfl
@[simp] theorem State.markBuserr_errcmd (s : State) : (s.markBuserr).csr.errcmd = s.csr.errcmd := rfl

/-! reply -/

@[simp] theorem State.reply_phase (s : State) (v : Word) : (s.reply v).phase = s.phase := rfl
@[simp] theorem State.reply_wait (s : State) (v : Word) : (s.reply v).wait = s.wait := rfl
@[simp] theorem State.reply_blk (s : State) (v : Word) : (s.reply v).blk = s.blk := rfl
@[simp] theorem State.reply_mb (s : State) (v : Word) : (s.reply v).mb = s.mb := rfl
@[simp] theorem State.reply_mem (s : State) (v : Word) : (s.reply v).mem = s.mem := rfl
@[simp] theorem State.reply_port (s : State) (v : Word) : (s.reply v).port = { s.port with replies := v :: s.port.replies } := rfl
@[simp] theorem State.reply_fresh (s : State) (v : Word) : (s.reply v).fresh = s.fresh := rfl
@[simp] theorem State.reply_csr (s : State) (v : Word) : (s.reply v).csr = s.csr := rfl

/-! stall -/

@[simp] theorem State.stall_phase (s : State) (x : Access) : (s.stall x).phase = s.phase := rfl
@[simp] theorem State.stall_wait (s : State) (x : Access) : (s.stall x).wait = s.wait := rfl
@[simp] theorem State.stall_blk (s : State) (x : Access) : (s.stall x).blk = s.blk := rfl
@[simp] theorem State.stall_mb (s : State) (x : Access) : (s.stall x).mb = s.mb := rfl
@[simp] theorem State.stall_mem (s : State) (x : Access) : (s.stall x).mem = s.mem := rfl
@[simp] theorem State.stall_port (s : State) (x : Access) : (s.stall x).port = { s.port with stalled := s.port.stalled ++ [x] } := rfl
@[simp] theorem State.stall_fresh (s : State) (x : Access) : (s.stall x).fresh = s.fresh := rfl
@[simp] theorem State.stall_csr (s : State) (x : Access) : (s.stall x).csr = s.csr := rfl

/-! capture -/

@[simp] theorem State.capture_phase (s : State) (v : Word) : (s.capture v).phase = .busy := rfl
@[simp] theorem State.capture_wait (s : State) (v : Word) : (s.capture v).wait = 0 := rfl
@[simp] theorem State.capture_blk (s : State) (v : Word) : (s.capture v).blk = s.blk := rfl
@[simp] theorem State.capture_mb (s : State) (v : Word) : (s.capture v).mb = s.mb := rfl
@[simp] theorem State.capture_mem (s : State) (v : Word) : (s.capture v).mem = s.mem := rfl
@[simp] theorem State.capture_port (s : State) (v : Word) : (s.capture v).port = s.port := rfl
@[simp] theorem State.capture_fresh (s : State) (v : Word) : (s.capture v).fresh = s.fresh := rfl
@[simp] theorem State.capture_ctrl (s : State) (v : Word) : (s.capture v).csr.ctrl = s.csr.ctrl := rfl
@[simp] theorem State.capture_cmd (s : State) (v : Word) : (s.capture v).csr.cmd = v := rfl
@[simp] theorem State.capture_status (s : State) (v : Word) : (s.capture v).csr.status = s.csr.status := rfl
@[simp] theorem State.capture_arg0 (s : State) (v : Word) : (s.capture v).csr.arg0 = s.csr.arg0 := rfl
@[simp] theorem State.capture_res0 (s : State) (v : Word) : (s.capture v).csr.res0 = s.csr.res0 := rfl
@[simp] theorem State.capture_res1 (s : State) (v : Word) : (s.capture v).csr.res1 = s.csr.res1 := rfl
@[simp] theorem State.capture_res2 (s : State) (v : Word) : (s.capture v).csr.res2 = s.csr.res2 := rfl
@[simp] theorem State.capture_bitpos (s : State) (v : Word) : (s.capture v).csr.bitpos = s.csr.bitpos := rfl
@[simp] theorem State.capture_thr248 (s : State) (v : Word) : (s.capture v).csr.thr248 = s.csr.thr248 := rfl
@[simp] theorem State.capture_clsthrY (s : State) (v : Word) : (s.capture v).csr.clsthrY = s.csr.clsthrY := rfl
@[simp] theorem State.capture_clsthrC (s : State) (v : Word) : (s.capture v).csr.clsthrC = s.csr.clsthrC := rfl
@[simp] theorem State.capture_ovfCount (s : State) (v : Word) : (s.capture v).csr.ovfCount = s.csr.ovfCount := rfl
@[simp] theorem State.capture_errcmd (s : State) (v : Word) : (s.capture v).csr.errcmd = s.csr.errcmd := rfl

/-! complete -/

@[simp] theorem complete_phase (s : State) : (complete s).phase = .idle := rfl
@[simp] theorem complete_wait (s : State) : (complete s).wait = 0 := rfl
@[simp] theorem complete_blk (s : State) : (complete s).blk = s.blk := rfl
@[simp] theorem complete_mb (s : State) : (complete s).mb = s.mb := rfl
@[simp] theorem complete_mem (s : State) : (complete s).mem = s.mem := rfl
@[simp] theorem complete_port (s : State) : (complete s).port = s.port := rfl
@[simp] theorem complete_fresh (s : State) : (complete s).fresh = s.fresh := rfl
@[simp] theorem complete_ctrl (s : State) : (complete s).csr.ctrl = s.csr.ctrl := rfl
@[simp] theorem complete_cmd (s : State) : (complete s).csr.cmd = s.csr.cmd := rfl
@[simp] theorem complete_status (s : State) : (complete s).csr.status = { s.csr.status with done := true, errcode := 0 } := rfl
@[simp] theorem complete_arg0 (s : State) : (complete s).csr.arg0 = s.csr.arg0 := rfl
@[simp] theorem complete_res0 (s : State) : (complete s).csr.res0 = s.csr.res0 := rfl
@[simp] theorem complete_res1 (s : State) : (complete s).csr.res1 = s.csr.res1 := rfl
@[simp] theorem complete_res2 (s : State) : (complete s).csr.res2 = s.csr.res2 := rfl
@[simp] theorem complete_bitpos (s : State) : (complete s).csr.bitpos = s.csr.bitpos := rfl
@[simp] theorem complete_thr248 (s : State) : (complete s).csr.thr248 = s.csr.thr248 := rfl
@[simp] theorem complete_clsthrY (s : State) : (complete s).csr.clsthrY = s.csr.clsthrY := rfl
@[simp] theorem complete_clsthrC (s : State) : (complete s).csr.clsthrC = s.csr.clsthrC := rfl
@[simp] theorem complete_ovfCount (s : State) : (complete s).csr.ovfCount = s.csr.ovfCount := rfl
@[simp] theorem complete_errcmd (s : State) : (complete s).csr.errcmd = s.csr.errcmd := rfl

/-! fail -/

@[simp] theorem fail_phase (e : ErrCode) (s : State) : (fail e s).phase = .idle := rfl
@[simp] theorem fail_wait (e : ErrCode) (s : State) : (fail e s).wait = 0 := rfl
@[simp] theorem fail_blk (e : ErrCode) (s : State) : (fail e s).blk = s.blk := rfl
@[simp] theorem fail_mb (e : ErrCode) (s : State) : (fail e s).mb = s.mb := rfl
@[simp] theorem fail_mem (e : ErrCode) (s : State) : (fail e s).mem = s.mem := rfl
@[simp] theorem fail_port (e : ErrCode) (s : State) : (fail e s).port = s.port := rfl
@[simp] theorem fail_fresh (e : ErrCode) (s : State) : (fail e s).fresh = s.fresh := rfl
@[simp] theorem fail_ctrl (e : ErrCode) (s : State) : (fail e s).csr.ctrl = s.csr.ctrl := rfl
@[simp] theorem fail_cmd (e : ErrCode) (s : State) : (fail e s).csr.cmd = s.csr.cmd := rfl
@[simp] theorem fail_status (e : ErrCode) (s : State) : (fail e s).csr.status = { s.csr.status with done := true, err := true, errcode := e.number } := rfl
@[simp] theorem fail_arg0 (e : ErrCode) (s : State) : (fail e s).csr.arg0 = s.csr.arg0 := rfl
@[simp] theorem fail_res0 (e : ErrCode) (s : State) : (fail e s).csr.res0 = s.csr.res0 := rfl
@[simp] theorem fail_res1 (e : ErrCode) (s : State) : (fail e s).csr.res1 = s.csr.res1 := rfl
@[simp] theorem fail_res2 (e : ErrCode) (s : State) : (fail e s).csr.res2 = s.csr.res2 := rfl
@[simp] theorem fail_bitpos (e : ErrCode) (s : State) : (fail e s).csr.bitpos = s.csr.bitpos := rfl
@[simp] theorem fail_thr248 (e : ErrCode) (s : State) : (fail e s).csr.thr248 = s.csr.thr248 := rfl
@[simp] theorem fail_clsthrY (e : ErrCode) (s : State) : (fail e s).csr.clsthrY = s.csr.clsthrY := rfl
@[simp] theorem fail_clsthrC (e : ErrCode) (s : State) : (fail e s).csr.clsthrC = s.csr.clsthrC := rfl
@[simp] theorem fail_ovfCount (e : ErrCode) (s : State) : (fail e s).csr.ovfCount = s.csr.ovfCount := rfl
@[simp] theorem fail_errcmd (e : ErrCode) (s : State) : (fail e s).csr.errcmd = s.csr.cmd := rfl

end Sys2Proof.Machine
end

