-- ==== Sys2Proof/Laws/Ops.lean ====
section
/-! SUPPORT. What the shared operations do, said once: the ends of a command, the checks, metadata read after write, and what no
command's pseudocode touches. -/

namespace Sys2Proof.Machine

open Sys2Proof

/-! ### The ends of a command -/

theorem runCommand_ok {body : State → Except ErrCode State} {s u : State} (h : body s = .ok u) :
    runCommand body s = .next (complete u) := by simp [runCommand, h]

theorem runCommand_error {body : State → Except ErrCode State} {s : State} {e : ErrCode} (h : body s = .error e) :
    runCommand body s = .next (fail e s) := by simp [runCommand, h]

/-- Everything a command can do: complete with what its pseudocode wrote, or fail with nothing written (60 R343). -/
theorem runCommand_cases (body : State → Except ErrCode State) (s : State) :
    (∃ u, body s = .ok u ∧ runCommand body s = .next (complete u)) ∨
    (∃ e, body s = .error e ∧ runCommand body s = .next (fail e s)) := by
  cases h : body s with
  | ok u => exact .inl ⟨u, rfl, runCommand_ok h⟩
  | error e => exact .inr ⟨e, rfl, runCommand_error h⟩

theorem failed_fail (e : ErrCode) (s : State) : Failed e s (fail e s) := by
  constructor <;> first | rfl | (constructor <;> rfl) | (intro a; rfl)

theorem require_true (e : ErrCode) (x : Except ErrCode State) : require true e x = x := rfl

theorem require_false (e : ErrCode) (x : Except ErrCode State) : require false e x = .error e := rfl

theorem require_eq_ok {c : Bool} {e : ErrCode} {x : Except ErrCode State} {u : State} :
    require c e x = .ok u ↔ c = true ∧ x = .ok u := by cases c <;> simp [require]

theorem require_eq_error {c : Bool} {e e' : ErrCode} {x : Except ErrCode State} :
    require c e x = .error e' ↔ (c = false ∧ e = e') ∨ (c = true ∧ x = .error e') := by cases c <;> simp [require]

theorem withBlock_of_le {b : Nat} (h : b ≤ 29) (x : Except ErrCode State) : withBlock b x = x := by
  simp [withBlock, require, h]

theorem withBlock_of_lt {b : Nat} (h : 29 < b) (x : Except ErrCode State) : withBlock b x = .error .badIndex := by
  simp [withBlock, require]; omega

theorem withMb_of_le {m : Nat} (h : m ≤ 4) (x : Except ErrCode State) : withMb m x = x := by simp [withMb, require, h]

theorem withMb_of_lt {m : Nat} (h : 4 < m) (x : Except ErrCode State) : withMb m x = .error .badIndex := by
  simp [withMb, require]; omega

/-! ### Metadata -/

theorem blkAt_setBlk_self (s : State) {b : Nat} (x : BlkMeta) (h : b < 30) : (s.setBlk b x).blkAt b = x := by
  simp [State.blkAt, State.setBlk, Vector.getD, h]

theorem blkAt_setBlk_ne (s : State) {b c : Nat} (x : BlkMeta) (h : c ≠ b) : (s.setBlk b x).blkAt c = s.blkAt c := by
  by_cases hc : c < 30
  · simp [State.blkAt, State.setBlk, Vector.getD, hc, Vector.getElem_setIfInBounds, Ne.symm h]
  · simp [State.blkAt, State.setBlk, Vector.getD, hc]

theorem mbAt_setMb_self (s : State) {m : Nat} (x : MbMeta) (h : m < 5) : (s.setMb m x).mbAt m = x := by
  simp [State.mbAt, State.setMb, Vector.getD, h]

theorem mbAt_setMb_ne (s : State) {m c : Nat} (x : MbMeta) (h : c ≠ m) : (s.setMb m x).mbAt c = s.mbAt c := by
  by_cases hc : c < 5
  · simp [State.mbAt, State.setMb, Vector.getD, hc, Vector.getElem_setIfInBounds, Ne.symm h]
  · simp [State.mbAt, State.setMb, Vector.getD, hc]

theorem blkAt_congr {s t : State} (h : t.blk = s.blk) (b : Nat) : t.blkAt b = s.blkAt b := by simp [State.blkAt, h]

theorem mbAt_congr {s t : State} (h : t.mb = s.mb) (m : Nat) : t.mbAt m = s.mbAt m := by simp [State.mbAt, h]

@[simp] theorem blkAt_setMb (s : State) (m : Nat) (x : MbMeta) (b : Nat) : (s.setMb m x).blkAt b = s.blkAt b := rfl
@[simp] theorem mbAt_setBlk (s : State) (b : Nat) (x : BlkMeta) (m : Nat) : (s.setBlk b x).mbAt m = s.mbAt m := rfl
@[simp] theorem blkAt_setMem (s : State) (m : Memory) (b : Nat) : (s.setMem m).blkAt b = s.blkAt b := rfl
@[simp] theorem mbAt_setMem (s : State) (m : Memory) (b : Nat) : (s.setMem m).mbAt b = s.mbAt b := rfl
@[simp] theorem blkAt_setCoefs (s : State) (c : Nat) (l : List Int) (b : Nat) : (s.setCoefs c l).blkAt b = s.blkAt b := rfl
@[simp] theorem mbAt_setCoefs (s : State) (c : Nat) (l : List Int) (b : Nat) : (s.setCoefs c l).mbAt b = s.mbAt b := rfl
@[simp] theorem blkAt_setRes0 (s : State) (v : Word) (b : Nat) : (s.setRes0 v).blkAt b = s.blkAt b := rfl
@[simp] theorem mbAt_setRes0 (s : State) (v : Word) (b : Nat) : (s.setRes0 v).mbAt b = s.mbAt b := rfl
@[simp] theorem blkAt_markQover (s : State) (c : Bool) (b : Nat) : (s.markQover c).blkAt b = s.blkAt b := rfl
@[simp] theorem mbAt_markQover (s : State) (c : Bool) (b : Nat) : (s.markQover c).mbAt b = s.mbAt b := rfl
@[simp] theorem blkAt_complete (s : State) (b : Nat) : (complete s).blkAt b = s.blkAt b := rfl
@[simp] theorem mbAt_complete (s : State) (b : Nat) : (complete s).mbAt b = s.mbAt b := rfl

/-! ### What no command's pseudocode touches -/

/-- `u` agrees with `s` on everything no command's pseudocode writes. -/
structure Untouched (s u : State) : Prop where
  err : u.csr.status.err = s.csr.status.err
  reject : u.csr.status.reject = s.csr.status.reject
  buserr : u.csr.status.buserr = s.csr.status.buserr
  errcmd : u.csr.errcmd = s.csr.errcmd
  ctrl : u.csr.ctrl = s.csr.ctrl
  cmd : u.csr.cmd = s.csr.cmd
  arg0 : u.csr.arg0 = s.csr.arg0
  thr248 : u.csr.thr248 = s.csr.thr248
  clsthrY : u.csr.clsthrY = s.csr.clsthrY
  clsthrC : u.csr.clsthrC = s.csr.clsthrC
  port : u.port = s.port
  fresh : u.fresh = s.fresh

theorem Untouched.refl (s : State) : Untouched s s := by constructor <;> rfl

theorem Untouched.trans {s u v : State} (h : Untouched s u) (k : Untouched u v) : Untouched s v := by
  constructor
  · exact k.err.trans h.err
  · exact k.reject.trans h.reject
  · exact k.buserr.trans h.buserr
  · exact k.errcmd.trans h.errcmd
  · exact k.ctrl.trans h.ctrl
  · exact k.cmd.trans h.cmd
  · exact k.arg0.trans h.arg0
  · exact k.thr248.trans h.thr248
  · exact k.clsthrY.trans h.clsthrY
  · exact k.clsthrC.trans h.clsthrC
  · exact k.port.trans h.port
  · exact k.fresh.trans h.fresh

theorem untouched_setMem (s : State) (m : Memory) : Untouched s (s.setMem m) := by constructor <;> rfl
theorem untouched_setCoefs (s : State) (b : Nat) (c : List Int) : Untouched s (s.setCoefs b c) := by constructor <;> rfl
theorem untouched_setRes0 (s : State) (v : Word) : Untouched s (s.setRes0 v) := by constructor <;> rfl
theorem untouched_setRes1 (s : State) (v : Word) : Untouched s (s.setRes1 v) := by constructor <;> rfl
theorem untouched_setRes2 (s : State) (v : Word) : Untouched s (s.setRes2 v) := by constructor <;> rfl
theorem untouched_setBitpos (s : State) (v : BitVec 12) : Untouched s (s.setBitpos v) := by constructor <;> rfl
theorem untouched_setOvfCount (s : State) (v : Word) : Untouched s (s.setOvfCount v) := by constructor <;> rfl
theorem untouched_setBlk (s : State) (b : Nat) (x : BlkMeta) : Untouched s (s.setBlk b x) := by constructor <;> rfl
theorem untouched_setMb (s : State) (m : Nat) (x : MbMeta) : Untouched s (s.setMb m x) := by constructor <;> rfl
theorem untouched_markTrunc (s : State) (c : Bool) : Untouched s (s.markTrunc c) := by constructor <;> rfl
theorem untouched_markVlcerr (s : State) (c : Bool) : Untouched s (s.markVlcerr c) := by constructor <;> rfl
theorem untouched_markQover (s : State) (c : Bool) : Untouched s (s.markQover c) := by constructor <;> rfl

theorem untouched_foldl {α : Type} (f : State → α → State) (hf : ∀ u x, Untouched u (f u x)) (l : List α) (s : State) :
    Untouched s (l.foldl f s) := by
  induction l generalizing s with
  | nil => exact .refl s
  | cons x l ih => exact (hf s x).trans (ih _)

/-- A command that succeeds completes (60 R344). -/
theorem completed_complete {s u : State} (h : Untouched s u) : Completed s (complete u) := by
  constructor
  · rfl
  · rfl
  · rfl
  · rfl
  · exact h.err
  · exact h.reject
  · exact h.buserr
  · exact h.errcmd
  · exact h.ctrl
  · exact h.cmd
  · exact h.arg0
  · exact h.thr248
  · exact h.clsthrY
  · exact h.clsthrC
  · exact h.port
  · exact h.fresh

theorem onlyRes0_setRes0 (s : State) (v : Word) : OnlyRes0 s (complete (s.setRes0 v)) :=
  ⟨completed_complete (untouched_setRes0 s v), rfl, rfl, rfl, ⟨rfl, rfl, rfl, rfl⟩, ⟨rfl, rfl⟩, fun _ => rfl⟩

theorem onlyBlock_setCoefs (s : State) (b : Nat) {c : List Int} (hc : c.length = 64) : OnlyBlock b s (complete (s.setCoefs b c)) :=
  ⟨completed_complete (untouched_setCoefs s b c), ⟨rfl, rfl, rfl⟩, rfl, ⟨rfl, rfl, rfl, rfl⟩, ⟨rfl, rfl⟩,
    fun _ h => byte_storeCoefs_outside hc h⟩

theorem onlyBlkRes0_setBlk (s : State) (b : Nat) (x : BlkMeta) (v : Word) :
    OnlyBlkRes0 b s (complete ((s.setBlk b x).setRes0 v)) :=
  ⟨completed_complete ((untouched_setBlk s b x).trans (untouched_setRes0 _ v)), rfl, rfl, rfl, ⟨rfl, rfl, rfl, rfl⟩, rfl,
    fun _ h => blkAt_setBlk_ne s x h, fun _ => rfl⟩

/-! ### Folds over State keep what each step keeps -/

theorem foldl_inv {σ α : Type} (P : σ → Prop) (f : σ → α → σ) (hf : ∀ u x, P u → P (f u x)) (l : List α) (s : σ) (h : P s) :
    P (l.foldl f s) := by
  induction l generalizing s with
  | nil => exact h
  | cons x l ih => exact ih _ (hf s x h)

theorem foldl_eq {σ α β : Type} (g : σ → β) (f : σ → α → σ) (hf : ∀ u x, g (f u x) = g u) (l : List α) (s : σ) :
    g (l.foldl f s) = g s := by
  induction l generalizing s with
  | nil => rfl
  | cons x l ih => exact (ih _).trans (hf s x)

end Sys2Proof.Machine
end

