-- ==== Sys2Proof/Laws/Bus.lean ====
section
/-! SUPPORT. The host port: the address map, register and memory accesses, and fields of the words read. -/

namespace Sys2Proof.Machine

open Sys2Proof

/-! ### The address map -/

theorem regionOf_spec (a : Nat) : 
   (regionOf a = some .csr ↔ a ≤ 0x3F) ∧ (regionOf a = some .blkmeta ↔ 0x0100 ≤ a ∧ a ≤ 0x01EF) ∧ (regionOf a = some .mbmeta ↔
     0x0200 ≤ a ∧ a ≤ 0x023B) ∧
   (regionOf a = some .seg ↔ 0x0400 ≤ a ∧ a ≤ 0x058F) ∧ (regionOf a = some .coef ↔ 0x1000 ≤ a ∧ a ≤ 0x1EFF) := by
  unfold regionOf
  split_ifs <;> simp <;> omega

theorem legalRegion_iff (a : Nat) (w : Width) (r : Region) : legalRegion a w = some r ↔ regionOf a = some r ∧ r.allows w = true ∧
    a % w.bytes = 0 ∧ regionOf (a + w.bytes - 1) = some r := by
  unfold legalRegion
  cases h : regionOf a with
  | none => simp
  | some q =>
    dsimp only
    split
    · next hc =>
      simp only [Bool.and_eq_true, decide_eq_true_eq] at hc
      constructor
      · intro e; cases e; exact ⟨rfl, hc⟩
      · rintro ⟨e, -⟩; exact e
    · next hc =>
      simp only [Bool.and_eq_true, decide_eq_true_eq] at hc
      constructor
      · intro e; cases e
      · rintro ⟨e, h2⟩; cases e; exact absurd h2 hc

theorem legal_blkWord {b : Nat} (hb : b < 30) (j : Nat) (hj : j < 2) : legalRegion (BitVec.ofNat 16
    (0x0100 + 8 * b + 4 * j)).toNat .word = some .blkmeta ∧ (BitVec.ofNat 16 (0x0100 + 8 * b + 4 * j)).toNat =
    0x0100 + 8 * b + 4 * j := by
  have ht : (BitVec.ofNat 16 (0x0100 + 8 * b + 4 * j)).toNat = 0x0100 + 8 * b + 4 * j := by simp; omega
  refine ⟨?_, ht⟩
  rw [ht, legalRegion_iff]
  have s1 := regionOf_spec (0x0100 + 8 * b + 4 * j)
  have s2 := regionOf_spec (0x0100 + 8 * b + 4 * j + Width.word.bytes - 1)
  exact ⟨s1.2.1.2 (by omega), rfl, by simp [Width.bytes]; omega, s2.2.1.2 (by simp [Width.bytes]; omega)⟩
theorem legal_mbWord {m : Nat} (hb : m < 5) (j : Nat) (hj : j < 3) : legalRegion (BitVec.ofNat 16
    (0x0200 + 12 * m + 4 * j)).toNat .word = some .mbmeta ∧ (BitVec.ofNat 16 (0x0200 + 12 * m + 4 * j)).toNat =
    0x0200 + 12 * m + 4 * j := by
  have ht : (BitVec.ofNat 16 (0x0200 + 12 * m + 4 * j)).toNat = 0x0200 + 12 * m + 4 * j := by simp; omega
  refine ⟨?_, ht⟩
  rw [ht, legalRegion_iff]
  have s1 := regionOf_spec (0x0200 + 12 * m + 4 * j)
  have s2 := regionOf_spec (0x0200 + 12 * m + 4 * j + Width.word.bytes - 1)
  exact ⟨s1.2.2.1.2 (by omega), rfl, by simp [Width.bytes]; omega, s2.2.2.1.2 (by simp [Width.bytes]; omega)⟩

/-! ### Register accesses -/

theorem hostWrite_csr {addr : BitVec 16} {v : Word} {s : State} (h : legalRegion addr.toNat .word = some .csr) :
    hostWrite addr .word v s = writeCsr addr.toNat v s := by
  unfold hostWrite; dsimp only; rw [h]

theorem hostRead_csr {addr : BitVec 16} {s : State} (h : legalRegion addr.toNat .word = some .csr) (hu : s.phase = .idle ∨
    unspecifiedBusy addr.toNat = false) : hostRead addr .word s = s.reply (readCsr s addr.toNat) := by
  unfold hostRead; dsimp only; rw [h]; dsimp only
  rw [if_neg]; rintro ⟨h1, h2⟩; rcases hu with hu | hu
  · rw [h1] at hu; cases hu
  · rw [h2] at hu; cases hu

theorem hostRead_unspecified {addr : BitVec 16} {s : State} (h : legalRegion addr.toNat .word = some .csr) (hp : s.phase = .busy)
    (hu : unspecifiedBusy addr.toNat = true) : hostRead addr .word s = { s.reply (Config.freeWord s.fresh addr.toNat) with fresh :=
    s.fresh + 1 } := by
  unfold hostRead; dsimp only; rw [h]; dsimp only
  rw [if_pos ⟨hp, hu⟩]

/-! ### Metadata and RAM accesses while IDLE -/

theorem hostWrite_legal {addr : BitVec 16} {v : Word} {s : State} {r : Region} (hp : s.phase = .idle) (h :
    legalRegion addr.toNat .word = some r) (hr : r ≠ .csr) : hostWrite addr .word v s = writeLegal r addr.toNat .word v s := by
  unfold hostWrite; dsimp only; rw [h]
  cases r <;> first | exact absurd rfl hr | (dsimp only; rw [if_neg (by rw [hp]; simp)])
theorem hostRead_legal {addr : BitVec 16} {s : State} {r : Region} (hp : s.phase = .idle) (h : legalRegion addr.toNat .word =
    some r) (hr : r ≠ .csr) : hostRead addr .word s = s.reply (readLegal s r addr.toNat .word) := by
  unfold hostRead; dsimp only; rw [h]
  cases r <;> first | exact absurd rfl hr | (dsimp only; rw [if_neg (by rw [hp]; simp)])

/-! ### Fields of words -/

theorem extract_low {m n : Nat} (x : BitVec m) (y : BitVec n) : (x ++ y).extractLsb' 0 n = y := by
  apply BitVec.eq_of_getLsbD_eq; intro j hj
  rw [BitVec.getLsbD_extractLsb', BitVec.getLsbD_append]; simp [hj]

theorem extract_high {m n : Nat} (x : BitVec m) (y : BitVec n) (k l : Nat) : (x ++ y).extractLsb' (n + k) l = x.extractLsb' k l :=
    by
  apply BitVec.eq_of_getLsbD_eq; intro j hj
  rw [BitVec.getLsbD_extractLsb', BitVec.getLsbD_append, BitVec.getLsbD_extractLsb']
  rw [if_neg (by omega)]; congr 2; omega

theorem extract_eq {n : Nat} {v : BitVec n} {k m : Nat} {x : BitVec m} (h : ∀ i, i < m → v.getLsbD (k + i) = x.getLsbD i) :
    v.extractLsb' k m = x := by
  apply BitVec.eq_of_getLsbD_eq; intro i hi; rw [BitVec.getLsbD_extractLsb']; simp [hi, h i hi]

theorem setWidth_eq_append {n : Nat} {m : Nat} (x : BitVec n) : x.setWidth (m + n) = (0 : BitVec m) ++ x := by
  refine BitVec.eq_of_getLsbD_eq fun i hi => ?_
  rw [BitVec.getLsbD_setWidth, BitVec.getLsbD_append]
  by_cases h : i < n
  · simp [h, hi]
  · simp [h, hi]; exact BitVec.getLsbD_of_ge x i (by omega)

end Sys2Proof.Machine
end

