-- ==== Sys2Proof/Laws/Vlc.lean ====
section
/-! SUPPORT. The VLC code: the table is a complete prefix code (42 R157), what VlcDecode can answer, and VlcEncode's cases. -/

namespace Sys2Proof.Machine

open Sys2Proof

/-! ### The table -/

theorem vlctab_lengths : ∀ e ∈ VLCTAB, 2 ≤ e.len ∧ e.len ≤ 12 ∧ e.run ≤ 14 ∧ e.amp ≤ 22 ∧ (e.amp = 0 → 11 ≤ e.len) := by
  decide +kernel

theorem VlcEntry.bits_length (e : VlcEntry) : e.bits.length = e.len := by simp [VlcEntry.bits, bitsOfNat]

/-- No table word is a prefix of another (42 R157). -/
theorem vlctab_prefix_free : ∀ e ∈ VLCTAB, ∀ f ∈ VLCTAB, e.bits.isPrefixOf f.bits = true → e = f := by decide +kernel

/-- No table word is comparable with EOB or a marker (42 R157). -/
theorem vlctab_no_marker : ∀ e ∈ VLCTAB, ∀ c ∈ [eobCode, runMarker, ampMarker],
    e.bits.isPrefixOf c = false ∧ c.isPrefixOf e.bits = false := by decide +kernel

theorem vlctab_pairs : ∀ e ∈ VLCTAB, tableCode e.run e.amp = some e.bits := by decide +kernel

theorem isPrefixOf_append_left {a b x : Bits} (h : a.isPrefixOf (b ++ x) = true) : a.isPrefixOf b = true ∨ b.isPrefixOf a = true := by
  simp only [List.isPrefixOf_iff_prefix] at h ⊢
  rcases Nat.le_total a.length b.length with hl | hl
  · exact .inl (List.prefix_of_prefix_length_le h (List.prefix_append b x) hl)
  · exact .inr (List.prefix_of_prefix_length_le (List.prefix_append b x) h hl)

theorem isPrefixOf_append_self (a x : Bits) : a.isPrefixOf (a ++ x) = true := by
  simp

theorem not_isPrefixOf_of_ne {a b x : Bits} (h1 : a.isPrefixOf b = false) (h2 : b.isPrefixOf a = false) :
    a.isPrefixOf (b ++ x) = false := by
  cases h : a.isPrefixOf (b ++ x) with
  | false => rfl
  | true => rcases isPrefixOf_append_left h with h | h <;> simp_all

theorem find_entry {e : VlcEntry} (he : e ∈ VLCTAB) (x : Bits) :
    VLCTAB.find? (fun f => f.bits.isPrefixOf (e.bits ++ x)) = some e := by
  cases h : VLCTAB.find? (fun f => f.bits.isPrefixOf (e.bits ++ x)) with
  | none =>
    have := List.find?_eq_none.1 h e he
    simp at this
  | some f =>
    have hf := List.mem_of_find?_eq_some h
    have hp := List.find?_some h
    rcases isPrefixOf_append_left hp with hp | hp
    · rw [vlctab_prefix_free f hf e he hp]
    · rw [vlctab_prefix_free e he f hf hp]

/-! ### Decoding a code word, whatever follows -/

theorem vlcDecode_eob (x : Bits) : vlcDecode (eobCode ++ x) = ⟨.eob, 0, 0, false, 4⟩ := by
  unfold vlcDecode; rw [if_pos (isPrefixOf_append_self _ _)]

theorem vlcDecode_run (r x : Bits) (hr : r.length = 6) :
    vlcDecode (runMarker ++ r ++ x) = ⟨.sym, natOfBits r, 0, false, 13⟩ := by
  have h1 : eobCode.isPrefixOf (runMarker ++ r ++ x) = false := by
    rw [List.append_assoc]; exact not_isPrefixOf_of_ne (by decide) (by decide)
  have h2 : runMarker.isPrefixOf (runMarker ++ r ++ x) = true := by
    rw [List.append_assoc]; exact isPrefixOf_append_self _ _
  unfold vlcDecode
  rw [h1, h2]
  have hl : 13 ≤ (runMarker ++ r ++ x).length := by simp [runMarker, hr]
  have hd : ((runMarker ++ r ++ x).drop 7).take 6 = r := by
    rw [List.append_assoc, show (7 : Nat) = runMarker.length from rfl, List.drop_left, ← hr, List.take_left]
  simp only [Bool.false_eq_true, if_false, if_true, if_pos hl, hd]

theorem vlcDecode_amp (a : Bits) (s : Bool) (x : Bits) (ha : a.length = 8) :
    vlcDecode (ampMarker ++ (a ++ [s]) ++ x) = ⟨.sym, 0, natOfBits a, decide (natOfBits a ≠ 0) && s, 16⟩ := by
  have h1 : eobCode.isPrefixOf (ampMarker ++ (a ++ [s]) ++ x) = false := by
    rw [List.append_assoc]; exact not_isPrefixOf_of_ne (by decide) (by decide)
  have h2 : runMarker.isPrefixOf (ampMarker ++ (a ++ [s]) ++ x) = false := by
    rw [List.append_assoc]; exact not_isPrefixOf_of_ne (by decide) (by decide)
  have h3 : ampMarker.isPrefixOf (ampMarker ++ (a ++ [s]) ++ x) = true := by
    rw [List.append_assoc]; exact isPrefixOf_append_self _ _
  unfold vlcDecode
  rw [h1, h2, h3]
  have hl : 16 ≤ (ampMarker ++ (a ++ [s]) ++ x).length := by simp [ampMarker, ha]; omega
  have hd : ((ampMarker ++ (a ++ [s]) ++ x).drop 7).take 8 = a := by
    rw [List.append_assoc, show (7 : Nat) = ampMarker.length from rfl, List.drop_left, List.append_assoc, ← ha, List.take_left]
  have hs : (ampMarker ++ (a ++ [s]) ++ x).getD 15 false = s := by
    have : (ampMarker ++ (a ++ [s]) ++ x) = (ampMarker ++ a) ++ (s :: x) := by simp
    rw [this, List.getD_append_right _ _ _ _ (by simp [ampMarker, ha])]
    simp [ampMarker, ha]
  simp only [Bool.false_eq_true, if_false, if_true, if_pos hl, hd, hs]

theorem vlcDecode_table_zero {e : VlcEntry} (he : e ∈ VLCTAB) (h0 : e.amp = 0) (x : Bits) :
    vlcDecode (e.bits ++ x) = ⟨.sym, e.run, 0, false, e.len⟩ := by
  have hm := vlctab_no_marker e he
  unfold vlcDecode
  rw [not_isPrefixOf_of_ne (hm eobCode (by simp)).2 (hm eobCode (by simp)).1,
    not_isPrefixOf_of_ne (hm runMarker (by simp)).2 (hm runMarker (by simp)).1,
    not_isPrefixOf_of_ne (hm ampMarker (by simp)).2 (hm ampMarker (by simp)).1, find_entry he]
  simp [h0]

theorem vlcDecode_table_sign {e : VlcEntry} (he : e ∈ VLCTAB) (h0 : e.amp ≠ 0) (s : Bool) (x : Bits) :
    vlcDecode (e.bits ++ (s :: x)) = ⟨.sym, e.run, e.amp, s, e.len + 1⟩ := by
  have hm := vlctab_no_marker e he
  have hl : e.len < (e.bits ++ (s :: x)).length := by simp [e.bits_length]
  have hs : (e.bits ++ (s :: x)).getD e.len false = s := by
    rw [List.getD_append_right _ _ _ _ (by simp [e.bits_length])]; simp [e.bits_length]
  unfold vlcDecode
  rw [not_isPrefixOf_of_ne (hm eobCode (by simp)).2 (hm eobCode (by simp)).1,
    not_isPrefixOf_of_ne (hm runMarker (by simp)).2 (hm runMarker (by simp)).1,
    not_isPrefixOf_of_ne (hm ampMarker (by simp)).2 (hm ampMarker (by simp)).1, find_entry he]
  simp only [Bool.false_eq_true, if_false, if_neg h0, if_pos hl, hs]

/-! ### Everything VlcDecode can answer -/

/-- A complete answer: it consumed the code word `c`, stays the same whatever follows, and its fields are in range. -/
structure Decoded (t c : Bits) (d : VlcSym) : Prop where
  eq : vlcDecode t = d
  isPrefix : c <+: t
  len : c.length = d.len
  stable : ∀ x, vlcDecode (c ++ x) = d
  kind : d.kind ≠ .nobits
  run_le : d.run ≤ 63
  amp_le : d.amp ≤ 255
  len_pos : 1 ≤ d.len
  len_le : d.len ≤ 16

theorem prefix_append {c t : Bits} (h : c.isPrefixOf t = true) : ∃ x, t = c ++ x := by
  obtain ⟨x, hx⟩ := List.isPrefixOf_iff_prefix.1 h; exact ⟨x, hx.symm⟩

/-- VlcDecode answers with a code word it consumed, or NOBITS (42 R158). -/
theorem vlcDecode_cases (t : Bits) : (∃ c d, Decoded t c d) ∨ vlcDecode t = noBits := by
  by_cases h1 : eobCode.isPrefixOf t = true
  · obtain ⟨x, rfl⟩ := prefix_append h1
    exact .inl ⟨eobCode, _, vlcDecode_eob x, ⟨x, rfl⟩, rfl, vlcDecode_eob, by simp, by simp, by simp, by simp, by simp⟩
  by_cases h2 : runMarker.isPrefixOf t = true
  · obtain ⟨x, rfl⟩ := prefix_append h2
    by_cases hl : 13 ≤ (runMarker ++ x).length
    · have hx : x.length ≥ 6 := by simp [runMarker] at hl; omega
      have h6 : (x.take 6).length = 6 := by simp; omega
      have hsplit : runMarker ++ x = runMarker ++ x.take 6 ++ x.drop 6 := by simp
      have hlt := natOfBits_lt (x.take 6)
      rw [h6] at hlt
      refine .inl ⟨runMarker ++ x.take 6, ⟨.sym, natOfBits (x.take 6), 0, false, 13⟩, ?_, ⟨x.drop 6, hsplit.symm⟩, ?_,
        fun y => vlcDecode_run _ y h6, by simp, by simp; omega, by simp, by simp, by simp⟩
      · rw [hsplit]; exact vlcDecode_run _ _ h6
      · simp [runMarker]; omega
    · right; unfold vlcDecode; simp only [Bool.not_eq_true] at h1; rw [h1, h2]; simp only [Bool.false_eq_true, if_false, if_true, if_neg hl]
  by_cases h3 : ampMarker.isPrefixOf t = true
  · obtain ⟨x, rfl⟩ := prefix_append h3
    by_cases hl : 16 ≤ (ampMarker ++ x).length
    · have hx : x.length ≥ 9 := by simp [ampMarker] at hl; omega
      have h8 : (x.take 8).length = 8 := by simp; omega
      have hsplit : ampMarker ++ x = ampMarker ++ (x.take 8 ++ [x.getD 8 false]) ++ x.drop 9 := by
        have h9 : x.drop 8 = x.getD 8 false :: x.drop 9 := by
          rw [List.getD_eq_getElem _ _ (by omega), ← List.drop_eq_getElem_cons]
        conv => lhs; rw [← List.take_append_drop 8 x, h9]
        simp
      have hlt := natOfBits_lt (x.take 8)
      rw [h8] at hlt
      refine .inl ⟨ampMarker ++ (x.take 8 ++ [x.getD 8 false]), _, ?_, ⟨x.drop 9, hsplit.symm⟩, ?_,
        fun y => vlcDecode_amp _ _ y h8, by simp, by simp, by simp; omega, by simp, by simp⟩
      · rw [hsplit]; exact vlcDecode_amp _ _ _ h8
      · simp [ampMarker]; omega
    · right; unfold vlcDecode; simp only [Bool.not_eq_true] at h1 h2; rw [h1, h2, h3]
      simp only [Bool.false_eq_true, if_false, if_true, if_neg hl]
  simp only [Bool.not_eq_true] at h1 h2 h3
  cases h4 : VLCTAB.find? (fun e => e.bits.isPrefixOf t) with
  | none =>
    right; unfold vlcDecode; rw [h1, h2, h3, h4]; simp
  | some e =>
    have he := List.mem_of_find?_eq_some h4
    have hb := vlctab_lengths e he
    have hp := List.find?_some h4
    obtain ⟨x, hx⟩ := prefix_append hp
    by_cases h0 : e.amp = 0
    · refine .inl ⟨e.bits, ⟨.sym, e.run, 0, false, e.len⟩, ?_, ⟨x, hx.symm⟩, e.bits_length, vlcDecode_table_zero he h0, by simp,
        by simp; omega, by simp, by simp; omega, by simp; omega⟩
      rw [hx]; exact vlcDecode_table_zero he h0 x
    · cases x with
      | nil =>
        right; unfold vlcDecode; rw [h1, h2, h3, h4]
        have : ¬ e.len < t.length := by rw [hx]; simp [e.bits_length]
        simp only [Bool.false_eq_true, if_false, if_neg h0, if_neg this]
      | cons s x =>
        refine .inl ⟨e.bits ++ [s], ⟨.sym, e.run, e.amp, s, e.len + 1⟩, ?_, ⟨x, by simp [hx]⟩, by simp [e.bits_length],
          fun y => by simpa using vlcDecode_table_sign he h0 s y, by simp, by simp; omega, by simp; omega, by simp, by simp; omega⟩
        rw [hx]; exact vlcDecode_table_sign he h0 s x

theorem vlcDecode_len_le (t : Bits) : (vlcDecode t).len ≤ t.length := by
  rcases vlcDecode_cases t with ⟨c, d, h⟩ | h
  · rw [h.eq, ← h.len]; exact h.isPrefix.length_le
  · rw [h]; simp [noBits]

theorem vlcDecode_bounds (t : Bits) : (vlcDecode t).run ≤ 63 ∧ (vlcDecode t).amp ≤ 255 ∧ (vlcDecode t).len ≤ 16 := by
  rcases vlcDecode_cases t with ⟨c, d, h⟩ | h
  · rw [h.eq]; exact ⟨h.run_le, h.amp_le, h.len_le⟩
  · rw [h]; simp [noBits]

/-- Every string of at least `n` bits begins with a code of the list. -/
def coversBits : Nat → List Bits → Bool
  | 0, cs => cs.any List.isEmpty
  | n + 1, cs =>
    cs.any List.isEmpty ||
      (coversBits n (cs.filterMap fun | false :: c => some c | _ => none) &&
        coversBits n (cs.filterMap fun | true :: c => some c | _ => none))

theorem coversBits_sound (n : Nat) (cs : List Bits) (h : coversBits n cs = true) (t : Bits) (ht : n ≤ t.length) :
    ∃ c ∈ cs, c <+: t := by
  induction n generalizing cs t with
  | zero =>
    obtain ⟨c, hc, he⟩ := List.any_eq_true.1 h
    exact ⟨c, hc, by simp [List.isEmpty_iff.1 he]⟩
  | succ n ih =>
    simp only [coversBits, Bool.or_eq_true, Bool.and_eq_true] at h
    rcases h with h | ⟨hf, ht'⟩
    · obtain ⟨c, hc, he⟩ := List.any_eq_true.1 h
      exact ⟨c, hc, by simp [List.isEmpty_iff.1 he]⟩
    · cases t with
      | nil => simp at ht
      | cons b t =>
        have hlen : n ≤ t.length := by simpa using ht
        cases b with
        | false =>
          obtain ⟨c, hc, hp⟩ := ih _ hf t hlen
          obtain ⟨c', hc', he⟩ := List.mem_filterMap.1 hc
          match c', he with
          | false :: _, rfl => exact ⟨_, hc', List.cons_prefix_cons.2 ⟨rfl, hp⟩⟩
        | true =>
          obtain ⟨c, hc, hp⟩ := ih _ ht' t hlen
          obtain ⟨c', hc', he⟩ := List.mem_filterMap.1 hc
          match c', he with
          | true :: _, rfl => exact ⟨_, hc', List.cons_prefix_cons.2 ⟨rfl, hp⟩⟩

/-- The code is complete: 12 bits begin with a table word, EOB or a marker (42 R157). -/
theorem code_complete : coversBits 12 (eobCode :: runMarker :: ampMarker :: VLCTAB.map VlcEntry.bits) = true := by decide +kernel

/-- NOBITS needs fewer than 16 bits (42 R158). -/
theorem vlcDecode_nobits_length {t : Bits} (h : (vlcDecode t).kind = .nobits) : t.length < 16 := by
  by_contra hl
  obtain ⟨c, hc, hp⟩ := coversBits_sound 12 _ code_complete t (by omega)
  obtain ⟨x, rfl⟩ := hp
  simp only [List.mem_cons, List.mem_map] at hc
  simp only [List.length_append] at hl
  rcases hc with rfl | rfl | rfl | ⟨e, he, rfl⟩
  · rw [vlcDecode_eob] at h; simp at h
  · have hx : 6 ≤ x.length := by simp [runMarker] at hl; omega
    rw [show runMarker ++ x = runMarker ++ x.take 6 ++ x.drop 6 by simp, vlcDecode_run _ _ (by simp; omega)] at h
    simp at h
  · have hx : 9 ≤ x.length := by simp [ampMarker] at hl; omega
    rw [show ampMarker ++ x = ampMarker ++ (x.take 8 ++ [x.getD 8 false]) ++ x.drop 9 by
      have h9 : x.drop 8 = x.getD 8 false :: x.drop 9 := by
        rw [List.getD_eq_getElem _ _ (by omega), ← List.drop_eq_getElem_cons]
      conv => lhs; rw [← List.take_append_drop 8 x, h9]
      simp, vlcDecode_amp _ _ _ (by simp; omega)] at h
    simp at h
  · have hb := vlctab_lengths e he
    by_cases h0 : e.amp = 0
    · rw [vlcDecode_table_zero he h0] at h; simp at h
    · cases x with
      | nil => simp [e.bits_length] at hl; omega
      | cons s x => rw [vlcDecode_table_sign he h0] at h; simp at h

/-! ### Encoding -/

theorem runEscape_length (r : Nat) : (runEscape r).length = 13 := by simp [runEscape, runMarker, bitsOfNat]

theorem ampEscape_length (a : Nat) (s : Bool) : (ampEscape a s).length = 16 := by simp [ampEscape, ampMarker, bitsOfNat]

/-- A table code comes from an entry of the table with that pair. -/
theorem tableCode_some {run amp : Nat} {c : Bits} (h : tableCode run amp = some c) :
    ∃ e ∈ VLCTAB, e.run = run ∧ e.amp = amp ∧ e.bits = c := by
  unfold tableCode at h
  cases hf : VLCTAB.find? (fun e => e.run == run && e.amp == amp) with
  | none => simp [hf] at h
  | some e =>
    rw [hf] at h
    have hp := List.find?_some hf
    simp only [Bool.and_eq_true, beq_iff_eq] at hp
    exact ⟨e, List.mem_of_find?_eq_some hf, hp.1, hp.2, by simpa using h⟩

/-- The table holds (run, 0) exactly for run 0..5 and (0, amp) exactly for amp 0..22 (42 R155). -/
theorem tableCode_zero : ∀ run, run < 64 → ((tableCode run 0).isSome = decide (run ≤ 5)) := by decide +kernel

theorem tableCode_level : ∀ amp, amp < 256 → ((tableCode 0 amp).isSome = decide (amp ≤ 22)) := by decide +kernel

theorem vlcZeros_length_le (run : Nat) : (vlcZeros run).length ≤ 26 := by
  unfold vlcZeros
  split
  · rename_i c h
    obtain ⟨e, he, -, -, rfl⟩ := tableCode_some h
    have := vlctab_lengths e he; rw [e.bits_length]; omega
  · split <;> simp [runEscape_length]

theorem vlcLevel_length_le (amp : Nat) (sign : Bool) : (vlcLevel amp sign).length ≤ 16 := by
  unfold vlcLevel
  split
  · rename_i c h
    obtain ⟨e, he, -, -, rfl⟩ := tableCode_some h
    have := vlctab_lengths e he; simp [e.bits_length]; omega
  · simp [ampEscape_length]

theorem vlcEncode_length_le (run amp : Nat) (sign : Bool) : (vlcEncode run amp sign).length ≤ 42 := by
  unfold vlcEncode
  split
  · have := vlcZeros_length_le run; omega
  · split
    · rename_i c h
      obtain ⟨e, he, -, -, rfl⟩ := tableCode_some h
      have := vlctab_lengths e he; simp [e.bits_length]; omega
    · split
      · simp [ampEscape_length]
      · have h1 := vlcZeros_length_le (run - 1)
        have h2 := vlcLevel_length_le amp sign
        simp; omega

theorem vlcZeros_length_ge (run : Nat) : 11 ≤ (vlcZeros run).length := by
  unfold vlcZeros
  split
  · rename_i c h
    obtain ⟨e, he, -, h0, rfl⟩ := tableCode_some h
    have := (vlctab_lengths e he).2.2.2.2 h0; rw [e.bits_length]; exact this
  · split <;> simp [runEscape_length]

theorem vlcEncode_length_ge (run amp : Nat) (sign : Bool) : 3 ≤ (vlcEncode run amp sign).length := by
  unfold vlcEncode
  split
  · have := vlcZeros_length_ge run; omega
  · split
    · rename_i c h
      obtain ⟨e, he, -, -, rfl⟩ := tableCode_some h
      have := vlctab_lengths e he; simp [e.bits_length]; omega
    · split
      · simp [ampEscape_length]
      · have h1 := vlcZeros_length_ge (run - 1)
        simp; omega

theorem vlcLevel_length_sign (amp : Nat) (s s' : Bool) : (vlcLevel amp s).length = (vlcLevel amp s').length := by
  unfold vlcLevel; split <;> simp [ampEscape_length]

/-- The length does not depend on the sign (42 R156). -/
theorem vlcEncode_length_sign (run amp : Nat) (s s' : Bool) : (vlcEncode run amp s).length = (vlcEncode run amp s').length := by
  unfold vlcEncode
  split
  · rfl
  · split
    · simp
    · split
      · simp [ampEscape_length]
      · simp [vlcLevel_length_sign amp s s']

theorem vlcEncode_zero (run : Nat) (sign : Bool) : vlcEncode run 0 sign = vlcZeros run := by simp [vlcEncode]

theorem vlcEncode_level {amp : Nat} (h : amp ≠ 0) (sign : Bool) : vlcEncode 0 amp sign = vlcLevel amp sign := by
  simp only [vlcEncode, if_neg h, vlcLevel, if_true]

end Sys2Proof.Machine
end

