-- ==== Sys2Proof/Laws/Segment.lean ====
section
/-! SUPPORT. The segment decode: what one run of a block keeps, and the 30 results of the three passes. -/

namespace Sys2Proof.Machine

open Sys2Proof

/-! ### Scan tables -/

theorem zz_lt (mode : Bool) : ∀ s, s < 64 → (zz mode).getD s 0 < 64 := by cases mode <;> decide +kernel

theorem zz_pos (mode : Bool) : ∀ s, s < 64 → 1 ≤ s → 1 ≤ (zz mode).getD s 0 := by cases mode <;> decide +kernel

theorem zz_zero (mode : Bool) : (zz mode).getD 0 0 = 0 := by cases mode <;> rfl

theorem zz_length (mode : Bool) : (zz mode).length = 64 := by cases mode <;> rfl

theorem zz_nodup (mode : Bool) : (zz mode).Nodup := by cases mode <;> decide +kernel

theorem zz_inj (mode : Bool) {i j : Nat} (hi : i < 64) (hj : j < 64) (h : (zz mode).getD i 0 = (zz mode).getD j 0) : i = j := by
  have hi' : i < (zz mode).length := by rw [zz_length]; exact hi
  have hj' : j < (zz mode).length := by rw [zz_length]; exact hj
  rw [List.getD_eq_getElem _ _ hi', List.getD_eq_getElem _ _ hj'] at h
  exact (zz_nodup mode).getElem_inj_iff.1 h

/-- INVZZ is the inverse of ZZ (43 R182). -/
theorem invzz_zz (mode : Bool) : ∀ s, s < 64 → (invzz mode).getD ((zz mode).getD s 0) 0 = s := by cases mode <;> decide +kernel

theorem zz_invzz (mode : Bool) : ∀ n, n < 64 → (zz mode).getD ((invzz mode).getD n 0) 0 = n := by cases mode <;> decide +kernel

theorem invzz_lt (mode : Bool) : ∀ n, n < 64 → (invzz mode).getD n 0 < 64 := by cases mode <;> decide +kernel

/-- Every natural index is at some scan position (43 R182). -/
theorem zz_surj (mode : Bool) {n : Nat} (h : n < 64) : ∃ s, s < 64 ∧ (zz mode).getD s 0 = n :=
  ⟨_, invzz_lt mode n h, zz_invzz mode n h⟩

theorem at0_set_self {c : List Int} {n : Nat} (v : Int) (h : n < c.length) : at0 (c.set n v) n = v := by
  simp [at0, h]

theorem at0_set_ne {c : List Int} {n k : Nat} (v : Int) (h : k ≠ n) : at0 (c.set n v) k = at0 c k := by
  simp [at0, List.getElem?_set, Ne.symm h]

theorem at0_set_small {c : List Int} {n : Nat} {v : Int} (h : ∀ k, -256 ≤ at0 c k ∧ at0 c k ≤ 255) (hv : -256 ≤ v ∧ v ≤ 255) (k : Nat) :
    -256 ≤ at0 (c.set n v) k ∧ at0 (c.set n v) k ≤ 255 := by
  by_cases hk : k = n
  · subst hk
    by_cases hl : k < c.length
    · rw [at0_set_self _ hl]; exact hv
    · rw [List.set_eq_of_length_le (by omega)]; exact h k
  · rw [at0_set_ne _ hk]; exact h k

/-! ### One run of a block -/


/-- The working state of a block is sound: position 1..64, 64 coefficients of at most 9 bits, and exactly one of EOB read, an error
counted and not finished (46 R290: every block without an EOB counts exactly one). -/
structure Work.Sound (w : Work) : Prop where
  pos_ge : 1 ≤ w.pos
  pos_le : w.pos ≤ 64
  len : w.coefs.length = 64
  counts : w.err + (if w.fin then 0 else 1) + w.eob.toNat = 1
  small : ∀ n, -256 ≤ at0 w.coefs n ∧ at0 w.coefs n ≤ 255

theorem Work.Sound.eob_fin {w : Work} (h : w.Sound) (he : w.eob = true) : w.fin = true := by
  have := h.counts
  rw [he, Bool.toNat_true] at this
  by_contra hf
  rw [if_neg hf] at this; omega

theorem Work.Sound.err_open {w : Work} (h : w.Sound) (hf : w.fin = false) : w.err = 0 ∧ w.eob = false := by
  have := h.counts
  rw [hf, if_neg (by simp)] at this
  exact ⟨by omega, by cases he : w.eob; rfl; rw [he, Bool.toNat_true] at this; omega⟩

/-- `v` comes from `w` by runs of the decoder. -/
structure Work.After (w v : Work) : Prop where
  mode : v.mode = w.mode
  cls : v.cls = w.cls
  donor : v.donor = w.donor
  mark : v.mark = w.mark
  offset : v.offset = w.offset
  endPos : v.endPos = w.endPos
  dc : at0 v.coefs 0 = at0 w.coefs 0
  fin : w.fin = true → v.fin = true
  sound : w.Sound → v.Sound

theorem Work.After.refl (w : Work) : w.After w := ⟨rfl, rfl, rfl, rfl, rfl, rfl, rfl, id, id⟩

theorem Work.After.trans {w v u : Work} (h : w.After v) (k : v.After u) : w.After u :=
  ⟨k.mode.trans h.mode, k.cls.trans h.cls, k.donor.trans h.donor, k.mark.trans h.mark, k.offset.trans h.offset,
    k.endPos.trans h.endPos, k.dc.trans h.dc, fun x => k.fin (h.fin x), fun x => k.sound (h.sound x)⟩

theorem after_decodeLoop (fuel : Nat) (st : Bits) (i : Nat) (w : Work) (hp : 1 ≤ w.pos) (hf : w.fin = false) :
    w.After (decodeLoop fuel st i w).1 := by
  induction fuel generalizing st i w with
  | zero => exact .refl w
  | succ fuel ih =>
    simp only [decodeLoop]
    split
    · exact .refl w
    · exact ⟨rfl, rfl, rfl, rfl, rfl, rfl, rfl, fun _ => rfl, fun h =>
        ⟨h.pos_ge, h.pos_le, h.len, by simp [(h.err_open hf).1], h.small⟩⟩
    · split
      · refine ⟨rfl, rfl, rfl, rfl, rfl, rfl, rfl, fun _ => rfl, fun h =>
          ⟨h.pos_ge, h.pos_le, h.len, by simp [h.err_open hf], h.small⟩⟩
      · rename_i hlt
        refine Work.After.trans ?_ (ih _ _ _ (by simp) hf)
        refine ⟨rfl, rfl, rfl, rfl, rfl, rfl, ?_, fun x => x, fun h =>
          ⟨by simp, by simp; omega, by simp [h.len], h.counts, at0_set_small h.small ?_⟩⟩
        · refine at0_set_ne _ ?_
          have := zz_pos w.mode (w.pos + (vlcDecode (st.take 16)).run) (by omega) (by omega)
          omega
        · have := (vlcDecode_bounds (st.take 16)).2.1; split <;> omega

theorem after_decodeRun (w : Work) (bits : Bits) (hp : 1 ≤ w.pos) (hf : w.fin = false) : w.After (decodeRun w bits).1 := by
  have h := after_decodeLoop (w.carry ++ bits).length (w.carry ++ bits) 0 w hp hf
  unfold decodeRun
  dsimp only
  split <;> exact ⟨h.mode, h.cls, h.donor, h.mark, h.offset, h.endPos, h.dc, h.fin, fun x =>
    ⟨(h.sound x).pos_ge, (h.sound x).pos_le, (h.sound x).len, (h.sound x).counts, (h.sound x).small⟩⟩

/-! ### How far a run reads -/

theorem decodeLoop_length_le (f : Nat) (st : Bits) (i : Nat) (w : Work) :
    i ≤ (decodeLoop f st i w).2 ∧ (decodeLoop f st i w).2 ≤ i + st.length := by
  induction f generalizing st i w with
  | zero => simp [decodeLoop]
  | succ f ih =>
    have hl := vlcDecode_len_le (st.take 16)
    rw [List.length_take] at hl
    simp only [decodeLoop]
    split
    · exact ⟨Nat.le_refl _, by omega⟩
    · exact ⟨by omega, by omega⟩
    · split
      · exact ⟨by omega, by omega⟩
      · refine ⟨Nat.le_trans (Nat.le_add_right _ _) (ih _ _ _).1, Nat.le_trans (ih _ _ _).2 ?_⟩
        rw [List.length_drop]; omega

/-- DecodeRun consumes at most the bits it is given (46 R286). -/
theorem decodeRun_used_le (w : Work) (bits : Bits) : (decodeRun w bits).2 ≤ bits.length := by
  have h := decodeLoop_length_le (w.carry ++ bits).length (w.carry ++ bits) 0 w
  unfold decodeRun
  dsimp only
  split
  · simp only [List.length_append] at h ⊢; omega
  · exact Nat.le_refl _

theorem after_lend (ws : List Work) (pool : Bits) (hs : ∀ w ∈ ws, w.Sound) :
    List.Forall₂ Work.After ws (lend ws pool).1 := by
  induction ws generalizing pool with
  | nil => exact .nil
  | cons w ws ih =>
    simp only [lend]
    split
    · exact .cons (.refl w) (ih _ fun v hv => hs v (by simp [hv]))
    · rename_i hf
      exact .cons (after_decodeRun w pool (hs w (by simp)).pos_ge (by simpa using hf)) (ih _ fun v hv => hs v (by simp [hv]))

/-! ### Pass 1 -/

/-- What pass 1 leaves of block b (46 R287). -/
structure OwnPass (m : Memory) (b : Nat) (w : Work) : Prop where
  sound : w.Sound
  mode : w.mode = segBit m (startBit b + 9)
  cls : w.cls = segPeek m (startBit b + 10) 2
  dc : at0 w.coefs 0 = headerDc m (startBit b)
  endPos : w.endPos = endBit b
  marked : w.mark = true → w.offset = endBit b
  unmarked : w.mark = false → w.fin = true
  offset_le : w.offset ≤ endBit b

theorem startWork_sound (m : Memory) (b : Nat) : (startWork m b).Sound := by
  have hd : -256 ≤ headerDc m (startBit b) ∧ headerDc m (startBit b) ≤ 255 := by
    have h1 := (BitVec.ofNat 9 (segPeek m (startBit b) 9)).toInt_lt
    have h2 := (BitVec.ofNat 9 (segPeek m (startBit b) 9)).le_toInt
    unfold headerDc
    simp only [Nat.add_one_sub_one, Nat.reducePow, Int.reducePow] at h1 h2
    omega
  constructor
  case small =>
    refine at0_set_small (fun k => ?_) hd
    have : at0 (List.replicate 64 0) k = 0 := by
      unfold at0
      rw [List.getD_eq_getElem?_getD, List.getElem?_replicate]; split <;> rfl
    omega
  all_goals simp [startWork]

theorem startBit_le (b : Nat) : startBit b + 12 ≤ endBit b := by
  have h : ∀ t, t < 6 → BLKSTART.getD t 0 + 12 ≤ BLKEND.getD t 0 := by decide
  have := h (b % 6) (by omega)
  unfold startBit endBit; omega

theorem ownPass_passOwn (m : Memory) (b : Nat) : OwnPass m b (passOwn m b) := by
  have hoff : startBit b + 12 + (decodeRun (startWork m b) (ownBits m b)).2 ≤ endBit b := by
    have h1 := decodeRun_used_le (startWork m b) (ownBits m b)
    have h2 := startBit_le b
    rw [ownBits, segBits_length, ← ownBits] at h1
    omega
  have hs := startWork_sound m b
  have h := after_decodeRun (startWork m b) (ownBits m b) hs.pos_ge rfl
  have hdc : at0 (startWork m b).coefs 0 = headerDc m (startBit b) := at0_set_self _ (by simp)
  have hsd := h.sound hs
  unfold passOwn
  dsimp only
  split
  · rename_i hf
    exact ⟨⟨hsd.pos_ge, hsd.pos_le, hsd.len, hsd.counts, hsd.small⟩, h.mode, h.cls, h.dc.trans hdc, h.endPos,
      fun x => by simp at x, fun _ => hf, hoff⟩
  · exact ⟨hsd, h.mode, h.cls, h.dc.trans hdc, h.endPos, fun _ => h.offset, fun x => absurd (h.mark.symm.trans x) (by simp [startWork]), by rw [h.offset]; exact Nat.le_refl _⟩

theorem OwnPass.after {m : Memory} {b : Nat} {w v : Work} (h : OwnPass m b w) (k : w.After v) : OwnPass m b v :=
  ⟨k.sound h.sound, k.mode.trans h.mode, k.cls.trans h.cls, k.dc.trans h.dc, k.endPos.trans h.endPos,
    fun x => k.offset.trans (h.marked (k.mark.symm.trans x)), fun x => k.fin (h.unmarked (k.mark.symm.trans x)), by rw [k.offset]; exact h.offset_le⟩

/-! ### The three passes -/

theorem ofMb_append_five (l : List Work) (hl : l.length = 30) : (List.range 5).flatMap (fun m => ofMb m l) = l := by
  apply List.ext_getElem?
  intro i
  simp only [List.range, List.range.loop, List.flatMap_cons, List.flatMap_nil, ofMb]
  simp only [List.getElem?_append, List.length_take, List.length_drop, hl, List.getElem?_take, List.getElem?_drop,
    List.append_nil]
  by_cases h0 : i < 6
  · simp [h0]
  · by_cases h1 : i < 12
    · simp [h0, show i - 6 < 6 by omega]; congr 1; omega
    · by_cases h2 : i < 18
      · simp [h0, show ¬ i - 6 < 6 by omega, show i - 6 - 6 < 6 by omega]; congr 1; omega
      · by_cases h3 : i < 24
        · simp [h0, show ¬ i - 6 < 6 by omega, show ¬ i - 6 - 6 < 6 by omega, show i - 6 - 6 - 6 < 6 by omega]; congr 1; omega
        · by_cases h4 : i < 30
          · simp [h0, show ¬ i - 6 < 6 by omega, show ¬ i - 6 - 6 < 6 by omega, show ¬ i - 6 - 6 - 6 < 6 by omega,
              show i - 6 - 6 - 6 - 6 < 6 by omega]
            congr 1; omega
          · simp [h0, show ¬ i - 6 < 6 by omega, show ¬ i - 6 - 6 < 6 by omega, show ¬ i - 6 - 6 - 6 < 6 by omega,
              show ¬ i - 6 - 6 - 6 - 6 < 6 by omega]
            omega

theorem forall₂_flatMap {α β γ : Type} (R : β → γ → Prop) (f : α → List β) (g : α → List γ) (l : List α)
    (h : ∀ a ∈ l, List.Forall₂ R (f a) (g a)) : List.Forall₂ R (l.flatMap f) (l.flatMap g) := by
  induction l with
  | nil => exact .nil
  | cons a l ih =>
    simp only [List.flatMap_cons]
    exact List.rel_append (h a (by simp)) (ih fun x hx => h x (by simp [hx]))

/-- The results of the three passes come from those of pass 1 by runs of the decoder. -/
theorem after_decodeSegment (m : Memory) : List.Forall₂ Work.After ((List.range 30).map (passOwn m)) (decodeSegment m) := by
  have hs : ∀ w ∈ (List.range 30).map (passOwn m), w.Sound := by
    intro w hw
    obtain ⟨b, -, rfl⟩ := List.mem_map.1 hw
    exact (ownPass_passOwn m b).sound
  set w1 := (List.range 30).map (passOwn m) with hw1
  have hmb : ∀ k, List.Forall₂ Work.After (ofMb k w1) (passMb w1 k).1 := fun k =>
    after_lend _ _ fun w hw => hs w (List.mem_of_mem_drop (List.mem_of_mem_take hw))
  have h2 : List.Forall₂ Work.After w1 ((List.range 5).flatMap fun k => (passMb w1 k).1) := by
    conv => lhs; rw [← ofMb_append_five w1 (by simp [hw1])]
    exact forall₂_flatMap _ _ _ _ fun k _ => hmb k
  have hs2 : ∀ v ∈ (List.range 5).flatMap (fun k => (passMb w1 k).1), v.Sound := by
    intro v hv
    obtain ⟨i, hi, rfl⟩ := List.mem_iff_getElem.1 hv
    have hl := h2.length_eq
    have := List.forall₂_iff_get.1 h2
    exact (this.2 i (by omega) hi).sound (hs _ (List.getElem_mem _))
  have h3 := after_lend _ (((List.range 5).map (passMb w1)).flatMap Prod.snd) hs2
  have hd : decodeSegment m = (lend ((List.range 5).flatMap fun k => (passMb w1 k).1)
      (((List.range 5).map (passMb w1)).flatMap Prod.snd)).1 := by
    unfold decodeSegment; simp only [← hw1, List.flatMap_map]
  rw [hd]
  have l2 := List.forall₂_iff_get.1 h2
  have l3 := List.forall₂_iff_get.1 h3
  refine List.forall₂_iff_get.2 ⟨l2.1.trans l3.1, fun i hi hj => ?_⟩
  exact (l2.2 i hi (by omega)).trans (l3.2 i (by omega) hj)

theorem decodeSegment_length (m : Memory) : (decodeSegment m).length = 30 := by
  have := (after_decodeSegment m).length_eq; simpa using this.symm

/-- What the three passes leave of block b (46 R287 to R289). -/
theorem ownPass_workAt (m : Memory) {b : Nat} (hb : b < 30) : OwnPass m b (workAt (decodeSegment m) b) := by
  have h := List.forall₂_iff_get.1 (after_decodeSegment m)
  have hl := decodeSegment_length m
  have := h.2 b (by simpa using hb) (by omega)
  simp only [List.get_eq_getElem, List.getElem_map, List.getElem_range] at this
  have he : workAt (decodeSegment m) b = (decodeSegment m)[b]'(by omega) := by
    simp [workAt, List.getElem?_eq_getElem (show b < (decodeSegment m).length by omega)]
  rw [he]
  exact (ownPass_passOwn m b).after this

end Sys2Proof.Machine
end

