-- ==== Sys2Proof/Laws/Block.lean ====
section
/-! SUPPORT. The code of one block: its entries stand for its coefficients, and the decoder reads them back. -/

namespace Sys2Proof.Machine

open Sys2Proof

/-! ### Largest magnitude -/

theorem maxTo_succ (n : Nat) (f : Nat → Nat) : maxTo (n + 1) f = max (maxTo n f) (f n) := by
  unfold maxTo; rw [List.range_succ, List.foldl_append]; rfl

theorem maxTo_le_iff (n : Nat) (f : Nat → Nat) (k : Nat) : maxTo n f ≤ k ↔ ∀ i, i < n → f i ≤ k := by
  induction n with
  | zero => simp [maxTo]
  | succ n ih =>
    rw [maxTo_succ, Nat.max_le, ih]
    exact ⟨fun h i hi => by rcases Nat.lt_succ_iff_lt_or_eq.1 hi with h' | rfl; exacts [h.1 i h', h.2],
      fun h => ⟨fun i hi => h i (by omega), h n (by omega)⟩⟩

theorem maxTo_attained (n : Nat) (f : Nat → Nat) (hn : 0 < n) : ∃ i, i < n ∧ f i = maxTo n f := by
  induction n with
  | zero => omega
  | succ n ih =>
    rw [maxTo_succ]
    by_cases h : maxTo n f ≤ f n
    · exact ⟨n, by omega, by omega⟩
    · have : 0 < n := by rcases Nat.eq_zero_or_pos n with rfl | h'; exacts [by simp [maxTo] at h, h']
      obtain ⟨i, hi, he⟩ := ih this
      exact ⟨i, by omega, by omega⟩

theorem maxAc_le_iff (c : List Int) (k : Nat) : maxAc c ≤ k ↔ ∀ n, 1 ≤ n → n ≤ 63 → (at0 c n).natAbs ≤ k := by
  unfold maxAc
  rw [maxTo_le_iff]
  exact ⟨fun h n h1 h2 => by have := h (n - 1) (by omega); rwa [show n - 1 + 1 = n by omega] at this,
    fun h i hi => h (i + 1) (by omega) (by omega)⟩

theorem maxAc_attained (c : List Int) : ∃ n, 1 ≤ n ∧ n ≤ 63 ∧ (at0 c n).natAbs = maxAc c := by
  obtain ⟨i, hi, he⟩ := maxTo_attained 63 (fun n => (at0 c (n + 1)).natAbs) (by omega)
  exact ⟨i + 1, by omega, by omega, he⟩

/-- AMP_RANGE is not raised exactly when no AC magnitude exceeds 255 (42 R163). -/
theorem ampOk_iff (m : Memory) (b : Nat) :
    ampOk (coefBlock m b) = true ↔ ∀ n, 1 ≤ n → n ≤ 63 → (coef m b n).natAbs ≤ 255 := by
  unfold ampOk
  rw [decide_eq_true_iff, maxAc_le_iff]
  exact ⟨fun h n h1 h2 => by rw [← at0_coefBlock m b (by omega)]; exact h n h1 h2,
    fun h n h1 h2 => by rw [at0_coefBlock m b (by omega)]; exact h n h1 h2⟩

theorem coefBlock_eq_map (m : Memory) (b : Nat) : (List.range 64).map (coef m b) = coefBlock m b := by
  apply List.ext_getElem
  · simp [coefBlock]
  · intro n h1 h2
    simp only [List.length_map, List.length_range] at h1
    simp only [coefBlock, List.getElem_map, List.getElem_range]
    exact (coef_window h1).symm

/-! ### Entries -/

theorem entriesFrom_length_le (c : List Int) (z : List Nat) (prev : Nat) (l : List Nat) :
    (entriesFrom c z prev l).length ≤ l.length := by
  induction l generalizing prev with
  | nil => simp [entriesFrom]
  | cons s l ih =>
    simp only [entriesFrom]
    split
    · have := ih prev; simp only [List.length_cons]; omega
    · have := ih s; simp only [List.length_cons]; omega

theorem blockEntries_length_le (c : List Int) (mode : Bool) : (blockEntries c mode).length ≤ 63 := by
  have := entriesFrom_length_le c (zz mode) 0 (List.range' 1 63); simpa [blockEntries] using this

theorem entriesFrom_bounds {c : List Int} {z : List Nat} {prev : Nat} {l : List Nat} (hl : ∀ s ∈ l, s ≤ 63) :
    ∀ e ∈ entriesFrom c z prev l, e.amp ≠ 0 ∧ e.run ≤ 62 := by
  induction l generalizing prev with
  | nil => simp [entriesFrom]
  | cons s l ih =>
    simp only [entriesFrom]
    split
    · exact ih fun x hx => hl x (by simp [hx])
    · rename_i hv
      intro e he
      rcases List.mem_cons.1 he with rfl | he
      · have := hl s (by simp)
        exact ⟨by simpa using hv, by simp; omega⟩
      · exact ih (fun x hx => hl x (by simp [hx])) e he

theorem entriesFrom_amp_le {c : List Int} {mode : Bool} (h : ∀ n, 1 ≤ n → n ≤ 63 → (at0 c n).natAbs ≤ 255) {prev : Nat} {l : List Nat}
    (hl : ∀ s ∈ l, 1 ≤ s ∧ s ≤ 63) : ∀ e ∈ entriesFrom c (zz mode) prev l, e.amp ≤ 255 := by
  induction l generalizing prev with
  | nil => simp [entriesFrom]
  | cons s l ih =>
    have hs := hl s (by simp)
    simp only [entriesFrom]
    split
    · exact ih fun x hx => hl x (by simp [hx])
    · intro e he
      rcases List.mem_cons.1 he with rfl | he
      · exact h _ (zz_pos mode s (by omega) hs.1) (by have := zz_lt mode s (by omega); omega)
      · exact ih (fun x hx => hl x (by simp [hx])) e he

theorem blockEntries_amp_le {c : List Int} (mode : Bool) (h : ∀ n, 1 ≤ n → n ≤ 63 → (at0 c n).natAbs ≤ 255) :
    ∀ e ∈ blockEntries c mode, e.amp ≤ 255 :=
  entriesFrom_amp_le h fun s hs => by simp at hs; omega

theorem entry_bits_le (e : Entry) : e.bits ≤ 42 := vlcEncode_length_le _ _ _

theorem sum_bits_le (es : List Entry) : (es.map Entry.bits).sum ≤ 42 * es.length := by
  induction es with
  | nil => simp
  | cons e es ih => have := entry_bits_le e; simp only [List.map_cons, List.sum_cons, List.length_cons]; omega

theorem blockBits_le (c : List Int) (mode : Bool) : blockBits (blockEntries c mode) ≤ 2650 := by
  have h1 := sum_bits_le (blockEntries c mode)
  have h2 := blockEntries_length_le c mode
  unfold blockBits; omega

/-- BlockBits is the length of BlockCode (42 R159). -/
theorem blockCode_length (es : List Entry) : (blockCode es).length = blockBits es := by
  unfold blockCode blockBits
  rw [List.length_append, List.length_flatMap]
  simp only [eobCode, List.length_cons, List.length_nil]
  have : (es.map fun e => e.code.length).sum = (es.map Entry.bits).sum := rfl
  omega

theorem at0_ext {c d : List Int} (hc : c.length = 64) (hd : d.length = 64) (h : ∀ n, n < 64 → at0 c n = at0 d n) : c = d := by
  apply List.ext_getElem (by omega)
  intro n h1 h2
  have := h n (by omega)
  rwa [at0_getElem c n h1, at0_getElem d n h2] at this

/-- Filling the scan positions that the entries name rebuilds the block (42 R154, R159). -/
theorem fillEntries_entriesFrom {c : List Int} {mode : Bool} (hc : c.length = 64) (n : Nat) :
    ∀ (p prev : Nat) (d : List Int), p + n = 64 → prev < p → d.length = 64 →
      (∀ q, q < 64 → q ≤ prev → at0 d ((zz mode).getD q 0) = at0 c ((zz mode).getD q 0)) →
      (∀ q, q < 64 → prev < q → at0 d ((zz mode).getD q 0) = 0) →
      (∀ q, prev < q → q < p → at0 c ((zz mode).getD q 0) = 0) →
      fillEntries (zz mode) (prev + 1) (entriesFrom c (zz mode) prev (List.range' p n)) d = c := by
  induction n with
  | zero =>
    intro p prev d hp hprev hd h1 h2 h3
    simp only [List.range', entriesFrom, fillEntries]
    refine at0_ext hd hc fun k hk => ?_
    obtain ⟨q, hq, rfl⟩ := zz_surj mode hk
    by_cases hqp : q ≤ prev
    · exact h1 q hq hqp
    · rw [h2 q hq (by omega), h3 q (by omega) (by omega)]
  | succ n ih =>
    intro p prev d hp hprev hd h1 h2 h3
    simp only [List.range'_succ, entriesFrom]
    split
    · rename_i hv
      refine ih (p + 1) prev d (by omega) (by omega) hd h1 h2 fun q hq1 hq2 => ?_
      by_cases hqp : q = p
      · subst hqp; exact hv
      · exact h3 q hq1 (by omega)
    · rename_i hv
      simp only [fillEntries]
      rw [show prev + 1 + (p - prev - 1) = p by omega]
      set v := at0 c ((zz mode).getD p 0) with hvdef
      have hval : (if decide (v < 0) = true then -(v.natAbs : Int) else v.natAbs) = v := by
        by_cases hneg : v < 0
        · rw [if_pos (decide_eq_true hneg)]; omega
        · rw [if_neg (by simpa using hneg)]; omega
      rw [hval]
      have hzp := zz_lt mode p (by omega)
      refine ih (p + 1) p _ (by omega) (by omega) (by simp [hd]) (fun q hq hqp => ?_) (fun q hq hqp => ?_) (fun q hq1 hq2 => by omega)
      · by_cases hq2 : q = p
        · subst hq2; exact at0_set_self _ (by omega)
        · rw [at0_set_ne _ fun e => hq2 (zz_inj mode hq (by omega) e)]
          by_cases hq3 : q ≤ prev
          · exact h1 q hq hq3
          · rw [h2 q hq (by omega), h3 q (by omega) (by omega)]
      · rw [at0_set_ne _ fun e => (show q ≠ p by omega) (zz_inj mode hq (by omega) e)]
        exact h2 q hq (by omega)

theorem start_zero {c : List Int} (mode : Bool) {q : Nat} (hq : q < 64) (h : 0 < q) :
    at0 ((List.replicate 64 (0 : Int)).set 0 (at0 c 0)) ((zz mode).getD q 0) = 0 := by
  have hz := zz_lt mode q hq
  have hz' := zz_pos mode q hq h
  rw [at0_set_ne _ (by omega)]
  exact List.getD_replicate _ hz

/-! ### The decoder reads a block's code back -/

theorem vlcDecode_nil : vlcDecode [] = noBits := by decide

theorem decodeLoop_fuel (w : Work) (f g : Nat) (st : Bits) (i : Nat) (hf : st.length ≤ f) (hg : st.length ≤ g) :
    decodeLoop f st i w = decodeLoop g st i w := by
  induction f generalizing g st i w with
  | zero =>
    have : st = [] := List.length_eq_zero_iff.1 (by omega)
    subst this
    cases g with
    | zero => rfl
    | succ g => simp [decodeLoop, vlcDecode_nil, noBits]
  | succ f ih =>
    cases g with
    | zero =>
      have : st = [] := List.length_eq_zero_iff.1 (by omega)
      subst this
      simp [decodeLoop, vlcDecode_nil, noBits]
    | succ g =>
      simp only [decodeLoop]
      rcases vlcDecode_cases (st.take 16) with ⟨c, d, hd⟩ | hn
      · rw [hd.eq]
        have hlen : d.len ≤ st.length := by
          have h1 := hd.isPrefix.length_le; rw [hd.len, List.length_take] at h1; omega
        have hpos := hd.len_pos
        split
        · rfl
        · rfl
        · split
          · rfl
          · exact ih _ _ _ _ (by simp; omega) (by simp; omega)
      · rw [hn]; rfl

theorem take_sixteen_append {c x : Bits} (h : c.length ≤ 16) : (c ++ x).take 16 = c ++ x.take (16 - c.length) := by
  rw [List.take_append, List.take_of_length_le h]

/-- One symbol of the decode loop: the code is consumed, the coefficient written, the position moved (46 R286). -/
theorem decodeLoop_sym {code x : Bits} {r a : Nat} {s : Bool} {w : Work} {f g i : Nat}
    (hd : ∀ y, vlcDecode (code ++ y) = ⟨.sym, r, a, s, code.length⟩) (hl : 1 ≤ code.length) (hl2 : code.length ≤ 16)
    (hp : w.pos + r ≤ 63) (hf : (code ++ x).length ≤ f) (hg : x.length ≤ g) :
    decodeLoop f (code ++ x) i w = decodeLoop g x (i + code.length)
      { w with coefs := w.coefs.set ((zz w.mode).getD (w.pos + r) 0) (if s then -(a : Int) else a), pos := w.pos + r + 1 } := by
  simp only [List.length_append] at hf
  obtain ⟨f, rfl⟩ : ∃ k, f = k + 1 := ⟨f - 1, by omega⟩
  simp only [decodeLoop]
  rw [take_sixteen_append hl2, hd]
  simp only [show ¬ 63 < w.pos + r by omega, if_false, List.drop_left]
  exact decodeLoop_fuel _ _ _ _ _ (by omega) hg

theorem set_same {c : List Int} {n : Nat} {v : Int} (h : at0 c n = v) : c.set n v = c := by
  by_cases hn : n < c.length
  · rw [at0_getElem c n hn] at h; subst h; exact List.set_getElem_self hn
  · exact List.set_eq_of_length_le (by omega)

theorem decodeLoop_eob {x : Bits} {w : Work} {f i : Nat} (hf : (eobCode ++ x).length ≤ f) :
    decodeLoop f (eobCode ++ x) i w = ({ w with fin := true, eob := true }, i + 4) := by
  simp only [List.length_append, eobCode, List.length_cons, List.length_nil] at hf
  obtain ⟨f, rfl⟩ : ∃ k, f = k + 1 := ⟨f - 1, by omega⟩
  simp only [decodeLoop]
  rw [take_sixteen_append (by simp [eobCode]), vlcDecode_eob]

/-- Zeros up to run 61 decode as one symbol. -/
theorem vlcDecode_zeros {r : Nat} (hr : r ≤ 61) (y : Bits) :
    vlcDecode (vlcZeros r ++ y) = ⟨.sym, r, 0, false, (vlcZeros r).length⟩ := by
  unfold vlcZeros
  cases h : tableCode r 0 with
  | some c =>
    obtain ⟨e, he, rfl, h0, rfl⟩ := tableCode_some h
    simp only
    rw [vlcDecode_table_zero he h0, e.bits_length]
  | none =>
    simp only [if_pos hr, runEscape]
    rw [vlcDecode_run _ _ (bitsOfNat_length 6 r), natOfBits_bitsOfNat (by omega)]
    simp [runMarker, bitsOfNat_length]

theorem vlcDecode_level {a : Nat} (h0 : a ≠ 0) (ha : a ≤ 255) (s : Bool) (y : Bits) :
    vlcDecode (vlcLevel a s ++ y) = ⟨.sym, 0, a, s, (vlcLevel a s).length⟩ := by
  unfold vlcLevel
  cases h : tableCode 0 a with
  | some c =>
    obtain ⟨e, he, hr, rfl, rfl⟩ := tableCode_some h
    simp only [List.append_assoc, List.singleton_append]
    rw [vlcDecode_table_sign he h0, hr]; simp [e.bits_length]
  | none =>
    simp only [ampEscape]
    rw [vlcDecode_amp _ _ _ (bitsOfNat_length 8 a), natOfBits_bitsOfNat (by omega)]
    simp [h0, ampMarker, bitsOfNat_length]

/-- One entry of a block in the decode loop, one symbol or two (42 R155, 46 R286). -/
theorem decodeLoop_entry {e : Entry} {x : Bits} {w : Work} {f g i : Nat} (h0 : e.amp ≠ 0) (ha : e.amp ≤ 255)
    (hr : e.run ≤ 62) (hp1 : 1 ≤ w.pos) (hp : w.pos + e.run ≤ 63)
    (hz : ∀ q, q < 64 → w.pos ≤ q → at0 w.coefs ((zz w.mode).getD q 0) = 0)
    (hf : (e.code ++ x).length ≤ f) (hg : x.length ≤ g) :
    decodeLoop f (e.code ++ x) i w = decodeLoop g x (i + e.code.length)
      { w with coefs := w.coefs.set ((zz w.mode).getD (w.pos + e.run) 0) (if e.sign then -(e.amp : Int) else e.amp),
               pos := w.pos + e.run + 1 } := by
  have hlen := vlcEncode_length_ge e.run e.amp e.sign
  unfold Entry.code at hf ⊢
  cases ht : tableCode e.run e.amp with
  | some c =>
    have hc : vlcEncode e.run e.amp e.sign = c ++ [e.sign] := by simp [vlcEncode, h0, ht]
    obtain ⟨t, hm, h1, h2, rfl⟩ := tableCode_some ht
    have hb := vlctab_lengths t hm
    rw [hc] at hf hlen ⊢
    refine decodeLoop_sym (fun y => ?_) (by omega) (by simp [t.bits_length]; omega) hp hf hg
    rw [List.append_assoc, List.singleton_append, vlcDecode_table_sign hm (by omega), h1, h2]
    simp [t.bits_length]
  | none =>
    by_cases hr0 : e.run = 0
    · have hc : vlcEncode e.run e.amp e.sign = vlcLevel e.amp e.sign := by rw [hr0]; exact vlcEncode_level h0 _
      rw [hc] at hf hlen ⊢
      have := vlcLevel_length_le e.amp e.sign
      rw [hr0] at hp ⊢
      exact decodeLoop_sym (fun y => vlcDecode_level h0 ha _ y) (by omega) this hp hf hg
    · have hc : vlcEncode e.run e.amp e.sign = vlcZeros (e.run - 1) ++ vlcLevel e.amp e.sign := by
        simp [vlcEncode, h0, ht, hr0]
      rw [hc] at hf ⊢
      have h16 : (vlcZeros (e.run - 1)).length ≤ 16 := by
        have := vlcDecode_zeros (show e.run - 1 ≤ 61 by omega) []
        have hb := (vlcDecode_bounds (vlcZeros (e.run - 1) ++ [])).2.2
        rw [this] at hb; exact hb
      have h11 := vlcZeros_length_ge (e.run - 1)
      have hlv := vlcLevel_length_le e.amp e.sign
      have hlv3 := vlcEncode_length_ge 0 e.amp e.sign
      rw [vlcEncode_level h0] at hlv3
      rw [List.append_assoc]
      rw [decodeLoop_sym (fun y => vlcDecode_zeros (show e.run - 1 ≤ 61 by omega) y) (by omega) h16 (by omega)
        (by simpa using hf) (Nat.le_refl _)]
      have hset : w.coefs.set ((zz w.mode).getD (w.pos + (e.run - 1)) 0) (if false = true then -((0 : Nat) : Int) else ((0 : Nat) : Int)) =
          w.coefs := set_same (by simpa using hz (w.pos + (e.run - 1)) (by omega) (by omega))
      rw [hset]
      rw [decodeLoop_sym (fun y => vlcDecode_level h0 ha _ y) (by omega) hlv (by simp; omega) (Nat.le_refl _) hg]
      have hpos : w.pos + (e.run - 1) + 1 + 0 = w.pos + e.run := by omega
      simp only [hpos, List.length_append, Nat.add_assoc, Nat.add_zero, Nat.zero_add]

/-- The decode loop on the codes of a list of entries: their coefficients are filled in. -/
theorem decodeLoop_entries (es : List Entry) :
    ∀ (x : Bits) (w : Work) (f g i : Nat), (∀ e ∈ es, e.amp ≠ 0 ∧ e.amp ≤ 255) → 1 ≤ w.pos → w.coefs.length = 64 →
      w.pos + (es.map fun e => e.run + 1).sum ≤ 64 →
      (∀ q, q < 64 → w.pos ≤ q → at0 w.coefs ((zz w.mode).getD q 0) = 0) →
      (es.flatMap Entry.code ++ x).length ≤ f → x.length ≤ g →
      decodeLoop f (es.flatMap Entry.code ++ x) i w = decodeLoop g x (i + (es.flatMap Entry.code).length)
        { w with coefs := fillEntries (zz w.mode) w.pos es w.coefs, pos := w.pos + (es.map fun e => e.run + 1).sum } := by
  induction es with
  | nil =>
    intro x w f g i _ _ _ _ _ hf hg
    simp only [List.flatMap_nil, List.nil_append, List.map_nil, List.sum_nil, Nat.add_zero, List.length_nil, fillEntries]
    exact decodeLoop_fuel _ _ _ _ _ (by simpa using hf) hg
  | cons e es ih =>
    intro x w f g i ha hp hl hs hz hf hg
    simp only [List.map_cons, List.sum_cons] at hs
    simp only [List.flatMap_cons, List.append_assoc] at hf ⊢
    have he := ha e (by simp)
    rw [decodeLoop_entry he.1 he.2 (by omega) hp (by omega) hz hf (Nat.le_refl _)]
    rw [ih x _ _ g _ (fun y hy => ha y (by simp [hy])) (by simp) (by simp [hl]) (by show w.pos + e.run + 1 + _ ≤ 64; omega) (fun q hq1 hq2 => ?_)
      (Nat.le_refl _) hg]
    · simp only [fillEntries, List.length_append, List.map_cons, List.sum_cons, Nat.add_assoc]
    · simp only at hq2
      show at0 (w.coefs.set _ _) _ = 0
      rw [at0_set_ne _ fun h => (show q ≠ w.pos + e.run by omega) (zz_inj w.mode hq1 (by omega) h)]
      exact hz q hq1 (by omega)

theorem entriesFrom_runs (c : List Int) (z : List Nat) (n : Nat) :
    ∀ p prev, p + n = 64 → prev < p →
      prev + 1 + ((entriesFrom c z prev (List.range' p n)).map fun e => e.run + 1).sum ≤ 64 := by
  induction n with
  | zero => intro p prev hp hprev; simp [entriesFrom]; omega
  | succ n ih =>
    intro p prev hp hprev
    simp only [List.range'_succ, entriesFrom]
    split
    · exact ih (p + 1) prev (by omega) (by omega)
    · have := ih (p + 1) p (by omega) (by omega)
      simp only [List.map_cons, List.sum_cons]
      omega

end Sys2Proof.Machine
end

