-- ==== Sys2Proof/Laws/Commands.lean ====
section
/-! SUPPORT. Every command at once: what exec runs, what no command touches, and how a command can end. -/

namespace Sys2Proof.Machine

open Sys2Proof

/-- The pseudocode that exec runs for each command. -/
def bodyOf (i : Instr) (s : State) : Except ErrCode State :=
  match i with
  | .nop => .ok s
  | .segClear => .ok (segClear s)
  | .brPeek n => brPeek n s
  | .brSkip n => brSkip n s
  | .bwPut n => bwPut n s
  | .vlcDecSym n => vlcDecSym n s
  | .vlcEncSym => .ok (vlcEncSym s)
  | .vlcBits => .ok (vlcBits s)
  | .vlcBlkBits b => vlcBlkBits b s
  | .zzToScan b => zzToScan b s
  | .zzToNat b => zzToNat b s
  | .place411 => place411 s
  | .place420 => place420 s
  | .placeMb m => placeMb m s
  | .weightFwd b => withBlock b (.ok (applyWeightFwd b s))
  | .weightInv b => withBlock b (.ok (applyWeightInv b s))
  | .classify b => classify b s
  | .qsearch m => qsearch m s
  | .quant b => withBlock b (.ok (applyQuant b s))
  | .dequant b => withBlock b (.ok (applyDequant b s))
  | .fdct b => withBlock b (.ok (applyFdct b s))
  | .idct b => withBlock b (.ok (applyIdct b s))
  | .need248 b => withBlock b (.ok ((applyNeed248 b s).setRes0 (word32 (activity (s.coefs b)))))
  | .vlcDecSeg => .ok (vlcDecSeg s)
  | .vlcEncSeg => vlcEncSeg s
  | .decodeSeg => .ok (decodeSeg s)
  | .encodeSeg => encodeSeg s

theorem exec_eq (i : Instr) (s : State) : exec i s = runCommand (bodyOf i) s := by cases i <;> rfl

theorem exec_of_ok {i : Instr} {s u : State} (h : bodyOf i s = .ok u) : exec i s = .next (complete u) := by
  rw [exec_eq, runCommand_ok h]

theorem exec_of_error {i : Instr} {s : State} {e : ErrCode} (h : bodyOf i s = .error e) : exec i s = .next (fail e s) := by
  rw [exec_eq, runCommand_error h]

theorem failsWith_of_error {i : Instr} {s : State} {e : ErrCode} (h : bodyOf i s = .error e) : failsWith i s e :=
  ⟨_, exec_of_error h, failed_fail e s⟩

/-- Everything exec can answer: a next state, complete or failed. -/
theorem exec_cases (i : Instr) (s : State) :
    (∃ u, bodyOf i s = .ok u ∧ exec i s = .next (complete u)) ∨
    (∃ e, bodyOf i s = .error e ∧ exec i s = .next (fail e s)) := by
  cases h : bodyOf i s with
  | ok u => exact .inl ⟨u, rfl, exec_of_ok h⟩
  | error e => exact .inr ⟨e, rfl, exec_of_error h⟩

/-! ### What the writes of each command leave alone -/

theorem untouched_segClear (s : State) : Untouched s (segClear s) :=
  (untouched_setMem s _).trans (untouched_setBitpos _ _)

theorem untouched_vlcEncSym (s : State) : Untouched s (vlcEncSym s) :=
  ((untouched_setRes0 s _).trans (untouched_setRes1 _ _)).trans (untouched_setRes2 _ _)

theorem untouched_setOver (s : State) (b : Nat) (ov : Bool) : Untouched s (s.setOver b ov) := untouched_setBlk s _ _

theorem untouched_applyQsearch (m : Nat) (s : State) : Untouched s (applyQsearch m s) :=
  ((untouched_setMb s _ _).trans (untouched_foldl _ (fun u t => untouched_setOver u _ _) _ _)).trans (untouched_markQover _ _)

theorem untouched_applyClassify (b : Nat) (s : State) : Untouched s (applyClassify b s) := untouched_setBlk s _ _

theorem untouched_applyNeed248 (b : Nat) (s : State) : Untouched s (applyNeed248 b s) := untouched_setBlk s _ _

theorem untouched_applyFdct (b : Nat) (s : State) : Untouched s (applyFdct b s) := untouched_setCoefs s _ _

theorem untouched_applyWeightFwd (b : Nat) (s : State) : Untouched s (applyWeightFwd b s) := untouched_setCoefs s _ _

theorem untouched_recordBlocks (ws : List Work) (s : State) : Untouched s (recordBlocks ws s) :=
  untouched_foldl _ (fun u _ => untouched_setBlk u _ _) _ _

theorem untouched_recordMbs (mem : Memory) (ws : List Work) (s : State) : Untouched s (recordMbs mem ws s) :=
  untouched_foldl _ (fun u _ => untouched_setMb u _ _) _ _

theorem untouched_vlcDecSeg (s : State) : Untouched s (vlcDecSeg s) :=
  (((((untouched_setMem s _).trans (untouched_recordBlocks _ _)).trans (untouched_recordMbs _ _ _)).trans
    (untouched_setRes0 _ _)).trans (untouched_setRes1 _ _)).trans (untouched_markVlcerr _ _)

theorem untouched_encodeSegment (s : State) : Untouched s (encodeSegment s) :=
  (((((untouched_setMem s _).trans (untouched_setOvfCount _ _)).trans (untouched_markTrunc _ _)).trans
    (untouched_setRes0 _ _))).trans (untouched_setRes1 _ _)

theorem untouched_reconstruct (s : State) (b : Nat) : Untouched s (reconstruct s b) :=
  ((untouched_setCoefs s _ _).trans (untouched_setCoefs _ _ _)).trans (untouched_setCoefs _ _ _)

theorem untouched_decodeSeg (s : State) : Untouched s (decodeSeg s) :=
  (untouched_vlcDecSeg s).trans (untouched_foldl _ untouched_reconstruct _ _)

theorem untouched_analyse (s : State) (b : Nat) : Untouched s (analyse s b) := by
  have h1 : Untouched s (if s.csr.ctrl.auto248 then applyNeed248 b s else s) := by
    split
    · exact untouched_applyNeed248 b s
    · exact .refl s
  have h2 := h1.trans ((untouched_applyFdct b _).trans (untouched_applyWeightFwd b _))
  unfold analyse
  dsimp only
  split
  · exact h2.trans (untouched_applyClassify b _)
  · exact h2

theorem untouched_encodePrepare (s : State) : Untouched s (encodePrepare s) := by
  have h1 := untouched_foldl analyse untouched_analyse (List.range 30) s
  unfold encodePrepare
  dsimp only
  refine Untouched.trans ?_ (untouched_foldl _ (fun u b => untouched_setCoefs u b _) _ _)
  split
  · exact h1.trans (untouched_foldl _ (fun u m => untouched_applyQsearch m u) _ _)
  · exact h1

/-- No command's pseudocode writes CTRL, CMD, ARG0, the thresholds, ERR, ERRCMD, the host-side reports or the port. -/
theorem bodyOf_untouched {i : Instr} {s u : State} (h : bodyOf i s = .ok u) : Untouched s u := by
  cases i <;>
    simp only [bodyOf, brPeek, brSkip, bwPut, vlcDecSym, vlcBlkBits, zzToScan, zzToNat, place411, place420, placeMb, classify,
      qsearch, vlcEncSeg, encodeSeg, withBlock, withMb, require_eq_ok, Except.ok.injEq] at h
  case nop => subst h; exact .refl s
  case segClear => subst h; exact untouched_segClear s
  case brPeek => obtain ⟨-, -, rfl⟩ := h; exact untouched_setRes0 s _
  case brSkip => obtain ⟨-, rfl⟩ := h; exact untouched_setBitpos s _
  case bwPut =>
    obtain ⟨-, -, rfl⟩ := h
    exact ((untouched_setMem s _).trans (untouched_setBitpos _ _)).trans (untouched_setRes0 _ _)
  case vlcDecSym => obtain ⟨-, rfl⟩ := h; exact untouched_setRes0 s _
  case vlcEncSym => subst h; exact untouched_vlcEncSym s
  case vlcBits => subst h; exact untouched_setRes0 s _
  case vlcBlkBits => obtain ⟨-, -, rfl⟩ := h; exact untouched_setRes0 s _
  case zzToScan => obtain ⟨-, rfl⟩ := h; exact untouched_setCoefs s _ _
  case zzToNat => obtain ⟨-, rfl⟩ := h; exact untouched_setCoefs s _ _
  case place411 => obtain ⟨-, rfl⟩ := h; exact untouched_setRes0 s _
  case place420 => obtain ⟨-, rfl⟩ := h; exact untouched_setRes0 s _
  case placeMb => obtain ⟨-, -, rfl⟩ := h; exact (untouched_setMb s _ _).trans (untouched_setRes0 _ _)
  case weightFwd => obtain ⟨-, rfl⟩ := h; exact untouched_setCoefs s _ _
  case weightInv => obtain ⟨-, rfl⟩ := h; exact untouched_setCoefs s _ _
  case classify => obtain ⟨-, rfl⟩ := h; exact (untouched_applyClassify _ s).trans (untouched_setRes0 _ _)
  case qsearch => obtain ⟨-, rfl⟩ := h; exact (untouched_applyQsearch _ s).trans (untouched_setRes0 _ _)
  case quant => obtain ⟨-, rfl⟩ := h; exact untouched_setCoefs s _ _
  case dequant => obtain ⟨-, rfl⟩ := h; exact untouched_setCoefs s _ _
  case fdct => obtain ⟨-, rfl⟩ := h; exact untouched_setCoefs s _ _
  case idct => obtain ⟨-, rfl⟩ := h; exact untouched_setCoefs s _ _
  case need248 => obtain ⟨-, rfl⟩ := h; exact (untouched_applyNeed248 _ s).trans (untouched_setRes0 _ _)
  case vlcDecSeg => subst h; exact untouched_vlcDecSeg s
  case vlcEncSeg => obtain ⟨-, rfl⟩ := h; exact untouched_encodeSegment s
  case decodeSeg => subst h; exact untouched_decodeSeg s
  case encodeSeg => obtain ⟨-, rfl⟩ := h; exact (untouched_encodePrepare s).trans (untouched_encodeSegment _)

/-- No command of the set fails with ILLEGAL_OP. -/
theorem bodyOf_error_ne {i : Instr} {s : State} {e : ErrCode} (h : bodyOf i s = .error e) : e ≠ .illegalOp := by
  rintro rfl
  cases i <;>
    simp [bodyOf, brPeek, brSkip, bwPut, vlcDecSym, vlcBlkBits, zzToScan, zzToNat, place411, place420, placeMb, classify,
      qsearch, vlcEncSeg, encodeSeg, withBlock, withMb, require_eq_error] at h

end Sys2Proof.Machine
end

