-- ==== Sys2Proof/Laws/Coef.lean ====
section
/-! SUPPORT. The block commands: what a command that writes COEF[b] leaves, and the values of the block functions. -/

namespace Sys2Proof.Machine

open Sys2Proof

/-- A command whose only write is COEF[b] <- c, every entry a 16-bit value. -/
theorem exec_setCoefs {i : Instr} {b : Nat} {s : State} {c : List Int} (h : bodyOf i s = .ok (s.setCoefs b c))
    (hl : c.length = 64) (hr : ∀ n, n < 64 → -32768 ≤ at0 c n ∧ at0 c n ≤ 32767) :
    ∃ t, exec i s = .next t ∧ OnlyBlock b s t ∧ ∀ n, n < 64 → coef t.mem b n = at0 c n := by
  refine ⟨_, exec_of_ok h, onlyBlock_setCoefs s b hl, fun n hn => ?_⟩
  show coef (storeCoefs s.mem b c) b n = _
  rw [coef_storeCoefs hl hn, wrap16_of_range (hr n hn).1 (hr n hn).2]

theorem at0_coefs (s : State) (b : Nat) {n : Nat} (h : n < 64) : at0 (s.coefs b) n = coef s.mem b n := at0_coefBlock s.mem b h

theorem coefs_length (s : State) (b : Nat) : (s.coefs b).length = 64 := coefBlock_length s.mem b

theorem coefs_range (s : State) (b : Nat) {n : Nat} (h : n < 64) : -32768 ≤ at0 (s.coefs b) n ∧ at0 (s.coefs b) n ≤ 32767 := by
  rw [at0_coefs s b h]; exact coef_range _ _ _

/-- Two memories that agree on COEF[b] and on every byte outside it agree on every byte. -/
theorem byte_eq_of_coefs {m k : Memory} {b : Nat} (h1 : ∀ n, n < 64 → coef m b n = coef k b n)
    (h2 : ∀ a, a < coefAddr b 0 ∨ coefAddr b 0 + 128 ≤ a → m.byte a = k.byte a) (a : Nat) : m.byte a = k.byte a := by
  have half : ∀ a, m.half a = k.half a → m.byte a = k.byte a ∧ m.byte (a + 1) = k.byte (a + 1) := by
    intro a h
    unfold Memory.half at h
    have hb : ∀ i, (m.byte (a + 1) ++ m.byte a).getLsbD i = (k.byte (a + 1) ++ k.byte a).getLsbD i := fun i => by rw [h]
    simp only [BitVec.getLsbD_append] at hb
    constructor
    · refine BitVec.eq_of_getLsbD_eq fun i hi => ?_
      have := hb i; simpa [hi] using this
    · refine BitVec.eq_of_getLsbD_eq fun i hi => ?_
      have := hb (8 + i); simpa using this
  by_cases h : a < coefAddr b 0 ∨ coefAddr b 0 + 128 ≤ a
  · exact h2 a h
  · have hn := half _ (BitVec.eq_of_toInt_eq (h1 ((a - coefAddr b 0) / 2) (by omega)))
    have hc : coefAddr b ((a - coefAddr b 0) / 2) = coefAddr b 0 + 2 * ((a - coefAddr b 0) / 2) := by unfold coefAddr; omega
    rw [hc] at hn
    rcases Nat.mod_two_eq_zero_or_one (a - coefAddr b 0) with h0 | h0
    · rw [show a = coefAddr b 0 + 2 * ((a - coefAddr b 0) / 2) by omega]; exact hn.1
    · rw [show a = coefAddr b 0 + 2 * ((a - coefAddr b 0) / 2) + 1 by omega]; exact hn.2

/-! ### The block functions -/

theorem toScan_length (mode : Bool) (old : List Int) : (toScan mode old).length = 64 := mkBlock_length _

theorem at0_toScan (mode : Bool) (old : List Int) {i : Nat} (h : i < 64) : at0 (toScan mode old) i = at0 old ((zz mode).getD i 0) :=
  at0_mkBlock _ h

theorem toNatural_spec (mode : Bool) (old : List Int) (h : old.length = 64) :
    (toNatural mode old).length = 64 ∧ ∀ i, i < 64 → at0 (toNatural mode old) ((zz mode).getD i 0) = at0 old i := by
  unfold toNatural
  suffices hs : ∀ k, k ≤ 64 →
      ((List.range k).foldl (fun c i => c.set ((zz mode).getD i 0) (at0 old i)) old).length = 64 ∧
      ∀ i, i < k → at0 ((List.range k).foldl (fun c i => c.set ((zz mode).getD i 0) (at0 old i)) old) ((zz mode).getD i 0) =
        at0 old i from hs 64 (Nat.le_refl _)
  intro k
  induction k with
  | zero => intro _; exact ⟨h, fun i hi => absurd hi (by omega)⟩
  | succ k ih =>
    intro hk
    obtain ⟨h1, h2⟩ := ih (by omega)
    rw [List.range_succ, List.foldl_append]
    simp only [List.foldl_cons, List.foldl_nil]
    refine ⟨by rw [List.length_set]; exact h1, fun i hi => ?_⟩
    by_cases hik : i = k
    · subst hik; exact at0_set_self _ (by rw [h1]; exact zz_lt mode _ (by omega))
    · rw [at0_set_ne _ fun e => hik (zz_inj mode (by omega) (by omega) e)]; exact h2 i (by omega)

theorem toNatural_range (mode : Bool) (old : List Int) (h : old.length = 64)
    (hr : ∀ n, n < 64 → -32768 ≤ at0 old n ∧ at0 old n ≤ 32767) :
    ∀ n, n < 64 → -32768 ≤ at0 (toNatural mode old) n ∧ at0 (toNatural mode old) n ≤ 32767 := by
  intro n hn
  obtain ⟨q, hq, rfl⟩ := zz_surj mode hn
  rw [(toNatural_spec mode old h).2 q hq]; exact hr q hq

theorem weightForward_length (mode : Bool) (c : List Int) : (weightForward mode c).length = 64 := mkBlock_length _

theorem weightInverse_length (mode : Bool) (c : List Int) : (weightInverse mode c).length = 64 := mkBlock_length _

theorem quantize_length (c : List Int) (mode : Bool) (q k : Nat) : (quantize c mode q k).length = 64 := mkBlock_length _

theorem dequantize_length (c : List Int) (mode : Bool) (q k : Nat) : (dequantize c mode q k).length = 64 := mkBlock_length _

theorem fdctBlock_length (mode : Bool) (c : List Int) : (fdctBlock mode c).length = 64 := by cases mode <;> exact mkBlock_length _

theorem idctBlock_length (mode : Bool) (c : List Int) : (idctBlock mode c).length = 64 := by cases mode <;> exact mkBlock_length _

theorem weightForward_range (mode : Bool) (c : List Int) {n : Nat} (h : n < 64) :
    -32768 ≤ at0 (weightForward mode c) n ∧ at0 (weightForward mode c) n ≤ 32767 := by
  rw [weightForward, at0_mkBlock _ h]; exact sat16_range _

theorem weightInverse_range (mode : Bool) (c : List Int) {n : Nat} (h : n < 64) :
    -32768 ≤ at0 (weightInverse mode c) n ∧ at0 (weightInverse mode c) n ≤ 32767 := by
  rw [weightInverse, at0_mkBlock _ h]; exact sat16_range _

theorem fdctBlock_range (mode : Bool) (c : List Int) {n : Nat} (h : n < 64) :
    -32768 ≤ at0 (fdctBlock mode c) n ∧ at0 (fdctBlock mode c) n ≤ 32767 := by
  cases mode
  · show -32768 ≤ at0 (fdct88 c) n ∧ at0 (fdct88 c) n ≤ 32767
    rw [fdct88, at0_mkBlock _ h]; exact sat16_range _
  · show -32768 ≤ at0 (fdct248 c) n ∧ at0 (fdct248 c) n ≤ 32767
    rw [fdct248, at0_mkBlock _ h]; dsimp only; split <;> exact sat16_range _

theorem idctBlock_range (mode : Bool) (c : List Int) {n : Nat} (h : n < 64) :
    -32768 ≤ at0 (idctBlock mode c) n ∧ at0 (idctBlock mode c) n ≤ 32767 := by
  cases mode
  · show -32768 ≤ at0 (idct88 c) n ∧ at0 (idct88 c) n ≤ 32767
    rw [idct88, at0_mkBlock _ h]; exact sat16_range _
  · show -32768 ≤ at0 (idct248 c) n ∧ at0 (idct248 c) n ≤ 32767
    rw [idct248, at0_mkBlock _ h]; dsimp only; split <;> exact sat16_range _

theorem quantOne_abs (v : Int) (sh : Nat) : (quantOne v sh).natAbs ≤ 255 := by
  have h : min (v.natAbs >>> sh) 255 ≤ 255 := Nat.min_le_right _ _
  unfold quantOne; dsimp only; split
  · rw [Int.natAbs_neg, Int.natAbs_natCast]; exact h
  · rw [Int.natAbs_natCast]; exact h

theorem quantize_zero (c : List Int) (mode : Bool) (q k : Nat) : at0 (quantize c mode q k) 0 = at0 c 0 := by
  rw [quantize, at0_mkBlock _ (by omega), if_pos rfl]

theorem quantize_pos (c : List Int) (mode : Bool) (q k : Nat) {n : Nat} (h0 : n ≠ 0) (h : n < 64) :
    at0 (quantize c mode q k) n = quantOne (at0 c n) (qshift q k ((area mode).getD n 0)) := by
  rw [quantize, at0_mkBlock _ h, if_neg h0]

/-- QUANT's output is always encodable (44 R219). -/
theorem quantize_abs (c : List Int) (mode : Bool) (q k : Nat) {n : Nat} (h0 : n ≠ 0) (h : n < 64) :
    (at0 (quantize c mode q k) n).natAbs ≤ 255 := by
  rw [quantize_pos c mode q k h0 h]; exact quantOne_abs _ _

theorem quantize_range {c : List Int} (mode : Bool) (q k : Nat) (hr : -32768 ≤ at0 c 0 ∧ at0 c 0 ≤ 32767) {n : Nat} (h : n < 64) :
    -32768 ≤ at0 (quantize c mode q k) n ∧ at0 (quantize c mode q k) n ≤ 32767 := by
  by_cases h0 : n = 0
  · subst h0; rw [quantize_zero]; exact hr
  · have := quantize_abs c mode q k h0 h; omega

theorem dequantize_zero (c : List Int) (mode : Bool) (q k : Nat) : at0 (dequantize c mode q k) 0 = at0 c 0 := by
  rw [dequantize, at0_mkBlock _ (by omega), if_pos rfl]

theorem dequantize_pos (c : List Int) (mode : Bool) (q k : Nat) {n : Nat} (h0 : n ≠ 0) (h : n < 64) :
    at0 (dequantize c mode q k) n = wrap16 (at0 c n * (2 ^ qshift q k ((area mode).getD n 0) : Nat)) := by
  rw [dequantize, at0_mkBlock _ h, if_neg h0]

theorem dequantize_range {c : List Int} (mode : Bool) (q k : Nat) (hr : -32768 ≤ at0 c 0 ∧ at0 c 0 ≤ 32767) {n : Nat} (h : n < 64) :
    -32768 ≤ at0 (dequantize c mode q k) n ∧ at0 (dequantize c mode q k) n ≤ 32767 := by
  by_cases h0 : n = 0
  · subst h0; rw [dequantize_zero]; exact hr
  · rw [dequantize_pos c mode q k h0 h]; exact wrap16_range _

/-- The model's sums are the finite sums of the rules. -/
theorem sumTo_eq (n : Nat) (f : Nat → Int) : sumTo n f = Finset.sum (Finset.range n) f := by
  induction n with
  | zero => rfl
  | succ n ih =>
    rw [Finset.sum_range_succ, ← ih]; unfold sumTo; rw [List.range_succ, List.foldl_append]; rfl

end Sys2Proof.Machine
end

