-- ==== Sys2Proof/Laws/DecodeSeg.lean ====
section
/-! SUPPORT. VLC_DEC_SEG: folds over metadata and blocks, everything the command writes, and that the result depends on SEG only. -/

namespace Sys2Proof.Machine

open Sys2Proof

theorem blkAt_fold_setBlk (f : Nat → BlkMeta → BlkMeta) (n : Nat) (hn : n ≤ 30) (s : State) (b : Nat) :
    ((List.range n).foldl (fun u b => u.setBlk b (f b (u.blkAt b))) s).blkAt b = if b < n then f b (s.blkAt b) else s.blkAt b := by
  induction n with
  | zero => rw [if_neg (by omega)]; rfl
  | succ n ih =>
    rw [List.range_succ, List.foldl_append, List.foldl_cons, List.foldl_nil]
    have ih := ih (by omega)
    by_cases e : b = n
    · subst e
      rw [blkAt_setBlk_self _ _ (by omega), ih, if_neg (by omega), if_pos (by omega)]
    · rw [blkAt_setBlk_ne _ _ e, ih]
      by_cases h : b < n
      · rw [if_pos h, if_pos (by omega)]
      · rw [if_neg h, if_neg (by omega)]

theorem mbAt_fold_setMb (f : Nat → MbMeta → MbMeta) (n : Nat) (hn : n ≤ 5) (s : State) (b : Nat) :
    ((List.range n).foldl (fun u b => u.setMb b (f b (u.mbAt b))) s).mbAt b = if b < n then f b (s.mbAt b) else s.mbAt b := by
  induction n with
  | zero => rw [if_neg (by omega)]; rfl
  | succ n ih =>
    rw [List.range_succ, List.foldl_append, List.foldl_cons, List.foldl_nil]
    have ih := ih (by omega)
    by_cases e : b = n
    · subst e
      rw [mbAt_setMb_self _ _ (by omega), ih, if_neg (by omega), if_pos (by omega)]
    · rw [mbAt_setMb_ne _ _ e, ih]
      by_cases h : b < n
      · rw [if_pos h, if_pos (by omega)]
      · rw [if_neg h, if_neg (by omega)]

theorem coef_fold_storeCoefs (f : Nat → List Int) (hl : ∀ b, (f b).length = 64 ∨ 30 ≤ b) (n : Nat) (hn : n ≤ 30) (m : Memory)
    {b k : Nat} (hk : k < 64) (hb : b < 30) :
    coef ((List.range n).foldl (fun m b => storeCoefs m b (f b)) m) b k = if b < n then wrap16 (at0 (f b) k) else coef m b k := by
  induction n with
  | zero => rw [if_neg (by omega)]; rfl
  | succ n ih =>
    rw [List.range_succ, List.foldl_append, List.foldl_cons, List.foldl_nil]
    have ih := ih (by omega)
    have hfl : (f n).length = 64 := (hl n).resolve_right (by omega)
    by_cases e : b = n
    · subst e
      rw [coef_storeCoefs hfl hk, if_pos (by omega)]
    · rw [coef_storeCoefs_ne hfl e hk, ih]
      by_cases h : b < n
      · rw [if_pos h, if_pos (by omega)]
      · rw [if_neg h, if_neg (by omega)]

theorem byte_fold_storeCoefs (f : Nat → List Int) (hl : ∀ b, (f b).length = 64 ∨ 30 ≤ b) (n : Nat) (hn : n ≤ 30) (m : Memory) {a :
    Nat} (ha : a < 0x1000 ∨ 0x1000 + 3840 ≤ a) :
    Memory.byte ((List.range n).foldl (fun m b => storeCoefs m b (f b)) m) a = m.byte a := by
  induction n with
  | zero => rfl
  | succ n ih =>
    rw [List.range_succ, List.foldl_append, List.foldl_cons, List.foldl_nil]
    rw [byte_storeCoefs_outside ((hl n).resolve_right (by omega)) (by unfold coefAddr; omega)]
    exact ih (by omega)

theorem workAt_getElem {ws : List Work} {b : Nat} (h : b < ws.length) : workAt ws b = ws[b] := by
  simp [workAt, List.getElem?_eq_getElem h]

theorem ofMb_eq {ws : List Work} (hl : ws.length = 30) {m : Nat} (hm : m < 5) : ofMb m ws = (List.range 6).map fun j => workAt ws
    (6 * m + j) := by
  apply List.ext_getElem
  · simp [ofMb, hl]; omega
  · intro i h1 h2
    simp at h2
    simp [ofMb, workAt_getElem (show 6 * m + i < ws.length by omega)]

theorem sum_six (f : Nat → Nat) : ((List.range 6).map f).sum = f 0 + f 1 + f 2 + f 3 + f 4 + f 5 := by
  simp [List.range, List.range.loop]; omega

theorem sum_five (f : Nat → Nat) : ((List.range 5).map f).sum = f 0 + f 1 + f 2 + f 3 + f 4 := by
  simp [List.range, List.range.loop]; omega

theorem vlcErrorOf_add (m : Memory) {k : Nat} (hk : k < 5) : vlcErrorOf (decodeSegment m) k + eobCountOf (decodeSegment m) k = 6 := by
  unfold vlcErrorOf eobCountOf
  rw [ofMb_eq (decodeSegment_length m) hk, List.map_map, List.map_map, sum_six, sum_six]
  simp only [Function.comp_apply]
  have h := fun j (hj : j < 6) => (ownPass_workAt m (b := 6 * k + j) (by omega)).sound.counts
  have h0 := h 0 (by omega); have h1 := h 1 (by omega); have h2 := h 2 (by omega)
  have h3 := h 3 (by omega); have h4 := h 4 (by omega); have h5 := h 5 (by omega)
  omega

theorem vlcErrorOf_le (m : Memory) {k : Nat} (hk : k < 5) : vlcErrorOf (decodeSegment m) k ≤ 6 := by
  have := vlcErrorOf_add m hk; omega

theorem eobCountOf_le (m : Memory) {k : Nat} (hk : k < 5) : eobCountOf (decodeSegment m) k ≤ 6 := by
  unfold eobCountOf
  rw [ofMb_eq (decodeSegment_length m) hk, List.map_map, sum_six]
  simp only [Function.comp_apply]
  have := fun b : Bool => b.toNat_le
  have h0 := this (workAt (decodeSegment m) (6 * k + 0)).eob
  have h1 := this (workAt (decodeSegment m) (6 * k + 1)).eob
  have h2 := this (workAt (decodeSegment m) (6 * k + 2)).eob
  have h3 := this (workAt (decodeSegment m) (6 * k + 3)).eob
  have h4 := this (workAt (decodeSegment m) (6 * k + 4)).eob
  have h5 := this (workAt (decodeSegment m) (6 * k + 5)).eob
  omega

/-- Some VLC error is counted exactly when some block has no EOB (46 R290). -/
theorem vlcErrorTotal_pos (m : Memory) :
    0 < vlcErrorTotal (decodeSegment m) ↔ ∃ b, b < 30 ∧ (workAt (decodeSegment m) b).eob = false := by
  have hk : ∀ k, k < 5 → (0 < vlcErrorOf (decodeSegment m) k ↔ ∃ j, j < 6 ∧ (workAt (decodeSegment m) (6 * k + j)).eob = false) := by
    intro k hk
    have h := vlcErrorOf_add m hk
    unfold eobCountOf at h
    rw [ofMb_eq (decodeSegment_length m) hk, List.map_map, sum_six] at h
    simp only [Function.comp_apply] at h
    constructor
    · intro hp
      by_contra hn
      have ht : ∀ j, j < 6 → (workAt (decodeSegment m) (6 * k + j)).eob.toNat = 1 := fun j hj => by
        cases hx : (workAt (decodeSegment m) (6 * k + j)).eob
        · exact absurd ⟨j, hj, hx⟩ hn
        · rfl
      rw [ht 0 (by omega), ht 1 (by omega), ht 2 (by omega), ht 3 (by omega), ht 4 (by omega), ht 5 (by omega)] at h
      omega
    · rintro ⟨j, hj, hx⟩
      have ht := fun j => (workAt (decodeSegment m) (6 * k + j)).eob.toNat_le
      have h0 := ht 0; have h1 := ht 1; have h2 := ht 2; have h3 := ht 3; have h4 := ht 4; have h5 := ht 5
      have hz : (workAt (decodeSegment m) (6 * k + j)).eob.toNat = 0 := by rw [hx]; rfl
      have : j = 0 ∨ j = 1 ∨ j = 2 ∨ j = 3 ∨ j = 4 ∨ j = 5 := by omega
      rcases this with rfl | rfl | rfl | rfl | rfl | rfl <;> omega
  unfold vlcErrorTotal
  rw [sum_five]
  constructor
  · intro h
    have : ∃ k, k < 5 ∧ 0 < vlcErrorOf (decodeSegment m) k := by
      by_contra hn
      have hz : ∀ k, k < 5 → vlcErrorOf (decodeSegment m) k = 0 := fun k hk' => by
        by_contra hx; exact hn ⟨k, hk', by omega⟩
      rw [hz 0 (by omega), hz 1 (by omega), hz 2 (by omega), hz 3 (by omega), hz 4 (by omega)] at h
      omega
    obtain ⟨k, h5, hp⟩ := this
    obtain ⟨j, h6, hx⟩ := (hk k h5).1 hp
    exact ⟨6 * k + j, by omega, hx⟩
  · rintro ⟨b, hb, hx⟩
    have h1 := (hk (b / 6) (by omega)).2 ⟨b % 6, by omega, by rw [show 6 * (b / 6) + b % 6 = b by omega]; exact hx⟩
    have : b / 6 = 0 ∨ b / 6 = 1 ∨ b / 6 = 2 ∨ b / 6 = 3 ∨ b / 6 = 4 := by omega
    rcases this with e | e | e | e | e <;> rw [e] at h1 <;> omega

theorem vlcDecSeg_eq (s : State) : vlcDecSeg s = (((recordMbs s.mem (decodeSegment s.mem) (recordBlocks (decodeSegment s.mem)
    (s.setMem (storeBlocks (decodeSegment s.mem) s.mem)))).setRes0
    (word32 (vlcErrorTotal (decodeSegment s.mem)))).setRes1 (word32 (eobTotal (decodeSegment s.mem)))).markVlcerr (decide
      (0 < vlcErrorTotal (decodeSegment s.mem))) := by
  unfold vlcDecSeg; rfl

theorem record_csr (mem : Memory) (ws : List Work) (s : State) : (recordMbs mem ws (recordBlocks ws s)).csr = s.csr ∧
    (recordMbs mem ws (recordBlocks ws s)).mem = s.mem := by
  unfold recordMbs recordBlocks
  constructor
  · exact (foldl_eq State.csr _ (by intros; rfl) _ _).trans (foldl_eq State.csr _ (by intros; rfl) _ _)
  · exact (foldl_eq State.mem _ (by intros; rfl) _ _).trans (foldl_eq State.mem _ (by intros; rfl) _ _)

theorem recordMbs_blk (mem : Memory) (ws : List Work) (s : State) : (recordMbs mem ws s).blk = s.blk := by
  unfold recordMbs; exact foldl_eq State.blk _ (by intros; rfl) _ _

theorem recordBlocks_mb (ws : List Work) (s : State) : (recordBlocks ws s).mb = s.mb := by
  unfold recordBlocks; exact foldl_eq State.mb _ (by intros; rfl) _ _

/-- Everything VLC_DEC_SEG writes, and the bytes it leaves (46 R290). -/
structure VlcDecSegWrites (s t : State) (ws : List Work) : Prop where
  csr : t.csr = { s.csr with
    res0 := word32 (vlcErrorTotal ws)
    res1 := word32 (eobTotal ws)
    status := { s.csr.status with vlcerr := s.csr.status.vlcerr || decide (0 < vlcErrorTotal ws) } }
  blk : ∀ b, b < 30 → t.blkAt b = (workAt ws b).toBlk (s.blkAt b)
  mb : ∀ m, m < 5 → t.mbAt m = mbOfSegment s.mem ws m (s.mbAt m)
  coef : ∀ b n, b < 30 → n < 64 → coef t.mem b n = at0 (workAt ws b).coefs n
  bytes : ∀ a, a < 0x1000 ∨ 0x1000 + 3840 ≤ a → t.mem.byte a = s.mem.byte a

theorem blkAt_recordMbs (mem : Memory) (ws : List Work) (s : State) (b : Nat) : (recordMbs mem ws s).blkAt b = s.blkAt b :=
    blkAt_congr (recordMbs_blk _ _ _) b

theorem mbAt_recordMbs (mem : Memory) (ws : List Work) (s : State) {m : Nat} (hm : m < 5) : (recordMbs mem ws s).mbAt m =
    mbOfSegment mem ws m (s.mbAt m) := by
  unfold recordMbs
  rw [mbAt_fold_setMb _ 5 (by omega), if_pos hm]

theorem blkAt_recordBlocks (ws : List Work) (s : State) {b : Nat} (hb : b < 30) : (recordBlocks ws s).blkAt b =
    (workAt ws b).toBlk (s.blkAt b) := by
  unfold recordBlocks
  rw [blkAt_fold_setBlk _ 30 (by omega), if_pos hb]

theorem mbAt_recordBlocks (ws : List Work) (s : State) (m : Nat) : (recordBlocks ws s).mbAt m = s.mbAt m := mbAt_congr
    (recordBlocks_mb _ _) m

theorem vlcDecSeg_writes (s : State) : VlcDecSegWrites s (vlcDecSeg s) (decodeSegment s.mem) := by
  rw [vlcDecSeg_eq]
  have hw := fun b => @ownPass_workAt s.mem b
  have hlen : ∀ b, (workAt (decodeSegment s.mem) b).coefs.length = 64 ∨ 30 ≤ b := fun b => by
    by_cases h : b < 30
    · exact .inl (hw b h).sound.len
    · exact .inr (by omega)
  have hc := record_csr s.mem (decodeSegment s.mem) (s.setMem (storeBlocks (decodeSegment s.mem) s.mem))
  generalize decodeSegment s.mem = ws at *
  constructor
  · unfold State.markVlcerr State.setStatus State.setRes1 State.setRes0
    rw [hc.1]; rfl
  · intro b hb
    refine (blkAt_congr (t := _) (s := recordMbs s.mem ws (recordBlocks ws (s.setMem (storeBlocks ws s.mem)))) (by simp only
      [State.markVlcerr_blk, State.setRes1_blk, State.setRes0_blk]) b).trans ?_
    rw [blkAt_recordMbs, blkAt_recordBlocks _ _ hb, blkAt_setMem]
  · intro m hm
    refine (mbAt_congr (t := _) (s := recordMbs s.mem ws (recordBlocks ws (s.setMem (storeBlocks ws s.mem)))) (by simp only
      [State.markVlcerr_mb, State.setRes1_mb, State.setRes0_mb]) m).trans ?_
    rw [mbAt_recordMbs _ _ _ hm, mbAt_recordBlocks, mbAt_setMem]
  · intro b n hb hn
    rw [State.markVlcerr_mem, State.setRes1_mem, State.setRes0_mem, hc.2, State.setMem_mem]
    unfold storeBlocks
    rw [coef_fold_storeCoefs _ hlen 30 (by omega) _ hn hb, if_pos hb]
    have := (hw b hb).sound.small n
    rw [wrap16_of_range (by omega) (by omega)]
  · intro a ha
    rw [State.markVlcerr_mem, State.setRes1_mem, State.setRes0_mem, hc.2, State.setMem_mem]
    unfold storeBlocks
    exact byte_fold_storeCoefs _ hlen 30 (by omega) _ ha

theorem vlcErrorTotal_le (m : Memory) : vlcErrorTotal (decodeSegment m) ≤ 30 := by
  unfold vlcErrorTotal; rw [sum_five]
  have := fun k hk => vlcErrorOf_le m (k := k) hk
  have h0 := this 0 (by omega); have h1 := this 1 (by omega); have h2 := this 2 (by omega); have h3 := this 3
    (by omega); have h4 := this 4 (by omega)
  omega
theorem eobTotal_le (m : Memory) : eobTotal (decodeSegment m) ≤ 30 := by
  unfold eobTotal; rw [sum_five]
  have := fun k hk => eobCountOf_le m (k := k) hk
  have h0 := this 0 (by omega); have h1 := this 1 (by omega); have h2 := this 2 (by omega); have h3 := this 3
    (by omega); have h4 := this 4 (by omega)
  omega

theorem endBit_le {b : Nat} (hb : b < 30) : endBit b ≤ 3200 := by
  have h : ∀ t, t < 6 → BLKEND.getD t 0 ≤ 640 := by decide
  have := h (b % 6) (by omega); unfold endBit; omega

theorem passOwn_congr {m k : Memory} (h : ∀ a, a < 400 → segByte m a = segByte k a) {b : Nat} (hb : b < 30) : passOwn m b =
    passOwn k b := by
  have hbit : ∀ p, p < 3200 → segBit m p = segBit k p := fun p hp => segBit_congr (h _ (by omega))
  have h1 := startBit_le b
  have h2 := endBit_le hb
  have hw : startWork m b = startWork k b := by
    unfold startWork headerDc
    dsimp only
    rw [hbit _ (by omega), segPeek_congr (n := 2) (fun i hi => hbit _ (by omega)), segPeek_congr (n := 9) (fun i hi => hbit _
      (by omega))]
  have ho : ownBits m b = ownBits k b := by
    unfold ownBits segBits
    refine List.map_congr_left fun p hp => hbit p ?_
    rw [List.mem_range'_1] at hp; omega
  unfold passOwn
  rw [hw, ho]

theorem decodeSegment_congr {m k : Memory} (h : ∀ a, a < 400 → segByte m a = segByte k a) : decodeSegment m = decodeSegment k := by
  unfold decodeSegment
  rw [List.map_congr_left fun b hb => passOwn_congr h (List.mem_range.1 hb)]

end Sys2Proof.Machine
end

