-- ==== Sys2Proof/Laws/Fit.lean ====
section
/-! SUPPORT. The fit step: a sweep, the loop, one group and all groups. -/

namespace Sys2Proof.Machine

open Sys2Proof

/-- The bits of a group. -/
def groupBits (es : List (List Entry)) : Nat := (es.map blockBits).sum

/-- The entries of a group. -/
def groupLen (es : List (List Entry)) : Nat := (es.map List.length).sum

theorem blockBits_dropLast {es : List Entry} {e : Entry} (h : es.getLast? = some e) : blockBits es =
    blockBits es.dropLast + e.bits := by
  have : es = es.dropLast ++ [e] := by
    obtain ⟨l, rfl⟩ := List.getLast?_eq_some_iff.1 h; simp
  unfold blockBits
  conv => lhs; rw [this]
  simp; omega

theorem length_dropLast {es : List Entry} {e : Entry} (h : es.getLast? = some e) : es.dropLast.length + 1 = es.length := by
  obtain ⟨l, rfl⟩ := List.getLast?_eq_some_iff.1 h; simp

/-- What a sweep of the fit step does to a group (46 R295). -/
structure Cut (es : List (List Entry)) (total trunc : Nat) (r : List (List Entry) × Nat × Nat) : Prop where
  pre : List.Forall₂ (· <+: ·) r.1 es
  len : r.2.2 + groupLen r.1 = trunc + groupLen es
  bits : r.2.1 + groupBits es = total + groupBits r.1

theorem sweep_cut (cap : Nat) (es : List (List Entry)) (total trunc : Nat) (ht : groupBits es ≤ total) : Cut es total trunc
    (sweep cap es total trunc) := by
  induction es generalizing total trunc with
  | nil => exact ⟨.nil, rfl, rfl⟩
  | cons x es ih =>
    simp only [groupBits, List.map_cons, List.sum_cons] at ht
    have hx4 : 4 ≤ blockBits x := Nat.le_add_right _ _
    unfold sweep
    split
    · have ih := ih total trunc (by unfold groupBits; omega)
      refine ⟨.cons (List.prefix_refl x) ih.pre, ?_, ?_⟩
      · have := ih.len; simp only [groupLen, List.map_cons, List.sum_cons] at this ⊢; omega
      · have := ih.bits; simp only [groupBits, List.map_cons, List.sum_cons] at this ⊢; omega
    · rename_i e he
      have hb := blockBits_dropLast he
      have hl := length_dropLast he
      dsimp only
      split
      · refine ⟨.cons (List.dropLast_prefix x) (List.forall₂_same.2 fun x _ => List.prefix_refl x), ?_, ?_⟩
        · simp only [groupLen, List.map_cons, List.sum_cons]; omega
        · simp only [groupBits, List.map_cons, List.sum_cons]; omega
      · have ih := ih (total - e.bits) (trunc + 1) (by unfold groupBits; omega)
        refine ⟨.cons (List.dropLast_prefix x) ih.pre, ?_, ?_⟩
        · have := ih.len; simp only [groupLen, List.map_cons, List.sum_cons] at this ⊢; omega
        · have := ih.bits; simp only [groupBits, List.map_cons, List.sum_cons] at this ⊢; omega

theorem sweep_progress (cap : Nat) (es : List (List Entry)) (total trunc : Nat) (h : 0 < groupLen es) : trunc <
    (sweep cap es total trunc).2.2 := by
  have mono : ∀ (es : List (List Entry)) (total trunc : Nat), trunc ≤ (sweep cap es total trunc).2.2 := by
    intro es
    induction es with
    | nil => intro _ _; exact Nat.le_refl _
    | cons x es ih =>
      intro total trunc
      unfold sweep
      split
      · exact ih _ _
      · dsimp only
        split
        · exact Nat.le_succ _
        · exact Nat.le_trans (Nat.le_succ _) (ih _ _)
  induction es generalizing total trunc with
  | nil => simp [groupLen] at h
  | cons x es ih =>
    unfold sweep
    split
    · rename_i hn
      rw [List.getLast?_eq_none_iff] at hn
      subst hn
      exact ih _ _ (by simpa [groupLen] using h)
    · dsimp only
      split
      · exact Nat.lt_succ_self _
      · exact Nat.lt_of_lt_of_le (Nat.lt_succ_self _) (mono _ _ _)

theorem groupBits_empty {es : List (List Entry)} (h : groupLen es = 0) : groupBits es = 4 * es.length := by
  induction es with
  | nil => rfl
  | cons x es ih =>
    simp only [groupLen, groupBits, List.map_cons, List.sum_cons, List.length_cons] at h ih ⊢
    have hx : x = [] := List.eq_nil_of_length_eq_zero (by omega)
    rw [ih (by omega), hx]; simp [blockBits]; omega

theorem fitLoop_spec (cap fuel : Nat) (es : List (List Entry)) (trunc : Nat) (hf : groupLen es ≤ fuel) (hc : 4 * es.length ≤ cap) :
    let r := fitLoop cap fuel es (groupBits es) trunc
    List.Forall₂ (· <+: ·) r.1 es ∧ r.2 + groupLen r.1 = trunc + groupLen es ∧ groupBits r.1 ≤ cap := by
  have rfl2 : List.Forall₂ (· <+: ·) es es := List.forall₂_same.2 fun x _ => List.prefix_refl x
  induction fuel generalizing es trunc with
  | zero =>
    have h0 : groupLen es = 0 := by omega
    exact ⟨rfl2, rfl, by rw [fitLoop, groupBits_empty h0]; exact hc⟩
  | succ fuel ih =>
    unfold fitLoop
    split
    · next h => exact ⟨rfl2, rfl, h⟩
    · next h =>
      have hp : 0 < groupLen es := by
        rcases Nat.eq_zero_or_pos (groupLen es) with h0 | h0
        · rw [groupBits_empty h0] at h; omega
        · exact h0
      have hcut := sweep_cut cap es (groupBits es) trunc (Nat.le_refl _)
      have hpr := sweep_progress cap es (groupBits es) trunc hp
      generalize sweep cap es (groupBits es) trunc = r at *
      have hbits : r.2.1 = groupBits r.1 := by have := hcut.bits; omega
      have hlen : r.1.length = es.length := hcut.pre.length_eq
      have hl := hcut.len
      dsimp only
      rw [hbits]
      obtain ⟨a, b, c⟩ := ih r.1 r.2.2 (by omega) (by omega) (List.forall₂_same.2 fun x _ => List.prefix_refl x)
      refine ⟨?_, by omega, c⟩
      have ha := List.forall₂_iff_get.1 a
      have hb := List.forall₂_iff_get.1 hcut.pre
      exact List.forall₂_iff_get.2 ⟨ha.1.trans hb.1, fun i h1 h2 => (ha.2 i h1 (by omega)).trans (hb.2 i (by omega) h2)⟩

/-- The fit step on one group: last entries removed, counted, and the capacity met (46 R295). -/
theorem fitGroup_spec (cap : Nat) (es : List (List Entry)) (hc : 4 * es.length ≤ cap) :
    List.Forall₂ (· <+: ·) (fitGroup cap es).1 es ∧ (fitGroup cap es).2 + groupLen (fitGroup cap es).1 = groupLen es ∧ groupBits
      (fitGroup cap es).1 ≤ cap := by
  have := fitLoop_spec cap (groupLen es) es 0 (Nat.le_refl _) hc
  rw [Nat.zero_add] at this; exact this

/-! ### The rule of the fit step -/

/-- A list of blocks with the first `c` swept once. -/
def sweptFirst : Nat → List (List Entry) → List (List Entry)
  | 0, es => es
  | _ + 1, [] => []
  | c + 1, x :: es => x.dropLast :: sweptFirst c es

theorem sweptFirst_eq (c : Nat) (es : List (List Entry)) :
    sweptFirst c es = es.mapIdx fun j x => if j < c then x.dropLast else x := by
  induction es generalizing c with
  | nil => cases c <;> rfl
  | cons x es ih =>
    cases c with
    | zero => exact List.ext_getElem (by simp [sweptFirst]) fun i h1 h2 => by simp only [sweptFirst, List.getElem_mapIdx,
        Nat.not_lt_zero, if_false]
    | succ c => simp [sweptFirst, List.mapIdx_cons, ih]

theorem dropLast_take_sub (x : List Entry) (r : Nat) : (x.take (x.length - r)).dropLast = x.take (x.length - r - 1) := by
  rw [List.dropLast_eq_take, List.length_take, List.take_take]; congr 1; omega

theorem afterSweeps_zero (es : List (List Entry)) : afterSweeps es 0 0 = es := by
  unfold afterSweeps
  refine List.ext_getElem (by simp) fun i h1 h2 => ?_
  simp

theorem sweptFirst_afterSweeps (es : List (List Entry)) (r c : Nat) : sweptFirst c (afterSweeps es r 0) = afterSweeps es r c := by
  rw [sweptFirst_eq]
  unfold afterSweeps
  refine List.ext_getElem (by simp) fun i h1 h2 => ?_
  simp only [List.getElem_mapIdx, Nat.not_lt_zero, if_false, Nat.sub_zero]
  split
  · exact dropLast_take_sub _ r
  · rfl

theorem map_dropLast_afterSweeps (es : List (List Entry)) (r : Nat) :
    (afterSweeps es r 0).map List.dropLast = afterSweeps es (r + 1) 0 := by
  unfold afterSweeps
  refine List.ext_getElem (by simp) fun i h1 h2 => ?_
  simp only [List.getElem_map, List.getElem_mapIdx, Nat.not_lt_zero, if_false, Nat.sub_zero]
  rw [dropLast_take_sub, Nat.sub_sub]

theorem getD_afterSweeps (es : List (List Entry)) (r c : Nat) :
    ((afterSweeps es r 0).getD c []).length = (es.getD c []).length - r := by
  by_cases h : c < es.length
  · rw [List.getD_eq_getElem _ _ h, List.getD_eq_getElem _ _ (by simpa [afterSweeps] using h)]; simp [afterSweeps]
  · have hl : (afterSweeps es r 0).length = es.length := by simp [afterSweeps]
    rw [List.getD_eq_default _ _ (by omega), List.getD_eq_default _ _ (by omega)]; exact (Nat.zero_sub r).symm

theorem afterSweeps_length (es : List (List Entry)) (r c : Nat) : (afterSweeps es r c).length = es.length := by
  simp [afterSweeps]

/-- A sweep takes the last entry of every block and the group still does not fit, or it stops at a block `c` that had one, with the
group fitting just then. -/
theorem sweep_order (cap : Nat) (es : List (List Entry)) (total trunc : Nat) (ht : groupBits es ≤ total) (hc : cap < total) :
    let r := sweep cap es total trunc
    (r.1 = es.map List.dropLast ∧ cap < r.2.1) ∨
    (∃ c, es.getD c [] ≠ [] ∧ r.1 = sweptFirst (c + 1) es ∧ r.2.1 ≤ cap ∧
      cap + groupBits es < total + groupBits (sweptFirst c es)) := by
  induction es generalizing total trunc with
  | nil => exact .inl ⟨rfl, hc⟩
  | cons x es ih =>
    have hx4 : 4 ≤ blockBits x := Nat.le_add_right _ _
    simp only [groupBits, List.map_cons, List.sum_cons] at ht
    unfold sweep
    split
    · next hn =>
      rw [List.getLast?_eq_none_iff] at hn
      subst hn
      rcases ih total trunc (by unfold groupBits; omega) hc with ⟨h1, h2⟩ | ⟨c, h1, h2, h3, h4⟩
      · exact .inl ⟨by simp [h1], h2⟩
      · refine .inr ⟨c + 1, by simpa using h1, by simp [sweptFirst, h2], h3, ?_⟩
        simp only [sweptFirst, groupBits, List.map_cons, List.sum_cons, List.dropLast_nil] at h4 ⊢; omega
    · next e he =>
      have hb := blockBits_dropLast he
      dsimp only
      split
      · next hle =>
        refine .inr ⟨0, ?_, rfl, hle, by simp only [sweptFirst]; omega⟩
        rintro h
        have : x = [] := h
        subst this; simp at he
      · next hle =>
        rcases ih (total - e.bits) (trunc + 1) (by unfold groupBits; omega) (by omega) with ⟨h1, h2⟩ | ⟨c, h1, h2, h3, h4⟩
        · exact .inl ⟨by simp [h1], h2⟩
        · refine .inr ⟨c + 1, by simpa using h1, by simp [sweptFirst, h2], h3, ?_⟩
          simp only [sweptFirst, groupBits, List.map_cons, List.sum_cons] at h4 ⊢; omega

/-- What the loop of the fit step leaves of a group that does not fit, from the start of a sweep (46 R295). -/
theorem fitLoop_order (cap fuel : Nat) (es : List (List Entry)) (r trunc : Nat) (hf : groupLen (afterSweeps es r 0) ≤ fuel)
    (h4 : 4 * es.length ≤ cap) (hc : cap < groupBits (afterSweeps es r 0)) :
    ∃ r' c, r' < (es.getD c []).length ∧
      (fitLoop cap fuel (afterSweeps es r 0) (groupBits (afterSweeps es r 0)) trunc).1 = afterSweeps es r' (c + 1) ∧
      cap < groupBits (afterSweeps es r' c) := by
  induction fuel generalizing r trunc with
  | zero =>
    have := groupBits_empty (es := afterSweeps es r 0) (by omega)
    rw [afterSweeps_length] at this; omega
  | succ fuel ih =>
    unfold fitLoop
    rw [if_neg (by omega)]
    have hp : 0 < groupLen (afterSweeps es r 0) := by
      rcases Nat.eq_zero_or_pos (groupLen (afterSweeps es r 0)) with h0 | h0
      · have := groupBits_empty h0
        rw [afterSweeps_length] at this; omega
      · exact h0
    have hcut := sweep_cut cap _ (groupBits (afterSweeps es r 0)) trunc (Nat.le_refl _)
    have hpr := sweep_progress cap _ (groupBits (afterSweeps es r 0)) trunc hp
    have hor := sweep_order cap _ (groupBits (afterSweeps es r 0)) trunc (Nat.le_refl _) hc
    generalize sweep cap (afterSweeps es r 0) (groupBits (afterSweeps es r 0)) trunc = q at *
    have hbits : q.2.1 = groupBits q.1 := by have := hcut.bits; omega
    have hlen := hcut.len
    dsimp only at hor ⊢
    rw [hbits] at hor ⊢
    rcases hor with ⟨h1, h2⟩ | ⟨c, h1, h2, h3, h4'⟩
    · rw [map_dropLast_afterSweeps] at h1
      rw [h1] at h2 hlen ⊢
      exact ih (r + 1) q.2.2 (by omega) h2
    · refine ⟨r, c, ?_, ?_, ?_⟩
      · have := getD_afterSweeps es r c
        have := List.length_pos_iff.2 h1
        omega
      · rw [sweptFirst_afterSweeps] at h2
        cases fuel with
        | zero => exact h2
        | succ fuel => unfold fitLoop; rw [if_pos h3]; exact h2
      · rw [sweptFirst_afterSweeps] at h4'; omega

/-- The fit step on one group is the rule's (46 R295). -/
theorem fitGroup_rule (cap : Nat) (es : List (List Entry)) (h4 : 4 * es.length ≤ cap) : FitRule cap es (fitGroup cap es).1 := by
  by_cases hc : groupBits es ≤ cap
  · refine .inl ⟨hc, ?_⟩
    unfold fitGroup
    cases hn : (es.map List.length).sum with
    | zero => rfl
    | succ n => exact congrArg Prod.fst (if_pos hc)
  · have h := fitLoop_order cap (groupLen es) es 0 0 (by rw [afterSweeps_zero]) h4 (by rw [afterSweeps_zero]; omega)
    rw [afterSweeps_zero] at h
    obtain ⟨r, c, h1, h2, h3⟩ := h
    exact .inr ⟨by unfold groupBits at hc; omega, (fitGroup_spec cap es h4).2.2, r, c, h1, h2, h3⟩

/-! ### All groups -/

theorem groupLen_append (a b : List (List Entry)) : groupLen (a ++ b) = groupLen a + groupLen b := by simp [groupLen]

theorem fit_groups (gs : List (Nat × List (List Entry))) (hg : ∀ g ∈ gs, 4 * g.2.length ≤ g.1) :
    List.Forall₂ (· <+: ·) ((gs.map fun g => fitGroup g.1 g.2).flatMap Prod.fst) (gs.flatMap Prod.snd) ∧
    ((gs.map fun g => fitGroup g.1 g.2).map Prod.snd).sum + groupLen ((gs.map fun g => fitGroup g.1 g.2).flatMap Prod.fst) =
      groupLen (gs.flatMap Prod.snd) := by
  induction gs with
  | nil => exact ⟨.nil, rfl⟩
  | cons g gs ih =>
    obtain ⟨i1, i2⟩ := ih fun g' h => hg g' (List.mem_cons_of_mem _ h)
    obtain ⟨a, b, _⟩ := fitGroup_spec g.1 g.2 (hg g List.mem_cons_self)
    simp only [List.map_cons, List.flatMap_cons, List.sum_cons]
    exact ⟨List.rel_append a i1, by rw [groupLen_append, groupLen_append]; omega⟩

theorem getD_flatMap_single {α : Type} (f : Nat → List α) (d : α) (n : Nat) (hf : ∀ b, (f b).length = 1) {b : Nat} (hb : b < n) :
    ((List.range n).flatMap f).getD b d = (f b).getD 0 d := by
  have : (List.range n).flatMap f = (List.range n).map fun b => (f b).getD 0 d := by
    rw [← List.flatMap_singleton' ((List.range n).map _), List.flatMap_map]
    refine List.flatMap_congr fun b _ => ?_
    obtain ⟨x, hx⟩ := List.length_eq_one_iff.1 (hf b)
    rw [hx]; rfl
  rw [this]; simp [hb]

theorem drop_take_flatMap {α : Type} (f : Nat → List α) (k n : Nat) (hf : ∀ b, b < n → (f b).length = k) {m : Nat} (hm : m < n) :
    (((List.range n).flatMap f).drop (k * m)).take k = f m := by
  have hl : ∀ j, j ≤ n → ((List.range j).flatMap f).length = k * j := by
    intro j
    induction j with
    | zero => intro _; rfl
    | succ j ih => intro h; rw [List.range_succ, List.flatMap_append, List.length_append, ih (by omega)]; simp [hf j (by omega),
      Nat.mul_succ]
  have h1 : List.range n = List.range m ++ (m :: (List.range' (m + 1) (n - m - 1))) := by
    rw [List.range_eq_range', List.range_eq_range', show n = m + ((n - m - 1) + 1) by omega, ← List.range'_append_1 (s := 0),
      Nat.zero_add, List.range'_succ, show m + (n - m - 1 + 1) - m - 1 = n - m - 1 by omega]
  rw [h1, List.flatMap_append, List.flatMap_cons, ← hl m (by omega), List.drop_left, ← hf m hm, List.take_left]

theorem flatMap_ofMb {es : List (List Entry)} (hl : es.length = 30) : (List.range 5).flatMap (fun m => ofMb m es) = es := by
  apply List.ext_getElem?
  intro i
  by_cases hi : i < 30
  · have hd := drop_take_flatMap (fun m => ofMb m es) 6 5 (fun b hb => by simp [ofMb, hl]; omega) (m := i / 6) (by omega)
    have h2 : (((List.range 5).flatMap fun m => ofMb m es).drop (6 * (i / 6))).take 6 = (es.drop (6 * (i / 6))).take 6 := hd
    have := congrArg (fun l => l[i % 6]?) h2
    simp only [List.getElem?_take, List.getElem?_drop, show i % 6 < 6 by omega, if_true, show 6 * (i / 6) + i % 6 =
      i by omega] at this
    exact this
  · rw [List.getElem?_eq_none (l := es) (by omega), List.getElem?_eq_none]
    simp only [List.range, List.range.loop, List.flatMap_cons, List.flatMap_nil, List.length_append, ofMb, List.length_take,
      List.length_drop, hl, List.length_nil]; omega

theorem flatMap_single {es : List (List Entry)} (hl : es.length = 30) : (List.range 30).flatMap (fun b => [es.getD b []]) = es := by
  apply List.ext_getElem
  · simp [hl]
  · intro i h1 h2
    have := getD_flatMap_single (fun b => [es.getD b []]) [] 30 (fun _ => rfl) (b := i) (by omega)
    rw [List.getD_eq_getElem _ _ h1] at this
    rw [this]
    simp [List.getD_eq_getElem _ _ h2, List.getElem?_eq_getElem h2]

/-- The groups of the fit step are the 30 blocks in order, each group with room for its EOBs (46 R294). -/
theorem fitGroups_sound (passes : BitVec 2) {es : List (List Entry)} (hl : es.length = 30) :
    (∀ g ∈ fitGroups passes es, 4 * g.2.length ≤ g.1) ∧ (fitGroups passes es).flatMap Prod.snd = es := by
  unfold fitGroups
  split
  · refine ⟨fun g hg => ?_, ?_⟩
    · obtain ⟨b, hb, rfl⟩ := List.mem_map.1 hg
      simp [areaBits]; split <;> omega
    · rw [List.flatMap_map]; exact flatMap_single hl
  · split
    · refine ⟨fun g hg => ?_, ?_⟩
      · obtain ⟨b, hb, rfl⟩ := List.mem_map.1 hg
        simp [ofMb]; omega
      · rw [List.flatMap_map]; exact flatMap_ofMb hl
    · refine ⟨fun g hg => ?_, by simp⟩
      obtain rfl := List.mem_singleton.1 hg
      simp [hl]

/-- The fit step only removes last entries, and counts them (46 R295). -/
theorem fitStep_cut (passes : BitVec 2) {es : List (List Entry)} (hl : es.length = 30) :
    List.Forall₂ (· <+: ·) (fitStep passes es).1 es ∧ (fitStep passes es).2 + groupLen (fitStep passes es).1 = groupLen es := by
  have hg := fitGroups_sound passes hl
  have h := fit_groups (fitGroups passes es) hg.1
  rw [hg.2] at h; exact h

theorem groupBits_le (es : List (List Entry)) : groupBits es ≤ 4 * es.length + 42 * groupLen es := by
  induction es with
  | nil => exact Nat.le_refl _
  | cons x es ih =>
    have := sum_bits_le x
    simp only [groupBits, groupLen, List.map_cons, List.sum_cons, List.length_cons] at ih ⊢
    have hb : blockBits x = 4 + (x.map Entry.bits).sum := rfl
    omega

end Sys2Proof.Machine
end

