-- ==== Sys2Proof/Laws/Placement.lean ====
section
/-! SUPPORT. The placement of the codes: the bits it leaves alone, the headers, and what VLC_ENC_SEG writes. -/

namespace Sys2Proof.Machine

open Sys2Proof

/-- SegBit(p) of an image. -/
def imgBit (g : Image) (p : Nat) : Bool := g.getLsbD (3199 - p)

theorem imgBit_put (g : Image) {p q : Nat} (x : Bool) (hp : p < 3200) (hq : q < 3200) : imgBit (imgPut g p x) q = if q =
    p then x else imgBit g q := by
  unfold imgBit imgPut
  have hm : (1#3200 <<< (3199 - p)).getLsbD (3199 - q) = decide (q = p) := by
    rw [BitVec.getLsbD_shiftLeft]
    by_cases h : q = p
    · subst h; simp; omega
    · simp only [h, decide_false]
      by_cases h2 : 3199 - q < 3199 - p
      · simp [h2]
      · have : 3199 - q - (3199 - p) ≠ 0 := by omega
        rw [BitVec.getLsbD_one]; simp [this]
  cases x
  · rw [if_neg (by simp), BitVec.getLsbD_and, BitVec.getLsbD_not, hm]
    by_cases h : q = p
    · simp [h]
    · simp [h, show 3199 - q < 3200 by omega]
  · rw [if_pos rfl, BitVec.getLsbD_or, hm]
    by_cases h : q = p
    · simp [h]
    · simp [h]

theorem imgBit_write_ne (g : Image) (ps : List Nat) (s : Bits) {q : Nat} (hps : ∀ p ∈ ps, p < 3200) (hq : q < 3200) (h : q ∉ ps) :
    imgBit (imgWrite g ps s) q = imgBit g q := by
  unfold imgWrite
  induction ps generalizing g s with
  | nil => simp
  | cons p ps ih =>
    cases s with
    | nil => simp
    | cons x s =>
      simp only [List.zip_cons_cons, List.foldl_cons]
      rw [ih _ _ (fun p hp => hps p (List.mem_cons_of_mem _ hp)) (fun hh => h (List.mem_cons_of_mem _ hh)), imgBit_put _ _
        (hps p List.mem_cons_self) hq, if_neg (fun e : q = p => h (by rw [e]; exact List.mem_cons_self))]

theorem imgBit_write_range (g : Image) (a : Nat) (s : Bits) {i : Nat} (ha : a + s.length ≤ 3200) (hi : i < s.length) : imgBit
    (imgWrite g (List.range' a s.length) s) (a + i) = s.getD i false := by
  induction s generalizing g a i with
  | nil => simp at hi
  | cons x s ih =>
    simp only [List.length_cons] at ha hi
    have hstep : imgWrite g (List.range' a (x :: s).length) (x :: s) = imgWrite (imgPut g a x) (List.range' (a + 1) s.length) s :=
      rfl
    rw [hstep]
    cases i with
    | zero =>
      rw [imgBit_write_ne _ _ _ (fun p hp => by rw [List.mem_range'_1] at hp; omega) (by omega) (by rw [List.mem_range'_1]; omega),
        imgBit_put _ _ (by omega) (by omega), if_pos (by omega)]
      rfl
    | succ i =>
      rw [show a + (i + 1) = a + 1 + i by omega, ih _ _ (by omega) (by omega)]; rfl

theorem imgBit_fold (f : Nat → Nat) (k : Nat) (s : Nat → Bits) (hs : ∀ b, (s b).length = k) (n : Nat) (hf : ∀ b, b < n →
    f b + k ≤ 3200) (hd : ∀ b c, b < n → c < n → b ≠ c → f b + k ≤ f c ∨ f c + k ≤ f b)
    (g : Image) : (∀ q, q < 3200 → (∀ b, b < n → q < f b ∨ f b + k ≤ q) → imgBit ((List.range n).foldl (fun g b => imgWrite g
      (List.range' (f b) k) (s b)) g) q = imgBit g q) ∧
    ∀ b i, b < n → i < k → imgBit ((List.range n).foldl (fun g b => imgWrite g (List.range' (f b) k) (s b)) g) (f b + i) =
      (s b).getD i false := by
  induction n with
  | zero => exact ⟨fun _ _ _ => rfl, fun b _ h => by omega⟩
  | succ n ih =>
    obtain ⟨i1, i2⟩ := ih (fun b hb => hf b (by omega)) (fun b c hb hc => hd b c (by omega) (by omega))
    rw [List.range_succ, List.foldl_append, List.foldl_cons, List.foldl_nil]
    have hn := hf n (by omega)
    have hin : ∀ p ∈ List.range' (f n) k, p < 3200 := fun p hp => by rw [List.mem_range'_1] at hp; omega
    refine ⟨fun q hq h => ?_, fun b i hb hi => ?_⟩
    · rw [imgBit_write_ne _ _ _ hin hq (by rw [List.mem_range'_1]; have := h n (by omega); omega)]
      exact i1 q hq fun b hb => h b (by omega)
    · by_cases e : b = n
      · subst e
        have h := imgBit_write_range ((List.range b).foldl (fun g b => imgWrite g (List.range' (f b) k) (s b)) g) (f b) (s b) (i :=
          i) (by rw [hs]; omega) (by rw [hs]; omega)
        rw [hs] at h; exact h
      · have hb' := hf b (by omega)
        rw [imgBit_write_ne _ _ _ hin (by omega) (by rw [List.mem_range'_1]; have := hd b n (by omega) (by omega) e; omega)]
        exact i2 b i (by omega) hi

theorem ownArea_mem {b q : Nat} (h : q ∈ ownArea b) : startBit b + 12 ≤ q ∧ q < endBit b := by
  unfold ownArea at h; rw [List.mem_range'_1] at h; have := startBit_le b; omega

/-- Bits that no area holds stay as they are through the placement. -/
def Fixed (q : Nat) : Prop := q < 3200 ∧ ∀ b, b < 30 → q ∉ ownArea b

/-- Every position listed lies in some area. -/
def InAreas (ps : List Nat) : Prop := ∀ p ∈ ps, ∃ b, b < 30 ∧ p ∈ ownArea b

theorem imgBit_areas {g : Image} {ps : List Nat} {s : Bits} {q : Nat} (h : InAreas ps) (hq : Fixed q) : imgBit
    (imgWrite g ps s) q = imgBit g q := by
  refine imgBit_write_ne _ _ _ (fun p hp => ?_) hq.1 fun hm => ?_
  · obtain ⟨b, hb, hh⟩ := h p hp
    have := ownArea_mem hh; have := endBit_le hb; omega
  · obtain ⟨b, hb, hh⟩ := h q hm; exact hq.2 b hb hh

theorem lendPlaces_fixed (rs : List Bits) (ps : List Nat) (g : Image) (h : InAreas ps) : InAreas (lendPlaces rs ps g).2.1 ∧ ∀ q,
    Fixed q → imgBit (lendPlaces rs ps g).2.2 q = imgBit g q := by
  induction rs generalizing ps g with
  | nil => exact ⟨h, fun _ _ => rfl⟩
  | cons r rs ih =>
    obtain ⟨i1, i2⟩ := ih (ps.drop (min r.length ps.length)) (imgWrite g (ps.take (min r.length ps.length)) (r.take
      (min r.length ps.length))) fun p hp => h p (List.mem_of_mem_drop hp)
    exact ⟨i1, fun q hq => by
      unfold lendPlaces
      dsimp only
      rw [i2 q hq, imgBit_areas (fun p hp => h p (List.mem_of_mem_take hp)) hq]⟩

theorem donors_areas (codes : List Bits) {b : Nat} (hb : b < 30) : InAreas (donorsOf codes b) := by
  unfold donorsOf
  split
  · exact fun p hp => ⟨b, hb, List.mem_of_mem_drop hp⟩
  · intro p hp; simp at hp

theorem placeMbs_fixed (codes : List Bits) (ms : List Nat) (hms : ∀ m ∈ ms, m < 5) (g : Image) : InAreas
    (placeMbs codes ms g).2.1 ∧ ∀ q, Fixed q → imgBit (placeMbs codes ms g).2.2 q = imgBit g q := by
  induction ms generalizing g with
  | nil => exact ⟨by intro p hp; simp [placeMbs] at hp, fun _ _ => rfl⟩
  | cons m ms ih =>
    have hm := hms m List.mem_cons_self
    have hin : InAreas ((((List.range 6).map fun t => 6 * m + t)).flatMap (donorsOf codes)) := by
      intro p hp
      obtain ⟨b, hb, hp⟩ := List.mem_flatMap.1 hp
      obtain ⟨t, ht, rfl⟩ := List.mem_map.1 hb
      rw [List.mem_range] at ht
      exact donors_areas codes (by omega) p hp
    obtain ⟨l1, l2⟩ := lendPlaces_fixed ((((List.range 6).map fun t => 6 * m + t)).map (restOf codes)) _ g hin
    obtain ⟨i1, i2⟩ := ih (fun m' h => hms m' (List.mem_cons_of_mem _ h)) (lendPlaces
      ((((List.range 6).map fun t => 6 * m + t)).map (restOf codes)) ((((List.range 6).map fun t => 6 * m + t)).flatMap
      (donorsOf codes)) g).2.2
    unfold placeMbs
    dsimp only
    refine ⟨fun p hp => ?_, fun q hq => by rw [i2 q hq, l2 q hq]⟩
    rcases List.mem_append.1 hp with hp | hp
    · exact l1 p hp
    · exact i1 p hp

theorem placeOwn_fixed (codes : List Bits) (g : Image) {q : Nat} (hq : Fixed q) : imgBit (placeOwn codes g) q = imgBit g q := by
  unfold placeOwn
  suffices h : ∀ l : List Nat, (∀ b ∈ l, b < 30) → ∀ g, imgBit (l.foldl (fun g b => imgWrite g (ownArea b) (codes.getD b
    [])) g) q = imgBit g q from h _ (fun b hb => List.mem_range.1 hb) g
  intro l
  induction l with
  | nil => intro _ _; rfl
  | cons b l ih =>
    intro hl g
    rw [List.foldl_cons, ih (fun b hb => hl b (List.mem_cons_of_mem _ hb)), imgBit_areas (fun p hp => ⟨b, hl b List.mem_cons_self,
      hp⟩) hq]

theorem placeCodes_fixed (codes : List Bits) (g : Image) {q : Nat} (hq : Fixed q) : imgBit (placeCodes codes g) q = imgBit g q := by
  unfold placeCodes
  dsimp only
  obtain ⟨p1, p2⟩ := placeMbs_fixed codes (List.range 5) (fun m hm => List.mem_range.1 hm) (placeOwn codes g)
  rw [(lendPlaces_fixed _ _ _ p1).2 q hq, p2 q hq, placeOwn_fixed codes g hq]

/-! ### The stored image -/

theorem byte_storeImage (g : Image) (mem : Memory) (n : Nat) (x : Nat) :
    Memory.byte ((List.range n).foldl (fun m i => m.store (segBase + (80 * i + 3)) ((List.range 77).map fun a => imgByte g
      (80 * i + 3 + a))) mem) x =
      if segBase ≤ x ∧ x < segBase + 80 * n ∧ 3 ≤ (x - segBase) % 80 then imgByte g (x - segBase) else mem.byte x := by
  induction n with
  | zero => rw [if_neg (by omega)]; rfl
  | succ n ih =>
    rw [List.range_succ (n := n), List.foldl_append, List.foldl_cons, List.foldl_nil]
    by_cases h : segBase + (80 * n + 3) ≤ x ∧ x < segBase + (80 * n + 3) + 77
    · rw [Memory.byte_store_inside h.1 (by simpa using h.2), if_pos (by omega)]
      have : x - (segBase + (80 * n + 3)) < 77 := by omega
      simp only [List.getD_eq_getElem?_getD, List.getElem?_map, List.getElem?_range this, Option.map_some, Option.getD_some]
      rw [show 80 * n + 3 + (x - (segBase + (80 * n + 3))) = x - segBase by omega]
    · rw [Memory.byte_store_outside (by simp; omega), ih]
      by_cases h2 : segBase ≤ x ∧ x < segBase + 80 * n ∧ 3 ≤ (x - segBase) % 80
      · rw [if_pos h2, if_pos (by omega)]
      · rw [if_neg h2, if_neg (by omega)]

theorem segByte_storeImage (g : Image) (mem : Memory) {a : Nat} (h : a < 400) (h3 : 3 ≤ a % 80) : segByte (storeImage g mem) a =
    imgByte g a := by
  unfold segByte storeImage
  rw [byte_storeImage, if_pos (by omega), Nat.add_sub_cancel_left]

theorem getLsbD_imgByte (g : Image) {a i : Nat} (ha : a < 400) (hi : i < 8) : (imgByte g a).getLsbD (7 - i) = imgBit g
    (8 * a + i) := by
  unfold imgByte imgBit
  rw [BitVec.getLsbD_setWidth, BitVec.getLsbD_ushiftRight]
  simp only [show 7 - i < 8 by omega, decide_true, Bool.true_and]
  congr 1; omega

theorem segBit_storeImage (g : Image) (mem : Memory) {p : Nat} (h : p < 3200) (h3 : 3 ≤ p / 8 % 80) : segBit (storeImage g mem) p =
    imgBit g p := by
  unfold segBit
  rw [segByte_storeImage _ _ (by omega) h3, getLsbD_imgByte _ (by omega) (by omega)]
  congr 1; omega

theorem getD_bitsOfNat (n v : Nat) {i : Nat} (h : i < n) : (bitsOfNat n v).getD i false = v.testBit (n - 1 - i) := by
  unfold bitsOfNat; simp [h]

theorem start_facts {b : Nat} (hb : b < 30) : 640 * (b / 6) + 32 ≤ startBit b ∧ startBit b + 12 ≤ 640 * (b / 6) + 572 := by
  have h : ∀ t, t < 6 → 32 ≤ BLKSTART.getD t 0 ∧ BLKSTART.getD t 0 ≤ 560 := by decide
  have := h (b % 6) (by omega); unfold startBit; omega

theorem area_facts {b c : Nat} (hb : b < 30) (hc : c < 30) : (b ≠ c → startBit b + 12 ≤ startBit c ∨
    startBit c + 12 ≤ startBit b) ∧ (startBit b + 12 ≤ startBit c + 12 ∨ endBit c ≤ startBit b) := by
  have h : ∀ t, t < 6 → ∀ u, u < 6 → 32 ≤ BLKSTART.getD t 0 ∧ BLKEND.getD t 0 ≤ 640 ∧ BLKSTART.getD t 0 + 12 ≤ BLKEND.getD t 0 ∧
    (t ≠ u → BLKSTART.getD t 0 + 12 ≤ BLKSTART.getD u 0 ∨ BLKSTART.getD u 0 + 12 ≤ BLKSTART.getD t 0) ∧
    (BLKSTART.getD t 0 ≤ BLKSTART.getD u 0 ∨ BLKEND.getD u 0 ≤ BLKSTART.getD t 0) := by decide
  have h1 := h (b % 6) (by omega) (c % 6) (by omega)
  have h2 := h (c % 6) (by omega) (b % 6) (by omega)
  unfold startBit endBit
  by_cases e : b / 6 = c / 6
  · have : b ≠ c → b % 6 ≠ c % 6 := by omega
    rw [e]; omega
  · omega

theorem headerBits_length (dc : Int) (x : BlkMeta) : (headerBits dc x).length = 12 := by simp [headerBits, bitsOfNat]

theorem header_fixed {b i : Nat} (hb : b < 30) (hi : i < 12) : Fixed (startBit b + i) := by
  have := start_facts hb
  refine ⟨by omega, fun c hc hm => ?_⟩
  have := ownArea_mem hm
  have := (area_facts hb hc).2
  have := startBit_le c
  omega

theorem byte3_fixed {m i : Nat} (hm : m < 5) (hi : i < 8) : Fixed (640 * m + 24 + i) := by
  refine ⟨by omega, fun c hc hh => ?_⟩
  have := ownArea_mem hh
  have := start_facts hc
  have := startBit_le c
  have : endBit c ≤ 640 * (c / 6) + 640 := by
    have h : ∀ t, t < 6 → BLKEND.getD t 0 ≤ 640 := by decide
    have := h (c % 6) (by omega); unfold endBit; omega
  omega

theorem headerImage_bits (s : State) : (∀ b i, b < 30 → i < 12 → imgBit (headerImage s) (startBit b + i) = (headerBits
    (coef s.mem b 0) (s.blkAt b)).getD i false) ∧
    ∀ m i, m < 5 → i < 8 → imgBit (headerImage s) (640 * m + 24 + i) = (byte3 (s.mbAt m)).getLsbD (7 - i) := by
  unfold headerImage
  dsimp only
  have h1 := imgBit_fold (fun m => 640 * m + 24) 8 (fun m => bitsOfNat 8 (byte3 (s.mbAt m)).toNat) (fun m => by simp
    [bitsOfNat]) 5 (fun b hb => by omega) (fun b c hb hc h => by omega) (0 : Image)
  have h2 := imgBit_fold startBit 12 (fun b => headerBits (coef s.mem b 0) (s.blkAt b)) (fun b => headerBits_length _ _) 30
    (fun b hb => by have := start_facts hb; omega) (fun b c hb hc h => (area_facts hb hc).1 h) ((List.range 5).foldl
    (fun g m => imgWrite g (List.range' (640 * m + 24) 8) (bitsOfNat 8 (byte3 (s.mbAt m)).toNat)) (0 : Image))
  refine ⟨fun b i hb hi => h2.2 b i hb hi, fun m i hm hi => ?_⟩
  rw [h2.1 _ (by omega) (fun b hb => by have := start_facts hb; omega), h1.2 m i hm hi, getD_bitsOfNat _ _ hi]
  rfl

theorem segByte_of_bits {m : Memory} {a : Nat} {v : Byte} (h : ∀ i, i < 8 → segBit m (8 * a + i) = v.getLsbD (7 - i)) :
    segByte m a = v := by
  refine BitVec.eq_of_getLsbD_eq fun i hi => ?_
  have := h (7 - i) (by omega)
  unfold segBit at this
  rw [show (8 * a + (7 - i)) / 8 = a by omega, show 7 - (8 * a + (7 - i)) % 8 = i by omega, show 7 - (7 - i) = i by omega] at this
  exact this

theorem segPeek_of_bits {m : Memory} {p n v : Nat} (hv : v < 2 ^ n) (h : ∀ i, i < n → segBit m (p + i) = v.testBit (n - 1 - i)) :
    segPeek m p n = v := by
  have hs : segBits m p (p + n) = bitsOfNat n v := by
    apply List.ext_getElem
    · simp [segBits, bitsOfNat]
    · intro i h1 h2
      have hi : i < n := by simpa [bitsOfNat] using h2
      simp [segBits, bitsOfNat, h i hi]
  unfold segPeek
  rw [hs, natOfBits_bitsOfNat hv]

theorem encodeSegment_eq (s : State) : encodeSegment s =
  ((((s.setMem (storeImage (placeCodes ((fitStep s.csr.ctrl.passes s.entries).1.map blockCode)
    (headerImage s)) s.mem)).setOvfCount (addSaturating s.csr.ovfCount (fitStep s.csr.ctrl.passes s.entries).2)).markTrunc (decide
    (0 < (fitStep s.csr.ctrl.passes s.entries).2))).setRes0 (word32 (fitStep s.csr.ctrl.passes s.entries).2)).setRes1
    (word32 (((fitStep s.csr.ctrl.passes s.entries).1.map blockCode).map List.length).sum) := by
  unfold encodeSegment; rfl

theorem header_getD (dc : Int) (x : BlkMeta) : (∀ i, i < 9 → (headerBits dc x).getD i false = (BitVec.ofInt 9 (sat
    (-256) 255 dc)).toNat.testBit (8 - i)) ∧ (headerBits dc x).getD 9 false = x.dctMode ∧
    ∀ i, i < 2 → (headerBits dc x).getD (10 + i) false = x.cls.toNat.testBit (1 - i) := by
  unfold headerBits
  refine ⟨fun i hi => ?_, ?_, fun i hi => ?_⟩
  · rw [List.getD_append _ _ _ _ (by rw [bitsOfNat_length]; omega), getD_bitsOfNat _ _ hi]
  · rw [List.getD_append_right _ _ _ _ (by rw [bitsOfNat_length]), bitsOfNat_length]; rfl
  · rw [List.getD_append_right _ _ _ _ (by rw [bitsOfNat_length]; omega), bitsOfNat_length, show 10 + i - 9 = i + 1 by omega,
      List.getD_cons_succ, getD_bitsOfNat _ _ hi]

theorem entries_eq (s : State) : ((List.range 30).map fun b => blockEntries ((List.range 64).map (coef s.mem b))
    (s.blkAt b).dctMode) = s.entries := by
  unfold State.entries
  refine List.map_congr_left fun b _ => ?_
  rw [coefBlock_eq_map]; rfl

theorem allAmpOk_iff (s : State) : s.allAmpOk = true ↔ ∀ b n, b < 30 → 1 ≤ n → n ≤ 63 → (coef s.mem b n).natAbs ≤ 255 := by
  unfold State.allAmpOk
  rw [List.all_eq_true]
  constructor
  · intro h b n hb h1 h2; exact (ampOk_iff s.mem b).1 (h b (List.mem_range.2 hb)) n h1 h2
  · intro h b hb; exact (ampOk_iff s.mem b).2 fun n h1 h2 => h b n (List.mem_range.1 hb) h1 h2

/-- Everything VLC_ENC_SEG writes outside the AC areas, and the bytes it leaves (46 R299, R300). -/
structure EncodeSegmentWrites (s u : State) (f : List (List Entry) × Nat) : Prop where
  csr : u.csr = { s.csr with
    res0 := word32 f.2
    res1 := word32 (f.1.map blockBits).sum
    ovfCount := addSaturating s.csr.ovfCount f.2
    status := { s.csr.status with trunc := s.csr.status.trunc || decide (0 < f.2) } }
  blk : u.blk = s.blk
  mb : u.mb = s.mb
  bytes : ∀ a, a < 0x0400 ∨ 0x0400 + 400 ≤ a ∨ (a - 0x0400) % 80 < 3 → u.mem.byte a = s.mem.byte a
  byte3 : ∀ m, m < 5 → segByte u.mem (80 * m + 3) = byte3 (s.mbAt m)
  header : ∀ b i, b < 30 → i < 12 → segBit u.mem (startBit b + i) = (headerBits (coef s.mem b 0) (s.blkAt b)).getD i false

theorem encodeSegment_writes (s : State) : EncodeSegmentWrites s (encodeSegment s) (fitStep s.csr.ctrl.passes s.entries) := by
  rw [encodeSegment_eq]
  have hlen : ∀ l : List (List Entry), ((l.map blockCode).map List.length).sum = (l.map blockBits).sum := fun l => by
    rw [List.map_map]; congr 1; exact List.map_congr_left fun es _ => blockCode_length es
  have hpl := fun q hq => placeCodes_fixed ((fitStep s.csr.ctrl.passes s.entries).1.map blockCode) (headerImage s) (q := q) hq
  obtain ⟨hb1, hb2⟩ := headerImage_bits s
  generalize placeCodes ((fitStep s.csr.ctrl.passes s.entries).1.map blockCode) (headerImage s) = g at *
  generalize fitStep s.csr.ctrl.passes s.entries = f at *
  constructor
  · unfold State.markTrunc State.setStatus State.setRes1 State.setRes0 State.setOvfCount State.setMem
    rw [hlen]
  · rfl
  · rfl
  · intro a ha
    rw [State.setRes1_mem, State.setRes0_mem, State.markTrunc_mem, State.setOvfCount_mem, State.setMem_mem]
    unfold storeImage
    rw [byte_storeImage, if_neg (by unfold segBase; omega)]
  · intro m hm
    rw [State.setRes1_mem, State.setRes0_mem, State.markTrunc_mem, State.setOvfCount_mem, State.setMem_mem]
    refine segByte_of_bits fun i hi => ?_
    rw [segBit_storeImage _ _ (by omega) (by omega), show 8 * (80 * m + 3) + i = 640 * m + 24 + i by omega, hpl _
      (byte3_fixed hm hi), hb2 m i hm hi]
  · intro b i hb hi
    rw [State.setRes1_mem, State.setRes0_mem, State.markTrunc_mem, State.setOvfCount_mem, State.setMem_mem]
    have := start_facts hb
    rw [segBit_storeImage _ _ (by omega) (by omega), hpl _ (header_fixed hb hi), hb1 b i hb hi]

theorem entries_groupLen (s : State) : groupLen s.entries ≤ 1890 := by
  unfold State.entries groupLen
  rw [List.map_map]
  have : ∀ n, ((List.range n).map (List.length ∘ fun b => blockEntries (s.coefs b) (s.blkAt b).dctMode)).sum ≤ 63 * n := by
    intro n
    induction n with
    | zero => exact Nat.le_refl _
    | succ n ih =>
      rw [List.range_succ, List.map_append, List.sum_append]
      have := blockEntries_length_le (s.coefs n) (s.blkAt n).dctMode
      simp only [List.map_cons, List.map_nil, List.sum_cons, List.sum_nil, Function.comp_apply]; omega
  exact this 30

end Sys2Proof.Machine
end

