-- ==== Sys2Proof/Laws/Quant.lean ====
section
/-! SUPPORT. Weighting, classification and the qno search: what the rounding keeps, what a search answers, and what QSEARCH writes. -/

namespace Sys2Proof.Machine

open Sys2Proof

/-! ### Weights -/

theorem roundShift_bounds (a : Int) : 65536 * roundShift a 16 ≤ a + 32768 ∧ a - 32768 ≤ 65536 * roundShift a 16 := by
  by_cases h : 0 ≤ a
  · rw [roundShift_of_nonneg (by omega) h]; simp only [Nat.add_one_sub_one, Nat.reducePow, Int.reducePow]; omega
  · rw [roundShift_of_neg (by omega) (by omega)]; simp only [Nat.add_one_sub_one, Nat.reducePow, Int.reducePow]; omega


/-- The weights of a position: their ranges and their product (44 R212). -/
theorem weight_product (mode : Bool) {n : Nat} (hn : n < 64) : 16384 ≤ at0 (wfq mode) n ∧ at0 (wfq mode) n ≤ 32768 ∧ 131072 ≤ at0
    (wiq mode) n ∧ at0 (wiq mode) n ≤ 262144 ∧
    -16384 ≤ at0 (wfq mode) n * at0 (wiq mode) n - 4294967296 ∧ at0 (wfq mode) n * at0 (wiq mode) n - 4294967296 ≤ 16384 := by
  revert n; cases mode <;> decide +kernel

theorem mul_bound {c d : Int} (h1 : -32768 ≤ c) (h2 : c ≤ 32767) (h3 : -16384 ≤ d) (h4 : d ≤ 16384) : -536870912 ≤ c * d ∧
    c * d ≤ 536870912 := by
  constructor <;> nlinarith

/-- Forward weighting undoes inverse weighting (44 R215). -/
theorem roundShift_inv_fwd {c f g : Int} (h1 : -32768 ≤ c) (h2 : c ≤ 32767) (f1 : 16384 ≤ f) (f2 : f ≤ 32768) (d1 :
    -16384 ≤ f * g - 4294967296) (d2 : f * g - 4294967296 ≤ 16384) :
    roundShift (roundShift (c * g) 16 * f) 16 = c := by
  obtain ⟨a1, a2⟩ := roundShift_bounds (c * g)
  generalize roundShift (c * g) 16 = r at *
  obtain ⟨b1, b2⟩ := roundShift_bounds (r * f)
  generalize roundShift (r * f) 16 = q at *
  obtain ⟨e1, e2⟩ := mul_bound h1 h2 d1 d2
  have k1 : f * (65536 * r) ≤ f * (c * g + 32768) := mul_le_mul_of_nonneg_left a1 (by omega)
  have k2 : f * (c * g - 32768) ≤ f * (65536 * r) := mul_le_mul_of_nonneg_left a2 (by omega)
  have x1 : f * (65536 * r) = 65536 * (r * f) := by ring
  have x2 : f * (c * g + 32768) = c * (f * g - 4294967296) + 4294967296 * c + 32768 * f := by ring
  have x3 : f * (c * g - 32768) = c * (f * g - 4294967296) + 4294967296 * c - 32768 * f := by ring
  rw [x1, x2] at k1; rw [x1, x3] at k2
  omega

/-- Inverse weighting undoes forward weighting up to 2 (44 R215). -/
theorem roundShift_fwd_inv {c f g : Int} (h1 : -32768 ≤ c) (h2 : c ≤ 32767) (f1 : 16384 ≤ f) (f2 : f ≤ 32768) (g1 : 131072 ≤ g)
    (g2 : g ≤ 262144) (d1 : -16384 ≤ f * g - 4294967296) (d2 : f * g - 4294967296 ≤ 16384) :
    -2 ≤ roundShift (roundShift (c * f) 16 * g) 16 - c ∧ roundShift (roundShift (c * f) 16 * g) 16 - c ≤ 2 := by
  obtain ⟨a1, a2⟩ := roundShift_bounds (c * f)
  generalize roundShift (c * f) 16 = r at *
  obtain ⟨b1, b2⟩ := roundShift_bounds (r * g)
  generalize roundShift (r * g) 16 = q at *
  obtain ⟨e1, e2⟩ := mul_bound h1 h2 d1 d2
  have k1 : g * (65536 * r) ≤ g * (c * f + 32768) := mul_le_mul_of_nonneg_left a1 (by omega)
  have k2 : g * (c * f - 32768) ≤ g * (65536 * r) := mul_le_mul_of_nonneg_left a2 (by omega)
  have x1 : g * (65536 * r) = 65536 * (r * g) := by ring
  have x2 : g * (c * f + 32768) = c * (f * g - 4294967296) + 4294967296 * c + 32768 * g := by ring
  have x3 : g * (c * f - 32768) = c * (f * g - 4294967296) + 4294967296 * c - 32768 * g := by ring
  rw [x1, x2] at k1; rw [x1, x3] at k2
  omega

theorem sat16_weighted {c f : Int} (h1 : -32768 ≤ c) (h2 : c ≤ 32767) (f1 : 16384 ≤ f) (f2 : f ≤ 32768) : sat16 (roundShift
    (c * f) 16) = roundShift (c * f) 16 := by
  obtain ⟨a1, a2⟩ := roundShift_bounds (c * f)
  have : -1073741824 ≤ c * f ∧ c * f ≤ 1073741824 := by constructor <;> nlinarith
  unfold sat16 sat; omega

/-! ### CLASSIFY and QSEARCH -/

theorem maxAc_le_big (s : State) (b : Nat) : maxAc (s.coefs b) ≤ 32768 := by
  rw [maxAc_le_iff]; intro n _ h; have := coefs_range s b (n := n) (by omega); omega

/-- The search answers the finest fitting qno, or 0 with OVER (44 R230). -/
theorem qSearchFrom_spec (c : List Int) (mode : Bool) (k t q : Nat) :
    (qSearchFrom c mode k t q).1 ≤ q ∧
    (((qSearchFrom c mode k t q).2 = false ∧ fitsAt c mode k t (qSearchFrom c mode k t q).1 = true ∧
        ∀ q', (qSearchFrom c mode k t q).1 < q' → q' ≤ q → fitsAt c mode k t q' = false) ∨
      ((qSearchFrom c mode k t q).2 = true ∧ (qSearchFrom c mode k t q).1 = 0 ∧ ∀ q', q' ≤ q → fitsAt c mode k t q' = false)) := by
  induction q with
  | zero =>
    unfold qSearchFrom
    split
    · next h => exact ⟨Nat.le_refl _, .inl ⟨rfl, h, fun q' h1 h2 => by dsimp only at h1; omega⟩⟩
    · next h => exact ⟨Nat.le_refl _, .inr ⟨rfl, rfl, fun q' hq => by
        obtain rfl : q' = 0 := by omega
        simpa using h⟩⟩
  | succ q ih =>
    unfold qSearchFrom
    split
    · next h => exact ⟨Nat.le_refl _, .inl ⟨rfl, h, fun q' h1 h2 => by dsimp only at h1; omega⟩⟩
    · next h =>
      have hf : fitsAt c mode k t (q + 1) = false := by simpa using h
      obtain ⟨h1, h2⟩ := ih
      refine ⟨by omega, ?_⟩
      rcases h2 with ⟨a, b, d⟩ | ⟨a, b, d⟩
      · exact .inl ⟨a, b, fun q' l1 l2 => by
          by_cases e : q' = q + 1
          · rw [e]; exact hf
          · exact d q' l1 (by omega)⟩
      · exact .inr ⟨a, b, fun q' l2 => by
          by_cases e : q' = q + 1
          · rw [e]; exact hf
          · exact d q' (by omega)⟩

theorem setOver_fold_blk (m : Nat) (r : List (Nat × Bool)) (n : Nat) (u : State) (hm : m ≤ 4) (hn : n ≤ 6) (b : Nat) :
    ((List.range n).foldl (fun u t => u.setOver (6 * m + t) (r.getD t (0, false)).2) u).blkAt b =
      if 6 * m ≤ b ∧ b < 6 * m + n then { u.blkAt b with overBudget := (r.getD (b - 6 * m) (0, false)).2 } else u.blkAt b := by
  induction n with
  | zero => rw [if_neg (by omega)]; rfl
  | succ n ih =>
    rw [List.range_succ, List.foldl_append, List.foldl_cons, List.foldl_nil]
    have ih := ih (by omega)
    generalize (List.range n).foldl (fun u t => u.setOver (6 * m + t) (r.getD t (0, false)).2) u = v at *
    by_cases e : b = 6 * m + n
    · subst e
      rw [if_neg (by omega)] at ih
      rw [State.setOver, blkAt_setBlk_self _ _ (by omega), if_pos (by omega), ih]
      congr 2
      rw [Nat.add_sub_cancel_left]
    · rw [State.setOver, blkAt_setBlk_ne _ _ e, ih]
      by_cases h : 6 * m ≤ b ∧ b < 6 * m + n
      · rw [if_pos h, if_pos (by omega)]
      · rw [if_neg h, if_neg (by omega)]

theorem setOver_fold_mb (m : Nat) (r : List (Nat × Bool)) (l : List Nat) (u : State) :
    (l.foldl (fun u t => u.setOver (6 * m + t) (r.getD t (0, false)).2) u).mb = u.mb :=
  foldl_eq State.mb (fun u t => u.setOver (6 * m + t) (r.getD t (0, false)).2) (fun _ _ => rfl) l u

theorem packQnos_six (a b c d e f : Nat) (ha : a ≤ 15) (hb : b ≤ 15) (hc : c ≤ 15) (hd : d ≤ 15) (he : e ≤ 15) (hf : f ≤ 15)
    (A B C D E F : Bool) :
    let w := packQnos [(a, A), (b, B), (c, C), (d, D), (e, E), (f, F)]
    w.extractLsb' 24 8 = 0 ∧ ∀ j, j < 6 → (w.extractLsb' (4 * j) 4).toNat = ([(a, A), (b, B), (c, C), (d, D), (e, E), (f,
      F)].getD j (0, false)).1 := by
  intro w
  have hw : w.toNat = a + 16 * (b + 16 * (c + 16 * (d + 16 * (e + 16 * f)))) := by
    show (BitVec.ofNat 32 _).toNat = _
    simp only [List.foldr, BitVec.toNat_ofNat]; omega
  constructor
  · apply BitVec.eq_of_toNat_eq
    simp only [BitVec.extractLsb'_toNat, hw, Nat.shiftRight_eq_div_pow]; simp; omega
  · intro j hj
    rw [BitVec.extractLsb'_toNat, hw, Nat.shiftRight_eq_div_pow]
    interval_cases j <;> simp <;> omega

theorem foldl_min (l : List (Nat × Bool)) (acc : Nat) (h : ∀ q ∈ l, q.1 ≤ acc) (hne : l ≠ []) :
    (∀ q ∈ l, l.foldl (fun acc q => min acc q.1) acc ≤ q.1) ∧ ∃ q ∈ l, l.foldl (fun acc q => min acc q.1) acc = q.1 := by
  have key : ∀ (l : List (Nat × Bool)) (acc : Nat), (l.foldl (fun acc q => min acc q.1) acc ≤ acc) ∧ (∀ q ∈ l, l.foldl
    (fun acc q => min acc q.1) acc ≤ q.1) ∧
     (l.foldl (fun acc q => min acc q.1) acc = acc ∨ ∃ q ∈ l, l.foldl (fun acc q => min acc q.1) acc = q.1) := by
    intro l
    induction l with
    | nil => intro acc; exact ⟨Nat.le_refl _, by simp, .inl rfl⟩
    | cons x l ih =>
      intro acc
      obtain ⟨h1, h2, h3⟩ := ih (min acc x.1)
      simp only [List.foldl_cons]
      refine ⟨by omega, fun q hq => ?_, ?_⟩
      · rcases List.mem_cons.1 hq with rfl | hq
        · omega
        · exact h2 q hq
      · rcases h3 with h3 | ⟨q, hq, h3⟩
        · rw [h3]
          by_cases hx : acc ≤ x.1
          · left; omega
          · right; exact ⟨x, List.mem_cons_self .., by omega⟩
        · right; exact ⟨q, List.mem_cons_of_mem _ hq, h3⟩
  obtain ⟨h1, h2, h3⟩ := key l acc
  refine ⟨h2, ?_⟩
  rcases h3 with h3 | h3
  · obtain ⟨x, hx⟩ := List.exists_mem_of_ne_nil l hne
    exact ⟨x, hx, by have := h2 x hx; have := h x hx; omega⟩
  · exact h3

theorem setOver_fold_csr (m : Nat) (r : List (Nat × Bool)) (l : List Nat) (u : State) :
    (l.foldl (fun u t => u.setOver (6 * m + t) (r.getD t (0, false)).2) u).csr = u.csr :=
  foldl_eq State.csr (fun u t => u.setOver (6 * m + t) (r.getD t (0, false)).2) (fun _ _ => rfl) l u

theorem setOver_fold_mem (m : Nat) (r : List (Nat × Bool)) (l : List Nat) (u : State) :
    (l.foldl (fun u t => u.setOver (6 * m + t) (r.getD t (0, false)).2) u).mem = u.mem :=
  foldl_eq State.mem (fun u t => u.setOver (6 * m + t) (r.getD t (0, false)).2) (fun _ _ => rfl) l u

theorem applyQsearch_eq (m : Nat) (s : State) : applyQsearch m s =
    ((List.range 6).foldl (fun u t => u.setOver (6 * m + t) ((s.searchMb m).getD t (0, false)).2)
      (s.setMb m { s.mbAt m with qno := BitVec.ofNat 4 (minQno (s.searchMb m)) })).markQover ((s.searchMb m).any fun q => q.2) := by
  unfold applyQsearch; rfl

theorem applyQsearch_csr (m : Nat) (s : State) : (applyQsearch m s).csr =
    { s.csr with status := { s.csr.status with qover := s.csr.status.qover || (s.searchMb m).any fun q => q.2 } } := by
  rw [applyQsearch_eq]
  generalize s.searchMb m = r
  unfold State.markQover State.setStatus
  rw [setOver_fold_csr]; rfl

theorem applyQsearch_mem (m : Nat) (s : State) : (applyQsearch m s).mem = s.mem := by
  rw [applyQsearch_eq]
  generalize s.searchMb m = r
  rw [State.markQover_mem, setOver_fold_mem]; rfl

theorem applyQsearch_blkAt {m : Nat} (s : State) (hm : m ≤ 4) (b : Nat) : (applyQsearch m s).blkAt b =
    if 6 * m ≤ b ∧ b < 6 * m + 6 then { s.blkAt b with overBudget := ((s.searchMb m).getD (b - 6 * m) (0,
      false)).2 } else s.blkAt b := by
  unfold applyQsearch
  dsimp only
  rw [blkAt_markQover, setOver_fold_blk _ _ _ _ hm (Nat.le_refl _)]; rfl

theorem applyQsearch_mbAt (m : Nat) (s : State) (n : Nat) : (applyQsearch m s).mbAt n =
    (s.setMb m { s.mbAt m with qno := BitVec.ofNat 4 (minQno (s.searchMb m)) }).mbAt n := by
  unfold applyQsearch
  dsimp only
  rw [mbAt_markQover, mbAt_congr (setOver_fold_mb _ _ _ _)]

theorem searchMb_getD (s : State) (m : Nat) {j : Nat} (hj : j < 6) : (s.searchMb m).getD j (0, false) = s.searchBlock m j := by
  unfold State.searchMb; simp [hj]

theorem searchBlock_eq (s : State) (m t : Nat) : s.searchBlock m t = qSearchBlock (s.coefs (6 * m + t)) (s.blkAt
    (6 * m + t)).dctMode (s.blkAt (6 * m + t)).cls.toNat t := by
  unfold State.searchBlock; rfl

theorem searchBlock_spec (s : State) (m j : Nat) :
    (s.searchBlock m j).1 ≤ 15 ∧
    (((s.searchBlock m j).2 = false ∧ fitsAt (s.coefs (6 * m + j)) (s.blkAt (6 * m + j)).dctMode (s.blkAt (6 * m + j)).cls.toNat j
      (s.searchBlock m j).1 = true ∧
        ∀ q', (s.searchBlock m j).1 < q' → q' ≤ 15 → fitsAt (s.coefs (6 * m + j)) (s.blkAt (6 * m + j)).dctMode (s.blkAt
          (6 * m + j)).cls.toNat j q' = false) ∨
      ((s.searchBlock m j).2 = true ∧ (s.searchBlock m j).1 = 0 ∧ ∀ q', q' ≤ 15 → fitsAt (s.coefs (6 * m + j)) (s.blkAt
        (6 * m + j)).dctMode (s.blkAt (6 * m + j)).cls.toNat j q' = false)) := by
  rw [searchBlock_eq]
  unfold qSearchBlock
  generalize 15 = q
  exact qSearchFrom_spec _ _ _ _ q

theorem packQnos_searchMb {s : State} {m : Nat} : (packQnos (s.searchMb m)).extractLsb' 24 8 = 0 ∧
    ∀ j, j < 6 → ((packQnos (s.searchMb m)).extractLsb' (4 * j) 4).toNat = (s.searchBlock m j).1 := by
  have hq15 : ∀ j, (s.searchBlock m j).1 ≤ 15 := fun j => (searchBlock_spec s m j).1
  have hr : s.searchMb m = [s.searchBlock m 0, s.searchBlock m 1, s.searchBlock m 2, s.searchBlock m 3, s.searchBlock m 4,
    s.searchBlock m 5] := by unfold State.searchMb; rfl
  have h0 := hq15 0; have h1 := hq15 1; have h2 := hq15 2; have h3 := hq15 3; have h4 := hq15 4; have h5 := hq15 5
  have hg : ∀ j, j < 6 → _ := fun j hj => searchMb_getD s m hj
  rw [hr] at hg ⊢
  generalize s.searchBlock m = f at *
  obtain ⟨p1, p2⟩ := packQnos_six _ _ _ _ _ _ h0 h1 h2 h3 h4 h5 (f 0).2 (f 1).2 (f 2).2 (f 3).2 (f 4).2 (f 5).2
  exact ⟨p1, fun j hj => by rw [← hg j hj]; exact p2 j hj⟩

end Sys2Proof.Machine
end

