-- ==== Sys2Proof/Laws/Macro.lean ====
section
/-! SUPPORT. The macro commands as sequences of single-stage commands: running a list of commands, and states equal but for RES0 and
what completion leaves. -/

namespace Sys2Proof.Machine

open Sys2Proof

theorem execAll_append (l k : List Instr) (s : State) : execAll (l ++ k) s = match execAll l s with
    | .next t => execAll k t
    | .fault f => .fault f
    | .refused r => .refused r := by
  induction l generalizing s with
  | nil => rfl
  | cons i l ih =>
    rw [List.cons_append, execAll, execAll]
    cases exec i s with
    | next t => exact ih t
    | fault f => rfl
    | refused r => rfl

theorem execAll_append_next {l k : List Instr} {s t : State} (h : execAll l s = .next t) : execAll (l ++ k) s = execAll k t := by
  rw [execAll_append, h]

theorem execAll_cons_next {i : Instr} {k : List Instr} {s t : State} (h : exec i s = .next t) : execAll (i :: k) s = execAll k t :=
    by
  rw [execAll, h]


/-- `f` gives the same under `e` from a state and from what `e` keeps of it. -/
def Clean (e f : State → State) : Prop := ∀ s, e (f (e s)) = e (f s)

/-- Without what completion leaves and without RES0. -/
def bare (s : State) : State := complete (s.setRes0 0)

theorem clean_of_eq {e f : State → State} (hf : Clean e f) {s u : State} (h : e s = e u) : e (f s) = e (f u) := by
  rw [← hf s, ← hf u, h]

theorem clean_foldl {α : Type} {e : State → State} {f : State → α → State} (hf : ∀ x, Clean e fun s => f s x) (l : List α) {s u :
    State} (h : e s = e u) :
    e (l.foldl f s) = e (l.foldl f u) := by
  induction l generalizing s u with
  | nil => exact h
  | cons x l ih => exact ih (clean_of_eq (hf x) h)

theorem clean_dequant (b : Nat) : Clean complete (applyDequant b) := fun _ => rfl
theorem clean_winv (b : Nat) : Clean complete (applyWeightInv b) := fun _ => rfl
theorem clean_idct (b : Nat) : Clean complete (applyIdct b) := fun _ => rfl
theorem clean_wfwd (b : Nat) : Clean bare (applyWeightFwd b) := fun _ => rfl
theorem clean_fdct (b : Nat) : Clean bare (applyFdct b) := fun _ => rfl
theorem clean_quant (b : Nat) : Clean bare (applyQuant b) := fun _ => rfl
theorem clean_need (b : Nat) : Clean bare (applyNeed248 b) := fun _ => rfl
theorem clean_classify (b : Nat) : Clean bare (applyClassify b) := fun _ => rfl

theorem exec_dequant {b : Nat} (hb : b ≤ 29) (s : State) : exec (.dequant b) s = .next (complete (applyDequant b s)) := exec_of_ok
    (withBlock_of_le hb _)
theorem exec_winv {b : Nat} (hb : b ≤ 29) (s : State) : exec (.weightInv b) s = .next (complete (applyWeightInv b s)) :=
    exec_of_ok (withBlock_of_le hb _)
theorem exec_idct {b : Nat} (hb : b ≤ 29) (s : State) : exec (.idct b) s = .next (complete (applyIdct b s)) := exec_of_ok
    (withBlock_of_le hb _)
theorem exec_wfwd {b : Nat} (hb : b ≤ 29) (s : State) : exec (.weightFwd b) s = .next (complete (applyWeightFwd b s)) :=
    exec_of_ok (withBlock_of_le hb _)
theorem exec_fdct {b : Nat} (hb : b ≤ 29) (s : State) : exec (.fdct b) s = .next (complete (applyFdct b s)) := exec_of_ok
    (withBlock_of_le hb _)
theorem exec_quant {b : Nat} (hb : b ≤ 29) (s : State) : exec (.quant b) s = .next (complete (applyQuant b s)) := exec_of_ok
    (withBlock_of_le hb _)

/-- One block of the decode sequence. -/
theorem run_reconstruct {b : Nat} (hb : b ≤ 29) {s u : State} (h : complete s = complete u) :
    execAll [.dequant b, .weightInv b, .idct b] (complete s) = .next (complete (reconstruct u b)) := by
  rw [execAll_cons_next (exec_dequant hb _), execAll_cons_next (exec_winv hb _), execAll_cons_next (exec_idct hb _), execAll]
  congr 1
  have h0 : complete (complete s) = complete u := h
  have h1 := clean_of_eq (clean_dequant b) h0
  have h2 := clean_of_eq (clean_winv b) (show complete (complete (applyDequant b (complete s))) = complete
    (applyDequant b u) from h1)
  exact clean_of_eq (clean_idct b) (show complete (complete (applyWeightInv b (complete (applyDequant b (complete s))))) =
    complete (applyWeightInv b (applyDequant b u)) from h2)

theorem run_reconstruct_all (l : List Nat) (hl : ∀ b ∈ l, b ≤ 29) (u : State) :
    execAll (l.flatMap fun b => [.dequant b, .weightInv b, .idct b]) (complete u) = .next (complete (l.foldl reconstruct u)) := by
  induction l generalizing u with
  | nil => rfl
  | cons b l ih =>
    rw [List.flatMap_cons, execAll_append_next (run_reconstruct (hl b List.mem_cons_self) rfl)]
    exact ih (fun x hx => hl x (List.mem_cons_of_mem _ hx)) _

theorem bytes_setCoefs (s : State) {b : Nat} (hb : b < 30) {c : List Int} (hc : c.length = 64) {a : Nat} (ha : a < 0x1000 ∨
    0x1000 + 3840 ≤ a) : (s.setCoefs b c).mem.byte a = s.mem.byte a :=
  byte_storeCoefs_outside hc (by unfold coefAddr; omega)

theorem bytes_reconstruct (s : State) {b : Nat} (hb : b < 30) {a : Nat} (ha : a < 0x1000 ∨ 0x1000 + 3840 ≤ a) :
    (reconstruct s b).mem.byte a = s.mem.byte a := by
  unfold reconstruct applyIdct applyWeightInv applyDequant
  rw [bytes_setCoefs _ hb (idctBlock_length _ _) ha, bytes_setCoefs _ hb (weightInverse_length _ _) ha, bytes_setCoefs _ hb
    (dequantize_length _ _ _ _) ha]

theorem bytes_foldl (f : State → Nat → State) (l : List Nat) (a : Nat) (hf : ∀ s, ∀ b ∈ l, (f s b).mem.byte a = s.mem.byte a) (s :
    State) : (l.foldl f s).mem.byte a = s.mem.byte a := by
  induction l generalizing s with
  | nil => rfl
  | cons b l ih =>
    rw [List.foldl_cons, ih fun s x hx => hf s x (List.mem_cons_of_mem _ hx), hf s b List.mem_cons_self]

/-- The commands of `l` run from `s` to a state that is `u` but for what completion leaves and RES0. -/
def RunsTo (l : List Instr) (s u : State) : Prop := ∃ t, execAll l s = .next t ∧ bare t = bare u

theorem RunsTo.nil {s u : State} (h : bare s = bare u) : RunsTo [] s u := ⟨s, rfl, h⟩

theorem RunsTo.append {l k : List Instr} {s u v : State} (h : RunsTo l s u) (hk : ∀ t, bare t = bare u → RunsTo k t v) : RunsTo
    (l ++ k) s v := by
  obtain ⟨t, ht, e⟩ := h
  obtain ⟨w, hw, e'⟩ := hk t e
  exact ⟨w, (execAll_append_next ht).trans hw, e'⟩

theorem RunsTo.single {i : Instr} {f : State → State} (hf : Clean bare f) {s u t : State} (he : exec i s = .next t) (ht : bare t =
    bare (f s)) (h : bare s = bare u) : RunsTo [i] s (f u) :=
  ⟨t, (execAll_cons_next he).trans rfl, ht.trans (clean_of_eq hf h)⟩

theorem exec_need {b : Nat} (hb : b ≤ 29) (s : State) : exec (.need248 b) s = .next (complete ((applyNeed248 b s).setRes0 (word32
    (activity (s.coefs b))))) := exec_of_ok (withBlock_of_le hb _)
theorem exec_classify {b : Nat} (hb : b ≤ 29) (s : State) : exec (.classify b) s = .next (complete ((applyClassify b s).setRes0
    (word32 (maxAc (s.coefs b))))) := exec_of_ok (withBlock_of_le hb _)
theorem exec_qsearch {m : Nat} (hm : m ≤ 4) (s : State) : exec (.qsearch m) s = .next (complete ((applyQsearch m s).setRes0
    (packQnos (s.searchMb m)))) := exec_of_ok (withMb_of_le hm _)

theorem bare_complete_setRes0 (s : State) (v : Word) : bare (complete (s.setRes0 v)) = bare s := rfl
theorem bare_complete (s : State) : bare (complete s) = bare s := rfl

theorem clean_setOver (b : Nat) (ov : Bool) : Clean bare fun s => s.setOver b ov := fun _ => rfl

theorem clean_qsearch (m : Nat) : Clean bare (applyQsearch m) := by
  intro s
  rw [applyQsearch_eq, applyQsearch_eq]
  have hs : (bare s).searchMb m = s.searchMb m := rfl
  have hm : (bare s).mbAt m = s.mbAt m := rfl
  rw [hs, hm]
  generalize s.searchMb m = r
  have h0 : bare ((bare s).setMb m { s.mbAt m with qno := BitVec.ofNat 4 (minQno r) }) =
      bare (s.setMb m { s.mbAt m with qno := BitVec.ofNat 4 (minQno r) }) := rfl
  have h1 := clean_foldl (e := bare) (f := fun u t => u.setOver (6 * m + t) (r.getD t (0, false)).2) (fun t => clean_setOver
    (6 * m + t) _) (List.range 6) h0
  have hc : Clean bare fun u => u.markQover (r.any fun q => q.2) := fun _ => rfl
  exact clean_of_eq hc h1

theorem ctrl_of_bare {s u : State} (h : bare s = bare u) : s.csr.ctrl = u.csr.ctrl := congrArg (fun x => x.csr.ctrl) h

theorem analyse_ctrl (s : State) (b : Nat) : (analyse s b).csr.ctrl = s.csr.ctrl := (untouched_analyse s b).ctrl

theorem runs_analyse {b : Nat} (hb : b ≤ 29) (c : Ctrl) {s u : State} (h : bare s = bare u) (hc : u.csr.ctrl = c) :
    RunsTo ((if c.auto248 then [Instr.need248 b] else []) ++ [.fdct b, .weightFwd b] ++ (if c.autoq then [.classify b] else [])) s
      (analyse u b) := by
  have h1 : RunsTo (if c.auto248 then [Instr.need248 b] else []) s (if c.auto248 then applyNeed248 b u else u) := by
    split
    · exact .single (clean_need b) (exec_need hb s) (bare_complete_setRes0 _ _) h
    · exact .nil h
  have hctrl : (if c.auto248 then applyNeed248 b u else u).csr.ctrl = c := by
    split
    · exact (untouched_applyNeed248 b u).ctrl.trans hc
    · exact hc
  have ha : analyse u b = if c.autoq then applyClassify b (applyWeightFwd b (applyFdct b
    (if c.auto248 then applyNeed248 b u else u))) else applyWeightFwd b (applyFdct b
    (if c.auto248 then applyNeed248 b u else u)) := by
    unfold analyse
    dsimp only
    have : (applyWeightFwd b (applyFdct b (if u.csr.ctrl.auto248 = true then applyNeed248 b u else u))).csr.ctrl = u.csr.ctrl := by
      show (if u.csr.ctrl.auto248 = true then applyNeed248 b u else u).csr.ctrl = _
      split <;> rfl
    rw [hc]
  rw [ha]
  generalize (if c.auto248 then applyNeed248 b u else u) = v at *
  have h2 : ∀ t, bare t = bare v → RunsTo [.fdct b, .weightFwd b] t (applyWeightFwd b (applyFdct b v)) := fun t ht =>
    RunsTo.append (l := [.fdct b]) (.single (clean_fdct b) (exec_fdct hb t) (bare_complete _) ht) fun w hw =>
      .single (clean_wfwd b) (exec_wfwd hb w) (bare_complete _) hw
  refine (h1.append h2).append fun t ht => ?_
  split
  · exact .single (clean_classify b) (exec_classify hb t) (bare_complete_setRes0 _ _) ht
  · exact .nil ht

theorem runs_analyse_all (l : List Nat) (hl : ∀ b ∈ l, b ≤ 29) (c : Ctrl) {s u : State} (h : bare s = bare u) (hc : u.csr.ctrl =
    c) :
    RunsTo (l.flatMap fun b => (if c.auto248 then [Instr.need248 b] else []) ++ [.fdct b, .weightFwd b] ++ (if c.autoq then
      [.classify b] else [])) s (l.foldl analyse u) := by
  induction l generalizing s u with
  | nil => exact .nil h
  | cons b l ih =>
    rw [List.flatMap_cons]
    exact (runs_analyse (hl b List.mem_cons_self) c h hc).append fun t ht =>
      ih (fun x hx => hl x (List.mem_cons_of_mem _ hx)) ht ((analyse_ctrl u b).trans hc)

theorem run_qsearch {m : Nat} (hm : m ≤ 4) {s u : State} (h : bare s = bare u) : RunsTo [.qsearch m] s (applyQsearch m u) := by
  have he := exec_qsearch hm s
  have hb := bare_complete_setRes0 (applyQsearch m s) (packQnos (s.searchMb m))
  have hc := clean_of_eq (clean_qsearch m) h
  generalize complete ((applyQsearch m s).setRes0 (packQnos (s.searchMb m))) = t at he hb
  refine ⟨t, ?_, hb.trans hc⟩
  rw [execAll_cons_next he, execAll]

theorem runs_qsearch_all (l : List Nat) (hl : ∀ m ∈ l, m ≤ 4) {s u : State} (h : bare s = bare u) : RunsTo (l.map .qsearch) s
    (l.foldl (fun u m => applyQsearch m u) u) := by
  induction l generalizing s u with
  | nil => exact .nil h
  | cons m l ih =>
    have h1 := run_qsearch (hl m List.mem_cons_self) h
    rw [List.foldl_cons]
    generalize applyQsearch m u = v at *
    exact RunsTo.append (l := [.qsearch m]) h1 fun t ht => ih (fun x hx => hl x (List.mem_cons_of_mem _ hx)) ht

theorem runs_quant_all (l : List Nat) (hl : ∀ b ∈ l, b ≤ 29) {s u : State} (h : bare s = bare u) : RunsTo (l.map .quant) s
    (l.foldl (fun u b => applyQuant b u) u) := by
  induction l generalizing s u with
  | nil => exact .nil h
  | cons b l ih =>
    exact RunsTo.append (l := [.quant b]) (.single (clean_quant b) (exec_quant (hl b List.mem_cons_self) s)
      (bare_complete _) h) fun t ht =>
      ih (fun x hx => hl x (List.mem_cons_of_mem _ hx)) ht

theorem encodePrepare_ctrl (s : State) : (encodePrepare s).csr.ctrl = s.csr.ctrl := (untouched_encodePrepare s).ctrl

theorem allAmpOk_quant (n : Nat) (hn : n ≤ 30) (u : State) : ∀ b k, b < n → 1 ≤ k → k ≤ 63 → (coef ((List.range n).foldl
    (fun u b => applyQuant b u) u).mem b k).natAbs ≤ 255 := by
  induction n with
  | zero => intro b k hb; omega
  | succ n ih =>
    intro b k hb h1 h2
    rw [List.range_succ, List.foldl_append, List.foldl_cons, List.foldl_nil]
    have ih := ih (by omega)
    generalize (List.range n).foldl (fun u b => applyQuant b u) u = v at *
    show (coef (storeCoefs v.mem n _) b k).natAbs ≤ 255
    by_cases e : b = n
    · subst e
      have hq := quantize_abs (v.coefs b) (v.blkAt b).dctMode (v.mbAt (b / 6)).qno.toNat (v.blkAt b).cls.toNat (n := k) (by omega)
        (by omega)
      rw [coef_storeCoefs (quantize_length _ _ _ _) (by omega), wrap16_of_range (by omega) (by omega)]
      exact hq
    · rw [coef_storeCoefs_ne (quantize_length _ _ _ _) e (by omega)]
      exact ih b k (by omega) h1 h2

/-- After QUANT of every block VLC_ENC_SEG always succeeds (47 R322). -/
theorem encodePrepare_ok (s : State) : (encodePrepare s).allAmpOk = true := by
  rw [allAmpOk_iff]
  unfold encodePrepare
  exact allAmpOk_quant 30 (by omega) _

/-- VLC_ENC_SEG gives the same from a state and from what `bare` keeps of it. -/
theorem encodeSegment_bare (s : State) : complete (encodeSegment (bare s)) = complete (encodeSegment s) := rfl

theorem ite_apply_runs {p : Bool} {l : List Instr} {s u v : State} (h : bare s = bare u) (hv : p = true → RunsTo l s v) : RunsTo
    (if p then l else []) s (if p then v else u) := by
  cases p
  · exact .nil h
  · exact hv rfl

/-- The single-stage commands before VLC_ENC_SEG run to the state of the macro loops (47 R323). -/
theorem runs_prepare (s : State) : RunsTo (((List.range 30).flatMap fun b =>
    (if s.csr.ctrl.auto248 then [Instr.need248 b] else []) ++ [.fdct b, .weightFwd b] ++ (if s.csr.ctrl.autoq then
      [.classify b] else [])) ++
  ((if s.csr.ctrl.autoq then (List.range 5).map .qsearch else []) ++ (List.range 30).map .quant)) s (encodePrepare s) := by
  have h1 := runs_analyse_all (List.range 30) (fun b hb => by rw [List.mem_range] at hb; omega) s.csr.ctrl (s := s) (u := s) rfl rfl
  have hc : ((List.range 30).foldl analyse s).csr.ctrl = s.csr.ctrl := (untouched_foldl analyse untouched_analyse
    (List.range 30) s).ctrl
  unfold encodePrepare
  dsimp only
  generalize (List.range 30).foldl analyse s = u at *
  generalize s.csr.ctrl.autoq = aq at *
  refine h1.append fun t ht => ?_
  have h2 := ite_apply_runs (p := aq) ht fun _ => runs_qsearch_all (List.range 5)
    (fun b hb => by rw [List.mem_range] at hb; omega) ht
  generalize (if aq = true then (List.range 5).foldl (fun u m => applyQsearch m u) u else u) = v at *
  exact h2.append fun t ht => runs_quant_all _ (fun b hb => by rw [List.mem_range] at hb; omega) ht

/-! ### What the loops of ENCODE_SEG leave alone -/
/-- What the loops of ENCODE_SEG before VLC_ENC_SEG leave alone (47 R322). -/
structure PrepareFrame (s u : State) : Prop where
  bitpos : u.csr.bitpos = s.csr.bitpos
  res2 : u.csr.res2 = s.csr.res2
  vlcerr : u.csr.status.vlcerr = s.csr.status.vlcerr
  mb : ∀ m, m < 5 → ∃ q, u.mbAt m = { s.mbAt m with qno := q }
  off : s.csr.ctrl.autoq = false → u.mb = s.mb ∧ u.csr.status.qover = s.csr.status.qover ∧ (s.csr.ctrl.auto248 = false → u.blk =
    s.blk)
  bytes : ∀ a, a < 0x1000 ∨ 0x1000 + 3840 ≤ a → u.mem.byte a = s.mem.byte a
  ctrl : u.csr.ctrl = s.csr.ctrl

theorem PrepareFrame.refl (s : State) : PrepareFrame s s := ⟨rfl, rfl, rfl, fun _ _ => ⟨_, rfl⟩, fun _ => ⟨rfl, rfl, fun _ => rfl⟩,
    fun _ _ => rfl, rfl⟩

theorem PrepareFrame.trans {s u v : State} (h : PrepareFrame s u) (k : PrepareFrame u v) : PrepareFrame s v :=
  ⟨k.bitpos.trans h.bitpos, k.res2.trans h.res2, k.vlcerr.trans h.vlcerr, fun m hm => by
    obtain ⟨q, hq⟩ := h.mb m hm
    obtain ⟨q', hq'⟩ := k.mb m hm
    exact ⟨q', by rw [hq', hq]⟩,
   fun hs => by
    obtain ⟨a, b, c⟩ := h.off hs
    obtain ⟨a', b', c'⟩ := k.off (by rw [h.ctrl]; exact hs)
    exact ⟨a'.trans a, b'.trans b, fun h2 => (c' (by rw [h.ctrl]; exact h2)).trans (c h2)⟩,
   fun a ha => (k.bytes a ha).trans (h.bytes a ha), k.ctrl.trans h.ctrl⟩

theorem prepareFrame_setCoefs (s : State) {b : Nat} (hb : b < 30) {c : List Int} (hc : c.length = 64) : PrepareFrame s
    (s.setCoefs b c) :=
  ⟨rfl, rfl, rfl, fun _ _ => ⟨_, rfl⟩, fun _ => ⟨rfl, rfl, fun _ => rfl⟩, fun _ ha => bytes_setCoefs s hb hc ha, rfl⟩

theorem prepareFrame_setBlk (s : State) (b : Nat) (x : BlkMeta) (h : s.csr.ctrl.autoq = true ∨ s.csr.ctrl.auto248 = true) :
    PrepareFrame s (s.setBlk b x) :=
  ⟨rfl, rfl, rfl, fun _ _ => ⟨_, rfl⟩, fun h1 => ⟨rfl, rfl, fun h2 => by rcases h with h | h <;> simp_all⟩, fun _ _ => rfl, rfl⟩

theorem prepareFrame_analyse (s : State) {b : Nat} (hb : b < 30) : PrepareFrame s (analyse s b) := by
  have h1 : PrepareFrame s (if s.csr.ctrl.auto248 then applyNeed248 b s else s) := by
    split
    · next h => exact prepareFrame_setBlk s b _ (.inr h)
    · exact .refl s
  have hc := h1.ctrl
  unfold analyse
  dsimp only
  generalize (if s.csr.ctrl.auto248 = true then applyNeed248 b s else s) = u at *
  have h2 : PrepareFrame s (applyWeightFwd b (applyFdct b u)) := h1.trans ((prepareFrame_setCoefs u hb
    (fdctBlock_length _ _)).trans (prepareFrame_setCoefs _ hb (weightForward_length _ _)))
  split
  · next h => exact h2.trans (prepareFrame_setBlk _ b _ (.inl (h2.ctrl ▸ h)))
  · exact h2

theorem prepareFrame_qsearch (s : State) {m : Nat} (hm : m ≤ 4) (h : s.csr.ctrl.autoq = true) : PrepareFrame s
    (applyQsearch m s) := by
  have hcsr := applyQsearch_csr m s
  refine ⟨by rw [hcsr], by rw [hcsr], by rw [hcsr], fun k hk => ?_, fun h1 => absurd (h.symm.trans h1) (by simp), fun a _ => by rw
    [applyQsearch_mem], by rw [hcsr]⟩
  rw [applyQsearch_mbAt]
  by_cases e : k = m
  · subst e; exact ⟨_, mbAt_setMb_self _ _ (by omega)⟩
  · exact ⟨_, mbAt_setMb_ne _ _ e⟩

theorem prepareFrame_foldl (f : State → Nat → State) (l : List Nat) (hf : ∀ s, ∀ b ∈ l, PrepareFrame s (f s b)) (s : State) :
    PrepareFrame s (l.foldl f s) := by
  induction l generalizing s with
  | nil => exact .refl s
  | cons b l ih => exact (hf s b List.mem_cons_self).trans (ih (fun s x hx => hf s x (List.mem_cons_of_mem _ hx)) _)

theorem prepareFrame_foldl_q (l : List Nat) (hl : ∀ m ∈ l, m ≤ 4) (s : State) (h : s.csr.ctrl.autoq = true) : PrepareFrame s
    (l.foldl (fun u m => applyQsearch m u) s) := by
  induction l generalizing s with
  | nil => exact .refl s
  | cons b l ih =>
    have h1 := prepareFrame_qsearch s (hl b List.mem_cons_self) h
    rw [List.foldl_cons]
    generalize applyQsearch b s = v at *
    exact h1.trans (ih (fun x hx => hl x (List.mem_cons_of_mem _ hx)) v (by rw [h1.ctrl]; exact h))

theorem prepareFrame_prepare (s : State) : PrepareFrame s (encodePrepare s) := by
  have h1 := prepareFrame_foldl analyse (List.range 30) (fun s b hb => prepareFrame_analyse s (List.mem_range.1 hb)) s
  unfold encodePrepare
  dsimp only
  generalize (List.range 30).foldl analyse s = u at *
  have h2 : PrepareFrame s (if s.csr.ctrl.autoq = true then (List.range 5).foldl (fun u m => applyQsearch m u) u else u) := by
    split
    · next h =>
      have hl : ∀ m ∈ List.range 5, m ≤ 4 := fun m hm => by rw [List.mem_range] at hm; omega
      exact h1.trans (prepareFrame_foldl_q _ hl u (by rw [h1.ctrl]; exact h))
    · exact h1
  generalize (if s.csr.ctrl.autoq = true then (List.range 5).foldl (fun u m => applyQsearch m u) u else u) = v at *
  refine h2.trans (prepareFrame_foldl (fun u b => applyQuant b u) _ (fun s b hb => ?_) v)
  exact prepareFrame_setCoefs s (List.mem_range.1 hb) (quantize_length _ _ _ _)

end Sys2Proof.Machine
end

