-- ==== Sys2Proof/Laws/Invariant.lean ====
section
/-! SUPPORT. Every operation keeps the memory canonical and inside SEG and COEF: commands, aborts and host events. -/

namespace Sys2Proof.Machine

open Sys2Proof

/-- A memory in canonical form with every listed byte in SEG or COEF. -/
def Memory.Sound (m : Memory) : Prop := m.wf ∧ ∀ c ∈ m, regionOf c.1 = some .seg ∨ regionOf c.1 = some .coef

theorem sound_nil : Memory.Sound [] := ⟨Memory.wf_nil, by simp⟩

theorem sound_store {m : Memory} {a : Nat} {bs : List Byte} (h : m.Sound)
    (ha : (0x0400 ≤ a ∧ a + bs.length ≤ 0x0590) ∨ (0x1000 ≤ a ∧ a + bs.length ≤ 0x1F00)) : Memory.Sound (m.store a bs) := by
  refine ⟨Memory.wf_store a bs h.1, fun c hc => ?_⟩
  rcases Memory.mem_store hc with hc | hc
  · exact h.2 c hc
  · have := regionOf_spec c.1
    rcases ha with ha | ha
    · left; rw [this.2.2.2.1]; omega
    · right; rw [this.2.2.2.2]; omega

theorem sound_storeCoefs {m : Memory} {b : Nat} {c : List Int} (h : m.Sound) (hb : b < 30) (hc : c.length = 64) :
    Memory.Sound (storeCoefs m b c) :=
  sound_store h (.inr ⟨by unfold coefAddr; omega, by rw [coefBytes_length, hc]; unfold coefAddr; omega⟩)

theorem sound_segOrBit {m : Memory} {p : Nat} {x : Bool} (h : m.Sound) (hp : p < 3200) : Memory.Sound (segOrBit m p x) := by
  unfold segOrBit
  split
  · exact sound_store h (.inl ⟨by unfold segBase; omega, by simp only [List.length_cons, List.length_nil]; unfold segBase; omega⟩)
  · exact h

theorem sound_foldl {α : Type} {f : Memory → α → Memory} {l : List α} (hf : ∀ m, ∀ x ∈ l, Memory.Sound m → (f m x).Sound)
    {m : Memory} (h : m.Sound) : (l.foldl f m).Sound := by
  induction l generalizing m with
  | nil => exact h
  | cons x l ih => exact ih (fun m y hy => hf m y (List.mem_cons_of_mem _ hy)) (hf m x List.mem_cons_self h)

theorem soundState_foldl {α : Type} {f : State → α → State} {l : List α}
    (hf : ∀ s, ∀ x ∈ l, Memory.Sound s.mem → Memory.Sound (f s x).mem) {s : State} (h : s.mem.Sound) :
    Memory.Sound (l.foldl f s).mem := by
  induction l generalizing s with
  | nil => exact h
  | cons x l ih => exact ih (fun m y hy => hf m y (List.mem_cons_of_mem _ hy)) (hf s x List.mem_cons_self h)

theorem sound_segOr {m : Memory} {p n : Nat} {v : Word} (h : m.Sound) (hp : p + n ≤ 3200) : Memory.Sound (segOr m p n v) :=
  sound_foldl (fun _ i hi hm => sound_segOrBit hm (by rw [List.mem_range] at hi; omega)) h

theorem sound_setCoefs {s : State} {b : Nat} {c : List Int} (h : s.mem.Sound) (hb : b < 30) (hc : c.length = 64) :
    Memory.Sound (s.setCoefs b c).mem := sound_storeCoefs h hb hc

theorem sound_storeImage {g : Image} {m : Memory} (h : m.Sound) : Memory.Sound (storeImage g m) :=
  sound_foldl (fun _ i hi hm => sound_store hm (.inl ⟨by unfold segBase; omega, by
    rw [List.mem_range] at hi
    simp only [List.length_map, List.length_range]; unfold segBase; omega⟩)) h

theorem sound_storeBlocks {m : Memory} (mem : Memory) (h : m.Sound) : Memory.Sound (storeBlocks (decodeSegment mem) m) :=
  sound_foldl (fun _ b hb hm => sound_storeCoefs hm (List.mem_range.1 hb) (ownPass_workAt mem (List.mem_range.1 hb)).sound.len) h

theorem sound_vlcDecSeg {s : State} (h : s.mem.Sound) : Memory.Sound (vlcDecSeg s).mem := by
  rw [vlcDecSeg_eq, State.markVlcerr_mem, State.setRes1_mem, State.setRes0_mem, (record_csr _ _ _).2]
  exact sound_storeBlocks s.mem h

theorem sound_encodeSegment {s : State} (h : s.mem.Sound) : Memory.Sound (encodeSegment s).mem := by
  rw [encodeSegment_eq, State.setRes1_mem, State.setRes0_mem, State.markTrunc_mem, State.setOvfCount_mem]
  exact sound_storeImage h

theorem sound_reconstruct {s : State} {b : Nat} (hb : b < 30) (h : s.mem.Sound) : Memory.Sound (reconstruct s b).mem :=
  sound_setCoefs (sound_setCoefs (sound_setCoefs h hb (dequantize_length _ _ _ _)) hb (weightInverse_length _ _)) hb
    (idctBlock_length _ _)

theorem sound_analyse {s : State} {b : Nat} (hb : b < 30) (h : s.mem.Sound) : Memory.Sound (analyse s b).mem := by
  have h1 : Memory.Sound (if s.csr.ctrl.auto248 then applyNeed248 b s else s).mem := by split <;> exact h
  unfold analyse
  dsimp only
  generalize (if s.csr.ctrl.auto248 = true then applyNeed248 b s else s) = u at *
  have h2 : Memory.Sound (applyWeightFwd b (applyFdct b u)).mem :=
    sound_setCoefs (sound_setCoefs h1 hb (fdctBlock_length _ _)) hb (weightForward_length _ _)
  split <;> exact h2

theorem sound_encodePrepare {s : State} (h : s.mem.Sound) : Memory.Sound (encodePrepare s).mem := by
  have h1 : Memory.Sound ((List.range 30).foldl analyse s).mem :=
    soundState_foldl (fun _ b hb hs => sound_analyse (List.mem_range.1 hb) hs) h
  unfold encodePrepare
  dsimp only
  generalize (List.range 30).foldl analyse s = u at *
  have h2 : Memory.Sound (if s.csr.ctrl.autoq = true then (List.range 5).foldl (fun u m => applyQsearch m u) u else u).mem := by
    split
    · exact soundState_foldl (fun v m _ hv => by rw [applyQsearch_mem]; exact hv) h1
    · exact h1
  exact soundState_foldl (fun v b hb hv => sound_setCoefs hv (List.mem_range.1 hb) (quantize_length _ _ _ _)) h2

/-- Every command keeps the memory sound. -/
theorem sound_bodyOf {i : Instr} {s u : State} (h : bodyOf i s = .ok u) (hs : s.mem.Sound) : u.mem.Sound := by
  cases i <;>
    simp only [bodyOf, brPeek, brSkip, bwPut, vlcDecSym, vlcBlkBits, zzToScan, zzToNat, place411, place420, placeMb, classify,
      qsearch, vlcEncSeg, encodeSeg, withBlock, withMb, require_eq_ok, Except.ok.injEq, decide_eq_true_eq] at h
  case nop => subst h; exact hs
  case segClear =>
    subst h; exact sound_store hs (.inl ⟨Nat.le_refl _, by rw [List.length_replicate]; exact Nat.le_refl _⟩)
  case brPeek => obtain ⟨-, -, rfl⟩ := h; exact hs
  case brSkip => obtain ⟨-, rfl⟩ := h; exact hs
  case bwPut =>
    obtain ⟨-, h2, rfl⟩ := h
    exact sound_segOr hs (of_decide_eq_true h2)
  case vlcDecSym => obtain ⟨-, rfl⟩ := h; exact hs
  case vlcEncSym => subst h; exact hs
  case vlcBits => subst h; exact hs
  case vlcBlkBits => obtain ⟨-, -, rfl⟩ := h; exact hs
  case zzToScan => obtain ⟨hb, rfl⟩ := h; exact sound_setCoefs hs (by omega) (toScan_length _ _)
  case zzToNat => obtain ⟨hb, rfl⟩ := h; exact sound_setCoefs hs (by omega) (toNatural_spec _ _ (coefs_length _ _)).1
  case place411 => obtain ⟨-, rfl⟩ := h; exact hs
  case place420 => obtain ⟨-, rfl⟩ := h; exact hs
  case placeMb => obtain ⟨-, -, rfl⟩ := h; exact hs
  case weightFwd => obtain ⟨hb, rfl⟩ := h; exact sound_setCoefs hs (by omega) (weightForward_length _ _)
  case weightInv => obtain ⟨hb, rfl⟩ := h; exact sound_setCoefs hs (by omega) (weightInverse_length _ _)
  case classify =>
    obtain ⟨-, h⟩ := h
    rw [← h, State.setRes0_mem, applyClassify, State.setBlk_mem]; exact hs
  case qsearch m =>
    obtain ⟨-, h⟩ := h
    have e : u.mem = s.mem := by rw [← h]; exact (State.setRes0_mem _ _).trans (applyQsearch_mem m s)
    rw [e]; exact hs
  case quant => obtain ⟨hb, rfl⟩ := h; exact sound_setCoefs hs (by omega) (quantize_length _ _ _ _)
  case dequant => obtain ⟨hb, rfl⟩ := h; exact sound_setCoefs hs (by omega) (dequantize_length _ _ _ _)
  case fdct => obtain ⟨hb, rfl⟩ := h; exact sound_setCoefs hs (by omega) (fdctBlock_length _ _)
  case idct => obtain ⟨hb, rfl⟩ := h; exact sound_setCoefs hs (by omega) (idctBlock_length _ _)
  case need248 => obtain ⟨-, rfl⟩ := h; exact hs
  case vlcDecSeg => subst h; exact sound_vlcDecSeg hs
  case vlcEncSeg =>
    obtain ⟨-, h⟩ := h
    rw [← h]; exact sound_encodeSegment hs
  case decodeSeg =>
    subst h
    exact soundState_foldl (fun _ b hb hv => sound_reconstruct (List.mem_range.1 hb) hv) (sound_vlcDecSeg hs)
  case encodeSeg =>
    obtain ⟨-, h⟩ := h
    rw [← h]; exact sound_encodeSegment (sound_encodePrepare hs)

/-! ### Aborts -/

theorem sound_abortCoefs {s : State} (k b : Nat) (h : s.mem.Sound) : Memory.Sound (abortCoefs k b s).mem := by
  unfold abortCoefs
  split
  · exact sound_setCoefs h (by omega) (mkBlock_length _)
  · exact h

theorem sound_abortAc {s : State} (k b : Nat) (h : s.mem.Sound) : Memory.Sound (abortAc k b s).mem := by
  unfold abortAc
  split
  · exact sound_setCoefs h (by omega) (mkBlock_length _)
  · exact h

theorem sound_abortSegBits {m : Memory} (k : Nat) {p n : Nat} (h : m.Sound) (hp : p + n ≤ 3200) :
    Memory.Sound (abortSegBits k p n m) :=
  sound_foldl (fun _ i hi hm => by
    rw [List.mem_range] at hi
    exact sound_store hm (.inl ⟨by unfold segBase; omega, by
      simp only [List.length_cons, List.length_nil]; unfold segBase; omega⟩)) h

theorem sound_abortSegBytes {m : Memory} {k a n : Nat} (h : m.Sound) (ha : a + n ≤ 400) : Memory.Sound (abortSegBytes k a n m) :=
  sound_store h (.inl ⟨by unfold segBase; omega, by simp only [List.length_map, List.length_range]; unfold segBase; omega⟩)

theorem sound_abortImage {m : Memory} (k : Nat) (h : m.Sound) : Memory.Sound (abortImage k m) :=
  sound_foldl (fun _ i hi hm => sound_abortSegBytes hm (by rw [List.mem_range] at hi; omega)) h

theorem mem_forBlocks {f : Nat → State → State} (hf : ∀ b s, (f b s).mem = s.mem) (s : State) : (forBlocks f s).mem = s.mem :=
  foldl_eq State.mem _ (fun u b => hf b u) _ _

theorem mem_forMbs {f : Nat → State → State} (hf : ∀ b s, (f b s).mem = s.mem) (s : State) : (forMbs f s).mem = s.mem :=
  foldl_eq State.mem _ (fun u b => hf b u) _ _

theorem sound_abortDecode {s : State} (k : Nat) (h : s.mem.Sound) : Memory.Sound (abortDecode k s).mem := by
  unfold abortDecode
  rw [mem_forMbs (f := abortDecodedMb k) (fun _ _ => rfl), mem_forBlocks (f := abortDecodedBlk k) (fun _ _ => rfl)]
  exact soundState_foldl (fun _ b _ hv => sound_abortCoefs k b hv) h

theorem sound_abortEncode {s : State} (k : Nat) (h : s.mem.Sound) : Memory.Sound (abortEncode k s).mem := by
  have h1 : Memory.Sound (forBlocks (abortCoefs k) (s.setMem (abortImage k s.mem))).mem :=
    soundState_foldl (fun _ b _ hv => sound_abortCoefs k b hv) (sound_abortImage k h)
  unfold abortEncode
  dsimp only
  generalize forBlocks (abortCoefs k) (s.setMem (abortImage k s.mem)) = u at *
  have h2 : Memory.Sound (if s.csr.ctrl.auto248 = true then forBlocks (abortMode k) u else u).mem := by
    split
    · rw [mem_forBlocks (f := abortMode k) (fun _ _ => rfl)]; exact h1
    · exact h1
  generalize (if s.csr.ctrl.auto248 = true then forBlocks (abortMode k) u else u) = v at *
  split
  · rw [mem_forMbs (f := abortQno k) (fun _ _ => rfl), mem_forBlocks (f := abortOver k) (fun _ _ => rfl),
      mem_forBlocks (f := abortClass k) (fun _ _ => rfl)]; exact h2
  · exact h2

theorem mem_abortQsearch (k m : Nat) (s : State) :
    (abortQno k m ((List.range 6).foldl (fun u t => abortOver k (6 * m + t) u) s)).mem = s.mem :=
  foldl_eq State.mem (fun u t => abortOver k (6 * m + t) u) (fun _ _ => rfl) _ _

theorem sound_abortWrites {s : State} (k : Nat) (i : Instr) (h : s.mem.Sound) : Memory.Sound (abortWrites k i s).mem := by
  cases i <;> simp only [abortWrites]
  case segClear => exact sound_abortSegBytes h (by omega)
  case bwPut =>
    unfold abortBwPut
    split
    · next hc =>
      rw [Bool.and_eq_true] at hc
      exact sound_abortSegBits k h (of_decide_eq_true hc.2)
    · exact h
  case quant => exact sound_abortAc _ _ h
  case dequant => exact sound_abortAc _ _ h
  case vlcDecSeg => exact sound_abortDecode _ h
  case decodeSeg => exact sound_abortDecode _ h
  case vlcEncSeg =>
    unfold abortEncSeg
    split
    · exact sound_abortImage _ h
    · exact h
  case encodeSeg => exact sound_abortEncode _ h
  case placeMb => unfold abortXy; split <;> exact h
  case qsearch =>
    unfold abortQsearch
    split
    · rw [mem_abortQsearch]; exact h
    · exact h
  all_goals first
    | exact h
    | exact sound_abortCoefs _ _ h

theorem sound_softReset {s : State} (h : s.mem.Sound) : Memory.Sound (softReset s).mem := by
  unfold softReset
  dsimp only
  split
  · unfold abortCommand
    split
    · exact sound_abortWrites _ _ h
    · exact h
  · exact h

theorem sound_freeRam (k : Nat) : Memory.Sound (freeRam k) :=
  sound_foldl (fun _ b hb hm => sound_storeCoefs hm (List.mem_range.1 hb) (mkBlock_length _))
    (sound_abortSegBytes sound_nil (by omega))

/-! ### What an abort leaves of the port -/

theorem port_forBlocks {f : Nat → State → State} (hf : ∀ b s, (f b s).port = s.port) (s : State) : (forBlocks f s).port = s.port :=
  foldl_eq State.port _ (fun u b => hf b u) _ _

theorem port_forMbs {f : Nat → State → State} (hf : ∀ b s, (f b s).port = s.port) (s : State) : (forMbs f s).port = s.port :=
  foldl_eq State.port _ (fun u b => hf b u) _ _

theorem port_abortCoefs (k b : Nat) (s : State) : (abortCoefs k b s).port = s.port := by unfold abortCoefs; split <;> rfl

theorem port_abortAc (k b : Nat) (s : State) : (abortAc k b s).port = s.port := by unfold abortAc; split <;> rfl

theorem port_abortWrites (k : Nat) (i : Instr) (s : State) : (abortWrites k i s).port = s.port := by
  cases i <;> simp only [abortWrites, port_abortCoefs, port_abortAc, State.setMem_port]
  case bwPut => unfold abortBwPut; split <;> rfl
  case placeMb => unfold abortXy; split <;> rfl
  case vlcEncSeg => unfold abortEncSeg; split <;> rfl
  case qsearch =>
    unfold abortQsearch
    split
    · exact foldl_eq State.port (fun u t => abortOver k (6 * _ + t) u) (fun _ _ => rfl) _ _
    · rfl
  case vlcDecSeg =>
    unfold abortDecode
    rw [port_forMbs (f := abortDecodedMb k) (fun _ _ => rfl), port_forBlocks (f := abortDecodedBlk k) (fun _ _ => rfl),
      port_forBlocks (port_abortCoefs k)]
  case decodeSeg =>
    unfold abortDecode
    rw [port_forMbs (f := abortDecodedMb k) (fun _ _ => rfl), port_forBlocks (f := abortDecodedBlk k) (fun _ _ => rfl),
      port_forBlocks (port_abortCoefs k)]
  case encodeSeg =>
    have h1 : (forBlocks (abortCoefs k) (s.setMem (abortImage k s.mem))).port = s.port := port_forBlocks (port_abortCoefs k) _
    unfold abortEncode
    dsimp only
    generalize forBlocks (abortCoefs k) (s.setMem (abortImage k s.mem)) = u at *
    have h2 : (if s.csr.ctrl.auto248 = true then forBlocks (abortMode k) u else u).port = s.port := by
      split
      · rw [port_forBlocks (f := abortMode k) (fun _ _ => rfl)]; exact h1
      · exact h1
    generalize (if s.csr.ctrl.auto248 = true then forBlocks (abortMode k) u else u) = v at *
    split
    · rw [port_forMbs (f := abortQno k) (fun _ _ => rfl), port_forBlocks (f := abortOver k) (fun _ _ => rfl),
        port_forBlocks (f := abortClass k) (fun _ _ => rfl)]; exact h2
    · exact h2
  all_goals rfl

theorem port_softReset (s : State) : (softReset s).port = s.port := by
  unfold softReset
  dsimp only
  split
  · unfold abortCommand
    split
    · exact port_abortWrites _ _ s
    · rfl
  · rfl

end Sys2Proof.Machine
end

