-- ==== Sys2Proof/Laws/Abort.lean ====
section
/-! SUPPORT. What the abort of each command leaves alone. -/

namespace Sys2Proof.Machine

open Sys2Proof

theorem softReset_busy {s : State} {i : Instr} (hp : s.phase = .busy) (hd : decodeWord s.csr.cmd = .ok i) : (softReset s).mem =
    (abortWrites s.fresh i s).mem ∧ (softReset s).blk = (abortWrites s.fresh i s).blk ∧ (softReset s).mb =
    (abortWrites s.fresh i s).mb := by
  unfold softReset abortCommand
  dsimp only
  rw [if_pos hp, hd]
  exact ⟨rfl, rfl, rfl⟩

theorem softReset_reserved {s : State} {e : DecodeError} (hp : s.phase = .busy) (hd : decodeWord s.csr.cmd = .error e) :
    (softReset s).mem = s.mem ∧ (softReset s).blk = s.blk ∧ (softReset s).mb = s.mb := by
  unfold softReset abortCommand
  dsimp only
  rw [if_pos hp, hd]
  exact ⟨rfl, rfl, rfl⟩

/-! ### Bytes -/

theorem byte_abortCoefs (k b : Nat) (s : State) {a : Nat} (ha : a < coefAddr b 0 ∨ coefAddr b 0 + 128 ≤ a) :
    (abortCoefs k b s).mem.byte a = s.mem.byte a := by
  unfold abortCoefs
  split
  · exact byte_storeCoefs_outside (mkBlock_length _) ha
  · rfl

theorem byte_abortAc (k b : Nat) (s : State) {a : Nat} (ha : a < coefAddr b 0 ∨ coefAddr b 0 + 128 ≤ a) :
    (abortAc k b s).mem.byte a = s.mem.byte a := by
  unfold abortAc
  split
  · exact byte_storeCoefs_outside (mkBlock_length _) ha
  · rfl

theorem coef_abortAc (k b : Nat) (s : State) : coef (abortAc k b s).mem b 0 = coef s.mem b 0 := by
  unfold abortAc
  split
  · next hb =>
    unfold State.setCoefs
    have hr := coefs_range s b (n := 0) (by decide)
    rw [State.setMem_mem, coef_storeCoefs (mkBlock_length _) (by decide), at0_mkBlock _ (by decide), if_pos rfl,
      wrap16_of_range hr.1 hr.2, at0_coefs s b (by decide)]
  · rfl

theorem byte_abortAllCoefs (k : Nat) (s : State) {a : Nat} (ha : a < 0x1000 ∨ 0x1000 + 3840 ≤ a) :
    (forBlocks (abortCoefs k) s).mem.byte a = s.mem.byte a := by
  unfold forBlocks
  suffices hl : ∀ (l : List Nat), (∀ b ∈ l, b < 30) → ∀ u : State,
      (l.foldl (fun u b => abortCoefs k b u) u).mem.byte a = u.mem.byte a from hl _ (fun b hb => List.mem_range.1 hb) s
  intro l
  induction l with
  | nil => intro _ _; rfl
  | cons b l ih =>
    intro hl u
    have hb := hl b List.mem_cons_self
    rw [List.foldl_cons, ih (fun c hc => hl c (List.mem_cons_of_mem _ hc)), byte_abortCoefs _ _ _ (by unfold coefAddr; omega)]

theorem byte_abortSegBytes (k n m : Nat) (mem : Memory) {a : Nat} (ha : a < segBase + n ∨ segBase + n + m ≤ a) :
    (abortSegBytes k n m mem).byte a = mem.byte a :=
  Memory.byte_store_outside (by rw [List.length_map, List.length_range]; omega)

theorem byte_abortImage (k : Nat) (mem : Memory) {a : Nat} (ha : a < 0x0400 ∨ 0x0400 + 400 ≤ a ∨ (a - 0x0400) % 80 < 3) :
    (abortImage k mem).byte a = mem.byte a := by
  unfold abortImage
  suffices hl : ∀ (l : List Nat), (∀ i ∈ l, i < 5) → ∀ m : Memory,
      Memory.byte (l.foldl (fun m i => abortSegBytes k (80 * i + 3) 77 m) m) a = m.byte a from
    hl _ (fun b hb => List.mem_range.1 hb) mem
  intro l
  induction l with
  | nil => intro _ _; rfl
  | cons b l ih =>
    intro hl u
    have hb := hl b List.mem_cons_self
    rw [List.foldl_cons, ih (fun c hc => hl c (List.mem_cons_of_mem _ hc)), byte_abortSegBytes _ _ _ _ (by unfold segBase; omega)]

theorem segBit_segPutBit (m : Memory) {p q : Nat} (x : Bool) (h : q ≠ p) : segBit (segPutBit m p x) q = segBit m q := by
  unfold segPutBit segBit
  dsimp only
  rw [segByte_store]
  split
  · next e =>
    have hm : (1#8 <<< (7 - p % 8)).getLsbD (7 - q % 8) = false := by
      rw [bit_mask _ _ (by omega) (by omega)]; simp; omega
    split
    · rw [BitVec.getLsbD_or, hm, Bool.or_false]; rw [e]
    · rw [BitVec.getLsbD_and, BitVec.getLsbD_not, hm, e]; simp; omega
  · rfl

theorem byte_segPutBit (m : Memory) {p : Nat} (x : Bool) {a : Nat} (h : a ≠ segBase + p / 8) : (segPutBit m p x).byte a =
    m.byte a := by
  unfold segPutBit; dsimp only
  exact Memory.byte_store_outside (by simp only [List.length_cons, List.length_nil]; omega)

theorem segBit_abortSegBits (k p n : Nat) (m : Memory) {q : Nat} (h : q < p ∨ p + n ≤ q) :
    segBit (abortSegBits k p n m) q = segBit m q := by
  unfold abortSegBits
  suffices hl : ∀ (l : List Nat), (∀ i ∈ l, i < n) → ∀ m,
      segBit (l.foldl (fun m i => segPutBit m (p + i) ((freeByte k (segBase + (p + i) / 8)).getLsbD (7 - (p + i) % 8))) m) q =
        segBit m q from hl _ (fun i hi => by rw [List.mem_range] at hi; omega) m
  intro l
  induction l with
  | nil => intro _ _; rfl
  | cons i l ih =>
    intro hl m
    have hi := hl i List.mem_cons_self
    rw [List.foldl_cons, ih (fun j hj => hl j (List.mem_cons_of_mem _ hj)), segBit_segPutBit _ _ (by omega)]

theorem byte_abortSegBits (k : Nat) {p n : Nat} (m : Memory) {a : Nat} (hp : p + n ≤ 3200) (h : a < 0x0400 ∨ 0x0400 + 400 ≤ a) :
    (abortSegBits k p n m).byte a = m.byte a := by
  unfold abortSegBits
  suffices hl : ∀ (l : List Nat), (∀ i ∈ l, p + i < 3200) → ∀ m, Memory.byte
      (l.foldl (fun m i => segPutBit m (p + i) ((freeByte k (segBase + (p + i) / 8)).getLsbD (7 - (p + i) % 8))) m) a =
        m.byte a from hl _ (fun i hi => by rw [List.mem_range] at hi; omega) m
  intro l
  induction l with
  | nil => intro _ _; rfl
  | cons i l ih =>
    intro hl m
    have hi := hl i List.mem_cons_self
    rw [List.foldl_cons, ih (fun j hj => hl j (List.mem_cons_of_mem _ hj)),
      byte_segPutBit _ _ (by unfold segBase; omega)]

/-! ### Metadata -/

theorem meta_abortCoefs (k b : Nat) (s : State) : (abortCoefs k b s).blk = s.blk ∧ (abortCoefs k b s).mb = s.mb := by
  unfold abortCoefs; split <;> exact ⟨rfl, rfl⟩

theorem meta_abortAc (k b : Nat) (s : State) : (abortAc k b s).blk = s.blk ∧ (abortAc k b s).mb = s.mb := by
  unfold abortAc; split <;> exact ⟨rfl, rfl⟩

theorem blk_forBlocks {f : Nat → State → State} (hf : ∀ b s, (f b s).blk = s.blk) (s : State) : (forBlocks f s).blk = s.blk :=
  foldl_eq State.blk _ (fun u b => hf b u) _ _

theorem mb_forBlocks {f : Nat → State → State} (hf : ∀ b s, (f b s).mb = s.mb) (s : State) : (forBlocks f s).mb = s.mb :=
  foldl_eq State.mb _ (fun u b => hf b u) _ _

theorem blk_forMbs {f : Nat → State → State} (hf : ∀ b s, (f b s).blk = s.blk) (s : State) : (forMbs f s).blk = s.blk :=
  foldl_eq State.blk _ (fun u b => hf b u) _ _

/-- A view `g` of a block's record that the write keeps is kept at every block. -/
theorem view_setBlk {α : Type} (g : BlkMeta → α) (s : State) {b : Nat} {x : BlkMeta} (h : g x = g (s.blkAt b)) (c : Nat) :
    g ((s.setBlk b x).blkAt c) = g (s.blkAt c) := by
  by_cases hc : c = b
  · subst hc
    by_cases hb : c < 30
    · rw [blkAt_setBlk_self s x hb, h]
    · simp [State.blkAt, State.setBlk, Vector.getD, hb]
  · rw [blkAt_setBlk_ne s x hc]

/-- The same of a macroblock's record. -/
theorem view_setMb {α : Type} (g : MbMeta → α) (s : State) {m : Nat} {x : MbMeta} (h : g x = g (s.mbAt m)) (c : Nat) :
    g ((s.setMb m x).mbAt c) = g (s.mbAt c) := by
  by_cases hc : c = m
  · subst hc
    by_cases hb : c < 5
    · rw [mbAt_setMb_self s x hb, h]
    · simp [State.mbAt, State.setMb, Vector.getD, hb]
  · rw [mbAt_setMb_ne s x hc]

/-- A write of BLK[b] leaves every record as it was, or it is the one written. -/
theorem blkAt_setBlk_or (s : State) (b : Nat) (x : BlkMeta) (c : Nat) :
    (c = b ∧ (s.setBlk b x).blkAt c = x) ∨ (s.setBlk b x).blkAt c = s.blkAt c := by
  by_cases hc : c = b
  · subst hc
    by_cases hb : c < 30
    · exact .inl ⟨rfl, blkAt_setBlk_self s x hb⟩
    · exact .inr (by simp [State.blkAt, State.setBlk, Vector.getD, hb])
  · exact .inr (blkAt_setBlk_ne s x hc)

/-- The same of MB[m]. -/
theorem mbAt_setMb_or (s : State) (m : Nat) (x : MbMeta) (c : Nat) :
    (c = m ∧ (s.setMb m x).mbAt c = x) ∨ (s.setMb m x).mbAt c = s.mbAt c := by
  by_cases hc : c = m
  · subst hc
    by_cases hb : c < 5
    · exact .inl ⟨rfl, mbAt_setMb_self s x hb⟩
    · exact .inr (by simp [State.mbAt, State.setMb, Vector.getD, hb])
  · exact .inr (mbAt_setMb_ne s x hc)

/-- QSEARCH's OVER of six blocks: of every record OVER alone can differ, and only of the blocks listed. -/
theorem blkAt_abortOvers (k m : Nat) (l : List Nat) (s : State) (b : Nat) :
    (∃ o, (l.foldl (fun u t => abortOver k (6 * m + t) u) s).blkAt b = { s.blkAt b with overBudget := o }) ∧
    ((∀ t ∈ l, b ≠ 6 * m + t) → (l.foldl (fun u t => abortOver k (6 * m + t) u) s).blkAt b = s.blkAt b) := by
  induction l generalizing s with
  | nil => exact ⟨⟨_, rfl⟩, fun _ => rfl⟩
  | cons t l ih =>
    rw [List.foldl_cons]
    obtain ⟨⟨o, h1⟩, h2⟩ := ih (abortOver k (6 * m + t) s)
    refine ⟨?_, fun h => ?_⟩
    · rcases blkAt_setBlk_or s (6 * m + t) { s.blkAt (6 * m + t) with overBudget := (freeBlkWord k (6 * m + t) 0).getLsbD 7 } b
        with ⟨e, h3⟩ | h3
      · subst e; exact ⟨o, h1.trans (congrArg (fun x : BlkMeta => { x with overBudget := o }) h3)⟩
      · exact ⟨o, h1.trans (congrArg (fun x : BlkMeta => { x with overBudget := o }) h3)⟩
    · exact (h2 fun t' ht => h t' (List.mem_cons_of_mem _ ht)).trans (blkAt_setBlk_ne s _ (h t List.mem_cons_self))

/-- What an aborted QSEARCH leaves of the metadata and of memory (44 R231). -/
theorem abortQsearch_keeps (k m : Nat) (s : State) :
    (abortQsearch k m s).mem = s.mem ∧ (∃ q, (abortQsearch k m s).mbAt m = { s.mbAt m with qno := q }) ∧
    (∀ c, c ≠ m → (abortQsearch k m s).mbAt c = s.mbAt c) ∧
    (∀ b, b < 6 * m ∨ 6 * m + 6 ≤ b → (abortQsearch k m s).blkAt b = s.blkAt b) ∧
    ∀ b, ∃ o, (abortQsearch k m s).blkAt b = { s.blkAt b with overBudget := o } := by
  unfold abortQsearch
  split
  · have hmem := mem_abortQsearch k m s
    have hmb : ((List.range 6).foldl (fun u t => abortOver k (6 * m + t) u) s).mb = s.mb :=
      foldl_eq State.mb (fun u t => abortOver k (6 * m + t) u) (fun _ _ => rfl) _ _
    have hblk := fun b => blkAt_abortOvers k m (List.range 6) s b
    generalize (List.range 6).foldl (fun u t => abortOver k (6 * m + t) u) s = u at *
    refine ⟨hmem, ?_, fun c hc => (mbAt_setMb_ne u _ hc).trans (mbAt_congr hmb c), fun b hb => ?_, fun b => (hblk b).1⟩
    · rw [← mbAt_congr hmb m]
      rcases mbAt_setMb_or u m { u.mbAt m with qno := (freeMbWord k m 0).extractLsb' 0 4 } m with ⟨-, h⟩ | h
      · exact ⟨_, h⟩
      · exact ⟨_, h⟩
    · exact (hblk b).2 fun t ht => by rw [List.mem_range] at ht; omega
  · exact ⟨rfl, ⟨_, rfl⟩, fun _ _ => rfl, fun _ _ => rfl, fun _ => ⟨_, rfl⟩⟩

theorem view_forBlocks {α : Type} (g : BlkMeta → α) {f : Nat → State → State} (c : Nat)
    (hf : ∀ b s, g ((f b s).blkAt c) = g (s.blkAt c)) (s : State) : g ((forBlocks f s).blkAt c) = g (s.blkAt c) :=
  foldl_eq (fun s : State => g (s.blkAt c)) _ (fun u b => hf b u) _ _

theorem view_forMbs {α : Type} (g : MbMeta → α) {f : Nat → State → State} (c : Nat)
    (hf : ∀ m s, g ((f m s).mbAt c) = g (s.mbAt c)) (s : State) : g ((forMbs f s).mbAt c) = g (s.mbAt c) :=
  foldl_eq (fun s : State => g (s.mbAt c)) _ (fun u b => hf b u) _ _

/-- What an aborted VLC_DEC_SEG or DECODE_SEG leaves alone (46 R290, 47 R321). -/
structure AbortDecodeKeeps (s t : State) : Prop where
  bytes : BytesKeptOutside 0x1000 3840 s t
  overBudget : ∀ b, (t.blkAt b).overBudget = (s.blkAt b).overBudget
  place : ∀ m, (t.mbAt m).k = (s.mbAt m).k ∧ (t.mbAt m).j = (s.mbAt m).j ∧ (t.mbAt m).i = (s.mbAt m).i ∧
    (t.mbAt m).x = (s.mbAt m).x ∧ (t.mbAt m).y = (s.mbAt m).y

theorem abortDecode_keeps (k : Nat) (s : State) : AbortDecodeKeeps s (abortDecode k s) := by
  have hb : (forBlocks (abortCoefs k) s).blk = s.blk := blk_forBlocks (fun b u => (meta_abortCoefs k b u).1) s
  have hm : (forBlocks (abortCoefs k) s).mb = s.mb := mb_forBlocks (fun b u => (meta_abortCoefs k b u).2) s
  refine ⟨fun a ha => ?_, fun b => ?_, fun m => ?_⟩
  · unfold abortDecode
    rw [mem_forMbs (f := abortDecodedMb k) (fun _ _ => rfl), mem_forBlocks (f := abortDecodedBlk k) (fun _ _ => rfl)]
    exact byte_abortAllCoefs k s ha
  · unfold abortDecode
    rw [blkAt_congr (blk_forMbs (f := abortDecodedMb k) (fun _ _ => rfl) _)]
    refine (view_forBlocks BlkMeta.overBudget (f := abortDecodedBlk k) b (fun c u => ?_) _).trans
      (congrArg BlkMeta.overBudget (blkAt_congr hb b))
    unfold abortDecodedBlk
    dsimp only
    refine view_setBlk BlkMeta.overBudget u ?_ b
    rfl
  · have view : ∀ {α : Type} (g : MbMeta → α), (∀ (u : State) (c : Nat), g ((abortDecodedMb k c u).mbAt m) = g (u.mbAt m)) →
        g ((abortDecode k s).mbAt m) = g (s.mbAt m) := fun g hg => by
      unfold abortDecode
      refine (view_forMbs g m (fun c u => hg u c) _).trans ?_
      rw [mbAt_congr (mb_forBlocks (f := abortDecodedBlk k) (fun _ _ => rfl) _), mbAt_congr hm]
    have own : ∀ {α : Type} (g : MbMeta → α), (∀ x q t v e, g { x with qno := q, sta := t, vlcError := v, eobCount := e } = g x) →
        g ((abortDecode k s).mbAt m) = g (s.mbAt m) := fun g hg => view g fun u c => by
      unfold abortDecodedMb
      exact view_setMb g u (hg _ _ _ _ _) m
    exact ⟨own MbMeta.k fun _ _ _ _ _ => rfl, own MbMeta.j fun _ _ _ _ _ => rfl, own MbMeta.i fun _ _ _ _ _ => rfl,
      own MbMeta.x fun _ _ _ _ _ => rfl, own MbMeta.y fun _ _ _ _ _ => rfl⟩

/-- A view of the records of the blocks that an aborted ENCODE_SEG keeps (47 R322). -/
theorem view_abortEncode {α : Type} (g : BlkMeta → α) (k : Nat) (s : State) (c : Nat)
    (hm : s.csr.ctrl.auto248 = true → ∀ x d, g { x with dctMode := d } = g x)
    (hq : s.csr.ctrl.autoq = true → ∀ x k o, g { x with cls := k } = g x ∧ g { x with overBudget := o } = g x) :
    g ((abortEncode k s).blkAt c) = g (s.blkAt c) := by
  have h1 : (forBlocks (abortCoefs k) (s.setMem (abortImage k s.mem))).blk = s.blk :=
    blk_forBlocks (fun b u => (meta_abortCoefs k b u).1) _
  have h1 : g ((forBlocks (abortCoefs k) (s.setMem (abortImage k s.mem))).blkAt c) = g (s.blkAt c) := by rw [blkAt_congr h1]
  unfold abortEncode
  dsimp only
  generalize forBlocks (abortCoefs k) (s.setMem (abortImage k s.mem)) = u at *
  have h2 : g ((if s.csr.ctrl.auto248 = true then forBlocks (abortMode k) u else u).blkAt c) = g (s.blkAt c) := by
    split
    · next h => exact (view_forBlocks g c (fun b v => view_setBlk g v (hm h _ _) c) u).trans h1
    · exact h1
  generalize (if s.csr.ctrl.auto248 = true then forBlocks (abortMode k) u else u) = v at *
  split
  · next h =>
    rw [blkAt_congr (blk_forMbs (f := abortQno k) (fun _ _ => rfl) _)]
    exact (view_forBlocks g c (fun b w => view_setBlk g w (hq h _ 0 _).2 c) _).trans
      ((view_forBlocks g c (fun b w => view_setBlk g w (hq h _ _ false).1 c) v).trans h2)
  · exact h2

/-- The same of the macroblocks' records. -/
theorem viewMb_abortEncode {α : Type} (g : MbMeta → α) (k : Nat) (s : State) (c : Nat)
    (hq : s.csr.ctrl.autoq = true → ∀ x q, g { x with qno := q } = g x) :
    g ((abortEncode k s).mbAt c) = g (s.mbAt c) := by
  have h1 : (forBlocks (abortCoefs k) (s.setMem (abortImage k s.mem))).mb = s.mb :=
    mb_forBlocks (fun b u => (meta_abortCoefs k b u).2) _
  unfold abortEncode
  dsimp only
  generalize forBlocks (abortCoefs k) (s.setMem (abortImage k s.mem)) = u at *
  have h2 : (if s.csr.ctrl.auto248 = true then forBlocks (abortMode k) u else u).mb = s.mb := by
    split
    · exact (mb_forBlocks (f := abortMode k) (fun _ _ => rfl) u).trans h1
    · exact h1
  generalize (if s.csr.ctrl.auto248 = true then forBlocks (abortMode k) u else u) = v at *
  split
  · next h =>
    refine (view_forMbs g c (fun m w => view_setMb g w (hq h _ _) c) _).trans (congrArg g (mbAt_congr ?_ c))
    exact (mb_forBlocks (f := abortOver k) (fun _ _ => rfl) _).trans
      ((mb_forBlocks (f := abortClass k) (fun _ _ => rfl) v).trans h2)
  · exact congrArg g (mbAt_congr h2 c)

/-- What an aborted ENCODE_SEG leaves of a block's record. -/
theorem blkAt_abortEncode (k : Nat) (s : State) (b : Nat) :
    ∃ d c o, (abortEncode k s).blkAt b = { s.blkAt b with dctMode := d, cls := c, overBudget := o } ∧
      (s.csr.ctrl.auto248 = false → d = (s.blkAt b).dctMode) ∧
      (s.csr.ctrl.autoq = false → c = (s.blkAt b).cls ∧ o = (s.blkAt b).overBudget) := by
  have h1 := view_abortEncode (fun x : BlkMeta => ({ x with dctMode := false, cls := 0, overBudget := false } : BlkMeta)) k s b
    (fun _ _ _ => rfl) fun _ _ _ _ => ⟨rfl, rfl⟩
  have h2 := fun h : s.csr.ctrl.auto248 = false => view_abortEncode BlkMeta.dctMode k s b (fun h' => by rw [h] at h'; cases h')
    fun _ _ _ _ => ⟨rfl, rfl⟩
  have h3 := fun h : s.csr.ctrl.autoq = false => view_abortEncode (fun x => (x.cls, x.overBudget)) k s b (fun _ _ _ => rfl)
    fun h' => by rw [h] at h'; cases h'
  generalize (abortEncode k s).blkAt b = x at *
  refine ⟨x.dctMode, x.cls, x.overBudget, ?_, h2, fun h => by have := h3 h; simpa using this⟩
  exact congrArg (fun y : BlkMeta => { y with dctMode := x.dctMode, cls := x.cls, overBudget := x.overBudget }) h1

/-- What it leaves of a macroblock's record. -/
theorem mbAt_abortEncode (k : Nat) (s : State) (m : Nat) :
    ∃ q, (abortEncode k s).mbAt m = { s.mbAt m with qno := q } ∧ (s.csr.ctrl.autoq = false → q = (s.mbAt m).qno) := by
  have h1 := viewMb_abortEncode (fun x : MbMeta => ({ x with qno := 0 } : MbMeta)) k s m fun _ _ _ => rfl
  have h2 := fun h : s.csr.ctrl.autoq = false => viewMb_abortEncode MbMeta.qno k s m fun h' => by rw [h] at h'; cases h'
  generalize (abortEncode k s).mbAt m = x at *
  exact ⟨x.qno, congrArg (fun y : MbMeta => { y with qno := x.qno }) h1, h2⟩

theorem byte_abortEncode (k : Nat) (s : State) {a : Nat} (ha : a < 0x0400 ∨ 0x0400 + 400 ≤ a ∨ (a - 0x0400) % 80 < 3)
    (hc : a < 0x1000 ∨ 0x1000 + 3840 ≤ a) : (abortEncode k s).mem.byte a = s.mem.byte a := by
  have h1 : (forBlocks (abortCoefs k) (s.setMem (abortImage k s.mem))).mem.byte a = s.mem.byte a :=
    (byte_abortAllCoefs k _ hc).trans (byte_abortImage k s.mem ha)
  unfold abortEncode
  dsimp only
  generalize forBlocks (abortCoefs k) (s.setMem (abortImage k s.mem)) = u at *
  have h2 : (if s.csr.ctrl.auto248 = true then forBlocks (abortMode k) u else u).mem.byte a = s.mem.byte a := by
    split
    · rw [mem_forBlocks (f := abortMode k) (fun _ _ => rfl)]; exact h1
    · exact h1
  generalize (if s.csr.ctrl.auto248 = true then forBlocks (abortMode k) u else u) = v at *
  split
  · rw [mem_forMbs (f := abortQno k) (fun _ _ => rfl), mem_forBlocks (f := abortOver k) (fun _ _ => rfl),
      mem_forBlocks (f := abortClass k) (fun _ _ => rfl)]; exact h2
  · exact h2

/-! ### A command whose checks fail -/

/-- A command whose checks fail could write nothing (60 R342). -/
theorem abortWrites_of_error {i : Instr} {s : State} {e : ErrCode} (h : bodyOf i s = .error e) (k : Nat) :
    (abortWrites k i s).mem = s.mem ∧ (abortWrites k i s).blk = s.blk ∧ (abortWrites k i s).mb = s.mb := by
  have hblk : ∀ {b x}, 29 < b → (s.setBlk b x).blk = s.blk := fun {b x} hb => by
    unfold State.setBlk; exact Vector.setIfInBounds_eq_of_size_le (by omega)
  have hmb : ∀ {m x}, 4 < m → (s.setMb m x).mb = s.mb := fun {m x} hb => by
    unfold State.setMb; exact Vector.setIfInBounds_eq_of_size_le (by omega)
  have hco : ∀ b, 29 < b → abortCoefs k b s = s := fun b hb => by unfold abortCoefs; rw [if_neg (by omega)]
  have hac : ∀ b, 29 < b → abortAc k b s = s := fun b hb => by unfold abortAc; rw [if_neg (by omega)]
  cases i <;>
    simp only [bodyOf, brPeek, brSkip, bwPut, vlcDecSym, vlcBlkBits, zzToScan, zzToNat, place411, place420, placeMb, classify,
      qsearch, vlcEncSeg, encodeSeg, withBlock, withMb, require_eq_error, decide_eq_false_iff_not, decide_eq_true_eq, reduceCtorEq,
      and_false, or_false, Nat.not_le] at h
  case bwPut n =>
    simp only [abortWrites]
    unfold abortBwPut
    rw [if_neg (by rintro hc; rw [Bool.and_eq_true] at hc; rcases h with h | h <;> simp_all)]
    exact ⟨rfl, rfl, rfl⟩
  case placeMb m =>
    simp only [abortWrites]
    unfold abortXy
    rcases h with h | h
    · split
      · exact ⟨rfl, rfl, hmb h.1⟩
      · exact ⟨rfl, rfl, rfl⟩
    · rw [if_neg (by simp [h.2.1])]; exact ⟨rfl, rfl, rfl⟩
  case classify b => exact ⟨rfl, hblk h.1, rfl⟩
  case need248 b => exact ⟨rfl, hblk h.1, rfl⟩
  case qsearch m =>
    simp only [abortWrites]
    unfold abortQsearch
    rw [if_neg (by omega)]
    exact ⟨rfl, rfl, rfl⟩
  case vlcEncSeg =>
    simp only [abortWrites]
    unfold abortEncSeg
    rw [if_neg (by simp [h.1])]
    exact ⟨rfl, rfl, rfl⟩
  case encodeSeg => rw [encodePrepare_ok] at h; simp at h
  all_goals first
    | (simp only [abortWrites, hco _ h.1]; exact ⟨trivial, trivial, trivial⟩)
    | (simp only [abortWrites, hac _ h.1]; exact ⟨trivial, trivial, trivial⟩)
    | exact ⟨rfl, rfl, rfl⟩

end Sys2Proof.Machine
end

