-- ==== Sys2Proof/Laws/Decode.lean ====
section
/-! SUPPORT. The decoder read by opcode: which opcodes decode, what a decoded command looks like, and the bytes of a word. -/

namespace Sys2Proof.Machine

open Sys2Proof

theorem idx_wf (w : Word) : fitsIdx (idxField w) = true := by
  have h : (w.extractLsb' 8 5).toNat < 2 ^ 5 := (w.extractLsb' 8 5).isLt
  exact decide_eq_true h
theorem imm_wf (w : Word) : fitsImm (immField w) = true := by
  have h : (w.extractLsb' 16 16).toNat < 2 ^ 16 := (w.extractLsb' 16 16).isLt
  exact decide_eq_true h

/-- decodeWord as a function of the opcode number and the fields. -/
def decodeOp (k b n : Nat) (op : Byte) : Except DecodeError Instr :=
  match k with
  | 0x00 => .ok .nop
  | 0x01 => .ok .segClear
  | 0x08 => .ok (.brPeek n)
  | 0x09 => .ok (.brSkip n)
  | 0x0A => .ok (.bwPut n)
  | 0x10 => .ok (.vlcDecSym n)
  | 0x11 => .ok .vlcEncSym
  | 0x12 => .ok .vlcBits
  | 0x13 => .ok (.vlcBlkBits b)
  | 0x18 => .ok (.zzToScan b)
  | 0x19 => .ok (.zzToNat b)
  | 0x1A => .ok .place411
  | 0x1B => .ok .place420
  | 0x1C => .ok (.placeMb b)
  | 0x20 => .ok (.weightFwd b)
  | 0x21 => .ok (.weightInv b)
  | 0x22 => .ok (.classify b)
  | 0x23 => .ok (.qsearch b)
  | 0x24 => .ok (.quant b)
  | 0x25 => .ok (.dequant b)
  | 0x28 => .ok (.fdct b)
  | 0x29 => .ok (.idct b)
  | 0x2A => .ok (.need248 b)
  | 0x30 => .ok .vlcDecSeg
  | 0x31 => .ok .vlcEncSeg
  | 0x38 => .ok .decodeSeg
  | 0x39 => .ok .encodeSeg
  | _ => .error (.reservedOp op)
theorem decodeWord_eq (w : Word) : decodeWord w = decodeOp (opField w).toNat (idxField w) (immField w) (opField w) := rfl

/-- The opcodes of 30_encoding.md R105. -/
def opList : List Nat := [0x00, 0x01, 0x08, 0x09, 0x0A, 0x10, 0x11, 0x12, 0x13, 0x18, 0x19, 0x1A, 0x1B, 0x1C, 0x20, 0x21, 0x22, 0x23, 0x24, 0x25, 0x28, 0x29, 0x2A, 0x30, 0x31, 0x38, 0x39]

theorem decodeOp_error {k b n : Nat} {op : Byte} (h : k ∉ opList) : decodeOp k b n op = .error (.reservedOp op) := by
  unfold decodeOp
  split <;> first | rfl | exact absurd (by decide) h

theorem mem_opList_of_ok {k b n : Nat} {op : Byte} {i : Instr} (h : decodeOp k b n op = .ok i) : k ∈ opList := by
  by_contra hk
  rw [decodeOp_error hk] at h; exact absurd h (by simp)


theorem decodeOp_ok_wf {k b n : Nat} {op : Byte} {i : Instr} (h : decodeOp k b n op = .ok i) (hb : fitsIdx b = true) (hn : fitsImm n = true) :
   i.wf = true ∧ i.op.toNat = k := by
  unfold decodeOp at h
  split at h
  all_goals first | (injection h with h; subst h; exact ⟨by first | exact hb | exact hn | rfl, rfl⟩) | (injection h)

theorem decodeOp_fields {k b n b' n' : Nat} {op op' : Byte} {i : Instr} (h : decodeOp k b n op = .ok i)
   (hb : usesIdx i = true → b' = b) (hn : usesImm i = true → n' = n) : decodeOp k b' n' op' = .ok i := by
  unfold decodeOp at h
  split at h
  all_goals first | (injection h with h; subst h; first | rfl | (rw [hb rfl]; rfl) | (rw [hn rfl]; rfl)) | (injection h)

theorem decodeWord_of_op (w : Word) {op : Byte} (h : opField w = op) :
    decodeWord w = decodeOp op.toNat (idxField w) (immField w) op := by
  rw [decodeWord_eq, h]

theorem wordOfBytes_wordBytes (w : Word) :
    wordOfBytes (w.extractLsb' 0 8) (w.extractLsb' 8 8) (w.extractLsb' 16 8) (w.extractLsb' 24 8) = w := by
  unfold wordOfBytes
  ext i hi
  simp only [BitVec.getElem_append, BitVec.getElem_extractLsb', BitVec.getLsbD_append, BitVec.getLsbD_extractLsb']
  repeat' split
  all_goals (simp_all [BitVec.getLsbD_eq_getElem hi]; try omega)
  all_goals (rw [← BitVec.getLsbD_eq_getElem hi]; congr 1; omega)

end Sys2Proof.Machine
end

