-- ==== Sys2Proof/Laws/Host.lean ====
section
/-! SUPPORT. A host that drives DVCORE: one event of its list, and a command written to CMD and waited for, however long it takes. -/

namespace Sys2Proof.Machine

open Sys2Proof

theorem Reaches.refl (s : State) : Reaches s s := ⟨0, rfl⟩

theorem Reaches.head {s t u : State} (h : step s = .next t) (k : Reaches t u) : Reaches s u := by
  obtain ⟨n, hn⟩ := k
  exact ⟨n + 1, by rw [stepN, h]; exact hn⟩

theorem Reaches.trans {s t u : State} (h : Reaches s t) (k : Reaches t u) : Reaches s u := by
  obtain ⟨n, hn⟩ := h
  induction n generalizing s with
  | zero => cases hn; exact k
  | succ n ih =>
    rw [stepN] at hn
    cases hs : step s with
    | next v => rw [hs] at hn; exact .head hs (ih hn)
    | fault f => rw [hs] at hn; cases hn
    | refused r => rw [hs] at hn; cases hn

theorem State.setHost_self {s : State} {l : List HostEvent} (h : s.port.host = l) : s.setHost l = s := by subst h; rfl

/-- While IDLE, with nothing put off, the next event of the host's list happens (20 R81, log 6). -/
theorem reaches_event {s : State} (e : HostEvent) (rest : List HostEvent) (hp : s.phase = .idle) (hs : s.port.stalled = []) :
    Reaches (s.setHost (e :: rest)) (hostEvent e (s.setHost rest)) := by
  refine .head ?_ (.refl _)
  unfold step
  rw [State.setHost_phase, hp]
  show Host.Outcome.next (idleSlot _) = _
  unfold idleSlot hostSlot
  rw [State.setHost_stalled, hs, State.setHost_host]
  rfl

/-- A wait while IDLE is over at once (47 R324). -/
theorem reaches_await {s : State} (rest : List HostEvent) (hp : s.phase = .idle) (hs : s.port.stalled = []) :
    Reaches (s.setHost (.await :: rest)) (s.setHost rest) := by
  have h := reaches_event .await rest hp hs
  rwa [show hostEvent .await (s.setHost rest) = s.setHost rest by
    unfold hostEvent; dsimp only; rw [State.setHost_phase, hp]; rfl] at h

/-- A host that waits lets the slots of a command pass (70 R395). -/
theorem reaches_due {s : State} {rest : List HostEvent} (hp : s.phase = .busy) (hh : s.port.host = .await :: rest) :
    Reaches s { s with wait := 0 } := by
  obtain ⟨n, hn⟩ : ∃ n, s.wait = n := ⟨_, rfl⟩
  induction n generalizing s with
  | zero => rw [show ({ s with wait := 0 } : State) = s by rw [← hn]]; exact .refl s
  | succ n ih =>
    refine .head (t := { s with wait := n }) ?_ (ih (s := { s with wait := n }) hp hh rfl)
    rcases s with ⟨ph, w, csr, blk, mb, mem, ⟨host, stalled, replies, latency⟩, fresh⟩
    subst hp hh hn
    rfl

/-- `u` is `s` with the command `i` accepted and due: only CMD, the phase and the latency list differ (10 R25). -/
structure Entered (i : Instr) (s u : State) : Prop where
  mem : u.mem = s.mem
  blk : u.blk = s.blk
  mb : u.mb = s.mb
  csr : u.csr = { s.csr with cmd := encode i }
  stalled : u.port.stalled = s.port.stalled
  replies : u.port.replies = s.port.replies

/-- A host that writes a command to CMD and waits comes to the state the command leaves, however long it takes (10 R25, 60 R343,
R344, 70 R395). -/
theorem reaches_command {s : State} {i : Instr} (rest : List HostEvent) (hp : s.phase = .idle) (hs : s.port.stalled = [])
    (hd : decodeWord (encode i) = .ok i) :
    ∃ u v, Entered i s u ∧ exec i u = .next v ∧ v.phase = .idle ∧ v.port.stalled = [] ∧ v.port.replies = s.port.replies ∧
      Reaches (s.setHost (hostCmd i ++ rest)) (v.setHost rest) := by
  have h1 := reaches_event (hostW 0x0008 (encode i)) (.await :: rest) hp hs
  have hw : hostEvent (hostW 0x0008 (encode i)) (s.setHost (.await :: rest)) =
      acceptCommand (encode i) (s.setHost (.await :: rest)) := by
    show hostWrite 0x0008 .word (encode i) _ = _
    rw [hostWrite_csr (by decide)]
    show refuseBusy _ _ = _
    unfold refuseBusy
    rw [State.setHost_phase, if_neg (by rw [hp]; simp)]
  rw [hw] at h1
  have h2 := reaches_due (s := acceptCommand (encode i) (s.setHost (.await :: rest))) (rest := rest) rfl rfl
  have hu : Entered i s { acceptCommand (encode i) (s.setHost (.await :: rest)) with wait := 0 } := ⟨rfl, rfl, rfl, rfl, rfl, rfl⟩
  have hb : ({ acceptCommand (encode i) (s.setHost (.await :: rest)) with wait := 0 } : State).phase = .busy := rfl
  have hh : ({ acceptCommand (encode i) (s.setHost (.await :: rest)) with wait := 0 } : State).port.host = .await :: rest := rfl
  have hz : ({ acceptCommand (encode i) (s.setHost (.await :: rest)) with wait := 0 } : State).wait = 0 := rfl
  generalize ({ acceptCommand (encode i) (s.setHost (.await :: rest)) with wait := 0 } : State) = u at *
  obtain ⟨v, hv, hvp, hvport⟩ : ∃ v, exec i u = .next v ∧ v.phase = .idle ∧ v.port = u.port := by
    rcases exec_cases i u with ⟨w, hw, he⟩ | ⟨e, -, he⟩
    · exact ⟨_, he, rfl, (complete_port w).trans (bodyOf_untouched hw).port⟩
    · exact ⟨_, he, rfl, rfl⟩
  have hstep : step u = .next v := by
    unfold step
    rw [hb]
    dsimp only
    rw [if_pos hz]
    unfold runCaptured
    rw [hu.csr, hd]
    exact hv
  have hstall : v.port.stalled = [] := by rw [hvport, hu.stalled, hs]
  have h3 := reaches_await (s := v) rest hvp hstall
  rw [State.setHost_self (by rw [hvport, hh])] at h3
  exact ⟨u, v, hu, hv, hvp, hstall, by rw [hvport, hu.replies], (h1.trans h2).trans (.head hstep h3)⟩

/-- A host's read of a CSR while IDLE (10 R21). -/
theorem reaches_read {s : State} (a : BitVec 16) (rest : List HostEvent) (hp : s.phase = .idle) (hs : s.port.stalled = [])
    (hl : legalRegion a.toNat .word = some .csr) :
    Reaches (s.setHost (hostR a :: rest)) ((s.reply (readCsr s a.toNat)).setHost rest) := by
  have h := reaches_event (hostR a) rest hp hs
  have e : hostEvent (hostR a) (s.setHost rest) = (s.reply (readCsr s a.toNat)).setHost rest := by
    show hostRead a .word _ = _
    rw [hostRead_csr (s := s.setHost rest) hl (.inl hp)]; rfl
  rwa [e] at h

/-- A host's write of ARG0 while IDLE (10 R28). -/
theorem reaches_arg0 {s : State} (v : Word) (rest : List HostEvent) (hp : s.phase = .idle) (hs : s.port.stalled = []) :
    Reaches (s.setHost (hostW 0x0010 v :: rest)) (State.setHost { s with csr := { s.csr with arg0 := v } } rest) := by
  have h := reaches_event (hostW 0x0010 v) rest hp hs
  have e : hostEvent (hostW 0x0010 v) (s.setHost rest) = State.setHost { s with csr := { s.csr with arg0 := v } } rest := by
    show hostWrite 0x0010 .word v _ = _
    rw [hostWrite_csr (by decide)]
    show refuseBusy _ _ = _
    unfold refuseBusy
    rw [State.setHost_phase, if_neg (by rw [hp]; simp)]; rfl
  rwa [e] at h

/-- A host that reads word 0 of BLK[b] while IDLE and stores it back with the bits of `clear` cleared and those of `set` set changes
DCT_MODE and CLASS (10 R36, R38, 30 R109). -/
theorem reaches_rewrite {s : State} {b : Nat} (clear set : Word) (rest : List HostEvent) (hp : s.phase = .idle)
    (hs : s.port.stalled = []) (hb : b ≤ 29) :
    Reaches (s.setHost (.await :: hostR (blkWord0Addr b) :: .rewrite (blkWord0Addr b) clear set :: rest))
      (((s.reply (s.blkAt b).word0).setBlk b
        ((s.blkAt b).writeWord0 (((s.blkAt b).word0 &&& ~~~clear) ||| set))).setHost rest) := by
  obtain ⟨hl, ha⟩ := legal_blkWord (b := b) (by omega) 0 (by omega)
  simp only [Nat.mul_zero, Nat.add_zero] at hl ha
  have hm : (256 + 8 * b - 256) / 4 % 2 = 0 := by omega
  have hd : (256 + 8 * b - 256) / 8 = b := by omega
  have h1 := reaches_event (hostR (blkWord0Addr b)) (.rewrite (blkWord0Addr b) clear set :: rest) hp hs
  have e1 : hostEvent (hostR (blkWord0Addr b)) (s.setHost (.rewrite (blkWord0Addr b) clear set :: rest)) =
      (s.reply (s.blkAt b).word0).setHost (.rewrite (blkWord0Addr b) clear set :: rest) := by
    show hostRead (blkWord0Addr b) .word _ = _
    unfold blkWord0Addr
    rw [hostRead_legal (by exact hp) hl (by simp), ha]
    unfold readLegal readMeta
    simp only [hm, if_true, hd]; rfl
  rw [e1] at h1
  have h2 := reaches_event (s := s.reply (s.blkAt b).word0) (.rewrite (blkWord0Addr b) clear set) rest hp hs
  have e2 : hostEvent (.rewrite (blkWord0Addr b) clear set) ((s.reply (s.blkAt b).word0).setHost rest) =
      ((s.reply (s.blkAt b).word0).setBlk b
        ((s.blkAt b).writeWord0 (((s.blkAt b).word0 &&& ~~~clear) ||| set))).setHost rest := by
    show hostWrite (blkWord0Addr b) .word (((s.blkAt b).word0 &&& ~~~clear) ||| set) _ = _
    unfold blkWord0Addr
    rw [hostWrite_legal (by exact hp) hl (by simp), ha]
    unfold writeLegal writeMeta
    simp only [hm, if_true, hd]; rfl
  rw [e2] at h2
  exact ((reaches_await _ hp hs).trans h1).trans h2

/-- DCT_MODE and CLASS in word 0 of BLK[b] (10 R36). -/
theorem word0_fields (x : BlkMeta) : x.word0.getLsbD 0 = x.dctMode ∧ x.word0.extractLsb' 1 2 = x.cls := by
  constructor
  · unfold BlkMeta.word0
    rw [BitVec.getLsbD_append, BitVec.getLsbD_append, BitVec.getLsbD_append, BitVec.getLsbD_append, BitVec.getLsbD_append,
      BitVec.getLsbD_append, BitVec.getLsbD_append, BitVec.getLsbD_append]
    cases x.dctMode <;> simp [bit]
  · unfold BlkMeta.word0
    refine extract_eq fun i hi => ?_
    rw [BitVec.getLsbD_append, BitVec.getLsbD_append, BitVec.getLsbD_append, BitVec.getLsbD_append, BitVec.getLsbD_append,
      BitVec.getLsbD_append, BitVec.getLsbD_append, BitVec.getLsbD_append]
    have : i = 0 ∨ i = 1 := by omega
    rcases this with rfl | rfl <;> simp

/-- Reads of RES0, RES1 and RES2 after VLC_ENC_SYM hold the code (42 R161). -/
theorem codeOfReplies_encoded {c : Bits} {r0 r1 r2 : Word} (l : List Word) (h2 : r2.toNat = c.length) (h42 : c.length ≤ 42)
    (h0 : ∀ i, i < 32 → r0.getLsbD i = (decide (i < c.length) && c.getD (c.length - 1 - i) false))
    (h1 : ∀ i, i < 32 → r1.getLsbD i = (decide (32 + i < c.length) && c.getD (c.length - 1 - (32 + i)) false)) :
    codeOfReplies (r2 :: r1 :: r0 :: l) = c := by
  unfold codeOfReplies
  simp only [List.getD_cons_zero, List.getD_cons_succ]
  rw [h2]
  apply List.ext_getElem
  · exact bitsOfNat_length _ _
  · intro i h3 h4
    rw [bitsOfNat_length] at h3
    have hb : (r1 ++ r0).toNat.testBit (c.length - 1 - i) = c.getD i false := by
      rw [BitVec.testBit_toNat, BitVec.getLsbD_append]
      split
      · rename_i hlt
        rw [h0 _ hlt]
        simp only [show c.length - 1 - i < c.length by omega, decide_true, Bool.true_and]
        congr 1; omega
      · rename_i hge
        rw [h1 _ (by omega)]
        simp only [show 32 + (c.length - 1 - i - 32) < c.length by omega, decide_true, Bool.true_and]
        congr 1; omega
    rw [List.getD_eq_getElem _ _ h4] at hb
    rw [← hb]
    simp [bitsOfNat]

/-- The fields of ARG0 as PUT_SYM writes it (30 R102, R109). -/
theorem putSym_arg (run amp : Nat) (sign : Bool) (hr : run ≤ 63) (ha : amp ≤ 255) :
    let w : Word := 0#15 ++ (bit sign ++ (0#2 ++ (BitVec.ofNat 6 run ++ BitVec.ofNat 8 amp)))
    (w.extractLsb' 8 6).toNat = run ∧ (w.extractLsb' 0 8).toNat = amp ∧ w.getLsbD 16 = sign := by
  intro w
  refine ⟨?_, ?_, ?_⟩
  · have : w.extractLsb' 8 6 = BitVec.ofNat 6 run := by
      refine extract_eq fun i hi => ?_
      show (0#15 ++ (bit sign ++ (0#2 ++ (BitVec.ofNat 6 run ++ BitVec.ofNat 8 amp)))).getLsbD (8 + i) = _
      rw [BitVec.getLsbD_append, BitVec.getLsbD_append, BitVec.getLsbD_append, BitVec.getLsbD_append]
      simp [show 8 + i < 16 by omega, show 8 + i < 17 by omega, show 8 + i < 14 by omega]
    rw [this, BitVec.toNat_ofNat]; omega
  · have : w.extractLsb' 0 8 = BitVec.ofNat 8 amp := by
      refine extract_eq fun i hi => ?_
      show (0#15 ++ (bit sign ++ (0#2 ++ (BitVec.ofNat 6 run ++ BitVec.ofNat 8 amp)))).getLsbD (0 + i) = _
      rw [BitVec.getLsbD_append, BitVec.getLsbD_append, BitVec.getLsbD_append, BitVec.getLsbD_append]
      simp [show i < 16 by omega, show i < 17 by omega, show i < 14 by omega, hi]
    rw [this, BitVec.toNat_ofNat]; omega
  · show (0#15 ++ (bit sign ++ (0#2 ++ (BitVec.ofNat 6 run ++ BitVec.ofNat 8 amp)))).getLsbD 16 = _
    rw [BitVec.getLsbD_append, BitVec.getLsbD_append]
    simp [bit]

end Sys2Proof.Machine
end

