-- ==== Sys2Proof/Laws/PerInstr.lean ====
section
/-! SUPPORT. One lemma per command: the word of a well-formed command decodes to it (30_encoding.md R100, R101, R105, R108). -/

namespace Sys2Proof.Laws.RoundTrip

open Sys2Proof

/-- The command word decodes back. -/
def Statement (i : Instr) : Prop := i.wf = true → decodeWord (encode i) = .ok i

theorem opField_assemble (op : Byte) (b n : Nat) : opField (assemble op b n) = op := by
  unfold opField assemble
  ext i hi
  simp only [BitVec.getElem_extractLsb', BitVec.getLsbD_append]
  simp [hi, BitVec.getLsbD_eq_getElem hi, show i < 16 by omega, show i < 13 by omega]

theorem idxField_assemble (op : Byte) {b : Nat} (n : Nat) (h : b < 32) : idxField (assemble op b n) = b := by
  have : (assemble op b n).extractLsb' 8 5 = BitVec.ofNat 5 b := by
    unfold assemble
    ext i hi
    simp only [BitVec.getElem_extractLsb', BitVec.getLsbD_append]
    simp [BitVec.getLsbD_eq_getElem hi, show 8 + i < 13 by omega, show 8 + i < 16 by omega, hi]
  unfold idxField; rw [this]; simp; omega

theorem immField_assemble (op : Byte) (b : Nat) {n : Nat} (h : n < 65536) : immField (assemble op b n) = n := by
  have : (assemble op b n).extractLsb' 16 16 = BitVec.ofNat 16 n := by
    unfold assemble
    ext i hi
    simp only [BitVec.getElem_extractLsb', BitVec.getLsbD_append]
    simp [BitVec.getLsbD_eq_getElem hi]
  unfold immField; rw [this]; simp; omega

theorem wf_idx {b : Nat} (h : fitsIdx b = true) : b < 32 := by simpa [fitsIdx] using h

theorem wf_imm {n : Nat} (h : fitsImm n = true) : n < 65536 := by simpa [fitsImm] using h

theorem nop : Statement .nop := fun _ => by decide
theorem segClear : Statement .segClear := fun _ => by decide
theorem brPeek (n : Nat) : Statement (.brPeek n) := fun h => by
  simp [decodeWord, encode, opField_assemble, immField_assemble _ _ (wf_imm h), Instr.op]
theorem brSkip (n : Nat) : Statement (.brSkip n) := fun h => by
  simp [decodeWord, encode, opField_assemble, immField_assemble _ _ (wf_imm h), Instr.op]
theorem bwPut (n : Nat) : Statement (.bwPut n) := fun h => by
  simp [decodeWord, encode, opField_assemble, immField_assemble _ _ (wf_imm h), Instr.op]
theorem vlcDecSym (n : Nat) : Statement (.vlcDecSym n) := fun h => by
  simp [decodeWord, encode, opField_assemble, immField_assemble _ _ (wf_imm h), Instr.op]
theorem vlcEncSym : Statement .vlcEncSym := fun _ => by decide
theorem vlcBits : Statement .vlcBits := fun _ => by decide
theorem vlcBlkBits (b : Nat) : Statement (.vlcBlkBits b) := fun h => by
  simp [decodeWord, encode, opField_assemble, idxField_assemble _ _ (wf_idx h), Instr.op]
theorem zzToScan (b : Nat) : Statement (.zzToScan b) := fun h => by
  simp [decodeWord, encode, opField_assemble, idxField_assemble _ _ (wf_idx h), Instr.op]
theorem zzToNat (b : Nat) : Statement (.zzToNat b) := fun h => by
  simp [decodeWord, encode, opField_assemble, idxField_assemble _ _ (wf_idx h), Instr.op]
theorem place411 : Statement .place411 := fun _ => by decide
theorem place420 : Statement .place420 := fun _ => by decide
theorem placeMb (m : Nat) : Statement (.placeMb m) := fun h => by
  simp [decodeWord, encode, opField_assemble, idxField_assemble _ _ (wf_idx h), Instr.op]
theorem weightFwd (b : Nat) : Statement (.weightFwd b) := fun h => by
  simp [decodeWord, encode, opField_assemble, idxField_assemble _ _ (wf_idx h), Instr.op]
theorem weightInv (b : Nat) : Statement (.weightInv b) := fun h => by
  simp [decodeWord, encode, opField_assemble, idxField_assemble _ _ (wf_idx h), Instr.op]
theorem classify (b : Nat) : Statement (.classify b) := fun h => by
  simp [decodeWord, encode, opField_assemble, idxField_assemble _ _ (wf_idx h), Instr.op]
theorem qsearch (m : Nat) : Statement (.qsearch m) := fun h => by
  simp [decodeWord, encode, opField_assemble, idxField_assemble _ _ (wf_idx h), Instr.op]
theorem quant (b : Nat) : Statement (.quant b) := fun h => by
  simp [decodeWord, encode, opField_assemble, idxField_assemble _ _ (wf_idx h), Instr.op]
theorem dequant (b : Nat) : Statement (.dequant b) := fun h => by
  simp [decodeWord, encode, opField_assemble, idxField_assemble _ _ (wf_idx h), Instr.op]
theorem fdct (b : Nat) : Statement (.fdct b) := fun h => by
  simp [decodeWord, encode, opField_assemble, idxField_assemble _ _ (wf_idx h), Instr.op]
theorem idct (b : Nat) : Statement (.idct b) := fun h => by
  simp [decodeWord, encode, opField_assemble, idxField_assemble _ _ (wf_idx h), Instr.op]
theorem need248 (b : Nat) : Statement (.need248 b) := fun h => by
  simp [decodeWord, encode, opField_assemble, idxField_assemble _ _ (wf_idx h), Instr.op]
theorem vlcDecSeg : Statement .vlcDecSeg := fun _ => by decide
theorem vlcEncSeg : Statement .vlcEncSeg := fun _ => by decide
theorem decodeSeg : Statement .decodeSeg := fun _ => by decide
theorem encodeSeg : Statement .encodeSeg := fun _ => by decide

end Sys2Proof.Laws.RoundTrip
end

