-- ==== Sys2Proof/Laws/Position.lean ====
section
/-! SUPPORT. Macroblock positions: their ranges, and the fields of the word that holds one. -/

namespace Sys2Proof.Machine

open Sys2Proof

theorem xyWord_fields (x y : BitVec 10) : (xyWord x y).extractLsb' 0 10 = x ∧ (xyWord x y).extractLsb' 16 10 = y ∧
    (xyWord x y).extractLsb' 10 6 = 0 ∧ (xyWord x y).extractLsb' 26 6 = 0 := by
  unfold xyWord
  refine ⟨?_, ?_, ?_, ?_⟩
  all_goals refine BitVec.eq_of_getLsbD_eq fun i hi => ?_
  all_goals rw [BitVec.getLsbD_extractLsb']
  all_goals simp only [hi, decide_true, Bool.true_and, BitVec.getLsbD_append]
  all_goals interval_cases i <;> simp

theorem placePos_bounds {i j k imax : Nat} (hi : i ≤ imax) (h : imax ≤ 11) (hj : j ≤ 4) (hk : k ≤ 26) :
   (placePos411 i j k).1 < 1024 ∧ (placePos411 i j k).2 < 1024 ∧ (placePos420 i j k).1 < 1024 ∧ (placePos420 i j k).2 < 1024 := by
  have h1 : ∀ j : Fin 5, ∀ k : Fin 27, (placePos411 0 j k).1 ≤ 704 ∧ (placePos411 0 j k).2 ≤ 40 ∧ (placePos420 0 j k).1 ≤ 704 ∧
    (placePos420 0 j k).2 ≤ 40 := by decide +kernel
  have e1 : placePos411 i j k = ((placePos411 0 j k).1, 48 * i + (placePos411 0 j k).2) := by
    unfold placePos411; split <;> simp
  have e2 : placePos420 i j k = ((placePos420 0 j k).1, 48 * i + (placePos420 0 j k).2) := by
    unfold placePos420; simp
  have := h1 ⟨j, by omega⟩ ⟨k, by omega⟩
  rw [e1, e2]; simp only at this ⊢; omega

theorem posWord_fields {p : Nat × Nat} (h1 : p.1 < 1024) (h2 : p.2 < 1024) : ((posWord p).extractLsb' 0 10).toNat = p.1 ∧
    ((posWord p).extractLsb' 16 10).toNat = p.2 ∧ (posWord p).extractLsb' 10 6 = 0 ∧ (posWord p).extractLsb' 26 6 = 0 := by
  obtain ⟨a, b, c, d⟩ := xyWord_fields (BitVec.ofNat 10 p.1) (BitVec.ofNat 10 p.2)
  unfold posWord
  rw [a, b]; exact ⟨by simp; omega, by simp; omega, c, d⟩

end Sys2Proof.Machine
end

