-- ==== Sys2Proof/Laws/Resume.lean ====
section
/-! SUPPORT. A decode that runs out of bits goes on where it stopped: the result on a code cut in two is the result on the whole. -/

namespace Sys2Proof.Machine

open Sys2Proof

/-- The decode loop on all of `st`, with the bits it consumed. -/
def dloop (st : Bits) (w : Work) : Work × Nat := decodeLoop st.length st 0 w

theorem decodeLoop_shift (f : Nat) (st : Bits) (i : Nat) (w : Work) :
    decodeLoop f st i w = ((decodeLoop f st 0 w).1, i + (decodeLoop f st 0 w).2) := by
  induction f generalizing st i w with
  | zero => rfl
  | succ f ih =>
    simp only [decodeLoop]
    split
    · rfl
    · simp
    · split
      · simp
      · rw [ih _ (i + _), ih _ (0 + _)]; simp [Nat.add_assoc]

theorem decodeLoop_eq_dloop {f : Nat} {st : Bits} (i : Nat) (w : Work) (hf : st.length ≤ f) :
    decodeLoop f st i w = ((dloop st w).1, i + (dloop st w).2) := by
  rw [decodeLoop_fuel w f st.length st i hf (Nat.le_refl _), decodeLoop_shift]; rfl

/-- The state after one symbol. -/
def symStep (w : Work) (d : VlcSym) : Work :=
  { w with coefs := w.coefs.set ((zz w.mode).getD (w.pos + d.run) 0) (if d.sign then -(d.amp : Int) else d.amp),
           pos := w.pos + d.run + 1 }

/-- One round of the decode loop. -/
theorem dloop_eq (st : Bits) (w : Work) : dloop st w =
    let d := vlcDecode (st.take 16)
    match d.kind with
    | .nobits => (w, 0)
    | .eob => ({ w with fin := true, eob := true }, d.len)
    | .sym =>
      if 63 < w.pos + d.run then ({ w with fin := true, err := w.err + 1 }, d.len)
      else ((dloop (st.drop d.len) (symStep w d)).1, d.len + (dloop (st.drop d.len) (symStep w d)).2) := by
  unfold dloop
  cases st with
  | nil => simp [decodeLoop, vlcDecode_nil, noBits]
  | cons x st =>
    simp only [List.length_cons, decodeLoop]
    rcases vlcDecode_cases ((x :: st).take 16) with ⟨c, d, hd⟩ | hn
    · rw [hd.eq]
      cases hk : d.kind with
      | nobits => rfl
      | eob => simp
      | sym =>
        simp only
        split
        · simp
        · have hpos := hd.len_pos
          exact (decodeLoop_eq_dloop _ _ (by rw [List.length_drop, List.length_cons]; omega)).trans (by rw [Nat.zero_add]; rfl)
    · rw [hn]; rfl

/-- What `vlcDecode` reads does not change when more bits follow. -/
theorem vlcDecode_more {t c : Bits} {d : VlcSym} (h : Decoded (t.take 16) c d) (y : Bits) : vlcDecode ((t ++ y).take 16) = d := by
  obtain ⟨z, hz⟩ := h.isPrefix
  have hc : c.length ≤ 16 := by rw [h.len]; exact h.len_le
  have ht : t = c ++ t.drop c.length := by
    have hp : c <+: t := ⟨z ++ t.drop 16, by rw [← List.append_assoc, hz, List.take_append_drop]⟩
    obtain ⟨u, hu⟩ := hp
    rw [← hu]; simp
  rw [ht, List.append_assoc, take_sixteen_append hc]
  exact h.stable _

/-- The code `st` from `w` on leads to `v`, whatever follows it, and is consumed exactly. -/
def Finishes (st : Bits) (w v : Work) : Prop := ∀ y, dloop (st ++ y) w = (v, st.length)

/-- A code cut in two: on the first part the loop stops unfinished, and the bits it left with the second part finish the code. -/
theorem dloop_partial (n : Nat) (c r : Bits) (w v : Work) (hn : c.length ≤ n) (h : Finishes (c ++ r) w v) (hr : r ≠ [])
    (hw : w.fin = false) :
    (dloop c w).2 ≤ c.length ∧ (dloop c w).1.fin = false ∧ (dloop c w).1.carry = w.carry ∧
      Finishes (c.drop (dloop c w).2 ++ r) (dloop c w).1 v := by
  have hrl : 0 < r.length := List.length_pos_iff.2 hr
  induction n generalizing c w with
  | zero =>
    obtain rfl : c = [] := List.length_eq_zero_iff.1 (by omega)
    have : dloop [] w = (w, 0) := rfl
    rw [this]; exact ⟨Nat.le_refl _, hw, rfl, h⟩
  | succ n ih =>
    rcases vlcDecode_cases (c.take 16) with ⟨k, d, hd⟩ | hno
    · have hlen : d.len ≤ c.length := by
        have h1 := hd.isPrefix.length_le; rw [hd.len, List.length_take] at h1; omega
      have hpos := hd.len_pos
      have hfull := fun y => dloop_eq ((c ++ r) ++ y) w
      have hmore : ∀ y, vlcDecode (((c ++ r) ++ y).take 16) = d := fun y => by
        rw [List.append_assoc]; exact vlcDecode_more hd _
      have h0 := h []
      have hf0 := hfull []
      rw [h0, hmore] at hf0
      have hloop := dloop_eq c w
      rw [hd.eq] at hloop
      cases hk : d.kind with
      | nobits => exact absurd hk hd.kind
      | eob =>
        simp only [hk] at hf0
        have := (Prod.mk.inj hf0).2; simp only [List.length_append] at this; omega
      | sym =>
        simp only [hk] at hf0 hloop
        split at hf0
        · have := (Prod.mk.inj hf0).2; simp only [List.length_append] at this; omega
        · rename_i hp
          rw [if_neg hp] at hloop
          have hrest : Finishes (c.drop d.len ++ r) (symStep w d) v := fun y => by
            have hy := hfull y
            rw [h y, hmore] at hy
            simp only [hk, if_neg hp] at hy
            have hdrop : ((c ++ r) ++ y).drop d.len = c.drop d.len ++ r ++ y := by
              rw [List.append_assoc, List.drop_append_of_le_length hlen, List.append_assoc]
            rw [hdrop] at hy
            have h1 := (Prod.mk.inj hy).1
            have h2 := (Prod.mk.inj hy).2
            refine Prod.ext h1.symm ?_
            simp only [List.length_append, List.length_drop] at h2 ⊢
            omega
          obtain ⟨i1, i2, i3, i4⟩ := ih (c.drop d.len) (symStep w d) (by rw [List.length_drop]; omega) hrest hw
          rw [hloop]
          refine ⟨?_, i2, i3, ?_⟩
          · rw [List.length_drop] at i1; dsimp only; omega
          · dsimp only; rw [← List.drop_drop]; exact i4
    · have : dloop c w = (w, 0) := by rw [dloop_eq, hno]; rfl
      rw [this]; exact ⟨Nat.zero_le _, hw, rfl, h⟩

theorem decodeRun_eq (w : Work) (bits : Bits) : decodeRun w bits =
    if (dloop (w.carry ++ bits) w).1.fin then ({ (dloop (w.carry ++ bits) w).1 with carry := [] },
      (dloop (w.carry ++ bits) w).2 - w.carry.length)
    else ({ (dloop (w.carry ++ bits) w).1 with carry := (w.carry ++ bits).drop (dloop (w.carry ++ bits) w).2 }, bits.length) := rfl

/-- The carry has no part in a run of the loop. -/
theorem dloop_carry (n : Nat) (st : Bits) (w : Work) (k : Bits) (hn : st.length ≤ n) :
    dloop st { w with carry := k } = ({ (dloop st w).1 with carry := k }, (dloop st w).2) := by
  induction n generalizing st w with
  | zero =>
    obtain rfl : st = [] := List.length_eq_zero_iff.1 (by omega)
    rfl
  | succ n ih =>
    rw [dloop_eq st w, dloop_eq st { w with carry := k }]
    rcases vlcDecode_cases (st.take 16) with ⟨c, d, hd⟩ | hno
    · have hlen : d.len ≤ st.length := by
        have h1 := hd.isPrefix.length_le; rw [hd.len, List.length_take] at h1; omega
      have hpos := hd.len_pos
      rw [hd.eq]
      dsimp only
      cases hk : d.kind with
      | nobits => rfl
      | eob => rfl
      | sym =>
        dsimp only
        split
        · rfl
        · have := ih (st.drop d.len) (symStep w d) (by rw [List.length_drop]; omega)
          show ((dloop (st.drop d.len) { symStep w d with carry := k }).1, _ +
            (dloop (st.drop d.len) { symStep w d with carry := k }).2) = _
          rw [this]
    · rw [hno]; rfl

/-- A block's working state with the code `r` still to come: finished when `r` is empty, and its coefficients then are `tgt`. -/
def Mirror (tgt : List Int) (w : Work) (r : Bits) : Prop :=
  if r = [] then w.fin = true ∧ w.eob = true ∧ w.err = 0 ∧ w.coefs = tgt
  else w.fin = false ∧ ∃ v : Work, (v.fin = true ∧ v.eob = true ∧ v.err = 0 ∧ v.coefs = tgt) ∧ Finishes (w.carry ++ r) w v

theorem mirror_nil {tgt : List Int} {w : Work} : Mirror tgt w [] ↔ w.fin = true ∧ w.eob = true ∧ w.err = 0 ∧ w.coefs = tgt := by
  unfold Mirror; rw [if_pos rfl]

/-- The rest of a code ends it, and nothing after it is read. -/
theorem mirror_finish {tgt : List Int} {w : Work} {r : Bits} (h : Mirror tgt w r) (hr : r ≠ []) (y : Bits) :
    (decodeRun w (r ++ y)).2 = r.length ∧ Mirror tgt (decodeRun w (r ++ y)).1 [] := by
  unfold Mirror at h
  rw [if_neg hr] at h
  obtain ⟨-, v, ⟨h1, h2, h3, h4⟩, hv⟩ := h
  rw [decodeRun_eq, ← List.append_assoc, hv y]
  rw [if_pos (show (v, (w.carry ++ r).length).1.fin = true from h1), mirror_nil]
  exact ⟨by simp, h1, h2, h3, h4⟩

/-- A part of the rest is consumed whole, and the block waits for what is left. -/
theorem mirror_partial {tgt : List Int} {w : Work} {x r : Bits} (h : Mirror tgt w (x ++ r)) (hr : r ≠ []) :
    (decodeRun w x).2 = x.length ∧ Mirror tgt (decodeRun w x).1 r := by
  unfold Mirror at h ⊢
  rw [if_neg (by simp [hr])] at h
  rw [if_neg hr]
  obtain ⟨hw, v, hd, hv⟩ := h
  rw [← List.append_assoc] at hv
  obtain ⟨i1, i2, i3, i4⟩ := dloop_partial _ (w.carry ++ x) r w v (Nat.le_refl _) hv hr hw
  rw [decodeRun_eq, i2]
  simp only [Bool.false_eq_true, if_false]
  refine ⟨trivial, i2, { v with carry := (w.carry ++ x).drop (dloop (w.carry ++ x) w).2 }, hd, fun y => ?_⟩
  rw [dloop_carry _ _ _ _ (Nat.le_refl _), i4 y]

/-- The code of the entries of a block, or of the first of them, from the block's working state after its header (46 R286). -/
theorem mirror_start {c : List Int} {mode : Bool} {es : List Entry} {w : Work} (hpre : es <+: blockEntries c mode)
    (ha : ∀ n, 1 ≤ n → n ≤ 63 → (at0 c n).natAbs ≤ 255) (hm : w.mode = mode) (hp : w.pos = 1) (hf : w.fin = false)
    (he : w.err = 0) (hk : w.carry = []) (hco : w.coefs = (List.replicate 64 0).set 0 (at0 c 0)) :
    Mirror (fillEntries (zz mode) 1 es ((List.replicate 64 0).set 0 (at0 c 0))) w (blockCode es) := by
  subst hm
  obtain ⟨tl, htl⟩ := hpre
  have hes : ∀ e ∈ es, e.amp ≠ 0 ∧ e.amp ≤ 255 := fun e h => by
    have h' : e ∈ blockEntries c w.mode := by rw [← htl]; exact List.mem_append_left _ h
    exact ⟨(entriesFrom_bounds (fun s hs => by simp at hs; omega) e h').1, blockEntries_amp_le w.mode ha e h'⟩
  have hruns := entriesFrom_runs c (zz w.mode) 63 1 0 rfl (by omega)
  have hruns' : w.pos + (es.map fun e => e.run + 1).sum ≤ 64 := by
    have : (blockEntries c w.mode).map (fun e => e.run + 1) = es.map (fun e => e.run + 1) ++ tl.map (fun e => e.run + 1) := by
      rw [← htl, List.map_append]
    have h2 : ((blockEntries c w.mode).map fun e => e.run + 1).sum = (es.map fun e => e.run + 1).sum +
        (tl.map fun e => e.run + 1).sum := by rw [this, List.sum_append]
    have h3 : 0 + 1 + ((blockEntries c w.mode).map fun e => e.run + 1).sum ≤ 64 := hruns
    omega
  have hne : blockCode es ≠ [] := by simp [blockCode, eobCode]
  unfold Mirror
  rw [if_neg hne]
  refine ⟨hf, { w with
    coefs := fillEntries (zz w.mode) w.pos es w.coefs
    pos := w.pos + (es.map fun e => e.run + 1).sum
    fin := true
    eob := true }, ⟨rfl, rfl, he, by rw [hp, hco]⟩, fun y => ?_⟩
  have hl := decodeLoop_entries es (eobCode ++ y) w _ _ 0 hes (by omega) (by rw [hco]; simp) hruns'
    (fun q hq hq0 => by rw [hco]; exact start_zero w.mode hq (by omega)) (Nat.le_refl _) (Nat.le_refl _)
  rw [decodeLoop_eob (Nat.le_refl _)] at hl
  rw [show w.carry ++ blockCode es = blockCode es by rw [hk]; rfl]
  unfold dloop blockCode
  rw [List.append_assoc]
  refine hl.trans (Prod.ext rfl ?_)
  simp [eobCode]

end Sys2Proof.Machine
end

