-- ==== Sys2Proof/Laws/SegmentRoundTrip.lean ====
section
/-! SUPPORT. The decode of an encoded segment: both sides build the same pools in the same order, so every block reads its own code
(46 R301). -/

namespace Sys2Proof.Machine

open Sys2Proof

/-! ### The placement as one list of positions and bits -/

/-- Bits put one after another at the positions listed. -/
def putAll (g : Image) (l : List (Nat × Bool)) : Image := l.foldl (fun g x => imgPut g x.1 x.2) g

theorem imgWrite_eq_putAll (g : Image) (ps : List Nat) (s : Bits) : imgWrite g ps s = putAll g (ps.zip s) := rfl

theorem putAll_append (g : Image) (l k : List (Nat × Bool)) : putAll g (l ++ k) = putAll (putAll g l) k := List.foldl_append

theorem imgBit_putAll_ne (g : Image) (l : List (Nat × Bool)) {q : Nat} (hb : ∀ x ∈ l, x.1 < 3200) (hq : q < 3200)
    (h : q ∉ l.map Prod.fst) : imgBit (putAll g l) q = imgBit g q := by
  induction l generalizing g with
  | nil => rfl
  | cons x l ih =>
    simp only [List.map_cons, List.mem_cons, not_or] at h
    show imgBit (putAll (imgPut g x.1 x.2) l) q = _
    rw [ih _ (fun y hy => hb y (List.mem_cons_of_mem _ hy)) h.2, imgBit_put _ _ (hb x List.mem_cons_self) hq, if_neg h.1]

theorem imgBit_putAll (g : Image) (l : List (Nat × Bool)) (hb : ∀ x ∈ l, x.1 < 3200) (hn : (l.map Prod.fst).Nodup) :
    ∀ x ∈ l, imgBit (putAll g l) x.1 = x.2 := by
  induction l generalizing g with
  | nil => simp
  | cons y l ih =>
    rw [List.map_cons, List.nodup_cons] at hn
    intro x hx
    show imgBit (putAll (imgPut g y.1 y.2) l) x.1 = _
    have hb' : ∀ z ∈ l, z.1 < 3200 := fun z hz => hb z (List.mem_cons_of_mem _ hz)
    rcases List.mem_cons.1 hx with rfl | hx
    · rw [imgBit_putAll_ne _ _ hb' (hb x List.mem_cons_self) hn.1, imgBit_put _ _ (hb x List.mem_cons_self) (hb x List.mem_cons_self),
        if_pos rfl]
    · exact ih _ hb' hn.2 x hx

/-- The positions and bits that one lending pass writes. -/
def lendPairs : List Bits → List Nat → List (Nat × Bool)
  | [], _ => []
  | r :: rs, q =>
    (q.take (min r.length q.length)).zip (r.take (min r.length q.length)) ++ lendPairs rs (q.drop (min r.length q.length))

/-- The rests that one lending pass leaves. -/
def lendRests (rs : List Bits) (q : List Nat) : List Bits := (lendPlaces rs q 0).1

/-- The positions that one lending pass leaves. -/
def lendLeft (rs : List Bits) (q : List Nat) : List Nat := (lendPlaces rs q 0).2.1

theorem lendPlaces_any (rs : List Bits) (q : List Nat) (g h : Image) :
    (lendPlaces rs q g).1 = (lendPlaces rs q h).1 ∧ (lendPlaces rs q g).2.1 = (lendPlaces rs q h).2.1 := by
  induction rs generalizing q g h with
  | nil => exact ⟨rfl, rfl⟩
  | cons r rs ih =>
    obtain ⟨i1, i2⟩ := ih (q.drop (min r.length q.length)) (imgWrite g (q.take (min r.length q.length)) (r.take
      (min r.length q.length))) (imgWrite h (q.take (min r.length q.length)) (r.take (min r.length q.length)))
    refine ⟨?_, i2⟩
    show _ :: _ = _ :: _
    rw [i1]

theorem lendPlaces_eq (rs : List Bits) (q : List Nat) (g : Image) :
    lendPlaces rs q g = (lendRests rs q, lendLeft rs q, putAll g (lendPairs rs q)) := by
  have himg : ∀ (rs : List Bits) (q : List Nat) (g : Image), (lendPlaces rs q g).2.2 = putAll g (lendPairs rs q) := by
    intro rs
    induction rs with
    | nil => intro _ _; rfl
    | cons r rs ih =>
      intro q g
      unfold lendPlaces lendPairs
      dsimp only
      rw [ih, putAll_append, imgWrite_eq_putAll]
  obtain ⟨h1, h2⟩ := lendPlaces_any rs q g 0
  exact Prod.ext h1 (Prod.ext h2 (himg rs q g))

theorem lendRests_cons (r : Bits) (rs : List Bits) (q : List Nat) : lendRests (r :: rs) q =
    r.drop (min r.length q.length) :: lendRests rs (q.drop (min r.length q.length)) := by
  unfold lendRests; rw [lendPlaces.eq_2]; exact congrArg _ (lendPlaces_any _ _ _ _).1

theorem lendLeft_cons (r : Bits) (rs : List Bits) (q : List Nat) : lendLeft (r :: rs) q =
    lendLeft rs (q.drop (min r.length q.length)) := by
  unfold lendLeft; rw [lendPlaces.eq_2]; exact (lendPlaces_any _ _ _ _).2

theorem map_fst_zip_take {α : Type} (a : List Nat) (b : List α) : (a.zip b).map Prod.fst = a.take b.length := by
  induction a generalizing b with
  | nil => simp
  | cons x a ih => cases b with
    | nil => simp
    | cons y b => simp [ih]

theorem zip_take {α : Type} (a : List Nat) (b : List α) : (a.take b.length).zip (b.take a.length) = a.zip b := by
  induction a generalizing b with
  | nil => simp
  | cons x a ih => cases b with
    | nil => simp
    | cons y b => simp [ih]

theorem read_zip {rd : Nat → Bool} {a : List Nat} {b : Bits} (hl : a.length = b.length) (h : ∀ x ∈ a.zip b, rd x.1 = x.2) :
    a.map rd = b := by
  induction a generalizing b with
  | nil => exact (List.length_eq_zero_iff.1 hl.symm).symm
  | cons x a ih =>
    cases b with
    | nil => simp at hl
    | cons y b =>
      rw [List.map_cons, ih (by simpa using hl) fun z hz => h z (by rw [List.zip_cons_cons]; exact List.mem_cons_of_mem _ hz)]
      rw [h (x, y) (by simp)]

/-- A pass uses the positions in order: those written, then those left. -/
theorem lendPairs_positions (rs : List Bits) (q : List Nat) : (lendPairs rs q).map Prod.fst ++ lendLeft rs q = q := by
  induction rs generalizing q with
  | nil => rfl
  | cons r rs ih =>
    rw [lendLeft_cons, lendPairs, List.map_append, List.append_assoc, ih, map_fst_zip_take, List.length_take]
    rw [List.take_take, show min (min (min r.length q.length) r.length) (min r.length q.length) = min r.length q.length by omega,
      List.take_append_drop]

theorem lend_sums (rs : List Bits) (q : List Nat) :
    ((lendRests rs q).map List.length).sum = (rs.map List.length).sum - q.length ∧
    (lendLeft rs q).length = q.length - (rs.map List.length).sum := by
  induction rs generalizing q with
  | nil => exact ⟨by show 0 = 0 - _; omega, by show q.length = q.length - 0; omega⟩
  | cons r rs ih =>
    obtain ⟨i1, i2⟩ := ih (q.drop (min r.length q.length))
    rw [lendRests_cons, lendLeft_cons, i2, List.map_cons, List.sum_cons, i1, List.map_cons, List.sum_cons, List.length_drop,
      List.length_drop]
    omega

theorem lendRests_length (rs : List Bits) (q : List Nat) : (lendRests rs q).length = rs.length := by
  induction rs generalizing q with
  | nil => rfl
  | cons r rs ih => rw [lendRests_cons, List.length_cons, ih, List.length_cons]

/-! ### The decoder's pools against the encoder's -/

/-- Blocks in order, each waiting for its rest. -/
def Mirrors : List (List Int) → List Work → List Bits → Prop
  | [], [], [] => True
  | t :: ts, w :: ws, r :: rs => Mirror t w r ∧ Mirrors ts ws rs
  | _, _, _ => False

theorem Mirrors.append {ts ts' : List (List Int)} {ws ws' : List Work} {rs rs' : List Bits} (h : Mirrors ts ws rs)
    (h' : Mirrors ts' ws' rs') : Mirrors (ts ++ ts') (ws ++ ws') (rs ++ rs') := by
  induction ts generalizing ws rs with
  | nil =>
    cases ws <;> cases rs <;> first | exact h' | exact h.elim
  | cons t ts ih =>
    cases ws with
    | nil => exact h.elim
    | cons w ws =>
      cases rs with
      | nil => exact h.elim
      | cons r rs => exact ⟨h.1, ih h.2⟩

theorem Mirrors.flatMap {f : Nat → List (List Int)} {g : Nat → List Work} {k : Nat → List Bits} {l : List Nat}
    (h : ∀ m ∈ l, Mirrors (f m) (g m) (k m)) : Mirrors (l.flatMap f) (l.flatMap g) (l.flatMap k) := by
  induction l with
  | nil => exact trivial
  | cons m l ih =>
    simp only [List.flatMap_cons]
    exact (h m List.mem_cons_self).append (ih fun m' hm => h m' (List.mem_cons_of_mem _ hm))

theorem Mirrors.map {f : Nat → List Int} {g : Nat → Work} {k : Nat → Bits} {l : List Nat}
    (h : ∀ m ∈ l, Mirror (f m) (g m) (k m)) : Mirrors (l.map f) (l.map g) (l.map k) := by
  induction l with
  | nil => exact trivial
  | cons m l ih => exact ⟨h m List.mem_cons_self, ih fun m' hm => h m' (List.mem_cons_of_mem _ hm)⟩

theorem Mirrors.done {ts : List (List Int)} {ws : List Work} {rs : List Bits} (h : Mirrors ts ws rs)
    (h0 : (rs.map List.length).sum = 0) : ∀ b, b < ts.length → Mirror (ts.getD b []) (ws.getD b default) [] := by
  induction ts generalizing ws rs with
  | nil => intro b hb; simp at hb
  | cons t ts ih =>
    cases ws with
    | nil => exact h.elim
    | cons w ws =>
      cases rs with
      | nil => exact h.elim
      | cons r rs =>
        rw [List.map_cons, List.sum_cons] at h0
        obtain rfl : r = [] := List.length_eq_zero_iff.1 (by omega)
        intro b hb
        cases b with
        | zero => exact h.1
        | succ b => exact ih h.2 (by simpa using h0) b (by simpa using hb)

/-- One lending pass of the decoder against one of the encoder: where the bits written read back, the blocks take the same bits and
the same are left (46 R288, R289, R297). -/
theorem lend_mirrors {rd : Nat → Bool} {ts : List (List Int)} {ws : List Work} {rs : List Bits} {q : List Nat}
    (h : Mirrors ts ws rs) (hr : ∀ x ∈ lendPairs rs q, rd x.1 = x.2) :
    (lend ws (q.map rd)).2 = (lendLeft rs q).map rd ∧ Mirrors ts (lend ws (q.map rd)).1 (lendRests rs q) := by
  induction ts generalizing ws rs q with
  | nil =>
    cases ws <;> cases rs <;> first | exact ⟨rfl, trivial⟩ | exact h.elim
  | cons t ts ih =>
    cases ws with
    | nil => exact h.elim
    | cons w ws =>
      cases rs with
      | nil => exact h.elim
      | cons r rs =>
        rw [lendRests_cons, lendLeft_cons]
        rw [lendPairs] at hr
        have hr2 := fun x hx => hr x (List.mem_append_right _ hx)
        have hread : (q.take (min r.length q.length)).map rd = r.take (min r.length q.length) :=
          read_zip (by rw [List.length_take, List.length_take]; omega) fun x hx => hr x (List.mem_append_left _ hx)
        obtain ⟨i1, i2⟩ := ih h.2 hr2
        have hq : q.map rd = r.take (min r.length q.length) ++ (q.drop (min r.length q.length)).map rd := by
          rw [← hread, ← List.map_append, List.take_append_drop]
        by_cases he : r = []
        · subst he
          have hf := (mirror_nil.1 h.1).1
          simp only [List.length_nil, Nat.zero_min, List.drop_zero, List.drop_nil] at i1 i2 ⊢
          simp only [lend, hf, if_true]
          exact ⟨i1, h.1, i2⟩
        · have hf : w.fin = false := by have := h.1; unfold Mirror at this; rw [if_neg he] at this; exact this.1
          simp only [lend, hf, Bool.false_eq_true, if_false]
          by_cases hk : r.length ≤ q.length
          · rw [show min r.length q.length = r.length by omega] at hq i1 i2 ⊢
            rw [List.take_length] at hq
            obtain ⟨j1, j2⟩ := mirror_finish h.1 he ((q.drop r.length).map rd)
            rw [hq, j1, List.drop_left, List.drop_length]
            exact ⟨i1, j2, i2⟩
          · rw [show min r.length q.length = q.length by omega] at hq i1 i2 ⊢
            rw [List.drop_length, List.map_nil, List.append_nil] at hq
            have hne : r.drop q.length ≠ [] := by
              intro h0; have := congrArg List.length h0; simp at this; omega
            obtain ⟨j1, j2⟩ := mirror_partial (x := r.take q.length) (r := r.drop q.length)
              (by rw [List.take_append_drop]; exact h.1) hne
            rw [List.drop_length] at i1 i2 ⊢
            rw [hq, j1, List.drop_length]
            exact ⟨i1, j2, i2⟩

/-! ### The whole placement -/

/-- Block 6m + t for t = 0..5. -/
def mbBlocks (m : Nat) : List Nat := (List.range 6).map fun t => 6 * m + t

def mbPool (codes : List Bits) (m : Nat) : List Nat := (mbBlocks m).flatMap (donorsOf codes)
def mbNeed (codes : List Bits) (m : Nat) : List Bits := (mbBlocks m).map (restOf codes)

theorem placeMbs_eq (codes : List Bits) (ms : List Nat) (g : Image) : placeMbs codes ms g =
    (ms.flatMap fun m => lendRests (mbNeed codes m) (mbPool codes m), ms.flatMap fun m => lendLeft (mbNeed codes m) (mbPool codes m),
      putAll g (ms.flatMap fun m => lendPairs (mbNeed codes m) (mbPool codes m))) := by
  induction ms generalizing g with
  | nil => rfl
  | cons m ms ih =>
    unfold placeMbs
    dsimp only
    have := lendPlaces_eq (mbNeed codes m) (mbPool codes m) g
    unfold mbNeed mbPool mbBlocks at this
    rw [this]
    dsimp only
    rw [ih, List.flatMap_cons, List.flatMap_cons, List.flatMap_cons, putAll_append]
    rfl

def ownPairs (codes : List Bits) (b : Nat) : List (Nat × Bool) := (ownArea b).zip (codes.getD b [])

def lastNeed (codes : List Bits) : List Bits := (List.range 5).flatMap fun m => lendRests (mbNeed codes m) (mbPool codes m)
def lastPool (codes : List Bits) : List Nat := (List.range 5).flatMap fun m => lendLeft (mbNeed codes m) (mbPool codes m)

/-- Every position and bit the placement writes, in order. -/
def allPairs (codes : List Bits) : List (Nat × Bool) :=
  (List.range 30).flatMap (ownPairs codes) ++ ((List.range 5).flatMap (fun m => lendPairs (mbNeed codes m) (mbPool codes m)) ++
    lendPairs (lastNeed codes) (lastPool codes))

theorem placeCodes_eq (codes : List Bits) (g : Image) : placeCodes codes g = putAll g (allPairs codes) := by
  have hown : placeOwn codes g = putAll g ((List.range 30).flatMap (ownPairs codes)) := by
    unfold placeOwn
    generalize List.range 30 = l
    induction l generalizing g with
    | nil => rfl
    | cons b l ih => rw [List.foldl_cons, ih, List.flatMap_cons, putAll_append]; rfl
  unfold placeCodes
  dsimp only
  rw [hown, placeMbs_eq, lendPlaces_eq]
  unfold allPairs
  rw [putAll_append, putAll_append]
  rfl

theorem donors_eq (codes : List Bits) (b : Nat) : (ownPairs codes b).map Prod.fst ++ donorsOf codes b = ownArea b := by
  unfold ownPairs donorsOf
  rw [map_fst_zip_take]
  split
  · exact List.take_append_drop _ _
  · rename_i h
    have : (ownArea b).length ≤ (codes.getD b []).length := by
      by_contra hl
      exact h (List.drop_eq_nil_of_le (by omega))
    rw [List.take_of_length_le this, List.append_nil]

theorem blocks_eq : (List.range 5).flatMap mbBlocks = List.range 30 := by decide

theorem flatMap_perm {α : Type} (l : List Nat) (f g : Nat → List α) :
    List.Perm (l.flatMap f ++ l.flatMap g) (l.flatMap fun x => f x ++ g x) := by
  induction l with
  | nil => exact .nil
  | cons x l ih =>
    simp only [List.flatMap_cons, List.append_assoc]
    refine List.Perm.append_left _ ?_
    rw [← List.append_assoc]
    refine (List.perm_append_comm.append_right _).trans ?_
    rw [List.append_assoc]
    exact List.Perm.append_left _ ih

theorem areas_nodup : ((List.range 30).flatMap ownArea).Nodup := by
  rw [List.nodup_flatMap]
  refine ⟨fun b _ => List.nodup_range', ?_⟩
  refine List.Nodup.pairwise_of_forall_ne List.nodup_range fun b hb c hc hne => ?_
  rw [List.mem_range] at hb hc
  intro x hx hy
  have h1 := ownArea_mem hx
  have h2 := ownArea_mem hy
  have h3 := area_facts hb hc
  have h4 := area_facts hc hb
  have := h3.1 hne
  omega

/-- No position is written twice, and each lies in an area. -/
theorem allPairs_positions (codes : List Bits) : ((allPairs codes).map Prod.fst).Nodup ∧
    ∀ x ∈ allPairs codes, ∃ b, b < 30 ∧ x.1 ∈ ownArea b := by
  have hperm : List.Perm ((allPairs codes).map Prod.fst ++ lendLeft (lastNeed codes) (lastPool codes))
      ((List.range 30).flatMap ownArea) := by
    have h1 : (List.range 30).flatMap ownArea = (List.range 30).flatMap fun b => (ownPairs codes b).map Prod.fst ++ donorsOf codes b :=
      List.flatMap_congr fun b _ => (donors_eq codes b).symm
    have h2 : (List.range 30).flatMap (donorsOf codes) = (List.range 5).flatMap (mbPool codes) := by
      rw [← blocks_eq, List.flatMap_assoc]; rfl
    have h3 : (List.range 5).flatMap (mbPool codes) = (List.range 5).flatMap fun m =>
        (lendPairs (mbNeed codes m) (mbPool codes m)).map Prod.fst ++ lendLeft (mbNeed codes m) (mbPool codes m) :=
      List.flatMap_congr fun m _ => (lendPairs_positions _ _).symm
    rw [h1]
    refine List.Perm.trans ?_ (flatMap_perm _ _ _)
    unfold allPairs
    rw [List.map_append, List.map_append, List.map_flatMap, List.map_flatMap, List.append_assoc, List.append_assoc,
      lendPairs_positions, h2, h3]
    exact List.Perm.append_left _ (flatMap_perm _ _ _)
  have hn := hperm.nodup_iff.2 areas_nodup
  refine ⟨(List.nodup_append.1 hn).1, fun x hx => ?_⟩
  have hm : x.1 ∈ (List.range 30).flatMap ownArea :=
    hperm.mem_iff.1 (List.mem_append_left _ (List.mem_map_of_mem hx))
  obtain ⟨b, hb, h⟩ := List.mem_flatMap.1 hm
  exact ⟨b, List.mem_range.1 hb, h⟩

/-- The code of every block fits the segment as a whole, so nothing is left over (46 R294, R297). -/
theorem all_placed (codes : List Bits) (hl : codes.length = 30) (hc : (codes.map List.length).sum ≤ 2680) :
    ((lendRests (lastNeed codes) (lastPool codes)).map List.length).sum = 0 := by
  have harea : ∀ m, m < 5 → ((mbNeed codes m).map List.length).sum + 536 =
      (mbPool codes m).length + ((List.range 6).map fun t => (codes.getD (6 * m + t) []).length).sum := by
    intro m hm
    have hb : ∀ b, (restOf codes b).length + (ownArea b).length = (donorsOf codes b).length + (codes.getD b []).length := fun b => by
      have h := congrArg List.length (donors_eq codes b)
      rw [List.length_append, List.length_map] at h
      unfold ownPairs at h
      rw [List.length_zip] at h
      unfold restOf; rw [List.length_drop]; omega
    have ha : ∀ t, t < 6 → (ownArea (6 * m + t)).length = areaBits t := by
      intro t ht
      unfold ownArea startBit endBit
      rw [List.length_range', show (6 * m + t) / 6 = m by omega, show (6 * m + t) % 6 = t by omega]
      have h : ∀ t, t < 6 → BLKEND.getD t 0 - (BLKSTART.getD t 0 + 12) = areaBits t := by decide
      rw [← h t ht]; omega
    unfold mbNeed mbPool mbBlocks
    rw [List.map_map, List.map_map, List.length_flatMap, List.map_map, sum_six, sum_six, sum_six]
    simp only [Function.comp_apply]
    have h0 := hb (6 * m + 0); have h1 := hb (6 * m + 1); have h2 := hb (6 * m + 2)
    have h3 := hb (6 * m + 3); have h4 := hb (6 * m + 4); have h5 := hb (6 * m + 5)
    rw [ha 0 (by omega)] at h0; rw [ha 1 (by omega)] at h1; rw [ha 2 (by omega)] at h2
    rw [ha 3 (by omega)] at h3; rw [ha 4 (by omega)] at h4; rw [ha 5 (by omega)] at h5
    have e : areaBits 0 = 100 ∧ areaBits 1 = 100 ∧ areaBits 2 = 100 ∧ areaBits 3 = 100 ∧ areaBits 4 = 68 ∧ areaBits 5 = 68 := by
      decide
    omega
  have hsum : (codes.map List.length).sum = ((List.range 5).map fun m =>
      ((List.range 6).map fun t => (codes.getD (6 * m + t) []).length).sum).sum := by
    have : codes.map List.length = (List.range 30).map fun b => (codes.getD b []).length := by
      apply List.ext_getElem
      · simp [hl]
      · intro i h1 h2
        simp only [List.length_map] at h1
        simp [List.getElem?_eq_getElem h1]
    rw [this, ← blocks_eq, List.map_flatMap, List.flatMap_def, List.sum_flatten, List.map_map]
    refine congrArg List.sum (List.map_congr_left fun m _ => ?_)
    rw [Function.comp_apply, mbBlocks, List.map_map]; rfl
  rw [(lend_sums _ _).1]
  have h1 : ((lastNeed codes).map List.length).sum =
      ((List.range 5).map fun m => ((mbNeed codes m).map List.length).sum - (mbPool codes m).length).sum := by
    unfold lastNeed
    rw [List.map_flatMap, List.flatMap_def, List.sum_flatten, List.map_map]
    exact congrArg List.sum (List.map_congr_left fun m _ => (lend_sums _ _).1)
  have h2 : (lastPool codes).length = ((List.range 5).map fun m => (mbPool codes m).length - ((mbNeed codes m).map List.length).sum).sum := by
    unfold lastPool
    rw [List.length_flatMap]
    exact congrArg List.sum (List.map_congr_left fun m _ => (lend_sums _ _).2)
  rw [h1, h2, sum_five, sum_five]
  rw [hsum, sum_five] at hc
  have a0 := harea 0 (by omega); have a1 := harea 1 (by omega); have a2 := harea 2 (by omega)
  have a3 := harea 3 (by omega); have a4 := harea 4 (by omega)
  omega

/-! ### The decode of a placed segment -/

/-- Pass 1 of the decoder against pass 1 of the encoder (46 R287, R297). -/
theorem passOwn_mirror {m : Memory} {codes : List Bits} {b : Nat} {tgt : List Int}
    (hr : ∀ x ∈ ownPairs codes b, segBit m x.1 = x.2) (hne : codes.getD b [] ≠ []) (hw : Mirror tgt (startWork m b) (codes.getD b [])) :
    Mirror tgt (passOwn m b) (restOf codes b) ∧ (passOwn m b).donor = (donorsOf codes b).map (segBit m) := by
  have hown : ownBits m b = (ownArea b).map (segBit m) := rfl
  unfold ownPairs at hr
  have hread : ((ownArea b).take (codes.getD b []).length).map (segBit m) = (codes.getD b []).take (ownArea b).length :=
    read_zip (by rw [List.length_take, List.length_take]; omega) fun x hx => hr x (by rwa [zip_take] at hx)
  have hall : ownBits m b = (codes.getD b []).take (ownArea b).length ++ ((ownArea b).drop (codes.getD b []).length).map (segBit m) := by
    rw [hown, ← hread, ← List.map_append, List.take_append_drop]
  have hfin : (startWork m b).fin = false := rfl
  have hdon := (after_decodeRun (startWork m b) (ownBits m b) (Nat.le_refl _) hfin).donor
  unfold passOwn
  dsimp only
  by_cases hl : (codes.getD b []).length ≤ (ownArea b).length
  · have hrest : restOf codes b = [] := List.drop_eq_nil_of_le hl
    rw [List.take_of_length_le hl] at hall
    obtain ⟨j1, j2⟩ := mirror_finish hw hne (((ownArea b).drop (codes.getD b []).length).map (segBit m))
    rw [← hall] at j1 j2
    have j3 := mirror_nil.1 j2
    rw [if_pos j3.1, hrest]
    refine ⟨mirror_nil.2 ⟨j3.1, j3.2.1, j3.2.2.1, j3.2.2.2⟩, ?_⟩
    unfold donorsOf
    rw [if_pos hrest]
    show (ownBits m b).drop _ = _
    rw [j1, hown, List.map_drop]
  · have hrest : restOf codes b ≠ [] := fun h => by
      have := congrArg List.length h; unfold restOf at this; rw [List.length_drop, List.length_nil] at this; omega
    rw [List.drop_eq_nil_of_le (by omega : (ownArea b).length ≤ (codes.getD b []).length), List.map_nil, List.append_nil] at hall
    have hw' : Mirror tgt (startWork m b) ((codes.getD b []).take (ownArea b).length ++ restOf codes b) := by
      unfold restOf; rw [List.take_append_drop]; exact hw
    obtain ⟨-, j2⟩ := mirror_partial hw' hrest
    rw [← hall] at j2
    have j3 := j2
    unfold Mirror at j3
    rw [if_neg hrest] at j3
    rw [if_neg (by rw [j3.1]; exact Bool.false_ne_true)]
    refine ⟨j2, ?_⟩
    unfold donorsOf
    rw [if_neg hrest, hdon]; rfl

/-- Every block of a segment in which the codes are placed reads its own code to its end (46 R301). -/
theorem decodeSegment_placed {m : Memory} {codes : List Bits} {tgt : Nat → List Int} (hl : codes.length = 30)
    (hc : (codes.map List.length).sum ≤ 2680) (hr : ∀ x ∈ allPairs codes, segBit m x.1 = x.2)
    (hne : ∀ b, b < 30 → codes.getD b [] ≠ []) (hw : ∀ b, b < 30 → Mirror (tgt b) (startWork m b) (codes.getD b [])) :
    ∀ b, b < 30 → Mirror (tgt b) (workAt (decodeSegment m) b) [] := by
  have hr1 : ∀ b, b < 30 → ∀ x ∈ ownPairs codes b, segBit m x.1 = x.2 := fun b hb x hx =>
    hr x (List.mem_append_left _ (List.mem_flatMap.2 ⟨b, List.mem_range.2 hb, hx⟩))
  have hr2 : ∀ k, k < 5 → ∀ x ∈ lendPairs (mbNeed codes k) (mbPool codes k), segBit m x.1 = x.2 := fun k hk x hx =>
    hr x (List.mem_append_right _ (List.mem_append_left _ (List.mem_flatMap.2 ⟨k, List.mem_range.2 hk, hx⟩)))
  have hr3 : ∀ x ∈ lendPairs (lastNeed codes) (lastPool codes), segBit m x.1 = x.2 := fun x hx =>
    hr x (List.mem_append_right _ (List.mem_append_right _ hx))
  have hp := fun b hb => passOwn_mirror (hr1 b hb) (hne b hb) (hw b hb)
  have hmem : ∀ k, k < 5 → ∀ b ∈ mbBlocks k, b < 30 := fun k hk b hb => by
    obtain ⟨t, ht, rfl⟩ := List.mem_map.1 hb
    rw [List.mem_range] at ht; omega
  have hmb : ∀ k, k < 5 → (passMb ((List.range 30).map (passOwn m)) k).2 =
        (lendLeft (mbNeed codes k) (mbPool codes k)).map (segBit m) ∧
      Mirrors ((mbBlocks k).map tgt) (passMb ((List.range 30).map (passOwn m)) k).1 (lendRests (mbNeed codes k) (mbPool codes k)) := by
    intro k hk
    have hof : ofMb k ((List.range 30).map (passOwn m)) = (mbBlocks k).map (passOwn m) := by
      unfold ofMb
      rw [← List.map_drop, ← List.map_take]
      congr 1
      have : ∀ k, k < 5 → ((List.range 30).drop (6 * k)).take 6 = mbBlocks k := by decide
      exact this k hk
    unfold passMb
    dsimp only
    have hpool : ((mbBlocks k).map (passOwn m)).flatMap Work.donor = (mbPool codes k).map (segBit m) := by
      rw [List.flatMap_map, mbPool, List.map_flatMap]
      exact List.flatMap_congr fun b hb => (hp b (hmem k hk b hb)).2
    rw [hof, hpool]
    exact lend_mirrors (Mirrors.map fun b hb => (hp b (hmem k hk b hb)).1) (hr2 k hk)
  have hlast := lend_mirrors (rd := segBit m) (q := lastPool codes)
    (Mirrors.flatMap fun k hk => (hmb k (List.mem_range.1 hk)).2) hr3
  have hseg : decodeSegment m = (lend ((List.range 5).flatMap fun k => (passMb ((List.range 30).map (passOwn m)) k).1)
      ((lastPool codes).map (segBit m))).1 := by
    unfold decodeSegment
    dsimp only
    rw [List.flatMap_map, List.flatMap_map]
    congr 2
    unfold lastPool
    rw [List.map_flatMap]
    exact List.flatMap_congr fun k hk => (hmb k (List.mem_range.1 hk)).1
  rw [← hseg, show ((List.range 5).flatMap fun k => (mbBlocks k).map tgt) = (List.range 30).map tgt by
    rw [← blocks_eq, List.map_flatMap]] at hlast
  intro b hb
  have := hlast.2.done (all_placed codes hl hc) b (by simpa using hb)
  rwa [List.getD_eq_getElem _ _ (by simpa using hb), List.getElem_map, List.getElem_range] at this

/-- The bits of SEG after VLC_ENC_SEG are those the placement wrote (46 R297). -/
theorem encodeSegment_reads (s : State) : ∀ x ∈ allPairs ((fitStep s.csr.ctrl.passes s.entries).1.map blockCode),
    segBit (encodeSegment s).mem x.1 = x.2 := by
  intro x hx
  have hpos := allPairs_positions ((fitStep s.csr.ctrl.passes s.entries).1.map blockCode)
  have hlt : ∀ y ∈ allPairs ((fitStep s.csr.ctrl.passes s.entries).1.map blockCode), y.1 < 3200 := fun y hy => by
    obtain ⟨b, hb, h⟩ := hpos.2 y hy
    have := ownArea_mem h
    have := endBit_le hb
    omega
  obtain ⟨b, hb, h⟩ := hpos.2 x hx
  have h1 := ownArea_mem h
  have h2 := start_facts hb
  have h3 : endBit b ≤ 640 * (b / 6) + 640 := by
    have h : ∀ t, t < 6 → BLKEND.getD t 0 ≤ 640 := by decide
    have := h (b % 6) (by omega); unfold endBit; omega
  rw [encodeSegment_eq, State.setRes1_mem, State.setRes0_mem, State.markTrunc_mem, State.setOvfCount_mem, State.setMem_mem,
    segBit_storeImage _ _ (hlt x hx) (by omega), placeCodes_eq]
  exact imgBit_putAll _ _ hlt hpos.1 x hx

/-- The fit step leaves at most the segment's 2680 AC bits (46 R294, R295). -/
theorem fitStep_bits (passes : BitVec 2) {es : List (List Entry)} (hl : es.length = 30) :
    (((fitStep passes es).1.map blockCode).map List.length).sum ≤ 2680 := by
  have hg := (fitGroups_sound passes hl).1
  have hcap : ((fitGroups passes es).map Prod.fst).sum = 2680 := by
    unfold fitGroups
    split
    · rw [List.map_map]; show ((List.range 30).map fun b => areaBits (b % 6)).sum = 2680; decide
    · split
      · rw [List.map_map]; show ((List.range 5).map fun _ => 536).sum = 2680; decide
      · rfl
  have hmain : ∀ gs : List (Nat × List (List Entry)), (∀ g ∈ gs, 4 * g.2.length ≤ g.1) →
      groupBits ((gs.map fun g => fitGroup g.1 g.2).flatMap Prod.fst) ≤ (gs.map Prod.fst).sum := by
    intro gs
    induction gs with
    | nil => intro _; exact Nat.le_refl _
    | cons g gs ih =>
      intro h
      have h1 := ih fun g' hg' => h g' (List.mem_cons_of_mem _ hg')
      have h2 := (fitGroup_spec g.1 g.2 (h g List.mem_cons_self)).2.2
      simp only [List.map_cons, List.flatMap_cons, List.sum_cons, groupBits, List.map_append, List.sum_append] at h1 h2 ⊢
      omega
  have h := hmain _ hg
  rw [hcap] at h
  have e : (((fitStep passes es).1.map blockCode).map List.length).sum = groupBits (fitStep passes es).1 := by
    rw [List.map_map]
    exact congrArg List.sum (List.map_congr_left fun es _ => blockCode_length es)
  rw [e]; exact h

/-- Kept entries of the same total number are all the entries. -/
theorem fit_keeps {k es : List (List Entry)} (h : List.Forall₂ (· <+: ·) k es) (hl : groupLen es ≤ groupLen k) : k = es := by
  have hle : ∀ {k es : List (List Entry)}, List.Forall₂ (· <+: ·) k es → groupLen k ≤ groupLen es := by
    intro k es h
    induction h with
    | nil => exact Nat.le_refl _
    | cons hp _ ih =>
      have := hp.length_le
      simp only [groupLen, List.map_cons, List.sum_cons] at ih ⊢; omega
  induction h with
  | nil => rfl
  | cons hp ht ih =>
    have h1 := hp.length_le
    have h2 := hle ht
    simp only [groupLen, List.map_cons, List.sum_cons] at hl h2 ih ⊢
    rw [hp.eq_of_length (by omega), ih (by omega)]

/-- A decode of an encoded segment: every block reads its own kept entries (46 R301). -/
theorem decode_encodeSegment (s : State) (ha : ∀ b n, b < 30 → 1 ≤ n → n ≤ 63 → (coef s.mem b n).natAbs ≤ 255)
    (hd : ∀ b, b < 30 → -256 ≤ coef s.mem b 0 ∧ coef s.mem b 0 ≤ 255) :
    ∀ b, b < 30 → Mirror (fillEntries (zz (s.blkAt b).dctMode) 1 ((fitStep s.csr.ctrl.passes s.entries).1.getD b [])
      ((List.replicate 64 0).set 0 (coef s.mem b 0))) (workAt (decodeSegment (encodeSegment s).mem) b) [] := by
  have hcut := fitStep_cut s.csr.ctrl.passes (es := s.entries) (by simp [State.entries])
  have hlen : (fitStep s.csr.ctrl.passes s.entries).1.length = 30 := hcut.1.length_eq.trans (by simp [State.entries])
  have hbits := fitStep_bits s.csr.ctrl.passes (es := s.entries) (by simp [State.entries])
  have hread := encodeSegment_reads s
  have hhead := (encodeSegment_writes s).header
  generalize fitStep s.csr.ctrl.passes s.entries = f at *
  have hcode : ∀ b, b < 30 → (f.1.map blockCode).getD b [] = blockCode (f.1.getD b []) := fun b hb => by
    rw [List.getD_eq_getElem _ _ (by simpa [hlen] using hb), List.getElem_map, List.getD_eq_getElem _ _ (by omega)]
  refine decodeSegment_placed (by simpa using hlen) hbits hread (fun b hb => ?_) fun b hb => ?_
  · rw [hcode b hb]; simp [blockCode, eobCode]
  · rw [hcode b hb]
    have hpre : f.1.getD b [] <+: blockEntries (s.coefs b) (s.blkAt b).dctMode := by
      have := (List.forall₂_iff_get.1 hcut.1).2 b (by omega) (by simpa [State.entries] using hb)
      simp only [List.get_eq_getElem] at this
      rw [List.getD_eq_getElem _ _ (by omega)]
      simpa [State.entries] using this
    have hdc : at0 (s.coefs b) 0 = coef s.mem b 0 := at0_coefBlock s.mem b (by omega)
    obtain ⟨g1, g2, -⟩ := header_getD (coef s.mem b 0) (s.blkAt b)
    have hmode : segBit (encodeSegment s).mem (startBit b + 9) = (s.blkAt b).dctMode := (hhead b 9 hb (by omega)).trans g2
    have hpeek : segPeek (encodeSegment s).mem (startBit b) 9 = (BitVec.ofInt 9 (sat (-256) 255 (coef s.mem b 0))).toNat :=
      segPeek_of_bits (BitVec.isLt _) fun i hi => (hhead b i hb (by omega)).trans (g1 i hi)
    have hhd : headerDc (encodeSegment s).mem (startBit b) = coef s.mem b 0 := by
      unfold headerDc
      rw [hpeek, BitVec.ofNat_toNat, BitVec.setWidth_eq]
      have := hd b hb
      have hsat : sat (-256) 255 (coef s.mem b 0) = coef s.mem b 0 := by unfold sat; omega
      rw [hsat, BitVec.toInt_ofInt, Int.bmod_eq_of_le (by omega) (by omega)]
    rw [← hdc]
    refine mirror_start hpre (fun n h1 h2 => ?_) hmode rfl rfl rfl rfl ?_
    · rw [show at0 (s.coefs b) n = coef s.mem b n from at0_coefBlock s.mem b (by omega)]; exact ha b n hb h1 h2
    · show (List.replicate 64 0).set 0 (headerDc _ _) = _
      rw [hhd, hdc]

/-- The part of a block's code that its own area holds (46 R297, pass 1). -/
theorem encodeSegment_own (s : State) {b i : Nat} (hb : b < 30)
    (hi : i < (blockCode ((fitStep s.csr.ctrl.passes s.entries).1.getD b [])).length) (ha : i < areaBits (b % 6)) :
    segBit (encodeSegment s).mem (startBit b + 12 + i) =
      (blockCode ((fitStep s.csr.ctrl.passes s.entries).1.getD b [])).getD i false := by
  have hcut := fitStep_cut s.csr.ctrl.passes (es := s.entries) (by simp [State.entries])
  have hlen : (fitStep s.csr.ctrl.passes s.entries).1.length = 30 := hcut.1.length_eq.trans (by simp [State.entries])
  have hread := encodeSegment_reads s
  generalize encodeSegment s = u at *
  generalize fitStep s.csr.ctrl.passes s.entries = f at *
  have hcode : (f.1.map blockCode).getD b [] = blockCode (f.1.getD b []) := by
    rw [List.getD_eq_getElem _ _ (by simpa [hlen] using hb), List.getElem_map, List.getD_eq_getElem _ _ (by omega)]
  have hal : endBit b - (startBit b + 12) = areaBits (b % 6) := by
    have h : ∀ t, t < 6 → BLKEND.getD t 0 - (BLKSTART.getD t 0 + 12) = areaBits t := by decide
    have := h (b % 6) (by omega)
    unfold startBit endBit; omega
  have hx : (startBit b + 12 + i, (blockCode (f.1.getD b [])).getD i false) ∈ ownPairs (f.1.map blockCode) b := by
    unfold ownPairs ownArea
    rw [hcode, hal, List.mem_iff_getElem]
    refine ⟨i, by rw [List.length_zip, List.length_range']; omega, ?_⟩
    rw [List.getElem_zip, List.getElem_range', List.getD_eq_getElem _ _ hi, Nat.one_mul]
  exact hread _ (List.mem_append_left _ (List.mem_flatMap.2 ⟨b, List.mem_range.2 hb, hx⟩))

end Sys2Proof.Machine
end

