-- ==== Sys2Proof/Laws/SegmentImage.lean ====
section
/-! SUPPORT. The placement of the codes as the list of all positions and bits, and the bits of the AC areas that no code uses. -/

namespace Sys2Proof.Machine

open Sys2Proof

theorem zip_append_drop {α : Type} (q : List Nat) (r s : List α) :
    q.zip (r ++ s) = (q.take r.length).zip (r.take q.length) ++ (q.drop r.length).zip s := by
  induction q generalizing r with
  | nil => simp
  | cons x q ih =>
    cases r with
    | nil => simp
    | cons y r => simp [ih]

/-- One lending pass writes the rests, one after another, into the positions in order. -/
theorem lendPairs_zip (rs : List Bits) (q : List Nat) : lendPairs rs q = q.zip rs.flatten := by
  induction rs generalizing q with
  | nil => simp [lendPairs]
  | cons r rs ih =>
    rw [lendPairs, ih, List.flatten_cons, zip_append_drop]
    congr 1
    · rw [show q.take (min r.length q.length) = q.take r.length by rw [Nat.min_comm, List.take_eq_take_iff]; omega,
        show r.take (min r.length q.length) = r.take q.length by rw [List.take_eq_take_iff]; omega]
    · by_cases h : r.length ≤ q.length
      · rw [Nat.min_eq_left h]
      · rw [Nat.min_eq_right (by omega), List.drop_length, List.drop_eq_nil_of_le (by omega : q.length ≤ r.length)]

theorem lendRests_flatten (rs : List Bits) (q : List Nat) : (lendRests rs q).flatten = rs.flatten.drop q.length := by
  induction rs generalizing q with
  | nil => simp [lendRests, lendPlaces]
  | cons r rs ih =>
    rw [lendRests_cons, List.flatten_cons, List.flatten_cons, ih, List.drop_append, List.length_drop]
    congr 1
    · by_cases h : r.length ≤ q.length
      · rw [Nat.min_eq_left h, List.drop_length, List.drop_eq_nil_of_le h]
      · rw [Nat.min_eq_right (by omega)]
    · congr 1; omega

theorem lendLeft_drop (rs : List Bits) (q : List Nat) : lendLeft rs q = q.drop rs.flatten.length := by
  induction rs generalizing q with
  | nil => rfl
  | cons r rs ih =>
    rw [lendLeft_cons, ih, List.flatten_cons, List.length_append, List.drop_drop]
    by_cases h : r.length ≤ q.length
    · rw [Nat.min_eq_left h]
    · rw [List.drop_eq_nil_of_le (by omega), List.drop_eq_nil_of_le (by omega)]

theorem acPlaces_eq (b : Nat) : acPlaces b = ownArea b := by
  have h : ∀ t, t < 6 → BLKEND.getD t 0 - (BLKSTART.getD t 0 + 12) = if t < 4 then 100 else 68 := by decide
  have := h (b % 6) (by omega)
  unfold acPlaces ownArea startBit endBit
  rw [← this]; congr 1; omega

theorem donors_drop (codes : List Bits) (b : Nat) : donorsOf codes b = (ownArea b).drop (codes.getD b []).length := by
  unfold donorsOf
  split
  · rfl
  · next h =>
    refine (List.drop_eq_nil_of_le ?_).symm
    by_contra hl
    exact h (List.drop_eq_nil_of_le (by omega))

theorem mbPool_eq (codes : List Bits) (m : Nat) : mbPool codes m = freePlaces (codes.getD · []) m := by
  unfold mbPool mbBlocks freePlaces
  rw [List.flatMap_map]
  exact List.flatMap_congr fun t _ => by rw [donors_drop, acPlaces_eq]

theorem mbNeed_eq (codes : List Bits) (m : Nat) : (mbNeed codes m).flatten = restBits (codes.getD · []) m := by
  unfold mbNeed mbBlocks restBits
  rw [List.map_map, ← List.flatMap_def]
  exact List.flatMap_congr fun t _ => by rw [Function.comp_apply, restOf, acPlaces_eq]

/-- The placement of the model writes the positions and bits of the rule (46 R297). -/
theorem allPairs_eq (codes : List Bits) : allPairs codes = placedBits (codes.getD · []) := by
  have h1 : (List.range 30).flatMap (ownPairs codes) = (List.range 30).flatMap fun b => (acPlaces b).zip (codes.getD b []) :=
    List.flatMap_congr fun b _ => by rw [acPlaces_eq]; rfl
  have h2 : ∀ m, lendPairs (mbNeed codes m) (mbPool codes m) = (freePlaces (codes.getD · []) m).zip (restBits (codes.getD · []) m) :=
    fun m => by rw [lendPairs_zip, mbPool_eq, mbNeed_eq]
  have h3 : lastPool codes = (List.range 5).flatMap fun m =>
      (freePlaces (codes.getD · []) m).drop (restBits (codes.getD · []) m).length :=
    List.flatMap_congr fun m _ => by rw [lendLeft_drop, mbPool_eq, mbNeed_eq]
  have h4 : (lastNeed codes).flatten = (List.range 5).flatMap fun m =>
      (restBits (codes.getD · []) m).drop (freePlaces (codes.getD · []) m).length := by
    unfold lastNeed
    rw [← List.flatMap_id, List.flatMap_assoc]
    exact List.flatMap_congr fun m _ => by rw [List.flatMap_id, lendRests_flatten, mbPool_eq, mbNeed_eq]
  unfold allPairs placedBits
  rw [h1, List.flatMap_congr fun m _ => h2 m, lendPairs_zip, h3, h4]

theorem placedBits_congr {c d : Nat → Bits} (h : ∀ b, b < 30 → c b = d b) : placedBits c = placedBits d := by
  have hf : ∀ m ∈ List.range 5, freePlaces c m = freePlaces d m := fun m hm => by
    rw [List.mem_range] at hm
    exact List.flatMap_congr fun t ht => by rw [List.mem_range] at ht; rw [h _ (by omega)]
  have hr : ∀ m ∈ List.range 5, restBits c m = restBits d m := fun m hm => by
    rw [List.mem_range] at hm
    exact List.flatMap_congr fun t ht => by rw [List.mem_range] at ht; rw [h _ (by omega)]
  have h1 : (List.range 30).flatMap (fun b => (acPlaces b).zip (c b)) = (List.range 30).flatMap fun b => (acPlaces b).zip (d b) :=
    List.flatMap_congr fun b hb => by rw [h b (List.mem_range.1 hb)]
  have h2 : (List.range 5).flatMap (fun m => (freePlaces c m).zip (restBits c m)) =
      (List.range 5).flatMap fun m => (freePlaces d m).zip (restBits d m) :=
    List.flatMap_congr fun m hm => by rw [hf m hm, hr m hm]
  have h3 : (List.range 5).flatMap (fun m => (freePlaces c m).drop (restBits c m).length) =
      (List.range 5).flatMap fun m => (freePlaces d m).drop (restBits d m).length :=
    List.flatMap_congr fun m hm => by rw [hf m hm, hr m hm]
  have h4 : (List.range 5).flatMap (fun m => (restBits c m).drop (freePlaces c m).length) =
      (List.range 5).flatMap fun m => (restBits d m).drop (freePlaces d m).length :=
    List.flatMap_congr fun m hm => by rw [hf m hm, hr m hm]
  unfold placedBits
  rw [h1, h2, h3, h4]

/-- Every bit of every code has its place (46 R297). -/
theorem placedBits_length (codes : List Bits) (hl : codes.length = 30) (hc : (codes.map List.length).sum ≤ 2680) :
    (placedBits (codes.getD · [])).length = ((List.range 30).map fun b => (codes.getD b []).length).sum := by
  have h0 := all_placed codes hl hc
  rw [(lend_sums _ _).1] at h0
  have hcut : (List.range 30).map (fun b => (codes.getD b []).length) = (List.range 30).map fun b =>
      (ownPairs codes b).length + (restOf codes b).length := by
    refine List.map_congr_left fun b _ => ?_
    unfold ownPairs restOf
    rw [List.length_zip, List.length_drop]; omega
  have hsplit : ∀ f : Nat → Nat, ∀ g : Nat → Nat, ∀ l : List Nat, (l.map fun b => f b + g b).sum = (l.map f).sum + (l.map g).sum := by
    intro f g l
    induction l with
    | nil => rfl
    | cons x l ih => simp only [List.map_cons, List.sum_cons, ih]; omega
  have hneed : ((List.range 30).map fun b => (restOf codes b).length).sum =
      ((List.range 5).map fun m => ((mbNeed codes m).map List.length).sum).sum := by
    rw [← blocks_eq, List.map_flatMap, List.flatMap_def, List.sum_flatten, List.map_map]
    refine congrArg List.sum (List.map_congr_left fun m _ => ?_)
    rw [Function.comp_apply, mbNeed, List.map_map]; rfl
  have hlast : ((lastNeed codes).map List.length).sum =
      ((List.range 5).map fun m => ((mbNeed codes m).map List.length).sum - (mbPool codes m).length).sum := by
    unfold lastNeed
    rw [List.map_flatMap, List.flatMap_def, List.sum_flatten, List.map_map]
    exact congrArg List.sum (List.map_congr_left fun m _ => (lend_sums _ _).1)
  have hmb : ((List.range 5).map fun m => ((mbNeed codes m).map List.length).sum).sum =
      ((List.range 5).map fun m => (lendPairs (mbNeed codes m) (mbPool codes m)).length).sum + ((lastNeed codes).map List.length).sum := by
    rw [hlast, ← hsplit]
    refine congrArg List.sum (List.map_congr_left fun m _ => ?_)
    rw [lendPairs_zip, List.length_zip, List.length_flatten]; omega
  rw [← allPairs_eq]
  unfold allPairs
  rw [List.length_append, List.length_append, List.length_flatMap, List.length_flatMap, lendPairs_zip (lastNeed codes),
    List.length_zip, List.length_flatten, hcut, hsplit, hneed, hmb]
  omega

theorem headerImage_zero (s : State) {b q : Nat} (hb : b < 30) (hq : q ∈ ownArea b) : imgBit (headerImage s) q = false := by
  have h := ownArea_mem hq
  have he := endBit_le hb
  have hx : endBit b ≤ 640 * (b / 6) + 640 := by
    have h : ∀ t, t < 6 → BLKEND.getD t 0 ≤ 640 := by decide
    have := h (b % 6) (by omega)
    unfold endBit; omega
  have hs := start_facts hb
  unfold headerImage
  dsimp only
  have h1 := imgBit_fold (fun m => 640 * m + 24) 8 (fun m => bitsOfNat 8 (byte3 (s.mbAt m)).toNat) (fun m => by simp
    [bitsOfNat]) 5 (fun b hb => by omega) (fun b c hb hc h => by omega) (0 : Image)
  have h2 := imgBit_fold startBit 12 (fun b => headerBits (coef s.mem b 0) (s.blkAt b)) (fun b => headerBits_length _ _) 30
    (fun b hb => by have := start_facts hb; omega) (fun b c hb hc h => (area_facts hb hc).1 h) ((List.range 5).foldl
    (fun g m => imgWrite g (List.range' (640 * m + 24) 8) (bitsOfNat 8 (byte3 (s.mbAt m)).toNat)) (0 : Image))
  rw [h2.1 q (by omega) (fun c hc => by
      have h1 := (area_facts hc hb).2
      have h2 := (area_facts hb hc).2
      have h3 := (area_facts hc hb).1
      have := startBit_le c
      by_cases e : b = c
      · subst e; omega
      · have := h3 (Ne.symm e); omega),
    h1.1 q (by omega) (fun m hm => by omega)]
  unfold imgBit
  exact BitVec.getLsbD_zero

/-- An AC position that no code uses reads 0 after VLC_ENC_SEG (46 R297, R299). -/
theorem encodeSegment_unused (s : State) {b q : Nat} (hb : b < 30) (hq : q ∈ ownArea b)
    (h : q ∉ (allPairs ((fitStep s.csr.ctrl.passes s.entries).1.map blockCode)).map Prod.fst) :
    segBit (encodeSegment s).mem q = false := by
  have hpos := allPairs_positions ((fitStep s.csr.ctrl.passes s.entries).1.map blockCode)
  have hlt : ∀ y ∈ allPairs ((fitStep s.csr.ctrl.passes s.entries).1.map blockCode), y.1 < 3200 := fun y hy => by
    obtain ⟨b, hb, h⟩ := hpos.2 y hy
    have := ownArea_mem h
    have := endBit_le hb
    omega
  have h1 := ownArea_mem hq
  have h2 := start_facts hb
  have h3 : endBit b ≤ 640 * (b / 6) + 640 := by
    have h : ∀ t, t < 6 → BLKEND.getD t 0 ≤ 640 := by decide
    have := h (b % 6) (by omega); unfold endBit; omega
  rw [encodeSegment_eq, State.setRes1_mem, State.setRes0_mem, State.markTrunc_mem, State.setOvfCount_mem, State.setMem_mem,
    segBit_storeImage _ _ (by omega) (by omega), placeCodes_eq, imgBit_putAll_ne _ _ hlt (by omega) h]
  exact headerImage_zero s hb hq

end Sys2Proof.Machine
end

