-- ==== Sys2Proof/Laws/Transform.lean ====
section
/-! SUPPORT. The transforms: the sums of the bases, what a flat block becomes, and the activity as a finite sum. -/

namespace Sys2Proof.Machine

open Sys2Proof

theorem rc_coefs (s : State) (b : Nat) {r c : Nat} (hr : r < 8) (hc : c < 8) : rc (s.coefs b) r c = coef s.mem b (8 * r + c) :=
    at0_coefs s b (by omega)

theorem sumTo_congr {n : Nat} {f g : Nat → Int} (h : ∀ i, i < n → f i = g i) : sumTo n f = sumTo n g := by
  rw [sumTo_eq, sumTo_eq]; exact Finset.sum_congr rfl fun i hi => h i (Finset.mem_range.1 hi)

/-- The activity as the finite sum of the rule (45 R261). -/
theorem activity_eq (s : State) (b : Nat) :
    activity (s.coefs b) = Finset.sum (Finset.range 7) fun y => Finset.sum (Finset.range 8) fun x =>
      (coef s.mem b (8 * (y + 1) + x) - coef s.mem b (8 * y + x)).natAbs := by
  have h : (sumTo 7 fun y => sumTo 8 fun x => ((rc (s.coefs b) (y + 1) x - rc (s.coefs b) y x).natAbs : Int)) =
      (Finset.sum (Finset.range 7) fun y => Finset.sum (Finset.range 8) fun x =>
        (coef s.mem b (8 * (y + 1) + x) - coef s.mem b (8 * y + x)).natAbs : Nat) := by
    push_cast
    simp only [← sumTo_eq]
    refine sumTo_congr fun y hy => sumTo_congr fun x hx => ?_
    rw [rc_coefs s b (by omega) hx, rc_coefs s b (by omega) hx]
  unfold activity
  rw [h]; exact Int.toNat_natCast _

theorem m8_sums : ∀ v, v < 8 → ∀ u, u < 8 → (sumTo 8 fun y => sumTo 8 fun x => m8 v y * m8 u x) = if v = 0 ∧ u =
    0 then 34361295424 else 0 := by decide +kernel
theorem m4_sums : ∀ v, v < 4 → ∀ u, u < 8 → (sumTo 4 fun y => sumTo 8 fun x => m4 v y * m8 u x) = if v = 0 ∧ u =
    0 then 17180647712 else 0 := by decide +kernel
theorem m8_dc : ∀ y, y < 8 → ∀ x, x < 8 → m8 0 y * m8 0 x = 536895241 := by decide +kernel
theorem m4_dc : ∀ y, y < 4 → ∀ x, x < 8 → m4 0 y * m8 0 x = 536895241 := by decide +kernel

theorem sumTo2_mul (n m : Nat) (f : Nat → Nat → Int) (a : Int) : (sumTo n fun y => sumTo m fun x => f y x * a) =
    (sumTo n fun y => sumTo m fun x => f y x) * a := by
  simp only [sumTo_eq, Finset.sum_mul]

theorem fdct_flat (mode : Bool) {c : List Int} {a : Int} (ha : -256 ≤ a) (hb : a ≤ 255) (h : ∀ n, n < 64 → at0 c n = a) {n : Nat}
    (hn : n < 64) :
    at0 (fdctBlock mode c) n = if n = 0 then 8 * a else 0 := by
  have hrc : ∀ r k, r < 8 → k < 8 → rc c r k = a := fun r k h1 h2 => h _ (by omega)
  have hz : dctRound (0 * a) = 0 := by rw [Int.zero_mul]; decide
  have hd : dctRound (34361295424 * a) = 8 * a := by
    unfold dctRound
    by_cases h0 : 0 ≤ a
    · rw [roundShift_of_nonneg (by omega) (by omega)]; unfold sat16 sat; simp only [Nat.add_one_sub_one, Int.reducePow]; omega
    · rw [roundShift_of_neg (by omega) (by omega)]; unfold sat16 sat; simp only [Nat.add_one_sub_one, Int.reducePow]; omega
  cases mode
  · show at0 (fdct88 c) n = _
    rw [fdct88, at0_mkBlock _ hn]
    dsimp only
    rw [sumTo_congr fun y hy => sumTo_congr fun x hx => by rw [hrc y x hy hx], sumTo2_mul, m8_sums _ (by omega) _ (by omega)]
    by_cases h0 : n = 0
    · subst h0; exact hd
    · rw [if_neg (by omega), if_neg h0]; exact hz
  · show at0 (fdct248 c) n = _
    rw [fdct248, at0_mkBlock _ hn]
    dsimp only
    split
    · rw [sumTo_congr fun y hy => sumTo_congr fun x hx => by rw [hrc _ x (by omega) hx, hrc _ x (by omega) hx], sumTo2_mul,
        m4_sums _ (by omega) _ (by omega)]
      by_cases h0 : n = 0
      · subst h0; rw [if_pos (by omega), if_pos rfl, ← hd]; congr 1; omega
      · rw [if_neg (by omega), if_neg h0]; simp only [Int.zero_mul]; decide
    · rw [sumTo_congr fun y hy => sumTo_congr fun x hx => by rw [hrc _ x (by omega) hx, hrc _ x (by omega) hx], sumTo2_mul, if_neg
        (by omega)]
      simp only [Int.sub_self, Int.mul_zero]; decide

theorem sumTo_single (n : Nat) (f : Nat → Int) (hn : 0 < n) (h : ∀ i, i ≠ 0 → i < n → f i = 0) : sumTo n f = f 0 := by
  rw [sumTo_eq]; exact Finset.sum_eq_single_of_mem 0 (Finset.mem_range.2 hn) fun i hi h0 => h i h0 (Finset.mem_range.1 hi)

theorem idct_flat (mode : Bool) {c : List Int} {a : Int} (ha : -256 ≤ a) (hb : a ≤ 255) (h : at0 c 0 = 8 * a) (hz : ∀ n, 1 ≤ n →
    n < 64 → at0 c n = 0) {n : Nat} (hn : n < 64) :
    at0 (idctBlock mode c) n = a := by
  have hd : dctRound (536895241 * (8 * a)) = a := by
    unfold dctRound
    by_cases h0 : 0 ≤ a
    · rw [roundShift_of_nonneg (by omega) (by omega)]; unfold sat16 sat; simp only [Nat.add_one_sub_one, Int.reducePow]; omega
    · rw [roundShift_of_neg (by omega) (by omega)]; unfold sat16 sat; simp only [Nat.add_one_sub_one, Int.reducePow]; omega
  have hrz : ∀ r k, r < 8 → k < 8 → (r ≠ 0 ∨ k ≠ 0) → rc c r k = 0 := fun r k h1 h2 h3 => hz _ (by omega) (by omega)
  have hr0 : rc c 0 0 = 8 * a := h
  cases mode
  · show at0 (idct88 c) n = _
    rw [idct88, at0_mkBlock _ hn]
    dsimp only
    rw [sumTo_single 8 _ (by omega), sumTo_single 8 _ (by omega), hr0, m8_dc _ (by omega) _ (by omega)]
    · exact hd
    · intro i h0 hi; rw [hrz _ _ (by omega) hi (.inr h0), Int.mul_zero]
    · intro i h0 hi
      rw [sumTo_congr (g := fun _ => 0) fun u hu => by rw [hrz _ _ hi hu (.inl h0), Int.mul_zero]]; decide
  · show at0 (idct248 c) n = _
    rw [idct248, at0_mkBlock _ hn]
    dsimp only
    split
    all_goals
      rw [sumTo_single 4 _ (by omega), sumTo_single 8 _ (by omega), hr0, m4_dc _ (by omega) _ (by omega), hrz (0 + 4) 0 (by omega)
        (by omega) (by omega)]
    any_goals simp only [Int.add_zero, Int.sub_zero]; exact hd
    all_goals
      intro i h0 hi
      first
      | (rw [hrz 0 i (by omega) hi (.inr h0), hrz (0 + 4) i (by omega) hi (.inr h0)]; simp; done)
      | (rw [sumTo_congr (g := fun _ => 0) fun u hu => by
            rw [hrz i u (by omega) hu (.inl h0), hrz (i + 4) u (by omega) hu (by omega)]; simp]
         decide)

end Sys2Proof.Machine
end

