-- ==== Sys2Proof/Tests/Slice0.lean ====
section
/-! SUPPORT. The model's own tests. The expected values are those of 95_test_vectors.md (the row is named at each test) or are
worked out from the rule named. Then a witness for every obligation that has hypotheses. -/

namespace Sys2Proof.Tests

set_option Elab.async false

open Sys2Proof Sys2Proof.Machine

/-! ### WellFormed refuses an index or a count that its field cannot hold (30 R100) -/

theorem test_wf_imm : ∀ i ∈ [Instr.brPeek 65536, .brSkip 65536, .bwPut 65536, .vlcDecSym 65536], i.wf = false := by decide

theorem test_wf_idx : ∀ i ∈ [Instr.vlcBlkBits 32, .zzToScan 32, .zzToNat 32, .placeMb 32, .weightFwd 32, .weightInv 32,
    .classify 32, .qsearch 32, .quant 32, .dequant 32, .fdct 32, .idct 32, .need248 32], i.wf = false := by decide

theorem test_wf_accepts : ∀ i ∈ [Instr.brPeek 65535, .brSkip 65535, .bwPut 65535, .vlcDecSym 65535, .vlcBlkBits 31, .placeMb 31,
    .need248 31, .nop, .encodeSeg], i.wf = true := by decide

/-! ### Decoding: a word of every row, written out as IMM, 000, IDX, OP (30 R100, R105; V30) -/

theorem test_decode_bitio :
    decodeWord 0b0000000000000000_000_00000_00000000 = .ok .nop ∧
    decodeWord 0b0000000000000000_000_00000_00000001 = .ok .segClear ∧
    decodeWord 0b0000000000001100_000_00000_00001000 = .ok (.brPeek 12) ∧
    decodeWord 0b0000000000000011_000_00000_00001001 = .ok (.brSkip 3) ∧
    decodeWord 0b0000000000011000_000_00000_00001010 = .ok (.bwPut 24) := by decide

theorem test_decode_vlc :
    decodeWord 0b0000000000010000_000_00000_00010000 = .ok (.vlcDecSym 16) ∧
    decodeWord 0b0000000000000000_000_00000_00010001 = .ok .vlcEncSym ∧
    decodeWord 0b0000000000000000_000_00000_00010010 = .ok .vlcBits ∧
    decodeWord 0b0000000000000000_000_11101_00010011 = .ok (.vlcBlkBits 29) := by decide

theorem test_decode_reorder :
    decodeWord 0b0000000000000000_000_10001_00011000 = .ok (.zzToScan 17) ∧
    decodeWord 0b0000000000000000_000_10001_00011001 = .ok (.zzToNat 17) ∧
    decodeWord 0b0000000000000000_000_00000_00011010 = .ok .place411 ∧
    decodeWord 0b0000000000000000_000_00000_00011011 = .ok .place420 ∧
    decodeWord 0b0000000000000000_000_00010_00011100 = .ok (.placeMb 2) := by decide

theorem test_decode_quant :
    decodeWord 0b0000000000000000_000_10110_00100000 = .ok (.weightFwd 22) ∧
    decodeWord 0b0000000000000000_000_10110_00100001 = .ok (.weightInv 22) ∧
    decodeWord 0b0000000000000000_000_10110_00100010 = .ok (.classify 22) ∧
    decodeWord 0b0000000000000000_000_00100_00100011 = .ok (.qsearch 4) ∧
    decodeWord 0b0000000000000000_000_10110_00100100 = .ok (.quant 22) ∧
    decodeWord 0b0000000000000000_000_10110_00100101 = .ok (.dequant 22) := by decide

theorem test_decode_dct :
    decodeWord 0b0000000000000000_000_00111_00101000 = .ok (.fdct 7) ∧
    decodeWord 0b0000000000000000_000_00111_00101001 = .ok (.idct 7) ∧
    decodeWord 0b0000000000000000_000_00111_00101010 = .ok (.need248 7) := by decide

theorem test_decode_segment :
    decodeWord 0b0000000000000000_000_00000_00110000 = .ok .vlcDecSeg ∧
    decodeWord 0b0000000000000000_000_00000_00110001 = .ok .vlcEncSeg ∧
    decodeWord 0b0000000000000000_000_00000_00111000 = .ok .decodeSeg ∧
    decodeWord 0b0000000000000000_000_00000_00111001 = .ok .encodeSeg := by decide

/-- 30 R107: fewer than four bytes are no command; the host bus lays a word out lowest byte first (20 R73). -/
theorem test_decode_bytes : decodeBytes [0x28, 0x07, 0x00] = .error .truncated ∧
    decodeBytes [0x28, 0x07, 0x00, 0x00, 0x55] = .ok (.fdct 7, [0x55]) ∧
    decodeBytes [0x26, 0x00, 0x00, 0x00] = .error (.reservedOp 0x26) := by decide

/-- 30 R106: 229 reserved OP values. -/
theorem test_reserved_count : ((List.range 256).filter fun w => decodeTableWord 8 w == none).length = 229 := by decide +kernel

/-- The table's numbering: the low bits of the word, what is above them 0. -/
theorem test_table_word : decodeTableWord 8 0x1FF28 = some (.fdct 0) ∧ decodeTableWord 32 0x1FF28 = some (.fdct 31) := by decide

/-! ### Helpers: a small state, and what one command leaves -/

/-- The state after reset with a known THR248. -/
def start : State := { State.reset with csr := { Csr.reset with thr248 := 559 } }

def withArg (v : Word) : State := { start with csr := { start.csr with arg0 := v } }
def withSeg (bs : List Byte) (p : BitVec 12) (v : Word) : State :=
  (({ start with csr := { start.csr with arg0 := v } } : State).setMem (Memory.store [] 0x0400 bs)).setBitpos p

/-- The block with the entries listed, the others 0. -/
def block (l : List (Nat × Int)) : List Int := (List.range 64).map fun n => (l.lookup n).getD 0

/-- COEF[b] holds the block of `l`, DCT_MODE is `mode`, CLASS `k` and the macroblock's QNO `q`. -/
def withBlock (b : Nat) (mode : Bool) (k : BitVec 2) (q : BitVec 4) (l : List (Nat × Int)) : State :=
  ((start.setCoefs b (block l)).setBlk b { BlkMeta.unwritten with dctMode := mode, cls := k }).setMb (b / 6)
    { MbMeta.unwritten with qno := q }

/-- The command leads to a next state of which `p` holds. -/
def leaves (i : Instr) (s : State) (p : State → Bool) : Bool :=
  match exec i s with
  | .next t => p t
  | _ => false

/-- RES0 after the command, which is DONE without error. -/
def res0 (i : Instr) (s : State) (v : Word) : Bool := leaves i s fun t => t.csr.res0 == v && t.statusWord == 2

/-- The STATUS word after the command. -/
def status (i : Instr) (s : State) (v : Word) : Bool := leaves i s fun t => t.statusWord == v

/-- COEF[b] after the command. -/
def gives (i : Instr) (s : State) (b : Nat) (l : List (Nat × Int)) : Bool := leaves i s fun t => t.coefs b == block l

/-! ### Bit reader and writer (V41) -/

/-- 47 R320: NOP only sets DONE. -/
theorem test_nop : leaves .nop (withArg 5) (fun t => t == { withArg 5 with csr := { (withArg 5).csr with
    status := { Status.reset with done := true } } }) = true := by
  simp only [leaves, exec]
  exact beq_self_eq_true _

/-- V41.17. -/
theorem test_segClear : leaves .segClear (withSeg [0xFF, 0xFF] 55 0)
    (fun t => t.mem == [] && t.csr.bitpos == 0) = true := by decide +kernel

/-- V41.1, V41.3. -/
theorem test_brPeek : (res0 (.brPeek 8) (withSeg [0xA5, 0x3C] 4 0) 0x53 && res0 (.brPeek 24) (withSeg [0xA5, 0x3C] 0 0) 0xA53C00) =
    true := by decide +kernel

/-- V41.5, V41.6, V41.7. -/
theorem test_brPeek_fails : (status (.brPeek 24) (withSeg [] 3177 0) 0x46 && status (.brPeek 0) start 0x36 &&
    status (.brPeek 25) start 0x36) = true := by decide +kernel

/-- V41.8. -/
theorem test_brSkip : leaves (.brSkip 10) (withSeg [] 3190 0) (fun t => t.csr.bitpos == 3200) = true := by decide +kernel

/-- V41.9: the failing word is in ERRCMD, BITPOS keeps its value. -/
theorem test_brSkip_fails : leaves (.brSkip 1) { withSeg [] 3200 0 with csr := { (withSeg [] 3200 0).csr with cmd := 0x00010009 } }
    (fun t => t.statusWord == 0x46 && t.csr.bitpos == 3200 && t.csr.errcmd == 0x00010009) = true := by decide +kernel

/-- V41.14. -/
theorem test_bwPut : leaves (.bwPut 24) (withSeg [] 4 0xABCDEF)
    (fun t => t.mem == [(0x400, 0x0A), (0x401, 0xBC), (0x402, 0xDE), (0x403, 0xF0)] && t.csr.bitpos == 28 && t.csr.res0 == 28) =
    true := by decide +kernel

/-- V41.12 (the write is an OR) and V41.15 (BAD_ARG before BIT_RANGE). -/
theorem test_bwPut_or : (leaves (.bwPut 8) (withSeg [0xF0] 0 0) (fun t => t.mem == [(0x400, 0xF0)]) &&
    status (.bwPut 25) (withSeg [] 3190 0) 0x36) = true := by decide +kernel

/-! ### VLC (V42) -/

/-- V42 windows 0xFE2F / 16, 0xFE2F / 15, 0x6000 / 4, 0xFE01 / 16. -/
theorem test_vlcDecSym : (res0 (.vlcDecSym 16) (withArg 0xFE2F) 0x00108017 && res0 (.vlcDecSym 15) (withArg 0xFE2F) 0x02000000 &&
    res0 (.vlcDecSym 4) (withArg 0x6000) 0x01040000 && res0 (.vlcDecSym 16) (withArg 0xFE01) 0x00100000) = true := by decide +kernel

/-- V42 windows 0xF800 / 16, 0xFD5A / 16, and the count 17. -/
theorem test_vlcDecSym_table : (res0 (.vlcDecSym 16) (withArg 0xF800) 0x000B0503 &&
    res0 (.vlcDecSym 16) (withArg 0xFD5A) 0x000D2B00 && status (.vlcDecSym 17) start 0x36) = true := by decide +kernel

/-- V42 (63, 255, 1), the longest code. -/
theorem test_vlcEncSym : leaves .vlcEncSym (withArg 0x00013FFF)
    (fun t => t.csr.res0 == 0xBF80FFFF && t.csr.res1 == 0x3F7 && t.csr.res2 == 42) = true := by decide +kernel

/-- S3: (1, 18, 0) is split into (0, 0) and (0, 18). -/
theorem test_vlcEncSym_split : leaves .vlcEncSym (withArg 0x00000112)
    (fun t => t.csr.res0 == 0x1F3BD6 && t.csr.res1 == 0 && t.csr.res2 == 21) = true := by decide +kernel

/-- V42 (6, 4, 1) and the ignored bits of ARG0. -/
theorem test_vlcBits : (res0 .vlcBits (withArg 0x00010604) 17 && res0 .vlcBits (withArg 0xFFFEC001) 3) = true := by decide +kernel

/-- V42, the same block in both modes. -/
theorem test_vlcBlkBits : (res0 (.vlcBlkBits 29) (withBlock 29 false 0 0 [(1, 1), (8, -2)]) 11 &&
    res0 (.vlcBlkBits 29) (withBlock 29 true 0 0 [(1, 1), (8, -2)]) 15) = true := by decide +kernel

/-- V42: the DC is ignored, an AC of 256 fails with AMP_RANGE. -/
theorem test_vlcBlkBits_range : (res0 (.vlcBlkBits 0) (withBlock 0 false 0 0 [(0, 30000)]) 4 &&
    status (.vlcBlkBits 0) (withBlock 0 false 0 0 [(5, 256)]) 0x56) = true := by decide +kernel

/-! ### Reorder and placement (V43) -/

/-- V43.2 and V43.4. -/
theorem test_zzToScan : (gives (.zzToScan 29) (withBlock 29 false 0 0 [(7, 9)]) 29 [(28, 9)] &&
    gives (.zzToScan 3) (withBlock 3 true 0 0 [(32, 7)]) 3 [(1, 7)]) = true := by decide +kernel

/-- V43.3. -/
theorem test_zzToNat : gives (.zzToNat 3) (withBlock 3 true 0 0 [(1, 7)]) 3 [(32, 7)] = true := by decide +kernel

/-- V43 PLACE411 (0, 0, 6), (3, 2, 13), (0, 4, 26). -/
theorem test_place411 : (res0 .place411 (withArg 0x00000006) 0x00280020 && res0 .place411 (withArg 0x0003020D) 0x00980160 &&
    res0 .place411 (withArg 0x0000041A) 0x002002C0) = true := by decide +kernel

/-- V43 PLACE411: I = 10 fails for NTSC; PAL takes I = 11. -/
theorem test_place411_rows : (status .place411 (withArg 0x000A0000) 0x36 &&
    res0 .place411 { withArg 0x000B041A with csr := { (withArg 0x000B041A).csr with ctrl := { Ctrl.reset with sys := true } } }
      0x023002C0) = true := by decide +kernel

/-- V43 PLACE420 (0, 0, 3), (0, 1, 0), (0, 4, 26). -/
theorem test_place420 : (res0 .place420 (withArg 0x00000003) 0x00200010 && res0 .place420 (withArg 0x00000100) 0x00000090 &&
    res0 .place420 (withArg 0x0000041A) 0x002002C0) = true := by decide +kernel

/-- V43 PLACE_MB m2 under both samplings. -/
theorem test_placeMb :
    let s := start.setMb 2 { MbMeta.unwritten with k := 13, j := 2, i := 3 }
    (leaves (.placeMb 2) s (fun t => t.csr.res0 == 0x00980160 && (t.mbAt 2).x == 352 && (t.mbAt 2).y == 152) &&
      res0 (.placeMb 2) { s with csr := { s.csr with ctrl := { Ctrl.reset with sampling := true } } } 0x00A00160) = true := by
  decide +kernel

/-- V43 PLACE_MB: BAD_ARG, and BAD_INDEX before it. -/
theorem test_placeMb_fails : (status (.placeMb 0) (start.setMb 0 { MbMeta.unwritten with k := 31 }) 0x36 &&
    status (.placeMb 5) start 0x26) = true := by decide +kernel

/-! ### Weighting, quantisation, classes and the search (V44) -/

/-- V44.3, V44.9. -/
theorem test_weightFwd : (gives (.weightFwd 0) (withBlock 0 false 0 0 [(0, -2), (1, 100)]) 0 [(0, -1), (1, 49)] &&
    gives (.weightFwd 0) (withBlock 0 true 0 0 [(8, 500)]) 0 [(8, 231)]) = true := by decide +kernel

/-- V44.13 (saturation), V44.15. -/
theorem test_weightInv : (gives (.weightInv 0) (withBlock 0 false 0 0 [(0, 8192), (63, 500)]) 0 [(0, 32767), (63, 1924)] &&
    gives (.weightInv 0) (withBlock 0 true 0 0 [(32, 50)]) 0 [(32, 100)]) = true := by decide +kernel

/-- V44 QUANT: (qno 0, class 3) and the DC. -/
theorem test_quant : (gives (.quant 29) (withBlock 29 false 3 0 [(0, 5000), (1, -32768), (63, -100)]) 29
    [(0, 5000), (1, -255), (63, -3)]) = true := by decide +kernel

/-- V44 QUANT in mode 1 and at qno 15. -/
theorem test_quant_bands : (gives (.quant 0) (withBlock 0 true 1 8 [(32, 77)]) 0 [(32, 77)] &&
    gives (.quant 0) (withBlock 0 false 0 15 [(1, 300)]) 0 [(1, 255)]) = true := by decide +kernel

/-- V44 DEQUANT: (qno 0, class 3), a product that wraps. -/
theorem test_dequant : gives (.dequant 0) (withBlock 0 false 3 0 [(0, 5000), (1, 2048), (63, -255)]) 0
    [(0, 5000), (1, -32768), (63, -8160)] = true := by decide +kernel

/-- S6: maximum 24 is class 2 with the reset thresholds; -32768 is class 3. -/
theorem test_classify : (leaves (.classify 0) (withBlock 0 true 0 0 [(0, 5000), (9, 24)])
      (fun t => t.csr.res0 == 24 && t.blkAt 0 == { BlkMeta.unwritten with dctMode := true, cls := 2 }) &&
    leaves (.classify 0) (withBlock 0 false 0 0 [(9, -32768)]) (fun t => t.csr.res0 == 32768 && (t.blkAt 0).cls == 3)) = true := by
  decide +kernel

/-- V44 CLASSIFY with thresholds that do not increase; a chroma block reads CLSTHR_C. -/
theorem test_classify_thresholds :
    let s := withBlock 4 false 0 0 [(9, 25)]
    (leaves (.classify 4) { s with csr := { s.csr with clsthrC := 0x0A141E, clsthrY := 0 } } (fun t => (t.blkAt 4).cls == 2)) =
      true := by decide +kernel

/-- V44.22: the 19 AC values; the first fit within 96 is qno 3. -/
theorem test_qsearch : leaves (.qsearch 4) (withBlock 24 false 0 0
      [(1, -9), (2, 12), (3, 12), (4, -5), (5, 3), (8, 7), (9, 7), (10, 12), (11, 3), (12, 7), (16, 12), (17, -9), (18, 12), (19, 2),
        (24, 3), (25, -5), (26, -5), (32, 2), (33, 2)])
    (fun t => t.csr.res0 == 0xFFFFF3 && (t.mbAt 4).qno == 3 && t.statusWord == 2) = true := by decide +kernel

/-! ### Transforms (V45) -/

/-- V45.11: the ramp. -/
theorem test_fdct : gives (.fdct 29) (withBlock 29 false 0 0 ((List.range 64).map fun n => (n, (n : Int)))) 29
    [(0, 252), (1, -18), (3, -2), (5, -1), (8, -146), (24, -15), (40, -5), (56, -1)] = true := by decide +kernel

/-- V45.14: mode 1. -/
theorem test_fdct_248 : gives (.fdct 0) (withBlock 0 true 0 0 ((List.range 64).map fun n => (n, if n / 8 % 2 = 0 then 0 else 10))) 0
    [(0, 40), (32, -40)] = true := by decide +kernel

/-- V45.9. -/
theorem test_idct : gives (.idct 0) (withBlock 0 false 0 0 [(1, 100)]) 0
    ((List.range 64).map fun n => (n, [17, 15, 10, 3, -3, -10, -15, -17].getD (n % 8) 0)) = true := by decide +kernel

/-- V45.10: mode 1. -/
theorem test_idct_248 : gives (.idct 0) (withBlock 0 true 0 0 [(32, 100)]) 0
    ((List.range 64).map fun n => (n, if n / 8 % 2 = 0 then 13 else -13)) = true := by decide +kernel

/-- V45, NEED248 of the rows 0, 10, 0, 10, ...: V is 560, which exceeds 559 but not 560. -/
theorem test_need248 :
    let s := withBlock 7 false 3 0 ((List.range 64).map fun n => (n, if n / 8 % 2 = 0 then 0 else 10))
    (leaves (.need248 7) s (fun t => t.csr.res0 == 560 && t.blkAt 7 == { BlkMeta.unwritten with dctMode := true, cls := 3 }) &&
      leaves (.need248 7) { s with csr := { s.csr with thr248 := 560 } } (fun t => (t.blkAt 7).dctMode == false)) = true := by
  decide +kernel

/-! ### Segment and macro commands (V46, V47) -/

/-- V46.1: the all-zero segment. -/
theorem test_vlcDecSeg : leaves .vlcDecSeg start (fun t => t.csr.res0 == 30 && t.csr.res1 == 0 && t.statusWord == 0x802 &&
    (t.mbAt 0).word0 == 0x600 && (t.blkAt 0).word0 == 0x2240 && (t.blkAt 0).word1 == 0x00900090 && (t.blkAt 4).word0 == 0x1740 &&
    t.coefs 4 == block ((List.range' 1 22).map fun i => (ZZ88.getD i 0, 1))) = true := by decide +kernel

/-- V46.3: block 0 is DC 5, n:1 = 1, n:8 = -2, the other blocks empty. -/
theorem test_vlcEncSeg : leaves .vlcEncSeg (withBlock 0 false 0 15 [(0, 5), (1, 1), (8, -2)]) (fun t => t.csr.res0 == 0 &&
    t.csr.res1 == 127 && (List.range 6).map (fun a => segByte t.mem (3 + a)) == [0x0F, 0x02, 0x80, 0xAC, 0, 0]) = true := by
  decide +kernel

/-- V46.4 with PASSES 1: 40 entries of 3 bits in a luma block, 8 of them truncated. -/
theorem test_vlcEncSeg_truncates :
    let s := withBlock 0 false 0 15 ((List.range' 1 40).map fun i => (ZZ88.getD i 0, 1))
    leaves .vlcEncSeg { s with csr := { s.csr with ctrl := { Ctrl.reset with passes := 1 } } } (fun t => t.csr.res0 == 8 &&
      t.csr.res1 == 216 && t.csr.ovfCount == 8 && t.statusWord == 0x402) = true := by decide +kernel

/-- S10, the first loop of ENCODE_SEG on a flat block of -112: DC -224 and class 0; with AUTO248 the V45.14 block takes mode 1. -/
theorem test_encodeSeg_block :
    let s := withBlock 0 false 2 0 ((List.range 64).map fun n => (n, -112))
    let u := withBlock 0 false 0 0 ((List.range 64).map fun n => (n, if n / 8 % 2 = 0 then 0 else 10))
    let v := analyse { u with csr := { u.csr with ctrl := { Ctrl.reset with auto248 := true, autoq := false } } } 0
    (analyse s 0).coefs 0 = block [(0, -224)] ∧ ((analyse s 0).blkAt 0).cls = 0 ∧ (analyse s 0).csr.res0 = 0 ∧
      (v.blkAt 0).dctMode = true ∧ v.coefs 0 = block [(0, 10), (32, -20)] := by decide +kernel

/-- S10, the other way: the bytes 0x90 0x06 decode to the flat block -112. -/
theorem test_decodeSeg : leaves .decodeSeg (withSeg [0, 0, 0, 0x0F, 0x90, 0x06] 0 0) (fun t =>
    t.coefs 0 == block ((List.range 64).map fun n => (n, -112)) && (t.blkAt 0).eob && (t.mbAt 0).qno == 15) = true := by
  decide +kernel

/-! ### The host port (V10, V60, V70) -/

/-- The reply of a read. -/
def reply (s : State) : Option Word := s.port.replies.head?

/-- V10.1, V10.2, V10.4, V10.7. -/
theorem test_csr : reply (hostRead 0x0000 .word start) = some 0x44560001 ∧
    reply (hostRead 0x0004 .word (hostWrite 0x0004 .word 0 start)) = some 0x0C ∧
    reply (hostRead 0x0004 .word (hostWrite 0x0004 .word 0xFFFFFEC0 start)) = some 0x2C ∧
    reply (hostRead 0x0024 .word (hostWrite 0x0024 .word 0xFFFFF0C8 start)) = some 0xC8 := by decide +kernel

/-- V10.5, V10.6. -/
theorem test_status_w1c :
    let s := start.setStatus ⟨true, true, 0, true, true, true, true, true⟩
    (hostWrite 0x000C .word 2 s).statusWord = 0x1F04 ∧ (hostWrite 0x000C .word 0xFFFFFFFF s).statusWord = 0 := by decide +kernel

/-- V10.11 to V10.13, V10.17: illegal accesses. -/
theorem test_buserr : (hostRead 0x0040 .word start).statusWord = 0x200 ∧ (hostRead 0x0004 .half start).statusWord = 0x200 ∧
    (hostWrite 0x1000 .byte 0xFF start).mem = [] ∧ reply (hostRead 0x0402 .word start) = some 0 := by decide +kernel

/-- V10.16, V10.15. -/
theorem test_ram : reply (hostRead 0x0400 .word (withSeg [0x0A, 0x0B, 0x0C, 0x0D] 0 0)) = some 0x0D0C0B0A ∧
    reply (hostRead 0x1000 .word (withBlock 0 false 0 0 [(0, -112), (1, 5)])) = some 0x0005FF90 := by decide +kernel

/-- V10.18, V10.19. -/
theorem test_metadata : reply (hostRead 0x0100 .word (hostWrite 0x0100 .word 0xFFFFFFFF start)) = some 7 ∧
    (hostWrite 0x0204 .word 0x34D start).mbAt 0 = { MbMeta.unwritten with k := 13, j := 2, i := 3 } := by decide +kernel

/-- V10.20, V10.22: refused while BUSY; STATUS is not. -/
theorem test_reject :
    let s := hostWrite 0x0008 .word 0x31 (hostWrite 0x0008 .word 1 start)
    s.statusWord = 0x101 ∧ s.csr.cmd = 1 ∧ (hostWrite 0x000C .word 0x100 s).statusWord = 1 := by decide +kernel

/-- 30 R106, V60: a reserved OP runs to ILLEGAL_OP in one step. -/
theorem test_illegal_op : (match step (start.withFetchWord 32 0x26) with
    | .next t => t.statusWord == 0x16 && t.csr.errcmd == 0x26
    | _ => false) = true := by decide +kernel

/-! ### Witnesses: states and operands that meet the hypotheses of each obligation, at the ends of their ranges -/

/-- COEF[b] holds the block of `l`. -/
def holding (b : Nat) (l : List (Nat × Int)) : State := withBlock b false 0 0 l

/-- A state with CTRL.SYS = `y`, ARG0 = `v` and the coordinates `k j i` in MB[4]. -/
def placed (y : Bool) (v : Word) (k : BitVec 5) (j : BitVec 3) (i : BitVec 4) : State :=
  ({ withArg v with csr := { (withArg v).csr with ctrl := { Ctrl.reset with sys := y } } } : State).setMb 4
    { MbMeta.unwritten with k, j, i }

theorem test_witness_DecodeEncode : (Instr.brPeek 65535).wf = true ∧ (Instr.need248 31).wf = true := by decide

theorem test_witness_DecodeUsesFormat :
    (decodeWord 0x00000728 = .ok (.fdct 7) ∧ opField 0xFFFFE728 = opField 0x00000728 ∧ usesIdx (.fdct 7) = true ∧
      idxField 0xFFFFE728 = idxField 0x00000728 ∧ usesImm (.fdct 7) = false) ∧
    decodeWord 0x000C0008 = .ok (.brPeek 12) ∧ opField 0x000CFF08 = opField 0x000C0008 ∧ usesIdx (.brPeek 12) = false ∧
      usesImm (.brPeek 12) = true ∧ immField 0x000CFF08 = immField 0x000C0008 := by decide

theorem test_witness_ReservedOpFails : ∃ s : State, s.phase = .busy ∧ s.wait = 0 ∧
    decodeWord s.csr.cmd = .error (.reservedOp 0xFF) := ⟨start.capture 0x000000FF, by decide⟩

theorem test_witness_StepRunsCommand :
    (∃ s : State, s.phase = .busy ∧ s.wait = 0 ∧ decodeWord s.csr.cmd = .ok (.fdct 7)) ∧
    (∃ s : State, s.phase = .busy ∧ s.wait ≠ 0) ∧ start.phase = .idle ∧ (Instr.bwPut 65535).wf = true :=
  ⟨⟨start.capture 0x728, by decide⟩, ⟨{ start.capture 0x728 with wait := 1 }, by decide⟩, by decide, by decide⟩

theorem test_witness_AcceptedCommandCompletes : ∃ s : State, s.phase = .busy ∧ s.wait = 0 := ⟨start.capture 0xFF, by decide⟩

theorem test_witness_BadIndexFails : (29 < 30 ∧ Instr.fdct 30 ∈ [Instr.vlcBlkBits 30, .fdct 30]) ∧
    4 < 5 ∧ Instr.placeMb 5 ∈ [Instr.qsearch 5, .placeMb 5] := by decide

theorem test_witness_NopResult : opField 0xFFFFFF00 = 0x00 := by decide

theorem test_witness_SegClearResult : opField 0xFFFFFF01 = 0x01 := by decide

theorem test_witness_BrPeekResult : opField 0x00180008 = 0x08 ∧
    (∃ n, ∃ s : State, 1 ≤ n ∧ n ≤ 24 ∧ s.csr.bitpos.toNat + n ≤ 3200) ∧ (∃ n, n < 1 ∨ 24 < n) ∧
    ∃ n, ∃ s : State, 1 ≤ n ∧ n ≤ 24 ∧ 3200 < s.csr.bitpos.toNat + n :=
  ⟨by decide, ⟨24, start.setBitpos 3176, by decide⟩, ⟨25, by decide⟩, ⟨24, start.setBitpos 3177, by decide⟩⟩

theorem test_witness_BrSkipResult : opField 0x00000009 = 0x09 ∧ (∃ n, ∃ s : State, s.csr.bitpos.toNat + n ≤ 3200) ∧
    ∃ n, ∃ s : State, 3200 < s.csr.bitpos.toNat + n :=
  ⟨by decide, ⟨0, start.setBitpos 3200, by decide⟩, ⟨1, start.setBitpos 3200, by decide⟩⟩

theorem test_witness_BwPutResult : opField 0x0001000A = 0x0A ∧
    (∃ n, ∃ s : State, 1 ≤ n ∧ n ≤ 24 ∧ s.csr.bitpos.toNat + n ≤ 3200) ∧ (∃ n, n < 1 ∨ 24 < n) ∧
    ∃ n, ∃ s : State, 1 ≤ n ∧ n ≤ 24 ∧ 3200 < s.csr.bitpos.toNat + n :=
  ⟨by decide, ⟨1, start.setBitpos 3199, by decide⟩, ⟨0, by decide⟩, ⟨1, start.setBitpos 3200, by decide⟩⟩

theorem test_witness_VlcDecSymResult : (∃ nv, nv ≤ 16) ∧ ∃ nv, 16 < nv := ⟨⟨16, by decide⟩, ⟨17, by decide⟩⟩

theorem test_witness_VlcEncodeRule : ∃ run amp, run ≤ 63 ∧ amp ≤ 255 := ⟨63, 255, by decide⟩

theorem test_witness_VlcDecodeRule : (∃ r, r ≤ 63) ∧ (∃ a, a ≤ 255) ∧ (∃ e : VlcEntry, e ∈ VLCTAB) ∧
    (vlcDecode [false, false]).kind = .nobits ∧ (vlcDecode [false, false, true]).kind ≠ .nobits :=
  ⟨⟨63, by decide⟩, ⟨255, by decide⟩, ⟨VLCTAB.head (by decide), by decide +kernel⟩, by decide +kernel, by decide +kernel⟩

theorem test_witness_VlcBlkBitsResult :
    (∀ n, 1 ≤ n → n ≤ 63 → (coef (holding 29 [(1, 255), (63, -255)]).mem 29 n).natAbs ≤ 255) ∧
    ∃ n, 1 ≤ n ∧ n ≤ 63 ∧ 255 < (coef (holding 29 [(63, -256)]).mem 29 n).natAbs := by
  refine ⟨?_, 63, by decide +kernel⟩
  have h : ∀ n < 64, (coef (holding 29 [(1, 255), (63, -255)]).mem 29 n).natAbs ≤ 255 := by decide +kernel
  exact fun n _ hn => h n (by omega)

theorem test_witness_BlockEntriesRebuild : (block [(0, -3), (63, 7)]).length = 64 := by decide

theorem test_witness_BlockRoundTrip : ∃ (c : List Int) (w : Work), c.length = 64 ∧
    (∀ n < 64, 1 ≤ n → n ≤ 63 → (at0 c n).natAbs ≤ 255) ∧ w.pos = 1 ∧ w.fin = false ∧ w.err = 0 ∧ w.carry = [] ∧
    w.coefs = (List.replicate 64 0).set 0 (at0 c 0) :=
  ⟨block [(0, -3), (1, -255), (63, 255)],
    { workAt [] 0 with pos := 1, fin := false, err := 0, carry := [], coefs := (List.replicate 64 0).set 0 (-3) },
    by decide +kernel⟩

theorem test_witness_ZzToScanResult : opField 0x1D18 = 0x18 ∧ (∃ b, b ≤ 29) ∧ ∃ b, 29 < b :=
  ⟨by decide, ⟨29, by decide⟩, ⟨30, by decide⟩⟩

theorem test_witness_ZzToNatResult : opField 0x1D19 = 0x19 ∧ (∃ b, b ≤ 29) ∧ ∃ b, 29 < b :=
  ⟨by decide, ⟨29, by decide⟩, ⟨30, by decide⟩⟩

/-- Every statement about a block command with the one hypothesis b ≤ 29: ZzInverse, WeightResult, QuantResult, DequantResult,
ClassifyResult, FdctResult, IdctResult; and QsearchResult's m ≤ 4. -/
theorem test_witness_block_commands : (∃ b, b ≤ 29) ∧ (∃ n, 1 ≤ n ∧ n ≤ 63) ∧ ∃ m, m ≤ 4 :=
  ⟨⟨29, by decide⟩, ⟨63, by decide⟩, ⟨4, by decide⟩⟩

/-- The last macroblock of either system is in range; K 27, J 5, I 10 for 525-60 and I 12 for 625-50 are not. -/
theorem test_witness_PlaceResult :
    let ok := fun s : State => (s.csr.arg0.extractLsb' 0 5).toNat ≤ 26 ∧ (s.csr.arg0.extractLsb' 8 3).toNat ≤ 4 ∧
      (s.csr.arg0.extractLsb' 16 4).toNat ≤ (if s.csr.ctrl.sys then 11 else 9)
    ok (placed false 0x0009041A 0 0 0) ∧ ok (placed true 0x000B041A 0 0 0) ∧
    26 < ((placed false 0x0000001B 0 0 0).csr.arg0.extractLsb' 0 5).toNat ∧
    4 < ((placed false 0x00000500 0 0 0).csr.arg0.extractLsb' 8 3).toNat ∧
    9 < ((placed false 0x000A0000 0 0 0).csr.arg0.extractLsb' 16 4).toNat ∧
    11 < ((placed true 0x000C0000 0 0 0).csr.arg0.extractLsb' 16 4).toNat := by decide

theorem test_witness_PlaceMbResult :
    let ok := fun s : State => (s.mbAt 4).k.toNat ≤ 26 ∧ (s.mbAt 4).j.toNat ≤ 4 ∧
      (s.mbAt 4).i.toNat ≤ (if s.csr.ctrl.sys then 11 else 9)
    ok (placed false 0 26 4 9) ∧ ok (placed true 0 26 4 11) ∧ 26 < ((placed false 0 27 0 0).mbAt 4).k.toNat ∧
    4 < ((placed false 0 0 5 0).mbAt 4).j.toNat ∧ 9 < ((placed false 0 0 0 10).mbAt 4).i.toNat ∧
    11 < ((placed true 0 0 0 12).mbAt 4).i.toNat := by decide

theorem test_witness_PlacementTiles : (∃ x y, x < 720 ∧ y < 48 * (9 + 1)) ∧ ∃ x y, x < 720 ∧ y < 48 * (11 + 1) :=
  ⟨⟨719, 479, by decide⟩, ⟨719, 575, by decide⟩⟩

/-- A DC whose inverse weighting is the least value that does not saturate. -/
theorem test_witness_WeightRoundTrip : ∃ b n, ∃ s : State, b ≤ 29 ∧ n < 64 ∧
    roundShift (coef s.mem b n * at0 (wiq (s.blkAt b).dctMode) n) 16 = -32768 :=
  ⟨29, 0, holding 29 [(0, -8192)], by decide +kernel⟩

theorem test_witness_FlatBlock : ∃ b, ∃ s : State, ∃ a : Int, b ≤ 29 ∧ -256 ≤ a ∧ a ≤ 255 ∧ ∀ n < 64, coef s.mem b n = a :=
  ⟨29, holding 29 ((List.range 64).map fun n => (n, -256)), -256, by decide +kernel⟩

theorem test_witness_Need248Result : opField 0x1D2A = 0x2A ∧ (∃ b, b ≤ 29) ∧ ∃ b, 29 < b :=
  ⟨by decide, ⟨29, by decide⟩, ⟨30, by decide⟩⟩

/-- Two states with one SEG and different COEF and metadata. -/
theorem test_witness_VlcDecSegDependsOnSegOnly : ∃ s u : State, s.blk ≠ u.blk ∧ coef s.mem 3 5 ≠ coef u.mem 3 5 ∧
    ∀ a < 400, segByte s.mem a = segByte u.mem a :=
  ⟨start, withBlock 3 true 1 2 [(5, 9)], by decide +kernel⟩

theorem test_witness_VlcEncSegResult :
    (∀ b < 30, ∀ n < 64, 1 ≤ n → (coef (holding 29 [(0, 3000), (63, -255)]).mem b n).natAbs ≤ 255) ∧
    ∃ b n, b < 30 ∧ 1 ≤ n ∧ n ≤ 63 ∧ 255 < (coef (holding 29 [(63, 256)]).mem b n).natAbs :=
  ⟨by decide +kernel, 29, 63, by decide +kernel⟩

/-- A block whose code is longer than its area, so that pass 2 has bits to place; a position that no code uses. -/
theorem test_witness_SegmentImage :
    (∀ b < 30, ∀ n < 64, 1 ≤ n → (coef (holding 29 [(1, 255), (63, -255)]).mem b n).natAbs ≤ 255) ∧
    68 < (blockCode (blockEntries ((List.range 64).map fun n => if n < 6 then -255 else 0) false)).length ∧
    639 ∈ acPlaces 5 ∧ 639 ∉ (placedBits fun _ => [false, true, true, false]).map Prod.fst :=
  ⟨by decide +kernel, by decide +kernel, by decide, by decide +kernel⟩

theorem test_witness_SegmentRoundTrip :
    let s := holding 29 [(0, -256), (1, 255), (63, -255)]
    (∀ b < 30, ∀ n < 64, 1 ≤ n → (coef s.mem b n).natAbs ≤ 255) ∧ ∀ b < 30, -256 ≤ coef s.mem b 0 ∧ coef s.mem b 0 ≤ 255 := by
  decide +kernel

theorem test_witness_FitStepFits : ∀ passes ∈ [(1 : BitVec 2), 2, 3], ∃ es : List (List Entry), es.length = 30 ∧ passes ≠ 0 :=
  fun p h => ⟨List.replicate 30 [⟨0, 255, true⟩], by decide, by revert p; decide⟩

/-- Both cases of FitRule: 6 symbols of 16 bits and the EOB are 100 bits and fit a luma area, 7 are 116 bits and lose one. -/
theorem test_witness_FitRule :
    let es := fun n => List.replicate n (⟨0, 255, true⟩ : Entry)
    FitRule 100 [es 6] [es 6] ∧ FitRule 100 [es 7] [es 6] ∧ ¬ FitRule 100 [es 7] [es 5] ∧ ¬ FitRule 100 [es 6] [es 5] := by
  refine ⟨.inl (by decide), .inr ⟨by decide, by decide, 0, 0, by decide⟩, ?_, ?_⟩
  · rintro (⟨h, -⟩ | ⟨-, -, r, c, hr, hk, hc⟩)
    · exact absurd h (by decide)
    · rcases c with - | c
      · have h7 : r < 7 := hr
        revert hk hc; revert r; decide
      · exact absurd hr (by simp)
  · rintro (⟨-, h⟩ | ⟨h, -⟩)
    · exact absurd h (by decide)
    · exact absurd h (by decide)

theorem test_witness_CtrlWrite : (0x80000000 : Word).getLsbD 31 = true ∧ (0x7FFFFFFF : Word).getLsbD 31 = false ∧
    start.phase = .idle ∧ (start.capture 0).phase = .busy := by decide

/-- Of the statements whose hypothesis is the phase: StatusWrite has none; CmdWrite, CsrWrites and CsrReads take both. -/
theorem test_witness_phases : start.phase = .idle ∧ (start.capture 0x31).phase = .busy := by decide

/-- Accesses beside every region, misaligned, of a width the region does not have. -/
theorem test_witness_IllegalAccess : ∀ x ∈ [((0x0040 : BitVec 16), Width.word), (0x00FC, .word), (0x01F0, .word), (0x023C, .word),
      (0x03FF, .byte), (0x0590, .byte), (0x0FFE, .half), (0x1F00, .half), (0xFFFF, .byte), (0x0402, .word), (0x1001, .half),
      (0x1000, .byte), (0x0004, .half), (0x0100, .byte)],
    let a := x.1.toNat
    let n := x.2.bytes
    ¬ (a % n = 0 ∧ ∃ row ∈ [(0x0000, 0x003F, [4]), (0x0100, 0x01EF, [4]), (0x0200, 0x023B, [4]), (0x0400, 0x058F, [1, 2, 4]),
        (0x1000, 0x1EFF, [2, 4])], row.1 ≤ a ∧ a + n - 1 ≤ row.2.1 ∧ n ∈ row.2.2) := by decide

theorem test_witness_StalledAccess : (start.capture 0x31).phase = .busy ∧
    (∀ x ∈ [((0x0100 : BitVec 16), Width.word, Region.blkmeta), (0x01EC, .word, .blkmeta), (0x0238, .word, .mbmeta),
      (0x058F, .byte, .seg), (0x1EFE, .half, .coef)], legalRegion x.1.toNat x.2.1 = some x.2.2 ∧ x.2.2 ≠ .csr) ∧
    ∃ s : State, s.phase = .idle ∧ s.port.stalled = [.read 0x1EFC .word, .write 0x0400 .byte 7] :=
  ⟨by decide, by decide, { start with port := { start.port with stalled := [.read 0x1EFC .word, .write 0x0400 .byte 7] } },
    by decide⟩

theorem test_witness_RamLittleEndian : start.phase = .idle ∧
    ∀ x ∈ [((0x0400 : BitVec 16), Width.word, Region.seg), (0x058F, .byte, .seg), (0x058E, .half, .seg), (0x1000, .word, .coef),
      (0x1EFE, .half, .coef)], legalRegion x.1.toNat x.2.1 = some x.2.2 ∧ (x.2.2 = .seg ∨ x.2.2 = .coef) := by decide

/-- MetadataWrites and MetadataReads. -/
theorem test_witness_metadata : start.phase = .idle ∧ (∃ b, b < 30) ∧ ∃ m, m < 5 := ⟨by decide, ⟨29, by decide⟩, ⟨4, by decide⟩⟩

/-- A command of each group in flight; bits on both sides of BW_PUT's field; blocks and macroblocks beside the indexed one. -/
theorem test_witness_SoftReset : start.phase = .idle ∧
    (∀ x ∈ [((0x00000011 : Word), Instr.vlcEncSym), (0x00180008, .brPeek 24), (0x00000001, .segClear), (0x00001D28, .fdct 29),
      (0x00001D24, .quant 29), (0x00001D25, .dequant 29), (0x0018000A, .bwPut 24), (0x00001D22, .classify 29),
      (0x00001D2A, .need248 29), (0x0000041C, .placeMb 4), (0x00000423, .qsearch 4)],
      (start.capture x.1).phase = .busy ∧ decodeWord (start.capture x.1).csr.cmd = .ok x.2) ∧
    (∃ p, ∃ s : State, p < 3200 ∧ p < s.csr.bitpos.toNat) ∧ (∃ p, ∃ s : State, p < 3200 ∧ s.csr.bitpos.toNat + 24 ≤ p) ∧
    (23 < 6 * 4 ∨ 6 * 4 + 6 ≤ 23) ∧ (Instr.brPeek 24).op ∈ [0x08#8, 0x09#8, 0x10#8, 0x13#8] :=
  ⟨by decide, by decide, ⟨3199, start.setBitpos 3200, by decide⟩, ⟨24, start, by decide⟩, by decide, by decide⟩

/-- SoftReset: a reserved OP in flight. -/
theorem test_witness_SoftReset_reserved : (start.capture 0x000000FF).phase = .busy ∧
    decodeWord (start.capture 0x000000FF).csr.cmd = .error (.reservedOp 0xFF) := by decide

/-- SoftReset: in flight a command whose count, index or operand fails its check: BW_PUT 25, FDCT 30, PLACE_MB 4 with K = 27. -/
theorem test_witness_SoftReset_failing :
    (∃ e, failsWith (.bwPut 25) (start.capture 0x0019000A) e) ∧ (∃ e, failsWith (.fdct 30) (start.capture 0x00001E28) e) ∧
    ∃ e, failsWith (.placeMb 4) ((placed false 0 27 0 0).capture 0x0000041C) e :=
  ⟨⟨_, failsWith_of_error (e := .badArg) rfl⟩, ⟨_, failsWith_of_error (e := .badIndex) rfl⟩,
    ⟨_, failsWith_of_error (e := .badArg) rfl⟩⟩

theorem test_witness_SoftResetSegment : (∀ x ∈ [((0x00000030 : Word), Instr.vlcDecSeg), (0x00000031, .vlcEncSeg),
      (0x00000038, .decodeSeg), (0x00000039, .encodeSeg)],
      (start.capture x.1).phase = .busy ∧ decodeWord (start.capture x.1).csr.cmd = .ok x.2) ∧
    (∃ s : State, s.csr.ctrl.auto248 = false ∧ s.csr.ctrl.autoq = false) ∧
    (∀ a ∈ [0x0402, 0x058F + 1, 0x03FF], a < 0x0400 ∨ 0x0400 + 400 ≤ a ∨ (a - 0x0400) % 80 < 3) :=
  ⟨by decide, ⟨{ start with csr := { start.csr with ctrl := { start.csr.ctrl with autoq := false } } }, by decide⟩, by decide⟩

/-- 60 R342, 70 R383: a BW_PUT whose field ends beyond SEG could write nothing, so a soft reset keeps the byte at BITPOS. -/
theorem test_abort_failing_bwPut :
    let s := ((withSeg [] 3177 0).setMem (Memory.store [] 0x058D [0xA5])).capture 0x0018000A
    s.phase = .busy ∧ (softReset s).mem.byte 0x058D = 0xA5 ∧ (softReset s).csr.bitpos = 0 := by decide +kernel

theorem test_witness_ResetValues : (∃ s : State, ∃ mem blk mb, s = State.powerOn mem blk mb) ∧ ∃ s u : State, s = hardReset u :=
  ⟨⟨_, [(0x0400, 0x5A)], .replicate 30 { BlkMeta.unwritten with pos := 64 }, .replicate 5 .unwritten, rfl⟩,
    ⟨_, start.capture 0x31, rfl⟩⟩

theorem test_witness_InterruptLine : (∃ i, ∃ s t : State, exec i s = .next t) ∧ (6 : Word).getLsbD 1 = true ∧
    (6 : Word).getLsbD 2 = true := ⟨⟨.nop, start, complete start, rfl⟩, by decide, by decide⟩

/-- A state that is BUSY with VLC_ENC_SEG, holds bytes in SEG and COEF and has an access put off. -/
theorem test_witness_StepKeepsInv : ∃ s : State, s.phase = .busy ∧ s.Inv :=
  ⟨{ start.capture 0x31 with
      mem := [(0x058F, 1), (0x1EFF, 0x80)]
      port := { start.port with stalled := [.write 0x1EFE .half 7] } },
    rfl, ⟨by decide, by decide, by decide, by decide, by decide, by decide⟩⟩

/-! ### The pseudo-commands (30 R109) -/

/-- `s` with the host's list `l`, and a latency of 3 for each command. -/
def driven (l : List HostEvent) (s : State) : State := { s with port := { s.port with host := l, latency := [3, 3, 3] } }

/-- What `n` steps lead to. -/
def after (n : Nat) (s : State) (p : State → Bool) : Bool :=
  match stepN n s with
  | .next t => p t
  | _ => false

theorem test_witness_PseudoCommands : start.phase = .idle ∧ start.port.stalled = [] ∧
    (∃ s : State, s.csr.bitpos.toNat + 24 ≤ 3200 ∧ 3200 < s.csr.bitpos.toNat + 25) ∧
    (∃ s : State, s.csr.bitpos.toNat + (vlcEncode 63 255 true).length ≤ 3200 ∧
      3200 < s.csr.bitpos.toNat + 1 + (vlcEncode 63 255 true).length) ∧ ∃ b, b ≤ 29 :=
  ⟨by decide, by decide, ⟨start.setBitpos 3176, by decide⟩, ⟨start.setBitpos 3158, by decide +kernel⟩, 29, by decide⟩

/-- `BR_GET 8` whose commands take 3 slots each: the host waits for the first before it stores the second. -/
theorem test_brGet_waits : after 12 (driven (brGet 8) (withSeg [0xA5, 0x3C] 4 0)) (fun t =>
    t.csr.res0 == 0x53 && t.csr.bitpos == 12 && t.phase == .idle && !t.csr.status.reject) = true := by decide +kernel

/-- `FDCT248 5` sets DCT_MODE and keeps CLASS in the word it writes back. -/
theorem test_fdct248_word0 : after 3 (driven (fdct248At 5) (withBlock 5 false 2 0 [])) (fun t =>
    t.blkAt 5 == { BlkMeta.unwritten with dctMode := true, cls := 2 }) = true := by decide +kernel

end Sys2Proof.Tests
end

section
/-! The host port's registers and metadata: where each field stands in the words read, what a write of each word does, and the
statements about both. -/

namespace Sys2Proof.Machine

open Sys2Proof

/-! ### Where the fields stand in the words read -/

@[simp] theorem bit_getElem_zero (b : Bool) : (bit b)[0] = b := by cases b <;> rfl

theorem getLsbD_append_of_lt {m n i : Nat} {x : BitVec m} {y : BitVec n} (h : i < n) :
    (x ++ y).getLsbD i = y.getLsbD i := by
  rw [BitVec.getLsbD_append, if_pos h]

theorem getLsbD_append_of_le {m n i : Nat} {x : BitVec m} {y : BitVec n} (h : n ≤ i) :
    (x ++ y).getLsbD i = x.getLsbD (i - n) := by
  rw [BitVec.getLsbD_append, if_neg (Nat.not_lt.mpr h)]

/-- CTRL (10 R23). -/
theorem Ctrl.toWord_layout (c : Ctrl) :
    c.toWord.getLsbD 0 = c.sys ∧ c.toWord.getLsbD 1 = c.sampling ∧ c.toWord.extractLsb' 2 2 = c.passes ∧
      c.toWord.getLsbD 4 = c.auto248 ∧ c.toWord.getLsbD 5 = c.autoq ∧ c.toWord.extractLsb' 6 2 = 0 ∧
      c.toWord.getLsbD 8 = c.irqEn ∧ c.toWord.extractLsb' 9 23 = 0 := by
  simp (disch := decide) only [Ctrl.toWord, getLsbD_append_of_lt, getLsbD_append_of_le,
    BitVec.extractLsb'_append_eq_of_le, BitVec.extractLsb'_append_eq_of_add_le]
  simp

/-- SRST reads 0 (10 R24). -/
theorem Ctrl.toWord_srst (c : Ctrl) : c.toWord.getLsbD 31 = false := by
  simp (disch := decide) only [Ctrl.toWord, getLsbD_append_of_le]
  simp

/-- STATUS, BUSY the phase (10 R26). -/
theorem State.statusWord_layout (s : State) :
    s.statusWord.getLsbD 0 = decide (s.phase = .busy) ∧ s.statusWord.getLsbD 1 = s.csr.status.done ∧
      s.statusWord.getLsbD 2 = s.csr.status.err ∧ s.statusWord.getLsbD 3 = false ∧
      s.statusWord.extractLsb' 4 4 = s.csr.status.errcode ∧ s.statusWord.getLsbD 8 = s.csr.status.reject ∧
      s.statusWord.getLsbD 9 = s.csr.status.buserr ∧ s.statusWord.getLsbD 10 = s.csr.status.trunc ∧
      s.statusWord.getLsbD 11 = s.csr.status.vlcerr ∧ s.statusWord.getLsbD 12 = s.csr.status.qover ∧
      s.statusWord.extractLsb' 13 19 = 0 := by
  simp (disch := decide) only [State.statusWord, getLsbD_append_of_lt, getLsbD_append_of_le,
    BitVec.extractLsb'_append_eq_of_le, BitVec.extractLsb'_append_eq_of_add_le]
  simp

/-- Word 0 of BLK[b] (10 R36). -/
theorem BlkMeta.word0_layout (x : BlkMeta) :
    x.word0.getLsbD 0 = x.dctMode ∧ x.word0.extractLsb' 1 2 = x.cls ∧ x.word0.getLsbD 3 = false ∧
      x.word0.getLsbD 4 = x.fin ∧ x.word0.getLsbD 5 = x.eob ∧ x.word0.getLsbD 6 = x.mark ∧
      x.word0.getLsbD 7 = x.overBudget ∧ x.word0.extractLsb' 8 7 = x.pos ∧ x.word0.extractLsb' 15 17 = 0 := by
  simp (disch := decide) only [BlkMeta.word0, getLsbD_append_of_lt, getLsbD_append_of_le,
    BitVec.extractLsb'_append_eq_of_le, BitVec.extractLsb'_append_eq_of_add_le]
  simp

/-- Word 1 of BLK[b] (10 R37). -/
theorem BlkMeta.word1_layout (x : BlkMeta) :
    x.word1.extractLsb' 0 12 = x.offset ∧ x.word1.extractLsb' 12 4 = 0 ∧ x.word1.extractLsb' 16 12 = x.endPos ∧
      x.word1.extractLsb' 28 4 = 0 := by
  simp (disch := decide) only [BlkMeta.word1, BitVec.extractLsb'_append_eq_of_le, BitVec.extractLsb'_append_eq_of_add_le]
  simp

/-- Word 0 of MB[m] (10 R39). -/
theorem MbMeta.word0_layout (x : MbMeta) :
    x.word0.extractLsb' 0 4 = x.qno ∧ x.word0.extractLsb' 4 4 = x.sta ∧ x.word0.extractLsb' 8 8 = x.vlcError ∧
      x.word0.extractLsb' 16 3 = x.eobCount ∧ x.word0.extractLsb' 19 13 = 0 := by
  simp (disch := decide) only [MbMeta.word0, BitVec.extractLsb'_append_eq_of_le, BitVec.extractLsb'_append_eq_of_add_le]
  simp

/-- Word 1 of MB[m] (10 R40). -/
theorem MbMeta.word1_layout (x : MbMeta) :
    x.word1.extractLsb' 0 5 = x.k ∧ x.word1.extractLsb' 5 3 = x.j ∧ x.word1.extractLsb' 8 4 = x.i ∧
      x.word1.extractLsb' 12 20 = 0 := by
  simp (disch := decide) only [MbMeta.word1, BitVec.extractLsb'_append_eq_of_le, BitVec.extractLsb'_append_eq_of_add_le]
  simp

/-- Word 2 of MB[m] (10 R41). -/
theorem MbMeta.word2_layout (x : MbMeta) :
    x.word2.extractLsb' 0 10 = x.x ∧ x.word2.extractLsb' 10 6 = 0 ∧ x.word2.extractLsb' 16 10 = x.y ∧
      x.word2.extractLsb' 26 6 = 0 := by
  obtain ⟨hx, hy, hlow, hhigh⟩ := xyWord_fields x.x x.y
  exact ⟨hx, hlow, hy, hhigh⟩

/-! ### Metadata words while IDLE -/

/-- The record an address of BLKMETA lies in, and the word of it (20 R72). -/
theorem blkWord_place (b : Nat) {j : Nat} (hj : j < 2) :
    (0x0100 + 8 * b + 4 * j - 0x0100) / 8 = b ∧ (0x0100 + 8 * b + 4 * j - 0x0100) / 4 % 2 = j := by omega

/-- The record an address of MBMETA lies in, and the word of it (20 R72). -/
theorem mbWord_place (m : Nat) {j : Nat} (hj : j < 3) :
    (0x0200 + 12 * m + 4 * j - 0x0200) / 12 = m ∧ (0x0200 + 12 * m + 4 * j - 0x0200) / 4 % 3 = j := by omega

section
variable {s : State} {a : Nat} (hp : s.phase = .idle)
include hp

theorem hostWrite_blkWord {b j : Nat} (hb : b < 30) (hj : j < 2) (ha : a = 0x0100 + 8 * b + 4 * j) (v : Word) :
    hostWrite (BitVec.ofNat 16 a) .word v s = if j = 0 then s.setBlk b ((s.blkAt b).writeWord0 v) else s := by
  subst ha
  obtain ⟨hl, haddr⟩ := legal_blkWord hb j hj
  obtain ⟨hrec, hword⟩ := blkWord_place b hj
  rw [hostWrite_legal hp hl (by decide), haddr]
  simp only [writeLegal, writeMeta, hrec, hword]

theorem hostRead_blkWord {b j : Nat} (hb : b < 30) (hj : j < 2) (ha : a = 0x0100 + 8 * b + 4 * j) :
    hostRead (BitVec.ofNat 16 a) .word s = s.reply (if j = 0 then (s.blkAt b).word0 else (s.blkAt b).word1) := by
  subst ha
  obtain ⟨hl, haddr⟩ := legal_blkWord hb j hj
  obtain ⟨hrec, hword⟩ := blkWord_place b hj
  rw [hostRead_legal hp hl (by decide), haddr]
  simp only [readLegal, readMeta, hrec, hword]

theorem hostWrite_mbWord {m j : Nat} (hm : m < 5) (hj : j < 3) (ha : a = 0x0200 + 12 * m + 4 * j) (v : Word) :
    hostWrite (BitVec.ofNat 16 a) .word v s =
      if j = 0 then s.setMb m ((s.mbAt m).writeWord0 v)
      else if j = 1 then s.setMb m ((s.mbAt m).writeWord1 v) else s := by
  subst ha
  obtain ⟨hl, haddr⟩ := legal_mbWord hm j hj
  obtain ⟨hrec, hword⟩ := mbWord_place m hj
  rw [hostWrite_legal hp hl (by decide), haddr]
  simp only [writeLegal, writeMeta, hrec, hword]

theorem hostRead_mbWord {m j : Nat} (hm : m < 5) (hj : j < 3) (ha : a = 0x0200 + 12 * m + 4 * j) :
    hostRead (BitVec.ofNat 16 a) .word s =
      s.reply (if j = 0 then (s.mbAt m).word0 else if j = 1 then (s.mbAt m).word1 else (s.mbAt m).word2) := by
  subst ha
  obtain ⟨hl, haddr⟩ := legal_mbWord hm j hj
  obtain ⟨hrec, hword⟩ := mbWord_place m hj
  rw [hostRead_legal hp hl (by decide), haddr]
  simp only [readLegal, readMeta, hrec, hword]

end

/-- Settles O51: the address of a word gives its record and its place in it, and `writeWord0` and `writeWord1` change the RW
fields only. -/
theorem metadataWrites : Obligations.MetadataWrites := by
  intro s v hp
  refine ⟨fun b hb => ⟨?_, ?_⟩, fun m hm => ⟨?_, ?_, ?_⟩⟩
  · exact hostWrite_blkWord hp hb (j := 0) (by decide) (by omega) v
  · exact hostWrite_blkWord hp hb (j := 1) (by decide) (by omega) v
  · exact hostWrite_mbWord hp hm (j := 0) (by decide) (by omega) v
  · exact hostWrite_mbWord hp hm (j := 1) (by decide) (by omega) v
  · exact hostWrite_mbWord hp hm (j := 2) (by decide) (by omega) v

/-- Settles O52: each read returns its record's word, whose layout is the lemma of that word. -/
theorem metadataReads : Obligations.MetadataReads := by
  intro s hp
  refine ⟨fun b hb => ⟨⟨_, ?_, (s.blkAt b).word0_layout⟩, ⟨_, ?_, (s.blkAt b).word1_layout⟩⟩, fun m hm =>
    ⟨⟨_, ?_, (s.mbAt m).word0_layout⟩, ⟨_, ?_, (s.mbAt m).word1_layout⟩, ⟨_, ?_, (s.mbAt m).word2_layout⟩⟩⟩
  · exact hostRead_blkWord hp hb (j := 0) (by decide) (by omega)
  · exact hostRead_blkWord hp hb (j := 1) (by decide) (by omega)
  · exact hostRead_mbWord hp hm (j := 0) (by decide) (by omega)
  · exact hostRead_mbWord hp hm (j := 1) (by decide) (by omega)
  · exact hostRead_mbWord hp hm (j := 2) (by decide) (by omega)

/-! ### CSR writes -/

theorem refuseBusy_idle {s : State} (hp : s.phase = .idle) (t : State) : refuseBusy s t = t :=
  if_neg (by rw [hp]; decide)

theorem refuseBusy_busy {s : State} (hp : s.phase = .busy) (t : State) : refuseBusy s t = s.markReject := if_pos hp

section
variable (v : Word) (s : State)

theorem hostWrite_ctrl : hostWrite 0x0004 .word v s =
    if v.getLsbD 31 then softReset s else refuseBusy s { s with csr := { s.csr with ctrl := .ofWord v } } :=
  hostWrite_csr (by decide)

theorem hostWrite_cmd : hostWrite 0x0008 .word v s = refuseBusy s (acceptCommand v s) := hostWrite_csr (by decide)

theorem hostWrite_status : hostWrite 0x000C .word v s = s.setStatus (s.csr.status.clear v) := hostWrite_csr (by decide)

theorem hostWrite_arg0 : hostWrite 0x0010 .word v s = refuseBusy s { s with csr := { s.csr with arg0 := v } } :=
  hostWrite_csr (by decide)

theorem hostWrite_bitpos :
    hostWrite 0x0024 .word v s = refuseBusy s { s with csr := { s.csr with bitpos := v.extractLsb' 0 12 } } := by
  rw [← BitVec.setWidth_eq_extractLsb' (by decide)]
  exact hostWrite_csr (by decide)

theorem hostWrite_thr248 : hostWrite 0x0028 .word v s = refuseBusy s { s with csr := { s.csr with thr248 := v } } :=
  hostWrite_csr (by decide)

theorem hostWrite_clsthrY :
    hostWrite 0x002C .word v s = refuseBusy s { s with csr := { s.csr with clsthrY := v.extractLsb' 0 24 } } := by
  rw [← BitVec.setWidth_eq_extractLsb' (by decide)]
  exact hostWrite_csr (by decide)

theorem hostWrite_clsthrC :
    hostWrite 0x0030 .word v s = refuseBusy s { s with csr := { s.csr with clsthrC := v.extractLsb' 0 24 } } := by
  rw [← BitVec.setWidth_eq_extractLsb' (by decide)]
  exact hostWrite_csr (by decide)

theorem hostWrite_ovfCount : hostWrite 0x0034 .word v s = refuseBusy s { s with csr := { s.csr with ovfCount := 0 } } :=
  hostWrite_csr (by decide)

/-- ID, RES0, RES1, RES2, ERRCMD and the reserved offsets ignore writes (10 R22, R29, R34, R35). -/
theorem hostWrite_readOnly :
    ∀ a ∈ [0x0000, 0x0014, 0x0018, 0x001C, 0x0020, 0x0038, 0x003C], hostWrite a .word v s = s := by
  simp only [List.forall_mem_cons, List.not_mem_nil, false_implies, implies_true, and_true]
  exact ⟨hostWrite_csr (by decide), hostWrite_csr (by decide), hostWrite_csr (by decide), hostWrite_csr (by decide),
    hostWrite_csr (by decide), hostWrite_csr (by decide), hostWrite_csr (by decide)⟩

end

/-- A W1C bit after a write of `w` to it (10 R27). -/
theorem and_not_eq_ite (b w : Bool) : (b && !w) = if w then false else b := by cases w <;> simp

/-- Settles O43, by v[31] and the phase. -/
theorem ctrlWrite : Obligations.CtrlWrite := by
  refine ⟨fun c => ?_, fun s v => ⟨fun hv => ?_, fun hv hp => ?_, fun hv hp =>
    ⟨.ofWord v, ?_, rfl, rfl, rfl, rfl, rfl, rfl⟩⟩⟩
  · exact c.toWord_srst
  · rw [hostWrite_ctrl, if_pos hv]
  · rw [hostWrite_ctrl, hv, refuseBusy_busy hp]; rfl
  · rw [hostWrite_ctrl, hv, refuseBusy_idle hp]; rfl

/-- Settles O44: `Status.clear` takes each W1C bit by itself, and ERRCODE stays. -/
theorem statusWrite : Obligations.StatusWrite := fun s v =>
  ⟨s.csr.status.clear v, hostWrite_status v s, and_not_eq_ite _ _, and_not_eq_ite _ _, rfl, and_not_eq_ite _ _,
    and_not_eq_ite _ _, and_not_eq_ite _ _, and_not_eq_ite _ _, and_not_eq_ite _ _⟩

/-- Settles O45: while IDLE the write is `acceptCommand`, whose new phase is the BUSY bit that STATUS then reads. -/
theorem cmdWrite : Obligations.CmdWrite := by
  intro s v
  refine ⟨fun hp => ?_, fun hp => ?_⟩
  · rw [hostWrite_cmd, refuseBusy_idle hp]
    exact ⟨rfl, rfl, rfl, (acceptCommand v s).statusWord_layout.1, ⟨rfl, rfl⟩, rfl⟩
  · rw [hostWrite_cmd, refuseBusy_busy hp]

/-- Settles O46: every stored register's write is one that `refuseBusy` guards. -/
theorem csrWrites : Obligations.CsrWrites := by
  refine ⟨fun s v hp => ?_, fun s v hp => ?_, fun s v => hostWrite_readOnly v s⟩
  · simp only [hostWrite_arg0, hostWrite_bitpos, hostWrite_thr248, hostWrite_clsthrY, hostWrite_clsthrC, hostWrite_ovfCount,
      refuseBusy_idle hp, and_self]
  · simp only [List.forall_mem_cons, hostWrite_arg0, hostWrite_bitpos, hostWrite_thr248, hostWrite_clsthrY, hostWrite_clsthrC,
      hostWrite_ovfCount, refuseBusy_busy hp, List.not_mem_nil, false_implies, implies_true, and_self]

/-! ### CSR reads -/

/-- The six registers whose value is open while BUSY (20 R80). -/
theorem hostRead_open {s : State} (hp : s.phase = .busy) : ∀ a ∈ [0x0018, 0x001C, 0x0020, 0x0024, 0x0034, 0x0038],
    ∃ v, hostRead a .word s = { s.reply v with fresh := s.fresh + 1 } := by
  simp only [List.forall_mem_cons, List.not_mem_nil, false_implies, implies_true, and_true]
  exact ⟨⟨_, hostRead_unspecified (by decide) hp rfl⟩, ⟨_, hostRead_unspecified (by decide) hp rfl⟩,
    ⟨_, hostRead_unspecified (by decide) hp rfl⟩, ⟨_, hostRead_unspecified (by decide) hp rfl⟩,
    ⟨_, hostRead_unspecified (by decide) hp rfl⟩, ⟨_, hostRead_unspecified (by decide) hp rfl⟩⟩

/-- Settles O47: every CSR read is one of the two cases of `hostRead`, with the layouts of the words above. -/
theorem csrReads : Obligations.CsrReads := by
  refine ⟨fun s => ?_, fun s hp => ?_, fun s hp => hostRead_open hp⟩
  · refine ⟨hostRead_csr (by decide) (.inr rfl), hostRead_csr (by decide) (.inr rfl), hostRead_csr (by decide) (.inr rfl),
      hostRead_csr (by decide) (.inr rfl), hostRead_csr (by decide) (.inr rfl), ?_, ?_, hostRead_csr (by decide) (.inr rfl),
      ⟨s.csr.ctrl.toWord, hostRead_csr (by decide) (.inr rfl), s.csr.ctrl.toWord_layout⟩,
      ⟨s.statusWord, hostRead_csr (by decide) (.inr rfl), s.statusWord_layout⟩⟩
    · exact (hostRead_csr (by decide) (.inr rfl)).trans (congrArg s.reply (setWidth_eq_append (m := 8) s.csr.clsthrY))
    · exact (hostRead_csr (by decide) (.inr rfl)).trans (congrArg s.reply (setWidth_eq_append (m := 8) s.csr.clsthrC))
  · refine ⟨hostRead_csr (by decide) (.inl hp), hostRead_csr (by decide) (.inl hp), hostRead_csr (by decide) (.inl hp), ?_,
      hostRead_csr (by decide) (.inl hp), hostRead_csr (by decide) (.inl hp)⟩
    exact (hostRead_csr (by decide) (.inl hp)).trans (congrArg s.reply (setWidth_eq_append (m := 20) s.csr.bitpos))

end Sys2Proof.Machine
end

section
/-! Host accesses by what the address map makes of them: illegal, put off or served; the bytes of a RAM access; and the statements
about the three. -/

namespace Sys2Proof.Machine

open Sys2Proof

/-! ### The rows of the address map -/

/-- The row of 20 R72 for a region: its first and last byte and the sizes of access it takes. -/
def Region.row : Region → Nat × Nat × List Nat
  | .csr => (0x0000, 0x003F, [4])
  | .blkmeta => (0x0100, 0x01EF, [4])
  | .mbmeta => (0x0200, 0x023B, [4])
  | .seg => (0x0400, 0x058F, [1, 2, 4])
  | .coef => (0x1000, 0x1EFF, [2, 4])

theorem Region.row_mem (r : Region) : r.row ∈ [(0x0000, 0x003F, [4]), (0x0100, 0x01EF, [4]), (0x0200, 0x023B, [4]),
    (0x0400, 0x058F, [1, 2, 4]), (0x1000, 0x1EFF, [2, 4])] := by
  cases r <;> decide

theorem Region.bytes_mem_row {r : Region} {w : Width} (h : r.allows w = true) : w.bytes ∈ r.row.2.2 := by
  revert h; cases r <;> cases w <;> decide

theorem regionOf_row {a : Nat} {r : Region} (h : regionOf a = some r) : r.row.1 ≤ a ∧ a ≤ r.row.2.1 := by
  obtain ⟨hcsr, hblk, hmb, hseg, hcoef⟩ := regionOf_spec a
  cases r with
  | csr => exact ⟨Nat.zero_le a, hcsr.1 h⟩
  | blkmeta => exact hblk.1 h
  | mbmeta => exact hmb.1 h
  | seg => exact hseg.1 h
  | coef => exact hcoef.1 h

theorem legalRegion_row {a : Nat} {w : Width} {r : Region} (h : legalRegion a w = some r) :
    a % w.bytes = 0 ∧ r.row.1 ≤ a ∧ a + w.bytes - 1 ≤ r.row.2.1 ∧ w.bytes ∈ r.row.2.2 := by
  obtain ⟨hfirst, hwidth, haligned, hlast⟩ := (legalRegion_iff a w r).1 h
  exact ⟨haligned, (regionOf_row hfirst).1, (regionOf_row hlast).2, Region.bytes_mem_row hwidth⟩

/-! ### What becomes of an access -/

section
variable {addr : BitVec 16} {w : Width} {v : Word} {s : State} {r : Region}

theorem hostRead_illegal (h : legalRegion addr.toNat w = none) : hostRead addr w s = s.markBuserr.reply 0 := by
  simp only [hostRead, h]

theorem hostWrite_illegal (h : legalRegion addr.toNat w = none) : hostWrite addr w v s = s.markBuserr := by
  simp only [hostWrite, h]

/-- A write of a CSR is never put off (20 R80). -/
theorem hostWrite_writeCsr (h : legalRegion addr.toNat w = some .csr) : hostWrite addr w v s = writeCsr addr.toNat v s := by
  simp only [hostWrite, h]

/-- Nor is a read; it returns some word and may draw a free value for it (20 R80). -/
theorem hostRead_csr_cases (h : legalRegion addr.toNat w = some .csr) :
    ∃ u k, hostRead addr w s = { s.reply u with fresh := k } := by
  simp only [hostRead, h]
  split
  · exact ⟨_, _, rfl⟩
  · exact ⟨_, s.fresh, rfl⟩

section
variable (h : legalRegion addr.toNat w = some r) (hr : r ≠ .csr)
include h hr

theorem hostRead_memory : hostRead addr w s =
    if s.phase = .busy then s.stall (.read addr w) else s.reply (readLegal s r addr.toNat w) := by
  cases r with
  | csr => exact absurd rfl hr
  | _ => simp only [hostRead, h]

theorem hostWrite_memory : hostWrite addr w v s =
    if s.phase = .busy then s.stall (.write addr w v) else writeLegal r addr.toNat w v s := by
  cases r with
  | csr => exact absurd rfl hr
  | _ => simp only [hostWrite, h]

theorem hostRead_busy (hp : s.phase = .busy) : hostRead addr w s = s.stall (.read addr w) := by
  rw [hostRead_memory h hr, if_pos hp]

theorem hostWrite_busy (hp : s.phase = .busy) : hostWrite addr w v s = s.stall (.write addr w v) := by
  rw [hostWrite_memory h hr, if_pos hp]

theorem hostRead_idle (hp : s.phase = .idle) : hostRead addr w s = s.reply (readLegal s r addr.toNat w) := by
  rw [hostRead_memory h hr, if_neg (by rw [hp]; decide)]

theorem hostWrite_idle (hp : s.phase = .idle) : hostWrite addr w v s = writeLegal r addr.toNat w v s := by
  rw [hostWrite_memory h hr, if_neg (by rw [hp]; decide)]

end

end

theorem step_idle {s : State} (hp : s.phase = .idle) : step s = .next (idleSlot s) := by
  simp only [step, hp]

theorem idleSlot_stalled {s : State} {x : Access} {rest : List Access} (h : s.port.stalled = x :: rest) :
    idleSlot s = hostAccess x { s with port := { s.port with stalled := rest } } := by
  simp only [idleSlot, h]

/-- Settles O48: an access that the model serves or puts off has a region, and that region's row allows it. -/
theorem illegalAccess : Obligations.IllegalAccess := by
  intro addr w v s a n hno
  have hnone : legalRegion a w = none := by
    rw [Option.eq_none_iff_forall_ne_some]
    intro r hr
    obtain ⟨haligned, hrow⟩ := legalRegion_row hr
    exact hno ⟨haligned, r.row, r.row_mem, hrow⟩
  exact ⟨hostRead_illegal hnone, hostWrite_illegal hnone⟩

/-- Settles O49: `State.stall` while BUSY, and the head of the list first while IDLE. -/
theorem stalledAccess : Obligations.StalledAccess := by
  refine ⟨fun addr w v s r hp hl hr => ⟨hostRead_busy hl hr hp, hostWrite_busy hl hr hp⟩, fun s x rest hp hx => ?_⟩
  rw [step_idle hp, idleSlot_stalled hx]

/-! ### The bytes of a RAM access -/

theorem writeBytes_length (w : Width) (v : Word) : (writeBytes w v).length = w.bytes := by cases w <;> rfl

/-- Byte i of the bytes stored is bits [8i+7:8i] (20 R73). -/
theorem writeBytes_getD {w : Width} {i : Nat} (v : Word) (h : i < w.bytes) :
    (writeBytes w v).getD i 0 = v.extractLsb' (8 * i) 8 := by
  cases w with
  | byte =>
    obtain rfl : i = 0 := Nat.lt_one_iff.1 h
    rw [← BitVec.setWidth_eq_extractLsb' (by decide)]; rfl
  | half =>
    have h2 : i < 2 := h
    interval_cases i <;> exact BitVec.extractLsb'_setWidth_of_le (by decide)
  | word =>
    have h4 : i < 4 := h
    interval_cases i <;> rfl

theorem Memory.half_byte (m : Memory) (a : Nat) :
    (m.half a).extractLsb' 0 8 = m.byte a ∧ (m.half a).extractLsb' 8 8 = m.byte (a + 1) := by
  simp (disch := decide) only [Memory.half, BitVec.extractLsb'_append_eq_of_le, BitVec.extractLsb'_append_eq_of_add_le]
  simp

theorem Memory.word_byte (m : Memory) (a : Nat) :
    (m.word a).extractLsb' 0 8 = m.byte a ∧ (m.word a).extractLsb' 8 8 = m.byte (a + 1) ∧
      (m.word a).extractLsb' 16 8 = m.byte (a + 2) ∧ (m.word a).extractLsb' 24 8 = m.byte (a + 3) := by
  simp (disch := decide) only [Memory.word, BitVec.extractLsb'_append_eq_of_le, BitVec.extractLsb'_append_eq_of_add_le]
  simp

/-- Bits [8i+7:8i] of the word read are byte i (20 R73). -/
theorem readRam_byte {w : Width} {i : Nat} (m : Memory) (a : Nat) (h : i < w.bytes) :
    (readRam m a w).extractLsb' (8 * i) 8 = m.byte (a + i) := by
  cases w with
  | byte =>
    obtain rfl : i = 0 := Nat.lt_one_iff.1 h
    exact (BitVec.extractLsb'_setWidth_of_le (by decide)).trans BitVec.extractLsb'_eq_self
  | half =>
    have h2 : i < 2 := h
    obtain ⟨h0, h1⟩ := m.half_byte a
    interval_cases i
    · exact (BitVec.extractLsb'_setWidth_of_le (by decide)).trans h0
    · exact (BitVec.extractLsb'_setWidth_of_le (by decide)).trans h1
  | word =>
    have h4 : i < 4 := h
    obtain ⟨h0, h1, h2, h3⟩ := m.word_byte a
    interval_cases i
    · exact h0
    · exact h1
    · exact h2
    · exact h3

/-- A narrow read is zero-extended (log 10). -/
theorem readRam_zero_above {w : Width} {i : Nat} (m : Memory) (a : Nat) (h : 8 * w.bytes ≤ i) :
    (readRam m a w).getLsbD i = false := by
  cases w with
  | byte => rw [readRam, BitVec.getLsbD_setWidth, BitVec.getLsbD_of_ge (m.byte a) i h, Bool.and_false]
  | half => rw [readRam, BitVec.getLsbD_setWidth, BitVec.getLsbD_of_ge (m.half a) i h, Bool.and_false]
  | word => exact BitVec.getLsbD_of_ge _ _ h

theorem writeLegal_ram {r : Region} (hr : r = .seg ∨ r = .coef) (a : Nat) (w : Width) (v : Word) (s : State) :
    writeLegal r a w v s = s.setMem (s.mem.store a (writeBytes w v)) := by
  rcases hr with rfl | rfl <;> rfl

theorem readLegal_ram {r : Region} (hr : r = .seg ∨ r = .coef) (a : Nat) (w : Width) (s : State) :
    readLegal s r a w = readRam s.mem a w := by
  rcases hr with rfl | rfl <;> rfl

/-- Settles O50: a write is one `Memory.store` of the bytes of `v`, a read is `readRam`. -/
theorem ramLittleEndian : Obligations.RamLittleEndian := by
  intro addr w v s r hp hl hr
  have hcsr : r ≠ .csr := by rcases hr with rfl | rfl <;> decide
  refine ⟨⟨s.mem.store addr.toNat (writeBytes w v), ?_, fun i hi => ?_, fun x hx => ?_⟩, readRam s.mem addr.toNat w, ?_,
    fun i hi => readRam_byte _ _ hi, fun i hi => readRam_zero_above _ _ hi⟩
  · rw [hostWrite_idle hl hcsr hp, writeLegal_ram hr]; rfl
  · rw [Memory.byte_store_inside (Nat.le_add_right _ _) (by rw [writeBytes_length]; omega), Nat.add_sub_cancel_left,
      writeBytes_getD v hi]
  · exact Memory.byte_store_outside (by rw [writeBytes_length]; exact hx)
  · rw [hostRead_idle hl hcsr hp, readLegal_ram hr]

end Sys2Proof.Machine
end

section
/-! Every event of DVCORE keeps the invariant of the machine: each way a host access can change the state, resets, the ends of a
command, and the step. -/

namespace Sys2Proof.Machine

open Sys2Proof

theorem State.Inv.mem_sound {s : State} (h : s.Inv) : s.mem.Sound := ⟨h.mem_wf, h.mem_in_ram⟩

/-! ### Updates -/

section
variable {s : State} (h : s.Inv)
include h

theorem State.Inv.with_mem {m : Memory} (hm : m.Sound) : (s.setMem m).Inv :=
  ⟨hm.1, hm.2, h.passes_legal, h.errcode_legal, h.idle_no_wait, h.stalled_stall⟩

theorem State.Inv.with_csr {c : Csr} (hc : c.ctrl.passes ≠ 0) (he : c.status.errcode ≤ 5) : State.Inv { s with csr := c } :=
  ⟨h.mem_wf, h.mem_in_ram, hc, he, h.idle_no_wait, h.stalled_stall⟩

theorem State.Inv.with_port {p : Port} (hp : ∀ x ∈ p.stalled, stalls x = true) : State.Inv { s with port := p } :=
  ⟨h.mem_wf, h.mem_in_ram, h.passes_legal, h.errcode_legal, h.idle_no_wait, hp⟩

theorem State.Inv.with_fresh (k : Nat) : State.Inv { s with fresh := k } :=
  ⟨h.mem_wf, h.mem_in_ram, h.passes_legal, h.errcode_legal, h.idle_no_wait, h.stalled_stall⟩

theorem State.Inv.with_meta (blk : Vector BlkMeta 30) (mb : Vector MbMeta 5) : State.Inv { s with blk := blk, mb := mb } :=
  ⟨h.mem_wf, h.mem_in_ram, h.passes_legal, h.errcode_legal, h.idle_no_wait, h.stalled_stall⟩

theorem State.Inv.reply (v : Word) : (s.reply v).Inv := h.with_port h.stalled_stall

theorem State.Inv.setHost (l : List HostEvent) : (s.setHost l).Inv := h.with_port h.stalled_stall

theorem State.Inv.markBuserr : s.markBuserr.Inv := h.with_csr h.passes_legal h.errcode_legal

theorem State.Inv.markReject : s.markReject.Inv := h.with_csr h.passes_legal h.errcode_legal

theorem State.Inv.stall {x : Access} (hx : stalls x = true) : (s.stall x).Inv :=
  h.with_port fun y hy => by
    rcases List.mem_append.1 hy with hy | hy
    · exact h.stalled_stall y hy
    · rw [List.mem_singleton.1 hy]; exact hx

end

/-! ### Writes of the CSRs -/

/-- PASSES 0 stores 3 (10 R24). -/
theorem Ctrl.ofWord_passes_ne_zero (v : Word) : (Ctrl.ofWord v).passes ≠ 0 := by
  show (if v.extractLsb' 2 2 = 0 then 3 else v.extractLsb' 2 2) ≠ 0
  split
  · decide
  · assumption

/-- A state whose CSRs are reset and that waits for no slot meets the invariant by its memory and what it has put off. -/
theorem inv_of_reset {s : State} (hm : s.mem.Sound) (hw : s.wait = 0) (hc : s.csr = .reset)
    (hs : ∀ x ∈ s.port.stalled, stalls x = true) : s.Inv :=
  ⟨hm.1, hm.2, by rw [hc]; decide, by rw [hc]; decide, fun _ => hw, hs⟩

theorem inv_softReset {s : State} (h : s.Inv) : (softReset s).Inv :=
  inv_of_reset (sound_softReset h.mem_sound) rfl rfl (by rw [port_softReset]; exact h.stalled_stall)

theorem inv_hardReset {s : State} (h : s.Inv) : (hardReset s).Inv :=
  inv_of_reset (sound_freeRam s.fresh) rfl rfl h.stalled_stall

theorem inv_acceptCommand {s : State} (v : Word) (h : s.Inv) : (acceptCommand v s).Inv :=
  ⟨h.mem_wf, h.mem_in_ram, h.passes_legal, h.errcode_legal, nofun, h.stalled_stall⟩

theorem inv_refuseBusy {s t : State} (h : s.Inv) (ht : t.Inv) : (refuseBusy s t).Inv := by
  unfold refuseBusy
  split
  · exact h.markReject
  · exact ht

/-- Writes other than those of CTRL, CMD and STATUS keep CTRL and STATUS (`keep`). -/
theorem inv_writeCsr {s : State} (a : Nat) (v : Word) (h : s.Inv) : (writeCsr a v s).Inv := by
  have keep : ∀ {c : Csr}, c.ctrl = s.csr.ctrl → c.status = s.csr.status → (refuseBusy s { s with csr := c }).Inv :=
    fun hc hs => inv_refuseBusy h (h.with_csr (by rw [hc]; exact h.passes_legal) (by rw [hs]; exact h.errcode_legal))
  unfold writeCsr
  split
  · split
    · exact inv_softReset h
    · exact inv_refuseBusy h (h.with_csr (Ctrl.ofWord_passes_ne_zero v) h.errcode_legal)
  · exact inv_refuseBusy h (inv_acceptCommand v h)
  · exact h.with_csr h.passes_legal h.errcode_legal
  · exact keep rfl rfl
  · exact keep rfl rfl
  · exact keep rfl rfl
  · exact keep rfl rfl
  · exact keep rfl rfl
  · exact keep rfl rfl
  · exact h

/-! ### Host accesses -/

theorem sound_store_legal {m : Memory} {r : Region} {a : Nat} {w : Width} (hm : m.Sound) (hl : legalRegion a w = some r)
    (hr : r = .seg ∨ r = .coef) (v : Word) : Memory.Sound (m.store a (writeBytes w v)) := by
  obtain ⟨-, hfirst, hlast, -⟩ := legalRegion_row hl
  refine sound_store hm ?_
  rw [writeBytes_length]
  rcases hr with rfl | rfl
  · left; simp only [Region.row] at hfirst hlast; omega
  · right; simp only [Region.row] at hfirst hlast; omega

theorem inv_writeMeta {s : State} (r : Region) (a : Nat) (v : Word) (h : s.Inv) : (writeMeta r a v s).Inv := by
  have hblk : ∀ b x, (s.setBlk b x).Inv := fun _ _ => h.with_meta _ s.mb
  have hmb : ∀ m x, (s.setMb m x).Inv := fun _ _ => h.with_meta s.blk _
  cases r with
  | blkmeta =>
    simp only [writeMeta]
    split
    · exact hblk _ _
    · exact h
  | mbmeta =>
    simp only [writeMeta]
    split
    · exact hmb _ _
    · split
      · exact hmb _ _
      · exact h
  | csr => exact h
  | seg => exact h
  | coef => exact h

theorem inv_writeLegal {s : State} {r : Region} {a : Nat} {w : Width} (v : Word) (h : s.Inv) (hl : legalRegion a w = some r) :
    (writeLegal r a w v s).Inv := by
  cases r with
  | csr => exact inv_writeCsr a v h
  | blkmeta => exact inv_writeMeta .blkmeta a v h
  | mbmeta => exact inv_writeMeta .mbmeta a v h
  | seg => exact h.with_mem (sound_store_legal h.mem_sound hl (.inl rfl) v)
  | coef => exact h.with_mem (sound_store_legal h.mem_sound hl (.inr rfl) v)

/-- A legal access to metadata or RAM is one that stalls. -/
theorem any_legalRegion {a : Nat} {w : Width} {r : Region} (h : legalRegion a w = some r) (hr : r ≠ .csr) :
    (legalRegion a w).any (· != .csr) = true := by
  rw [h]; simpa using hr

theorem inv_hostRead {s : State} (addr : BitVec 16) (w : Width) (h : s.Inv) : (hostRead addr w s).Inv := by
  cases hl : legalRegion addr.toNat w with
  | none => rw [hostRead_illegal hl]; exact h.markBuserr.reply 0
  | some r =>
    by_cases hr : r = .csr
    · subst hr
      obtain ⟨u, k, hu⟩ := hostRead_csr_cases (s := s) hl
      rw [hu]; exact (h.reply u).with_fresh k
    · rw [hostRead_memory hl hr]
      split
      · exact h.stall (any_legalRegion hl hr)
      · exact h.reply _

theorem inv_hostWrite {s : State} (addr : BitVec 16) (w : Width) (v : Word) (h : s.Inv) : (hostWrite addr w v s).Inv := by
  cases hl : legalRegion addr.toNat w with
  | none => rw [hostWrite_illegal hl]; exact h.markBuserr
  | some r =>
    by_cases hr : r = .csr
    · subst hr
      rw [hostWrite_writeCsr hl]; exact inv_writeCsr _ v h
    · rw [hostWrite_memory hl hr]
      split
      · exact h.stall (any_legalRegion hl hr)
      · exact inv_writeLegal v h hl

theorem inv_hostAccess {s : State} (x : Access) (h : s.Inv) : (hostAccess x s).Inv := by
  cases x with
  | read addr w => exact inv_hostRead addr w h
  | write addr w v => exact inv_hostWrite addr w v h

/-! ### Slots -/

theorem inv_hostEvent {s : State} (e : HostEvent) (h : s.Inv) : (hostEvent e s).Inv := by
  cases e with
  | idle => exact h
  | access x => exact inv_hostAccess x h
  | hardReset => exact inv_hardReset h
  | await =>
    simp only [hostEvent]
    split
    · exact h.setHost _
    · exact h
  | rewrite addr clear set => exact inv_hostWrite addr .word _ h
  | putCode => exact h.setHost _

theorem inv_hostSlot {s : State} (h : s.Inv) : (hostSlot s).Inv := by
  unfold hostSlot
  split
  · exact h
  · exact inv_hostEvent _ (h.setHost _)

theorem inv_idleSlot {s : State} (h : s.Inv) : (idleSlot s).Inv := by
  unfold idleSlot
  split
  · next x rest hx =>
    exact inv_hostAccess x (h.with_port fun y hy => h.stalled_stall y (by rw [hx]; exact List.mem_cons_of_mem x hy))
  · exact inv_hostSlot h

theorem inv_busySlot {s : State} (h : s.Inv) : (busySlot s).Inv :=
  inv_hostSlot ⟨h.mem_wf, h.mem_in_ram, h.passes_legal, h.errcode_legal,
    fun hp => by show s.wait - 1 = 0; rw [h.idle_no_wait hp], h.stalled_stall⟩

/-! ### The end of a command -/

theorem ErrCode.number_le (e : ErrCode) : e.number ≤ 5 := by cases e <;> decide

theorem inv_fail {s : State} (e : ErrCode) (h : s.Inv) : (fail e s).Inv :=
  ⟨h.mem_wf, h.mem_in_ram, h.passes_legal, e.number_le, fun _ => rfl, h.stalled_stall⟩

/-- A command that succeeds leaves a sound memory, and neither CTRL nor the port is its to write. -/
theorem inv_complete {s u : State} {i : Instr} (h : s.Inv) (hu : bodyOf i s = .ok u) : (complete u).Inv := by
  have hm := sound_bodyOf hu h.mem_sound
  have keep := bodyOf_untouched hu
  refine ⟨hm.1, hm.2, ?_, ?_, fun _ => rfl, ?_⟩
  · rw [complete_ctrl, keep.ctrl]; exact h.passes_legal
  · rw [complete_status]; exact BitVec.le_def.2 (Nat.zero_le 5)
  · rw [complete_port, keep.port]; exact h.stalled_stall

theorem exec_keeps_inv {s : State} (i : Instr) (h : s.Inv) : ∃ t, exec i s = .next t ∧ t.Inv := by
  rcases exec_cases i s with ⟨u, hu, he⟩ | ⟨e, -, he⟩
  · exact ⟨_, he, inv_complete h hu⟩
  · exact ⟨_, he, inv_fail e h⟩

theorem runCaptured_keeps_inv {s : State} (h : s.Inv) : ∃ t, runCaptured s = .next t ∧ t.Inv := by
  unfold runCaptured
  split
  · exact exec_keeps_inv _ h
  · exact ⟨_, rfl, inv_fail _ h⟩

/-- Settles O56, by the three kinds of event: a slot while IDLE, the execution of the command that is due, a slot while BUSY. -/
theorem stepKeepsInv : Obligations.StepKeepsInv := by
  intro s h
  unfold step
  split
  · exact ⟨_, rfl, inv_idleSlot h⟩
  · split
    · exact runCaptured_keeps_inv h
    · exact ⟨_, rfl, inv_busySlot h⟩

end Sys2Proof.Machine
end

section
/-! The encoding of commands: every command word decodes back, the decoder reads OP and the fields of the format only, and the
reserved opcodes fail. -/

namespace Sys2Proof.Machine

open Sys2Proof

/-! ### The round trip -/

/-- Each command by its lemma of Laws/PerInstr.lean. -/
theorem decodeWord_encode {i : Instr} (h : i.wf = true) : decodeWord (encode i) = .ok i := by
  cases i with
  | nop => exact Laws.RoundTrip.nop h
  | segClear => exact Laws.RoundTrip.segClear h
  | brPeek n => exact Laws.RoundTrip.brPeek n h
  | brSkip n => exact Laws.RoundTrip.brSkip n h
  | bwPut n => exact Laws.RoundTrip.bwPut n h
  | vlcDecSym n => exact Laws.RoundTrip.vlcDecSym n h
  | vlcEncSym => exact Laws.RoundTrip.vlcEncSym h
  | vlcBits => exact Laws.RoundTrip.vlcBits h
  | vlcBlkBits b => exact Laws.RoundTrip.vlcBlkBits b h
  | zzToScan b => exact Laws.RoundTrip.zzToScan b h
  | zzToNat b => exact Laws.RoundTrip.zzToNat b h
  | place411 => exact Laws.RoundTrip.place411 h
  | place420 => exact Laws.RoundTrip.place420 h
  | placeMb m => exact Laws.RoundTrip.placeMb m h
  | weightFwd b => exact Laws.RoundTrip.weightFwd b h
  | weightInv b => exact Laws.RoundTrip.weightInv b h
  | classify b => exact Laws.RoundTrip.classify b h
  | qsearch m => exact Laws.RoundTrip.qsearch m h
  | quant b => exact Laws.RoundTrip.quant b h
  | dequant b => exact Laws.RoundTrip.dequant b h
  | fdct b => exact Laws.RoundTrip.fdct b h
  | idct b => exact Laws.RoundTrip.idct b h
  | need248 b => exact Laws.RoundTrip.need248 b h
  | vlcDecSeg => exact Laws.RoundTrip.vlcDecSeg h
  | vlcEncSeg => exact Laws.RoundTrip.vlcEncSeg h
  | decodeSeg => exact Laws.RoundTrip.decodeSeg h
  | encodeSeg => exact Laws.RoundTrip.encodeSeg h

/-- The bytes of a word in front of others decode as the word does (20 R73). -/
theorem decodeBytes_wordBytes {w : Word} {i : Instr} (rest : List Byte) (h : decodeWord w = .ok i) :
    decodeBytes (wordBytes w ++ rest) = .ok (i, rest) := by
  show decodeBytes (w.extractLsb' 0 8 :: w.extractLsb' 8 8 :: w.extractLsb' 16 8 :: w.extractLsb' 24 8 :: rest) = _
  simp only [decodeBytes, wordOfBytes_wordBytes, h]

/-- Settles O1: the word of a command decodes back, and its four bytes make up that word again. -/
theorem decodeEncode : Obligations.DecodeEncode := fun _ rest h => decodeBytes_wordBytes rest (decodeWord_encode h)

/-! ### The decoder by opcode -/

/-- Settles O2: a word is decoded by the number of its opcode from the two fields, whose values fit. -/
theorem decodeUsesFormat : Obligations.DecodeUsesFormat := by
  intro v w i h
  rw [decodeWord_eq] at h
  obtain ⟨hwf, hop⟩ := decodeOp_ok_wf h (idx_wf v) (imm_wf v)
  refine ⟨hwf, BitVec.eq_of_toNat_eq hop, fun hw hidx himm => ?_⟩
  rw [decodeWord_eq, hw]
  exact decodeOp_fields h hidx himm

theorem decodeOp_ok_of_mem {k : Nat} (b n : Nat) (op : Byte) (h : k ∈ opList) : ∃ i, decodeOp k b n op = .ok i := by
  unfold opList at h
  fin_cases h <;> exact ⟨_, rfl⟩

theorem decodeWord_reserved_iff (w : Word) :
    decodeWord w = .error (.reservedOp (opField w)) ↔ (opField w).toNat ∉ opList := by
  rw [decodeWord_eq]
  refine ⟨fun h hk => ?_, decodeOp_error⟩
  obtain ⟨i, hi⟩ := decodeOp_ok_of_mem (idxField w) (immField w) (opField w) hk
  rw [hi] at h
  cases h

/-- The reserved ranges of 30 R106, each its first and its last value. -/
def reservedRanges : List (Nat × Nat) :=
  [(0x02, 0x07), (0x0B, 0x0F), (0x14, 0x17), (0x1D, 0x1F), (0x26, 0x27), (0x2B, 0x2F), (0x32, 0x37), (0x3A, 0xFF)]

/-- The ranges of R106 are what R105 leaves of the 256 values of OP. -/
theorem not_mem_opList_iff : ∀ k < 256, k ∉ opList ↔ ∃ r ∈ reservedRanges, r.1 ≤ k ∧ k ≤ r.2 := by decide +kernel

theorem step_due {s : State} (hp : s.phase = .busy) (hw : s.wait = 0) : step s = runCaptured s := by
  simp only [step, hp, if_pos hw]

theorem runCaptured_error {s : State} {e : DecodeError} (h : decodeWord s.csr.cmd = .error e) :
    runCaptured s = .next (fail .illegalOp s) := by
  simp only [runCaptured, h]

/-- Settles O3: a word is reserved when its opcode is not one of R105, and a due step of it is `fail` with ILLEGAL_OP. -/
theorem reservedOpFails : Obligations.ReservedOpFails :=
  ⟨fun w => (decodeWord_reserved_iff w).trans (not_mem_opList_iff _ (opField w).isLt),
    fun s _ hp hw he => ⟨_, (step_due hp hw).trans (runCaptured_error he), failed_fail .illegalOp s⟩⟩

/-- Settles O5: every word is a closed term. -/
theorem decodedWords : Obligations.DecodedWords := by
  unfold Obligations.DecodedWords; decide

end Sys2Proof.Machine
end

section
/-! The pseudo-commands of 30 R109 as a host runs them: pieces of its list, each to its end, put together. -/

namespace Sys2Proof.Machine

open Sys2Proof

/-! ### Pieces of a host's list -/

/-- A host whose list begins with `l` and goes on with `rest` comes from `s` to `t` when it has done `l`, and can go on at once. -/
structure HostRuns (l rest : List HostEvent) (s t : State) : Prop where
  reaches : Reaches (s.setHost (l ++ rest)) (t.setHost rest)
  idle : t.phase = .idle
  stalled : t.port.stalled = []

theorem HostRuns.append {l k rest : List HostEvent} {s t u : State} (h : HostRuns l (k ++ rest) s t)
    (h' : HostRuns k rest t u) : HostRuns (l ++ k) rest s u :=
  ⟨by rw [List.append_assoc]; exact h.reaches.trans h'.reaches, h'.idle, h'.stalled⟩

section
variable {s : State} (hp : s.phase = .idle) (hs : s.port.stalled = [])
include hp hs

theorem hostRuns_await (rest : List HostEvent) : HostRuns [.await] rest s s := ⟨reaches_await rest hp hs, hp, hs⟩

theorem hostRuns_arg0 (v : Word) (rest : List HostEvent) :
    HostRuns [hostW 0x0010 v] rest s { s with csr := { s.csr with arg0 := v } } := ⟨reaches_arg0 v rest hp hs, hp, hs⟩

theorem hostRuns_read (a : BitVec 16) (rest : List HostEvent) (hl : legalRegion a.toNat .word = some .csr) :
    HostRuns [hostR a] rest s (s.reply (readCsr s a.toNat)) := ⟨reaches_read a rest hp hs hl, hp, hs⟩

/-- A command whose pseudocode succeeds, wherever it runs, completes (60 R344). -/
theorem hostRuns_command {i : Instr} (rest : List HostEvent) (hi : i.wf = true) {f : State → State}
    (hf : ∀ u, Entered i s u → bodyOf i u = .ok (f u)) :
    ∃ u, Entered i s u ∧ HostRuns (hostCmd i) rest s (complete (f u)) := by
  obtain ⟨u, v, hu, hv, hidle, hstalled, -, hreach⟩ := reaches_command rest hp hs (decodeWord_encode hi)
  rw [exec_of_ok (hf u hu)] at hv
  cases hv
  exact ⟨u, hu, hreach, hidle, hstalled⟩

end

/-! ### BR_GET -/

theorem bodyOf_brPeek {n : Nat} {s : State} (h1 : 1 ≤ n) (h24 : n ≤ 24) (hfit : s.csr.bitpos.toNat + n ≤ 3200) :
    bodyOf (.brPeek n) s = .ok (s.setRes0 (word32 (segPeek s.mem s.cursor n))) := by
  simp only [bodyOf, brPeek, require_eq_ok, countOk, inSegment, State.cursor, segLength, h1, h24, hfit, decide_true, Bool.and_self,
    true_and]

theorem bodyOf_brSkip {n : Nat} {s : State} (hfit : s.csr.bitpos.toNat + n ≤ 3200) :
    bodyOf (.brSkip n) s = .ok (s.setBitpos (BitVec.ofNat 12 (s.cursor + n))) := by
  simp only [bodyOf, brSkip, require_eq_ok, inSegment, State.cursor, segLength, hfit, decide_true, true_and]

/-- A position inside SEG, or its end, fits BITPOS (10 R30). -/
theorem toNat_bitpos {p : Nat} (h : p ≤ 3200) : (BitVec.ofNat 12 p).toNat = p := by
  rw [BitVec.toNat_ofNat, Nat.mod_eq_of_lt (by omega)]

/-- The bits of a number in a register (00_scope.md R10). -/
theorem getLsbD_word32 (v i : Nat) : (word32 v).getLsbD i = (decide (i < 32) && v.testBit i) := by
  rw [word32, BitVec.getLsbD_ofNat]

/-- RES0 after BR_PEEK (41 R132). -/
theorem word32_segPeek_bits (m : Memory) (p : Nat) {n : Nat} (h : n ≤ 24) :
    (∀ i, i < n → (word32 (segPeek m p n)).getLsbD (n - 1 - i) = segBit m (p + i)) ∧
    ∀ i, n ≤ i → (word32 (segPeek m p n)).getLsbD i = false := by
  refine ⟨fun i hi => ?_, fun i hi => ?_⟩
  · rw [getLsbD_word32, testBit_segPeek m p n hi, decide_eq_true (by omega), Bool.true_and]
  · rw [getLsbD_word32, Nat.testBit_lt_two_pow ((segPeek_lt m p n).trans_le (Nat.pow_le_pow_right (by decide) hi)), Bool.and_false]

theorem Entered.bitpos {i : Instr} {s u : State} (h : Entered i s u) : u.csr.bitpos = s.csr.bitpos := by rw [h.csr]

theorem Entered.arg0 {i : Instr} {s u : State} (h : Entered i s u) : u.csr.arg0 = s.csr.arg0 := by rw [h.csr]

theorem Entered.res0 {i : Instr} {s u : State} (h : Entered i s u) : u.csr.res0 = s.csr.res0 := by rw [h.csr]

/-- BR_PEEK leaves BITPOS for BR_SKIP, and BR_SKIP leaves RES0. -/
theorem brGet_spec {s : State} (rest : List HostEvent) (hp : s.phase = .idle) (hs : s.port.stalled = []) {n : Nat}
    (h1 : 1 ≤ n) (h24 : n ≤ 24) (hfit : s.csr.bitpos.toNat + n ≤ 3200) :
    ∃ t, HostRuns (brGet n) rest s t ∧ MetaKept s t ∧ BytesKept s t ∧ t.csr.bitpos.toNat = s.csr.bitpos.toNat + n ∧
      t.csr.res0 = word32 (segPeek s.mem s.csr.bitpos.toNat n) := by
  have hn : fitsImm n = true := decide_eq_true (by omega)
  obtain ⟨u, hu, hpeek⟩ := hostRuns_command hp hs (i := .brPeek n) (hostCmd (.brSkip n) ++ rest) hn
    fun u hu => bodyOf_brPeek h1 h24 (by rw [hu.bitpos]; exact hfit)
  obtain ⟨v, hv, hskip⟩ := hostRuns_command hpeek.idle hpeek.stalled (i := .brSkip n) rest hn
    fun v hv => bodyOf_brSkip (by rw [hv.bitpos, complete_bitpos, State.setRes0_bitpos, hu.bitpos]; exact hfit)
  have hpos : v.cursor = s.csr.bitpos.toNat := congrArg BitVec.toNat (hv.bitpos.trans hu.bitpos)
  refine ⟨_, (hostRuns_await hp hs _).append (hpeek.append hskip), ⟨hv.blk.trans hu.blk, hv.mb.trans hu.mb⟩,
    fun a => congrArg (·.byte a) (hv.mem.trans hu.mem), ?_, ?_⟩
  · rw [complete_bitpos, State.setBitpos_bitpos, hpos, toNat_bitpos hfit]
  · rw [complete_res0, State.setBitpos_res0, hv.res0, complete_res0, State.setRes0_res0, hu.mem, State.cursor, hu.bitpos]

/-! ### FDCT88, FDCT248, IDCT88, IDCT248 -/

/-- A rewrite of word 0 that leaves bits [2:1] alone keeps CLASS (10 R36, R38). -/
theorem writeWord0_rewrite (x : BlkMeta) {clear set : Word} (hc : clear.extractLsb' 1 2 = 0) (hs : set.extractLsb' 1 2 = 0) :
    x.writeWord0 ((x.word0 &&& ~~~clear) ||| set) =
      { x with dctMode := x.dctMode && !clear.getLsbD 0 || set.getLsbD 0 } := by
  obtain ⟨hmode, hcls⟩ := word0_fields x
  have hkeep : (~~~clear).extractLsb' 1 2 = BitVec.allOnes 2 := by
    rw [BitVec.extractLsb'_not_of_lt (by decide), hc]; rfl
  have hcls' : ((x.word0 &&& ~~~clear) ||| set).extractLsb' 1 2 = x.cls := by
    rw [BitVec.extractLsb'_or, BitVec.extractLsb'_and, hkeep, hs, hcls, BitVec.and_allOnes]
    exact BitVec.or_zero
  have hmode' : ((x.word0 &&& ~~~clear) ||| set).getLsbD 0 = (x.dctMode && !clear.getLsbD 0 || set.getLsbD 0) := by
    rw [BitVec.getLsbD_or, BitVec.getLsbD_and, BitVec.getLsbD_not, hmode]; rfl
  rw [BlkMeta.writeWord0, hcls', hmode']

/-- DCT_MODE cleared (30 R109). -/
theorem writeWord0_clear (x : BlkMeta) : x.writeWord0 ((x.word0 &&& ~~~1) ||| 0) = { x with dctMode := false } := by
  rw [writeWord0_rewrite x (by decide) (by decide)]
  simp

/-- DCT_MODE set (30 R109). -/
theorem writeWord0_set (x : BlkMeta) : x.writeWord0 ((x.word0 &&& ~~~0) ||| 1) = { x with dctMode := true } := by
  rw [writeWord0_rewrite x (by decide) (by decide)]
  simp

theorem bodyOf_fdct {b : Nat} (hb : b ≤ 29) (s : State) :
    bodyOf (.fdct b) s = .ok (s.setCoefs b (fdctBlock (s.blkAt b).dctMode (s.coefs b))) := withBlock_of_le hb _

theorem bodyOf_idct {b : Nat} (hb : b ≤ 29) (s : State) :
    bodyOf (.idct b) s = .ok (s.setCoefs b (idctBlock (s.blkAt b).dctMode (s.coefs b))) := withBlock_of_le hb _

/-- What the four pseudo-commands share: the mode is set, and the command transforms COEF[b] by the mode it finds. -/
theorem modeThen_spec {s : State} (rest : List HostEvent) (hp : s.phase = .idle) (hs : s.port.stalled = []) {b : Nat}
    (hb : b ≤ 29) {i : Instr} (hi : i.wf = true) {g : Bool → List Int → List Int}
    (hg : ∀ u, bodyOf i u = .ok (u.setCoefs b (g (u.blkAt b).dctMode (u.coefs b)))) {clear set : Word} {mode : Bool}
    (hmode : (s.blkAt b).writeWord0 (((s.blkAt b).word0 &&& ~~~clear) ||| set) = { s.blkAt b with dctMode := mode }) :
    ∃ t u, HostRuns (modeThen b clear set i) rest s t ∧
      exec i (s.setBlk b { s.blkAt b with dctMode := mode }) = .next u ∧ t.mem = u.mem ∧ MetaKept u t := by
  have hrw : HostRuns [.await, hostR (blkWord0Addr b), .rewrite (blkWord0Addr b) clear set] (hostCmd i ++ rest) s
      ((s.reply (s.blkAt b).word0).setBlk b { s.blkAt b with dctMode := mode }) :=
    ⟨hmode ▸ reaches_rewrite clear set _ hp hs hb, hp, hs⟩
  obtain ⟨u, hu, hcmd⟩ := hostRuns_command hrw.idle hrw.stalled rest hi fun u _ => hg u
  refine ⟨_, _, hrw.append hcmd, exec_of_ok (hg _), ?_, ⟨hu.blk, hu.mb⟩⟩
  have hcoefs : u.coefs b = s.coefs b := congrArg (coefBlock · b) hu.mem
  have hblk : u.blkAt b = (s.setBlk b { s.blkAt b with dctMode := mode }).blkAt b := blkAt_congr hu.blk b
  show storeCoefs u.mem b _ = storeCoefs s.mem b _
  rw [hu.mem, hcoefs, hblk]
  rfl

theorem transforms_spec {s : State} (rest : List HostEvent) (hp : s.phase = .idle) (hs : s.port.stalled = []) {b : Nat}
    (hb : b ≤ 29) : ∀ p ∈ [(fdct88At b, Instr.fdct b, false), (fdct248At b, .fdct b, true), (idct88At b, .idct b, false),
      (idct248At b, .idct b, true)],
    ∃ t u, HostRuns p.1 rest s t ∧
      exec p.2.1 (s.setBlk b { s.blkAt b with dctMode := p.2.2 }) = .next u ∧ t.mem = u.mem ∧ MetaKept u t := by
  have hwf : fitsIdx b = true := decide_eq_true (by omega)
  simp only [List.forall_mem_cons, List.not_mem_nil, false_implies, implies_true, and_true]
  exact ⟨modeThen_spec rest hp hs hb (i := .fdct b) hwf (bodyOf_fdct hb) (writeWord0_clear _),
    modeThen_spec rest hp hs hb (i := .fdct b) hwf (bodyOf_fdct hb) (writeWord0_set _),
    modeThen_spec rest hp hs hb (i := .idct b) hwf (bodyOf_idct hb) (writeWord0_clear _),
    modeThen_spec rest hp hs hb (i := .idct b) hwf (bodyOf_idct hb) (writeWord0_set _)⟩

/-! ### PUT_SYM -/

/-- `t` follows `s` by the bits of `c` put into SEG at BITPOS, each OR-ed to what is there, and BITPOS advanced by their number. -/
structure PutBits (c : Bits) (s t : State) : Prop where
  meta_kept : MetaKept s t
  bytes_kept : BytesKeptOutside 0x0400 400 s t
  bitpos : t.csr.bitpos.toNat = s.csr.bitpos.toNat + c.length
  bits : ∀ p, segBit t.mem p =
    (segBit s.mem p || (decide (s.csr.bitpos.toNat ≤ p) && c.getD (p - s.csr.bitpos.toNat) false))

theorem PutBits.append {c d : Bits} {s t u : State} (h : PutBits c s t) (k : PutBits d t u) : PutBits (c ++ d) s u := by
  refine ⟨⟨k.meta_kept.blk.trans h.meta_kept.blk, k.meta_kept.mb.trans h.meta_kept.mb⟩,
    fun a ha => (k.bytes_kept a ha).trans (h.bytes_kept a ha), ?_, fun p => ?_⟩
  · rw [k.bitpos, h.bitpos, List.length_append, Nat.add_assoc]
  · rw [k.bits, h.bits, h.bitpos]
    by_cases hpos : s.csr.bitpos.toNat ≤ p
    · by_cases hlt : p < s.csr.bitpos.toNat + c.length
      · rw [List.getD_append c d false _ (by omega), decide_eq_false (Nat.not_le.2 hlt), Bool.false_and, Bool.or_false]
      · rw [List.getD_append_right c d false _ (by omega), List.getD_eq_default c false (by omega), Nat.sub_sub,
          decide_eq_true hpos, decide_eq_true (Nat.not_lt.1 hlt), Bool.and_false, Bool.or_false]
    · rw [decide_eq_false hpos, decide_eq_false (by omega)]
      simp only [Bool.false_and, Bool.or_false]

theorem PutBits.congr {c : Bits} {s s' t : State} (h : PutBits c s' t) (hblk : s'.blk = s.blk) (hmb : s'.mb = s.mb)
    (hmem : s'.mem = s.mem) (hpos : s'.csr.bitpos = s.csr.bitpos) : PutBits c s t := by
  obtain ⟨⟨hb, hm⟩, hbytes, hp, hbits⟩ := h
  exact ⟨⟨hb.trans hblk, hm.trans hmb⟩, fun a ha => hmem ▸ hbytes a ha, hpos ▸ hp, hmem ▸ hpos ▸ hbits⟩

theorem bodyOf_bwPut {n : Nat} {s : State} (h1 : 1 ≤ n) (h24 : n ≤ 24) (hfit : s.csr.bitpos.toNat + n ≤ 3200) :
    bodyOf (.bwPut n) s = .ok (((s.setMem (segOr s.mem s.cursor n s.csr.arg0)).setBitpos (BitVec.ofNat 12 (s.cursor + n))).setRes0
      (word32 (s.cursor + n))) := by
  simp only [bodyOf, bwPut, require_eq_ok, countOk, inSegment, State.cursor, segLength, h1, h24, hfit, decide_true, Bool.and_self,
    true_and]

/-- Bit j of the number of at most 24 bits, as ARG0 holds it (00_scope.md R9). -/
theorem getLsbD_word32_natOfBits {c : Bits} (h : c.length ≤ 24) {j : Nat} (hj : j < c.length) :
    (word32 (natOfBits c)).getLsbD (c.length - 1 - j) = c.getD j false := by
  rw [getLsbD_word32, testBit_natOfBits, decide_eq_true (by omega), decide_eq_true (by omega), Bool.true_and, Bool.true_and]
  congr 1; omega

/-- BW_PUT of the slice `c` (41 R134). -/
theorem putBits_bwPut {s : State} {c : Bits} (h1 : 1 ≤ c.length) (h24 : c.length ≤ 24)
    (hfit : s.csr.bitpos.toNat + c.length ≤ 3200) (harg : s.csr.arg0 = word32 (natOfBits c)) (v : Word) :
    PutBits c s (complete (((s.setMem (segOr s.mem s.cursor c.length s.csr.arg0)).setBitpos
      (BitVec.ofNat 12 (s.cursor + c.length))).setRes0 v)) := by
  refine ⟨⟨rfl, rfl⟩, fun a ha => byte_segOr _ _ _ _ ?_, toNat_bitpos hfit, fun p => ?_⟩
  · unfold State.cursor segBase; omega
  · show segBit (segOr s.mem s.cursor c.length s.csr.arg0) p = _
    rw [segBit_segOr, harg]
    unfold State.cursor
    by_cases hin : s.csr.bitpos.toNat ≤ p ∧ p < s.csr.bitpos.toNat + c.length
    · rw [getLsbD_word32_natOfBits h24 (by omega), decide_eq_true hin, decide_eq_true hin.1]
    · rw [decide_eq_false hin, Bool.false_and]
      by_cases hpos : s.csr.bitpos.toNat ≤ p
      · rw [List.getD_eq_default c false (by omega), Bool.and_false]
      · rw [decide_eq_false hpos, Bool.false_and]

theorem putSlice_spec {s : State} (rest : List HostEvent) (hp : s.phase = .idle) (hs : s.port.stalled = []) {c : Bits}
    (h1 : 1 ≤ c.length) (h24 : c.length ≤ 24) (hfit : s.csr.bitpos.toNat + c.length ≤ 3200) :
    ∃ t, HostRuns (putSlice c) rest s t ∧ PutBits c s t := by
  have harg := hostRuns_arg0 hp hs (word32 (natOfBits c)) (hostCmd (.bwPut c.length) ++ rest)
  obtain ⟨u, hu, hput⟩ := hostRuns_command harg.idle harg.stalled (i := .bwPut c.length) rest
    (decide_eq_true (by omega)) fun u hu => bodyOf_bwPut h1 h24 (by rw [hu.bitpos]; exact hfit)
  exact ⟨_, harg.append hput,
    (putBits_bwPut h1 h24 (by rw [hu.bitpos]; exact hfit) hu.arg0 _).congr hu.blk hu.mb hu.mem hu.bitpos⟩

/-- One slice, or two. -/
theorem putSlices_spec {s : State} (rest : List HostEvent) (hp : s.phase = .idle) (hs : s.port.stalled = []) {c : Bits}
    (h1 : 1 ≤ c.length) (h48 : c.length ≤ 48) (hfit : s.csr.bitpos.toNat + c.length ≤ 3200) :
    ∃ t, HostRuns (putSlices c) rest s t ∧ PutBits c s t := by
  unfold putSlices
  split
  · next h24 => exact putSlice_spec rest hp hs h1 h24 hfit
  · next h24 =>
    have htake : (c.take 24).length = 24 := by rw [List.length_take]; omega
    have hdrop : (c.drop 24).length = c.length - 24 := List.length_drop
    obtain ⟨t, ht, put⟩ := putSlice_spec (s := s) (c := c.take 24) (putSlice (c.drop 24) ++ rest) hp hs (by omega) (by omega)
      (by omega)
    obtain ⟨u, hu, put'⟩ := putSlice_spec (s := t) (c := c.drop 24) rest ht.idle ht.stalled (by omega) (by omega)
      (by rw [put.bitpos]; omega)
    exact ⟨u, ht.append hu, List.take_append_drop 24 c ▸ put.append put'⟩

/-- The bits of RES0 after VLC_ENC_SYM (42 R161). -/
theorem word32_code_low (c : Bits) {i : Nat} (hi : i < 32) :
    (word32 (natOfBits c)).getLsbD i = (decide (i < c.length) && c.getD (c.length - 1 - i) false) := by
  rw [getLsbD_word32, testBit_natOfBits, decide_eq_true hi, Bool.true_and]

/-- The bits of RES1 after VLC_ENC_SYM (42 R161). -/
theorem word32_code_high (c : Bits) {i : Nat} (hi : i < 32) :
    (word32 (natOfBits c >>> 32)).getLsbD i = (decide (32 + i < c.length) && c.getD (c.length - 1 - (32 + i)) false) := by
  rw [getLsbD_word32, Nat.testBit_shiftRight, testBit_natOfBits, decide_eq_true hi, Bool.true_and]

theorem codeOfReplies_code {c : Bits} (h42 : c.length ≤ 42) (l : List Word) :
    codeOfReplies (word32 c.length :: word32 (natOfBits c >>> 32) :: word32 (natOfBits c) :: l) = c :=
  codeOfReplies_encoded l (by rw [word32, BitVec.toNat_ofNat]; omega) h42 (fun _ => word32_code_low c) fun _ => word32_code_high c

/-- The code that VLC_ENC_SYM finds in ARG0 as PUT_SYM wrote it (30 R102, R109). -/
theorem vlcEncSym_putSym {u : State} {run amp : Nat} {sign : Bool} (hr : run ≤ 63) (ha : amp ≤ 255)
    (harg : u.csr.arg0 = 0#15 ++ (bit sign ++ (0#2 ++ (BitVec.ofNat 6 run ++ BitVec.ofNat 8 amp)))) :
    bodyOf .vlcEncSym u =
      let c := vlcEncode run amp sign
      .ok (((u.setRes0 (word32 (natOfBits c))).setRes1 (word32 (natOfBits c >>> 32))).setRes2 (word32 c.length)) := by
  obtain ⟨hrun, hamp, hsign⟩ := putSym_arg run amp sign hr ha
  simp only [bodyOf, vlcEncSym, argRun, argAmp, argSign, harg, hrun, hamp, hsign]

/-- The host's reads of RES0, RES1 and RES2 (10 R29). -/
theorem hostRuns_readResults {s : State} (rest : List HostEvent) (hp : s.phase = .idle) (hs : s.port.stalled = []) :
    HostRuns [hostR 0x0018, hostR 0x001C, hostR 0x0020] rest s
      (((s.reply s.csr.res0).reply s.csr.res1).reply s.csr.res2) :=
  (hostRuns_read hp hs 0x0018 ([hostR 0x001C, hostR 0x0020] ++ rest) (by decide)).append
    ((hostRuns_read (s := s.reply s.csr.res0) hp hs 0x001C ([hostR 0x0020] ++ rest) (by decide)).append
      (hostRuns_read (s := (s.reply s.csr.res0).reply s.csr.res1) hp hs 0x0020 rest (by decide)))

theorem hostRuns_putCode {s t : State} {c : Bits} {rest : List HostEvent} (hp : s.phase = .idle) (hs : s.port.stalled = [])
    (hc : codeOfReplies s.port.replies = c) (h : HostRuns (putSlices c) rest s t) : HostRuns [.putCode] rest s t :=
  ⟨(reaches_event .putCode rest hp hs).trans (by subst hc; exact h.reaches), h.idle, h.stalled⟩

/-- The three reads return the registers of the code, so the slices that PUT_SYM goes on with are those of the code. -/
theorem putSym_spec {s : State} (rest : List HostEvent) (hp : s.phase = .idle) (hs : s.port.stalled = []) {run amp : Nat}
    (sign : Bool) (hr : run ≤ 63) (ha : amp ≤ 255) (hfit : s.csr.bitpos.toNat + (vlcEncode run amp sign).length ≤ 3200) :
    ∃ t, HostRuns (putSym run amp sign) rest s t ∧ PutBits (vlcEncode run amp sign) s t := by
  have h3 := vlcEncode_length_ge run amp sign
  have h42 := vlcEncode_length_le run amp sign
  have hwait := hostRuns_await hp hs
  have harg := hostRuns_arg0 hp hs (0#15 ++ (bit sign ++ (0#2 ++ (BitVec.ofNat 6 run ++ BitVec.ofNat 8 amp))))
  obtain ⟨u, hu, henc⟩ := hostRuns_command (harg []).idle (harg []).stalled (i := .vlcEncSym)
    (([hostR 0x0018, hostR 0x001C, hostR 0x0020] ++ [.putCode]) ++ rest) rfl fun u hu => vlcEncSym_putSym hr ha hu.arg0
  have hread := hostRuns_readResults ([.putCode] ++ rest) henc.idle henc.stalled
  obtain ⟨t, ht, put⟩ := putSlices_spec rest hread.idle hread.stalled (c := vlcEncode run amp sign) (by omega) (by omega)
    (by show u.csr.bitpos.toNat + _ ≤ 3200; rw [hu.bitpos]; exact hfit)
  have hcode := hostRuns_putCode hread.idle hread.stalled (codeOfReplies_code h42 _) ht
  exact ⟨t, (hwait _).append ((harg _).append (henc.append (hread.append hcode))),
    put.congr hu.blk hu.mb hu.mem hu.bitpos⟩

/-- Settles O60: BR_GET, the four transforms and PUT_SYM, each run piece by piece. -/
theorem pseudoCommands : Obligations.PseudoCommands := by
  intro s rest hp hs
  refine ⟨fun n h1 h24 hfit => ?_, fun b hb p hmem => ?_, fun run amp sign hr ha hfit => ?_⟩
  · obtain ⟨t, ht, hmeta, hbytes, hpos, hres⟩ := brGet_spec rest hp hs h1 h24 hfit
    obtain ⟨hbits, habove⟩ := word32_segPeek_bits s.mem s.csr.bitpos.toNat h24
    exact ⟨t, ht.reaches, ht.idle, ht.stalled, hmeta, hbytes, hpos, hres ▸ hbits, hres ▸ habove⟩
  · obtain ⟨t, u, ht, hu⟩ := transforms_spec rest hp hs hb p hmem
    exact ⟨t, u, ht.reaches, ht.idle, ht.stalled, hu⟩
  · obtain ⟨t, ht, put⟩ := putSym_spec rest hp hs sign hr ha hfit
    refine ⟨t, ht.reaches, ht.idle, ht.stalled, put.meta_kept, put.bytes_kept, put.bitpos, fun i _ => ?_, fun p _ hp => ?_⟩
    · rw [put.bits, decide_eq_true (Nat.le_add_right _ _), Bool.true_and, Nat.add_sub_cancel_left]
    · rw [put.bits]
      rcases hp with hlt | hge
      · rw [decide_eq_false (Nat.not_le.2 hlt), Bool.false_and, Bool.or_false]
      · rw [List.getD_eq_default (vlcEncode run amp sign) false (by omega), Bool.and_false, Bool.or_false]

end Sys2Proof.Machine
end

section
/-! The bit reader and writer over SEG (41_bitio.md): the checks of a count and of the end of SEG, and what SEG_CLEAR, BR_PEEK,
BR_SKIP and BW_PUT leave. -/

namespace Sys2Proof.Machine

open Sys2Proof

/-! ### The checks -/

theorem countOk_of_out {n : Nat} (h : n < 1 ∨ 24 < n) : countOk n = false := by
  rw [countOk, Bool.and_eq_false_iff, decide_eq_false_iff_not, decide_eq_false_iff_not]
  omega

theorem countOk_of_le {n : Nat} (h1 : 1 ≤ n) (h24 : n ≤ 24) : countOk n = true := by
  rw [countOk, decide_eq_true h1, decide_eq_true h24, Bool.and_self]

theorem inSegment_of_lt {n : Nat} {s : State} (h : 3200 < s.csr.bitpos.toNat + n) : inSegment s n = false :=
  decide_eq_false (Nat.not_le.2 h)

/-- The failures of BR_PEEK and BW_PUT, whose pseudocode begins with these two checks in this order (41 R132, R134). -/
theorem failsWith_of_checks {i : Instr} {n : Nat} {s : State} {x : Except ErrCode State}
    (hi : bodyOf i s = require (countOk n) .badArg (require (inSegment s n) .bitRange x)) :
    (n < 1 ∨ 24 < n → failsWith i s .badArg) ∧
    (1 ≤ n → n ≤ 24 → 3200 < s.csr.bitpos.toNat + n → failsWith i s .bitRange) := by
  refine ⟨fun h => failsWith_of_error ?_, fun h1 h24 h => failsWith_of_error ?_⟩
  · rw [hi, countOk_of_out h, require_false]
  · rw [hi, countOk_of_le h1 h24, require_true, inSegment_of_lt h, require_false]

/-! ### SEG and the position -/

theorem segBit_segOr_inside (m : Memory) (p : Nat) {n i : Nat} (v : Word) (h : i < n) :
    segBit (segOr m p n v) (p + i) = (segBit m (p + i) || v.getLsbD (n - 1 - i)) := by
  rw [segBit_segOr, decide_eq_true ⟨Nat.le_add_right p i, Nat.add_lt_add_left h p⟩, Bool.true_and, Nat.add_sub_cancel_left]

theorem segBit_segOr_outside (m : Memory) {p n q : Nat} (v : Word) (h : q < p ∨ p + n ≤ q) :
    segBit (segOr m p n v) q = segBit m q := by
  rw [segBit_segOr, decide_eq_false (by omega), Bool.false_and, Bool.or_false]

/-- A position inside SEG, or its end, fits a result register (10 R29). -/
theorem toNat_word32_position {p : Nat} (h : p ≤ 3200) : (word32 p).toNat = p := by
  rw [word32, BitVec.toNat_ofNat, Nat.mod_eq_of_lt (by omega)]

theorem segByte_segClear (s : State) {a : Nat} (h : a < 400) : segByte (segClear s).mem a = 0x00 := by
  have hin : segBase + a < segBase + (List.replicate 400 (0x00 : Byte)).length := by rw [List.length_replicate]; omega
  rw [segClear, State.setBitpos_mem, State.setMem_mem, segByte, Memory.byte_store_inside (Nat.le_add_right _ _) hin,
    Nat.add_sub_cancel_left, List.getD_replicate _ h]

theorem bytesKeptOutside_segClear (s : State) : BytesKeptOutside 0x0400 400 s (segClear s) := fun a ha => by
  rw [segClear, State.setBitpos_mem, State.setMem_mem, Memory.byte_store_outside (by rw [List.length_replicate]; exact ha)]

/-! ### The commands -/

/-- Settles O9: SEG_CLEAR has no check and stores 400 zero bytes. -/
theorem segClearResult : Obligations.SegClearResult :=
  ⟨fun w h => decodeWord_of_op w h, fun s => ⟨complete (segClear s), exec_of_ok rfl, completed_complete (untouched_segClear s),
    ⟨rfl, rfl, rfl⟩, ⟨rfl, rfl, rfl, rfl⟩, ⟨rfl, rfl⟩, rfl, fun _ => segByte_segClear s, bytesKeptOutside_segClear s⟩⟩

/-- Settles O10: RES0 is the number of the bits at BITPOS. -/
theorem brPeekResult : Obligations.BrPeekResult := by
  refine ⟨fun w h => decodeWord_of_op w h, fun n s => ⟨fun h1 h24 hfit => ?_, failsWith_of_checks rfl⟩⟩
  exact ⟨_, exec_of_ok (bodyOf_brPeek h1 h24 hfit), onlyRes0_setRes0 s _, word32_segPeek_bits s.mem s.csr.bitpos.toNat h24⟩

/-- Settles O11: the new position fits BITPOS, because it is at most 3200. -/
theorem brSkipResult : Obligations.BrSkipResult := by
  refine ⟨fun w h => decodeWord_of_op w h, fun n s => ⟨fun hfit => ?_, fun hlt => failsWith_of_error ?_⟩⟩
  · exact ⟨_, exec_of_ok (bodyOf_brSkip hfit), completed_complete (untouched_setBitpos s _), ⟨rfl, rfl, rfl⟩,
      ⟨rfl, rfl, rfl, rfl⟩, ⟨rfl, rfl⟩, fun _ => rfl, toNat_bitpos hfit⟩
  · rw [bodyOf, brSkip, inSegment_of_lt hlt, require_false]

/-- Settles O12: SEG changes by one SegOr, and the new position fits BITPOS and RES0. -/
theorem bwPutResult : Obligations.BwPutResult := by
  refine ⟨fun w h => decodeWord_of_op w h, fun n s => ⟨fun h1 h24 hfit => ?_, failsWith_of_checks rfl⟩⟩
  have hbody := bodyOf_bwPut h1 h24 hfit
  exact ⟨_, exec_of_ok hbody, completed_complete (bodyOf_untouched hbody), rfl, rfl, ⟨rfl, rfl, rfl, rfl⟩, ⟨rfl, rfl⟩,
    toNat_bitpos hfit, toNat_word32_position hfit, fun _ => segBit_segOr_inside s.mem s.cursor s.csr.arg0,
    fun _ => segBit_segOr_outside s.mem s.csr.arg0, fun _ => byte_segOr s.mem s.cursor n s.csr.arg0⟩

end Sys2Proof.Machine
end

section
/-! The VLC symbol coder (42_vlc.md): the cases of VlcEncode and VlcDecode, what the four VLC commands leave, and a block's code
read back. -/

namespace Sys2Proof.Machine

open Sys2Proof

/-! ### VlcEncode by the cases of 42 R155 -/

/-- A pair of the table: its code word, and the sign where there is one. -/
theorem vlcEncode_of_some {run amp : Nat} {c : Bits} (h : tableCode run amp = some c) (sign : Bool) :
    vlcEncode run amp sign = c ++ (if amp = 0 then [] else [sign]) := by
  by_cases h0 : amp = 0
  · subst h0
    simp only [vlcEncode_zero, vlcZeros, h, if_true, List.append_nil]
  · simp only [vlcEncode, h, if_neg h0]

/-- The run escape of zeros that have no table pair; runs 62 and 63 take two. -/
theorem vlcEncode_zeros_of_none {run : Nat} (h : tableCode run 0 = none) (sign : Bool) :
    vlcEncode run 0 sign = if run ≤ 61 then runEscape run else runEscape 61 ++ runEscape (run - 62) := by
  simp only [vlcEncode_zero, vlcZeros, h]

/-- A pair outside the table: the amplitude escape, or the zeros and the level apart. -/
theorem vlcEncode_of_none {run amp : Nat} (h : tableCode run amp = none) (h0 : amp ≠ 0) (sign : Bool) :
    vlcEncode run amp sign =
      if run = 0 then ampEscape amp sign else vlcEncode (run - 1) 0 false ++ vlcEncode 0 amp sign := by
  rw [vlcEncode_zero, vlcEncode_level h0]
  simp only [vlcEncode, h, if_neg h0]

theorem six_le_of_tableCode_none {run : Nat} (hr : run ≤ 63) (h : tableCode run 0 = none) : 6 ≤ run := by
  have htab := tableCode_zero run (by omega)
  rw [h, Option.isSome_none, eq_comm, decide_eq_false_iff_not] at htab
  omega

/-- Settles O15: a pair in the table, zeros, or an amplitude outside the table. -/
theorem vlcEncodeRule : Obligations.VlcEncodeRule := by
  intro run amp sign hr _
  refine ⟨?_, vlcEncode_length_ge run amp sign, vlcEncode_length_le run amp sign, vlcEncode_length_sign run amp _ _⟩
  cases h : tableCode run amp with
  | some c => exact vlcEncode_of_some h sign
  | none =>
    by_cases h0 : amp = 0
    · subst h0
      have h6 := six_le_of_tableCode_none hr h
      rw [vlcEncode_zeros_of_none h]
      by_cases h61 : run ≤ 61
      · simp only [h6, h61, and_self, if_true, runEscape]
      · simp only [h6, h61, show 62 ≤ run by omega, and_self, and_false, if_true, if_false, runEscape]
    · simp only [vlcEncode_of_none h h0, h0, false_and, if_false, ampEscape]

/-! ### VlcDecode -/

/-- The sign of a decoded amplitude, as it was sent unless the amplitude is 0 (42 R158). -/
theorem decide_ne_zero_and (a : Nat) (s : Bool) : (decide (a ≠ 0) && s) = if a = 0 then false else s := by
  by_cases h : a = 0 <;> simp [h]

/-- A code word of the table with its sign, where it has one (42 R150, R158). -/
theorem vlcDecode_table {e : VlcEntry} (he : e ∈ VLCTAB) (s : Bool) (rest : Bits) :
    vlcDecode (e.bits ++ (if e.amp = 0 then [] else [s]) ++ rest) =
      ⟨.sym, e.run, e.amp, if e.amp = 0 then false else s, e.len + (if e.amp = 0 then 0 else 1)⟩ := by
  by_cases h0 : e.amp = 0
  · simp only [h0, if_true, List.append_nil, Nat.add_zero, vlcDecode_table_zero he h0]
  · simp only [if_neg h0, List.append_assoc, List.singleton_append, vlcDecode_table_sign he h0]

theorem vlcDecode_eq_noBits {t : Bits} (h : (vlcDecode t).kind = .nobits) : vlcDecode t = noBits := by
  rcases vlcDecode_cases t with ⟨c, d, hd⟩ | hno
  · exact absurd (hd.eq ▸ h) hd.kind
  · exact hno

/-- A complete answer depends on the bits that it consumes only (42 R158). -/
theorem vlcDecode_take_len {t : Bits} (h : (vlcDecode t).kind ≠ .nobits) (rest : Bits) :
    vlcDecode (t.take (vlcDecode t).len ++ rest) = vlcDecode t := by
  rcases vlcDecode_cases t with ⟨c, d, hd⟩ | hno
  · rw [hd.eq, ← hd.len, ← List.prefix_iff_eq_take.1 hd.isPrefix, hd.stable]
  · exact absurd (by rw [hno]; rfl) h

/-- Settles O16: EOB, the two escapes and the table words read back, and the two kinds of answer. -/
theorem vlcDecodeRule : Obligations.VlcDecodeRule := by
  refine ⟨vlcDecode_eob, fun r rest hr => ?_, fun a s rest ha => ?_, fun e he => vlcDecode_table he, fun t h => ?_,
    fun t rest h => ⟨vlcDecode_len_le t, vlcDecode_take_len h rest⟩⟩
  · rw [vlcDecode_run _ rest (bitsOfNat_length 6 r), natOfBits_bitsOfNat (by omega)]
  · rw [vlcDecode_amp _ s rest (bitsOfNat_length 8 a), natOfBits_bitsOfNat (by omega), decide_ne_zero_and]
  · exact ⟨vlcDecode_eq_noBits h, vlcDecode_nobits_length h⟩

/-! ### The symbol commands -/

/-- RES0 of VLC_DEC_SYM (42 R160). -/
theorem symWord_layout (kind : BitVec 2) (len run amp : Nat) (sign : Bool) :
    let w := symWord kind len run amp sign
    w.extractLsb' 0 8 = BitVec.ofNat 8 amp ∧ w.extractLsb' 8 6 = BitVec.ofNat 6 run ∧ w.getLsbD 14 = false ∧
      w.getLsbD 15 = sign ∧ w.extractLsb' 16 5 = BitVec.ofNat 5 len ∧ w.extractLsb' 21 3 = 0 ∧
      w.extractLsb' 24 2 = kind ∧ w.extractLsb' 26 6 = 0 := by
  simp (disch := decide) only [symWord, getLsbD_append_of_lt, getLsbD_append_of_le,
    BitVec.extractLsb'_append_eq_of_le, BitVec.extractLsb'_append_eq_of_add_le]
  simp

/-- A number below 2^n keeps its value in a field of n bits. -/
theorem toNat_of_eq_ofNat {n v : Nat} {x : BitVec n} (h : x = BitVec.ofNat n v) (hv : v < 2 ^ n) : x.toNat = v := by
  rw [h, BitVec.toNat_ofNat, Nat.mod_eq_of_lt hv]

theorem bodyOf_vlcDecSym {nv : Nat} (h : nv ≤ 16) (s : State) :
    bodyOf (.vlcDecSym nv) s =
      let d := vlcDecode (argWindow s.csr.arg0 nv)
      .ok (s.setRes0 (symWord (kindBits d.kind) d.len d.run d.amp d.sign)) := by
  rw [bodyOf, vlcDecSym, decide_eq_true h, require_true]

/-- Settles O13: the symbol's fields fit RES0, because a decoded symbol is in range. -/
theorem vlcDecSymResult : Obligations.VlcDecSymResult := by
  refine fun nv s => ⟨fun h => ⟨_, exec_of_ok (bodyOf_vlcDecSym h s), onlyRes0_setRes0 s _, ?_⟩, fun h => failsWith_of_error ?_⟩
  · intro d
    obtain ⟨hrun, hamp, hlen⟩ : d.run ≤ 63 ∧ d.amp ≤ 255 ∧ d.len ≤ 16 := vlcDecode_bounds _
    obtain ⟨amp, run, b14, sign, len, b21, kind, b26⟩ := symWord_layout (kindBits d.kind) d.len d.run d.amp d.sign
    exact ⟨toNat_of_eq_ofNat amp (by omega), toNat_of_eq_ofNat run (by omega), b14, sign, toNat_of_eq_ofNat len (by omega), b21,
      kind, b26⟩
  · rw [bodyOf, vlcDecSym, decide_eq_false (by omega), require_false]

/-- A length read from a result register (00_scope.md R10). -/
theorem toNat_word32 {n : Nat} (h : n < 2 ^ 32) : (word32 n).toNat = n := toNat_of_eq_ofNat rfl h

/-- Settles O14: the bits of the code's number in RES1:RES0, and its length. -/
theorem vlcEncSymResult : Obligations.VlcEncSymResult := by
  intro s c
  have hlen : (word32 c.length).toNat = c.length :=
    toNat_word32 ((vlcEncode_length_le _ _ _).trans_lt (by decide))
  exact ⟨⟨_, exec_of_ok (i := .vlcEncSym) rfl, completed_complete (untouched_vlcEncSym s), rfl, ⟨rfl, rfl, rfl, rfl⟩, ⟨rfl, rfl⟩,
    fun _ => rfl, hlen, fun _ => word32_code_low c, fun _ => word32_code_high c⟩,
    _, exec_of_ok (i := .vlcBits) rfl, onlyRes0_setRes0 s _, hlen⟩

/-! ### VLC_BLK_BITS -/

theorem bodyOf_vlcBlkBits {b : Nat} (hb : b ≤ 29) (s : State) :
    bodyOf (.vlcBlkBits b) s = require (ampOk (s.coefs b)) .ampRange
      (.ok (s.setRes0 (word32 (blockBits (blockEntries (s.coefs b) (s.blkAt b).dctMode))))) := withBlock_of_le hb _

/-- Settles O17: the amplitude check decides, and the sum of at most 63 lengths fits RES0. -/
theorem vlcBlkBitsResult : Obligations.VlcBlkBitsResult := by
  refine fun b s hb => ⟨fun h => ?_, fun ⟨n, h1, h63, hn⟩ => failsWith_of_error (i := .vlcBlkBits b) ?_⟩
  · have hok : ampOk (s.coefs b) = true := (ampOk_iff s.mem b).2 h
    have hbody := bodyOf_vlcBlkBits hb s
    rw [hok, require_true] at hbody
    refine ⟨_, exec_of_ok hbody, onlyRes0_setRes0 s _, ?_⟩
    rw [coefBlock_eq_map]
    exact toNat_word32 ((blockBits_le _ _).trans_lt (by decide))
  · have hbad : ampOk (s.coefs b) = false :=
      Bool.eq_false_iff.2 fun hok => Nat.not_le.2 hn ((ampOk_iff s.mem b).1 hok n h1 h63)
    rw [bodyOf_vlcBlkBits hb, hbad, require_false]

/-! ### The code of a block -/

/-- Filling a block that has only the DC with a block's entries gives the block (42 R159). -/
theorem fillEntries_blockEntries {c : List Int} (mode : Bool) (hc : c.length = 64) :
    fillEntries (zz mode) 1 (blockEntries c mode) ((List.replicate 64 0).set 0 (at0 c 0)) = c := by
  refine fillEntries_entriesFrom hc 63 1 0 _ rfl (by decide) (by simp) (fun q _ hq => ?_) (fun q => start_zero mode)
    fun q h0 h1 => by omega
  obtain rfl : q = 0 := by omega
  rw [zz_zero]
  exact at0_set_self _ (by simp)

/-- Settles O18: the fill from position 1, and the bounds of entries at scan positions up to 63. -/
theorem blockEntriesRebuild : Obligations.BlockEntriesRebuild := fun _ mode hc =>
  ⟨fillEntries_blockEntries mode hc, entriesFrom_bounds fun s hs => by rw [List.mem_range'_1] at hs; omega⟩

/-- A block that finishes keeps no bits (46 R286). -/
theorem decodeRun_carry_of_fin {w : Work} {bits : Bits} (h : (decodeRun w bits).1.fin = true) :
    (decodeRun w bits).1.carry = [] := by
  rw [decodeRun_eq] at h ⊢
  split
  · rfl
  · next hf => rw [if_neg hf] at h; exact absurd h hf

/-- Settles O19: the code from the fresh state finishes it with the filled block, which is the block itself. -/
theorem blockRoundTrip : Obligations.BlockRoundTrip := by
  intro c w rest hc ha hp hf he hk hco r
  have hstart := mirror_start (List.prefix_refl _) ha rfl hp hf he hk hco
  have hne : blockCode (blockEntries c w.mode) ≠ [] := List.append_ne_nil_of_right_ne_nil _ (by decide)
  obtain ⟨hused, hdone⟩ := mirror_finish hstart hne rest
  obtain ⟨hfin, heob, herr, hcoefs⟩ := mirror_nil.1 hdone
  exact ⟨hcoefs.trans (fillEntries_blockEntries w.mode hc), hfin, heob, herr, decodeRun_carry_of_fin hfin, hused⟩

end Sys2Proof.Machine
end

section
/-! The zig-zag reorder and macroblock placement (43_reorder_place.md): what ZZ_TO_SCAN and ZZ_TO_NAT leave and that they undo one
another, the results of the placement commands, and that each placement tiles the frame. -/

namespace Sys2Proof.Machine

open Sys2Proof

/-! ### The zig-zag commands -/

/-- A command whose pseudocode begins with the check of a block index (60 R341). -/
theorem failsWith_badIndex_of_withBlock {i : Instr} {b : Nat} {s : State} {x : Except ErrCode State}
    (hi : bodyOf i s = withBlock b x) (hb : 29 < b) : failsWith i s .badIndex :=
  failsWith_of_error (hi.trans (withBlock_of_lt hb x))

theorem toScan_range (mode : Bool) {old : List Int} (hr : ∀ n, n < 64 → -32768 ≤ at0 old n ∧ at0 old n ≤ 32767) :
    ∀ n, n < 64 → -32768 ≤ at0 (toScan mode old) n ∧ at0 (toScan mode old) n ≤ 32767 := fun n hn => by
  rw [at0_toScan mode old hn]
  exact hr _ (zz_lt mode n hn)

theorem exec_zzToScan {b : Nat} (hb : b ≤ 29) (s : State) :
    ∃ t, exec (.zzToScan b) s = .next t ∧ OnlyBlock b s t ∧
      ∀ i, i < 64 → coef t.mem b i = coef s.mem b ((zz (s.blkAt b).dctMode).getD i 0) := by
  obtain ⟨t, hexec, hframe, hcoef⟩ := exec_setCoefs (i := .zzToScan b) (withBlock_of_le hb _) (toScan_length _ _)
    (toScan_range (s.blkAt b).dctMode fun _ => coefs_range s b)
  refine ⟨t, hexec, hframe, fun i hi => ?_⟩
  rw [hcoef i hi, at0_toScan _ _ hi, at0_coefs s b (zz_lt _ i hi)]

theorem exec_zzToNat {b : Nat} (hb : b ≤ 29) (s : State) :
    ∃ t, exec (.zzToNat b) s = .next t ∧ OnlyBlock b s t ∧
      ∀ i, i < 64 → coef t.mem b ((zz (s.blkAt b).dctMode).getD i 0) = coef s.mem b i := by
  obtain ⟨hlen, hat⟩ := toNatural_spec (s.blkAt b).dctMode (s.coefs b) (coefs_length s b)
  obtain ⟨t, hexec, hframe, hcoef⟩ := exec_setCoefs (i := .zzToNat b) (withBlock_of_le hb _) hlen
    (toNatural_range _ _ (coefs_length s b) fun _ => coefs_range s b)
  refine ⟨t, hexec, hframe, fun i hi => ?_⟩
  rw [hcoef _ (zz_lt _ i hi), hat i hi, at0_coefs s b hi]

/-- Settles O20: the scan is `zz`, the rule's table of the block's mode. -/
theorem zzToScanResult : Obligations.ZzToScanResult :=
  ⟨fun w h => decodeWord_of_op w h, fun _ s => ⟨fun hb => exec_zzToScan hb s, failsWith_badIndex_of_withBlock rfl⟩⟩

/-- Settles O21: the scan is `zz`, the rule's table of the block's mode. -/
theorem zzToNatResult : Obligations.ZzToNatResult :=
  ⟨fun w h => decodeWord_of_op w h, fun _ s => ⟨fun hb => exec_zzToNat hb s, failsWith_badIndex_of_withBlock rfl⟩⟩

/-- Settles O22: every position of the block is a `Z[i]`, whose coefficient goes to entry i and back; DCT_MODE is kept. -/
theorem zzInverse : Obligations.ZzInverse := by
  intro b s hb
  obtain ⟨t, hst, hframe, hscan⟩ := exec_zzToScan hb s
  obtain ⟨u, htu, hframe', hnat⟩ := exec_zzToNat hb t
  rw [blkAt_congr hframe.meta_kept.blk] at hnat
  refine ⟨t, u, hst, htu, byte_eq_of_coefs (b := b) (fun n hn => ?_) fun a ha =>
    (hframe'.bytes_kept a ha).trans (hframe.bytes_kept a ha)⟩
  obtain ⟨i, hi, rfl⟩ := zz_surj (s.blkAt b).dctMode hn
  rw [hnat i hi, hscan i hi]

/-! ### The placement commands -/

theorem State.imax_le (s : State) : s.imax ≤ 11 := by
  unfold State.imax
  split <;> decide

theorem placeOk_iff {s : State} {i j k : Nat} : placeOk s i j k = true ↔ k ≤ 26 ∧ j ≤ 4 ∧ i ≤ s.imax := by
  simp only [placeOk, Bool.and_eq_true, decide_eq_true_eq]

theorem placeOk_eq_false {s : State} {i j k : Nat} (h : 26 < k ∨ 4 < j ∨ s.imax < i) : placeOk s i j k = false :=
  Bool.eq_false_iff.2 fun hok => by
    obtain ⟨hk, hj, hi⟩ := placeOk_iff.1 hok
    omega

/-- The layout of RES0 with a position of either placement (43 R195). -/
theorem posWord_fields_of_placeOk {s : State} {i j k : Nat} (h : placeOk s i j k = true) {p : Nat × Nat}
    (hp : p = placePos411 i j k ∨ p = placePos420 i j k) :
    (p.1 < 1024 ∧ p.2 < 1024) ∧ ((posWord p).extractLsb' 0 10).toNat = p.1 ∧ ((posWord p).extractLsb' 16 10).toNat = p.2 ∧
      (posWord p).extractLsb' 10 6 = 0 ∧ (posWord p).extractLsb' 26 6 = 0 := by
  obtain ⟨hk, hj, hi⟩ := placeOk_iff.1 h
  obtain ⟨hx, hy, hx', hy'⟩ := placePos_bounds hi s.imax_le hj hk
  rcases hp with rfl | rfl
  · exact ⟨⟨hx, hy⟩, posWord_fields hx hy⟩
  · exact ⟨⟨hx', hy'⟩, posWord_fields hx' hy'⟩

/-- PLACE411 and PLACE420: the checks of i, j and k, and the position p in RES0 (43 R195, R196). -/
theorem place_result {c : Instr} {s : State} {i j k : Nat} {p : Nat × Nat}
    (hc : bodyOf c s = require (placeOk s i j k) .badArg (.ok (s.setRes0 (posWord p))))
    (hp : p = placePos411 i j k ∨ p = placePos420 i j k) :
    (k ≤ 26 → j ≤ 4 → i ≤ s.imax → ∃ t, exec c s = .next t ∧ OnlyRes0 s t ∧
      (t.csr.res0.extractLsb' 0 10).toNat = p.1 ∧ (t.csr.res0.extractLsb' 16 10).toNat = p.2 ∧
      t.csr.res0.extractLsb' 10 6 = 0 ∧ t.csr.res0.extractLsb' 26 6 = 0) ∧
    (26 < k ∨ 4 < j ∨ s.imax < i → failsWith c s .badArg) := by
  refine ⟨fun hk hj hi => ?_, fun h => failsWith_of_error ?_⟩
  · have hok := placeOk_iff.2 ⟨hk, hj, hi⟩
    rw [hok, require_true] at hc
    exact ⟨_, exec_of_ok hc, onlyRes0_setRes0 s _, (posWord_fields_of_placeOk hok hp).2⟩
  · rw [hc, placeOk_eq_false h, require_false]

/-- Settles O23: the formulas are the model's, and a position in range fits its field of RES0. -/
theorem placeResult : Obligations.PlaceResult := by
  refine ⟨fun i j k _ _ => ⟨rfl, rfl⟩, fun s => ?_⟩
  obtain ⟨hpos, hfail⟩ := place_result (c := .place411) (s := s) rfl (.inl rfl)
  obtain ⟨hpos', hfail'⟩ := place_result (c := .place420) (s := s) rfl (.inr rfl)
  exact ⟨fun hk hj hi => ⟨hpos hk hj hi, hpos' hk hj hi⟩, fun h => ⟨hfail h, hfail' h⟩⟩

theorem placeStored_eq_or (s : State) (x : MbMeta) : placeStored s x = placePos411 x.i.toNat x.j.toNat x.k.toNat ∨
    placeStored s x = placePos420 x.i.toNat x.j.toNat x.k.toNat := by
  unfold placeStored
  split
  · exact .inr rfl
  · exact .inl rfl

theorem bodyOf_placeMb {m : Nat} (hm : m ≤ 4) (s : State) :
    bodyOf (.placeMb m) s =
      let x := s.mbAt m
      let p := placeStored s x
      require (placeOk s x.i.toNat x.j.toNat x.k.toNat) .badArg
        (.ok ((s.setMb m { x with x := BitVec.ofNat 10 p.1, y := BitVec.ofNat 10 p.2 }).setRes0 (posWord p))) :=
  withMb_of_le hm _

/-- Settles O24: `placeStored` is one of the two placements, so its position fits X, Y and RES0. -/
theorem placeMbResult : Obligations.PlaceMbResult := by
  intro m s hm x imax p
  have hbody := bodyOf_placeMb hm s
  refine ⟨fun hk hj hi => ?_, fun h => failsWith_of_error (i := .placeMb m) ?_⟩
  · have hok : placeOk s x.i.toNat x.j.toNat x.k.toNat = true := placeOk_iff.2 ⟨hk, hj, hi⟩
    obtain ⟨⟨hx, hy⟩, hres⟩ := posWord_fields_of_placeOk hok (placeStored_eq_or s x)
    simp only [x] at hok
    simp only [hok, require_true] at hbody
    exact ⟨_, exec_of_ok hbody, completed_complete (bodyOf_untouched hbody), rfl, rfl, rfl, ⟨rfl, rfl, rfl, rfl⟩, rfl,
      fun _ => rfl, ⟨_, _, mbAt_setMb_self s _ (Nat.lt_succ_of_le hm), toNat_of_eq_ofNat rfl hx, toNat_of_eq_ofNat rfl hy⟩,
      fun _ => mbAt_setMb_ne s _, hres⟩
  · rw [hbody]
    exact congrArg (require · _ _) (placeOk_eq_false h)

/-! ### The path through a superblock -/

/-- The row of place n on a path down and up columns of h rows (43 R191, R194). -/
def snakeRow (h n : Nat) : Nat := if n / h % 2 = 0 then n % h else h - 1 - n % h

/-- The place of column c and row r on that path. -/
def snakePlace (h c r : Nat) : Nat := h * c + if c % 2 = 0 then r else h - 1 - r

theorem snakeRow_lt {h : Nat} (hh : 0 < h) (n : Nat) : snakeRow h n < h := by
  have := Nat.mod_lt n hh
  unfold snakeRow
  split <;> omega

/-- The path meets each column and row exactly once. -/
theorem snake_iff {h n c r : Nat} (hr : r < h) : n / h = c ∧ snakeRow h n = r ↔ n = snakePlace h c r := by
  have hdiv : n / h = c ↔ h * c ≤ n ∧ n < h * c + h := by
    rw [Nat.div_eq_iff (by omega), Nat.mul_comm c h]; omega
  have hmod := Nat.div_add_mod n h
  unfold snakeRow snakePlace
  constructor
  · rintro ⟨rfl, rfl⟩
    split <;> omega
  · intro hn
    obtain rfl : n / h = c := hdiv.2 (by split at hn <;> omega)
    refine ⟨rfl, ?_⟩
    split <;> split at hn <;> omega

theorem snakePlace_bounds {h r : Nat} (hr : r < h) (c : Nat) : h * c ≤ snakePlace h c r ∧ snakePlace h c r < h * c + h := by
  unfold snakePlace
  split <;> omega

/-! ### The owner of a sample in 4:2:0 -/

theorem placePos420_eq (i j k : Nat) : placePos420 i j k = (16 * (k / 3 + 9 * j), 48 * i + 16 * snakeRow 3 k) := rfl

/-- The macroblock of 4:2:0 that holds the luma sample at (x, y). -/
def owner420 (x y : Nat) : Nat × Nat × Nat := (y / 48, x / 16 / 9, snakePlace 3 (x / 16 % 9) (y % 48 / 16))

/-- The macroblock (i, j, k) of 4:2:0 holds the sample at (x, y) just if it is the sample's owner. -/
theorem covers420_iff {x y imax i j k : Nat} (hx : x < 720) (hy : y < 48 * (imax + 1)) :
    (i ≤ imax ∧ j ≤ 4 ∧ k ≤ 26 ∧ (placePos420 i j k).1 ≤ x ∧ x < (placePos420 i j k).1 + 16 ∧
      (placePos420 i j k).2 ≤ y ∧ y < (placePos420 i j k).2 + 16) ↔ (i, j, k) = owner420 x y := by
  have hrow := snakeRow_lt (h := 3) (by decide) k
  have hpath := snake_iff (h := 3) (n := k) (c := x / 16 % 9) (r := y % 48 / 16) (by omega)
  rw [owner420, Prod.mk.injEq, Prod.mk.injEq, ← hpath, placePos420_eq]
  dsimp only
  omega

/-! ### The owner of a sample in 4:1:1 -/

/-- The shift of the path in the odd superblock columns of 4:1:1 (43 R191). -/
def shift411 (j : Nat) : Nat := if j % 2 = 1 then 3 else 0

theorem placePos411_edge {j k : Nat} (h : j = 4 ∧ 24 ≤ k) (i : Nat) :
    placePos411 i j k = (704, 48 * i + 16 * (k - 24)) := if_pos h

theorem placePos411_inner {j k : Nat} (h : ¬(j = 4 ∧ 24 ≤ k)) (i : Nat) : placePos411 i j k =
    (32 * ((k + shift411 j) / 6 + COLOFF.getD j 0), 48 * i + 8 * snakeRow 6 (k + shift411 j)) := if_neg h

/-- The ends of a superblock column's 27 places lie in even columns or between two columns, so that mirroring the odd columns moves
no place across an end. -/
theorem snakePlace_mem_iff {d r sh : Nat} (hr : r < 6) (hsh : sh = 0 ∨ sh = 3) :
    (sh ≤ snakePlace 6 d r ∧ snakePlace 6 d r < sh + 27) ↔ sh ≤ 6 * d + r ∧ 6 * d + r < sh + 27 := by
  unfold snakePlace
  split
  · rfl
  · omega

/-- COLOFF and the shift together: superblock column j begins after 27 places for each one before it (43 R191, R192). -/
theorem coloff_shift411 : ∀ j ≤ 4, 6 * COLOFF.getD j 0 + shift411 j = 27 * j ∧ (shift411 j = 0 ∨ shift411 j = 3) := by
  decide

/-- The macroblock of 4:1:1 that holds the luma sample at (x, y): counted column by column, 27 places a superblock column. -/
def owner411 (x y : Nat) : Nat × Nat × Nat :=
  if 704 ≤ x then (y / 48, 4, 24 + y % 48 / 16)
  else
    let c := x / 32
    let r := y % 48 / 8
    let j := (6 * c + r) / 27
    (y / 48, j, snakePlace 6 (c - COLOFF.getD j 0) r - shift411 j)

/-- The macroblocks of 4:1:1 left of the edge meet each column and row exactly once. -/
theorem inner411_iff {c r j k : Nat} (hr : r < 6) (hj : j ≤ 4) :
    (k ≤ 26 ∧ ¬(j = 4 ∧ 24 ≤ k) ∧ (k + shift411 j) / 6 + COLOFF.getD j 0 = c ∧ snakeRow 6 (k + shift411 j) = r) ↔
      c < 22 ∧ j = (6 * c + r) / 27 ∧ k = snakePlace 6 (c - COLOFF.getD j 0) r - shift411 j := by
  obtain ⟨hstart, hshift⟩ := coloff_shift411 j hj
  by_cases ho : COLOFF.getD j 0 ≤ c
  · obtain ⟨d, hd⟩ := Nat.exists_eq_add_of_le ho
    have hpath := snake_iff (n := k + shift411 j) (c := d) hr
    have hbounds := snakePlace_bounds hr d
    have hends := snakePlace_mem_iff (d := d) hr hshift
    rw [hd, Nat.add_sub_cancel_left]
    constructor
    · rintro ⟨hk, hedge, hcol, hrow⟩
      have hplace := hpath.1 ⟨by omega, hrow⟩
      have := hends.1 (by omega)
      omega
    · rintro ⟨hcol, hj', hk⟩
      have := hends.2 (by omega)
      obtain ⟨hdiv, hrow⟩ := hpath.2 (by omega)
      exact ⟨by omega, by omega, by omega, hrow⟩
  · constructor
    · rintro ⟨-, -, hcol, -⟩
      omega
    · rintro ⟨-, hj', -⟩
      omega

/-- The samples of a 32 x 8 rectangle at column c and row r of superblock row i. -/
theorem in_cell411_iff {c r i x y : Nat} (hr : r < 6) :
    (32 * c ≤ x ∧ x < 32 * c + 32 ∧ 48 * i + 8 * r ≤ y ∧ y < 48 * i + 8 * r + 8) ↔
      c = x / 32 ∧ i = y / 48 ∧ r = y % 48 / 8 := by
  omega

theorem eq_owner411_iff {x y i j k : Nat} : (i, j, k) = owner411 x y ↔ i = y / 48 ∧
    (704 ≤ x ∧ j = 4 ∧ k = 24 + y % 48 / 16 ∨
      x < 704 ∧ j = (6 * (x / 32) + y % 48 / 8) / 27 ∧
        k = snakePlace 6 (x / 32 - COLOFF.getD j 0) (y % 48 / 8) - shift411 j) := by
  unfold owner411
  split
  · next h => simp only [Prod.mk.injEq, h, Nat.not_lt.2 h, true_and, false_and, or_false]
  · next h =>
    simp only [Prod.mk.injEq, h, Nat.not_le.1 h, true_and, false_and, false_or]
    exact and_congr_right fun _ => and_congr_right fun hj => by rw [hj]

/-- The macroblock (i, j, k) of 4:1:1 holds the sample at (x, y) just if it is the sample's owner. -/
theorem covers411_iff {x y imax i j k : Nat} (hx : x < 720) (hy : y < 48 * (imax + 1)) :
    (i ≤ imax ∧ j ≤ 4 ∧ k ≤ 26 ∧
      (placePos411 i j k).1 ≤ x ∧ x < (placePos411 i j k).1 + (if j = 4 ∧ 24 ≤ k then 16 else 32) ∧
      (placePos411 i j k).2 ≤ y ∧ y < (placePos411 i j k).2 + (if j = 4 ∧ 24 ≤ k then 16 else 8)) ↔
      (i, j, k) = owner411 x y := by
  rw [eq_owner411_iff]
  by_cases hj : j ≤ 4
  · have hinner := inner411_iff (c := x / 32) (r := y % 48 / 8) (k := k) (by omega) hj
    by_cases hedge : j = 4 ∧ 24 ≤ k
    · have hleft := mt hinner.2 fun h => h.2.1 hedge
      rw [placePos411_edge hedge, if_pos hedge, if_pos hedge]
      dsimp only
      omega
    · have hrow := snakeRow_lt (h := 6) (by decide) (k + shift411 j)
      have hcell := in_cell411_iff (c := (k + shift411 j) / 6 + COLOFF.getD j 0) (x := x) (y := y) (i := i) hrow
      rw [placePos411_inner hedge, if_neg hedge, if_neg hedge, hcell]
      constructor
      · rintro ⟨-, -, hk, hcol, hi, hrow⟩
        exact ⟨hi, .inr ⟨by omega, (hinner.1 ⟨hk, hedge, hcol, hrow⟩).2⟩⟩
      · rintro ⟨hi, h | ⟨hleft, hj', hk⟩⟩
        · omega
        · obtain ⟨hk, -, hcol, hrow⟩ := hinner.2 ⟨by omega, hj', hk⟩
          exact ⟨by omega, hj, hk, hcol, hi, hrow⟩
  · omega

/-! ### The frame -/

/-- Settles O25: each sample has one owner in each placement. -/
theorem placementTiles : Obligations.PlacementTiles := fun _ _ x y hx hy =>
  ⟨⟨owner411 x y, (covers411_iff hx hy).2 rfl, fun _ h => (covers411_iff hx hy).1 h⟩,
    owner420 x y, (covers420_iff hx hy).2 rfl, fun _ h => (covers420_iff hx hy).1 h⟩

end Sys2Proof.Machine
end

section
/-! Weighting, quantisation, classification and the qno search (44_quant.md): what each command leaves in COEF[b] or the metadata,
and that the two weightings undo one another. -/

namespace Sys2Proof.Machine

open Sys2Proof

/-! ### Weighting -/

theorem sat16_of_range {v : Int} (h1 : -32768 ≤ v) (h2 : v ≤ 32767) : sat16 v = v := by
  unfold sat16 sat; omega

theorem exec_weightFwd {b : Nat} (hb : b ≤ 29) (s : State) :
    ∃ t, exec (.weightFwd b) s = .next t ∧ OnlyBlock b s t ∧
      ∀ n, n < 64 → coef t.mem b n = sat16 (roundShift (coef s.mem b n * at0 (wfq (s.blkAt b).dctMode) n) 16) := by
  obtain ⟨t, hexec, hframe, hcoef⟩ := exec_setCoefs (i := .weightFwd b) (withBlock_of_le hb _) (weightForward_length _ _)
    fun _ => weightForward_range (s.blkAt b).dctMode (s.coefs b)
  refine ⟨t, hexec, hframe, fun n hn => ?_⟩
  rw [hcoef n hn, weightForward, at0_mkBlock _ hn, at0_coefs s b hn]

theorem exec_weightInv {b : Nat} (hb : b ≤ 29) (s : State) :
    ∃ t, exec (.weightInv b) s = .next t ∧ OnlyBlock b s t ∧
      ∀ n, n < 64 → coef t.mem b n = sat16 (roundShift (coef s.mem b n * at0 (wiq (s.blkAt b).dctMode) n) 16) := by
  obtain ⟨t, hexec, hframe, hcoef⟩ := exec_setCoefs (i := .weightInv b) (withBlock_of_le hb _) (weightInverse_length _ _)
    fun _ => weightInverse_range (s.blkAt b).dctMode (s.coefs b)
  refine ⟨t, hexec, hframe, fun n hn => ?_⟩
  rw [hcoef n hn, weightInverse, at0_mkBlock _ hn, at0_coefs s b hn]

/-- Settles O26: the weights are `wfq` and `wiq`, the rule's tables of the block's mode. -/
theorem weightResult : Obligations.WeightResult := fun _ s hb => ⟨exec_weightFwd hb s, exec_weightInv hb s⟩

/-- Settles O27: the second command finds the block in the same mode, and the products of the two weights of a position are near
2^32; the forward weighting saturates nothing, and saturating the inverse brings it no farther from c. -/
theorem weightRoundTrip : Obligations.WeightRoundTrip := by
  intro b n s hb hn
  obtain ⟨hc1, hc2⟩ := coef_range s.mem b n
  obtain ⟨hf1, hf2, hg1, hg2, hd1, hd2⟩ := weight_product (s.blkAt b).dctMode hn
  constructor
  · obtain ⟨t, hst, hframe, hinv⟩ := exec_weightInv hb s
    obtain ⟨u, htu, -, hfwd⟩ := exec_weightFwd hb t
    refine ⟨t, u, hst, htu, fun r hr hr1 hr2 => ?_⟩
    rw [hfwd n hn, blkAt_congr hframe.meta_kept.blk, hinv n hn, ← hr, sat16_of_range hr1 hr2, hr,
      roundShift_inv_fwd hc1 hc2 hf1 hf2 hd1 hd2, sat16_of_range hc1 hc2]
  · obtain ⟨t, hst, hframe, hfwd⟩ := exec_weightFwd hb s
    obtain ⟨u, htu, -, hinv⟩ := exec_weightInv hb t
    refine ⟨t, u, hst, htu, ?_⟩
    have hnear := roundShift_fwd_inv hc1 hc2 hf1 hf2 hg1 hg2 hd1 hd2
    rw [hinv n hn, blkAt_congr hframe.meta_kept.blk, hfwd n hn, sat16_weighted hc1 hc2 hf1 hf2]
    unfold sat16 sat
    omega

/-! ### Quantisation -/

/-- The shift of a magnitude as the rule's division (44 R219). -/
theorem quantOne_eq (v : Int) (sh : Nat) :
    quantOne v sh = if v < 0 then -((min (v.natAbs / 2 ^ sh) 255 : Nat) : Int) else (min (v.natAbs / 2 ^ sh) 255 : Nat) := by
  rw [← Nat.shiftRight_eq_div_pow]; rfl

/-- Settles O28: `quantize` by position, the DC apart; its step is `qshift` of the position's band. -/
theorem quantResult : Obligations.QuantResult := by
  intro b s hb
  obtain ⟨t, hexec, hframe, hcoef⟩ := exec_setCoefs (i := .quant b) (withBlock_of_le hb _) (quantize_length _ _ _ _)
    fun _ => quantize_range (s.blkAt b).dctMode (s.mbAt (b / 6)).qno.toNat (s.blkAt b).cls.toNat (coefs_range s b (by decide))
  refine ⟨t, hexec, hframe, ?_, fun n h1 h63 => ?_⟩
  · rw [hcoef 0 (by decide), quantize_zero, at0_coefs s b (by decide)]
  · rw [hcoef n (by omega), quantize_pos _ _ _ _ (by omega) (by omega), at0_coefs s b (by omega)]
    exact quantOne_eq _ _

/-- Settles O29: `dequantize` by position, the DC apart; its step is `qshift` of the position's band. -/
theorem dequantResult : Obligations.DequantResult := by
  intro b s hb
  obtain ⟨t, hexec, hframe, hcoef⟩ := exec_setCoefs (i := .dequant b) (withBlock_of_le hb _) (dequantize_length _ _ _ _)
    fun _ => dequantize_range (s.blkAt b).dctMode (s.mbAt (b / 6)).qno.toNat (s.blkAt b).cls.toNat (coefs_range s b (by decide))
  refine ⟨t, hexec, hframe, ?_, fun n h1 h63 => ?_⟩
  · rw [hcoef 0 (by decide), dequantize_zero, at0_coefs s b (by decide)]
  · rw [hcoef n (by omega), dequantize_pos _ _ _ _ (by omega) (by omega), at0_coefs s b (by omega), Nat.cast_pow]
    rfl

/-! ### CLASSIFY -/

/-- Three thresholds: a class fits CLASS (10 R36). -/
theorem classOf_le (th : BitVec 24) (mx : Nat) : classOf th mx ≤ 3 := by
  unfold classOf
  dsimp only
  split_ifs <;> decide

/-- Settles O30: the largest AC magnitude is `maxAc`, which fits RES0, and the class is `classOf` of it, which fits CLASS. -/
theorem classifyResult : Obligations.ClassifyResult := by
  intro b s hb
  refine ⟨_, exec_classify hb s, onlyBlkRes0_setBlk s b _ _, maxAc (s.coefs b), ?_, fun n h1 h63 => ?_, ?_, _,
    blkAt_setBlk_self s _ (by omega), toNat_of_eq_ofNat rfl (Nat.lt_succ_of_le (classOf_le _ _))⟩
  · exact toNat_word32 ((maxAc_le_big s b).trans_lt (by decide))
  · rw [← at0_coefs s b (by omega)]
    exact (maxAc_le_iff _ _).1 le_rfl n h1 h63
  · obtain ⟨n, h1, h63, hn⟩ := maxAc_attained (s.coefs b)
    exact ⟨n, h1, h63, by rw [← hn, at0_coefs s b (by omega)]⟩

/-! ### QSEARCH -/

/-- The budget of a block of the memory (44 R230). -/
theorem fitsAt_iff (m : Memory) (b : Nat) (mode : Bool) (k t q : Nat) : fitsAt (coefBlock m b) mode k t q = true ↔
    blockBits (blockEntries (quantize ((List.range 64).map (coef m b)) mode q k) mode) ≤ (if t < 4 then 100 else 68) - 4 := by
  rw [coefBlock_eq_map, fitsAt, decide_eq_true_iff, areaBits]

/-- `minQno` of the six results is the least of their qnos (44 R231). -/
theorem minQno_searchMb (s : State) (m : Nat) : (∀ j, j < 6 → minQno (s.searchMb m) ≤ (s.searchBlock m j).1) ∧
    ∃ j, j < 6 ∧ minQno (s.searchMb m) = (s.searchBlock m j).1 := by
  have hmem : ∀ q, q ∈ s.searchMb m ↔ ∃ j, j < 6 ∧ s.searchBlock m j = q := fun q => by
    simp only [State.searchMb, List.mem_map, List.mem_range]
  obtain ⟨hle, q, hq, heq⟩ := foldl_min (s.searchMb m) 15
    (fun q hq => by obtain ⟨j, -, rfl⟩ := (hmem q).1 hq; exact (searchBlock_spec s m j).1)
    (List.ne_nil_of_mem ((hmem _).2 ⟨0, by decide, rfl⟩))
  obtain ⟨j, hj, rfl⟩ := (hmem q).1 hq
  exact ⟨fun j hj => hle _ ((hmem _).2 ⟨j, hj, rfl⟩), j, hj, heq⟩

theorem any_searchMb (s : State) (m : Nat) :
    ((s.searchMb m).any fun q => q.2) = true ↔ ∃ j, j < 6 ∧ (s.searchBlock m j).2 = true := by
  simp only [State.searchMb, List.any_map, List.any_eq_true, List.mem_range, Function.comp_apply]

/-- QSEARCH m by what its writes leave in each part of the state. -/
theorem exec_qsearch_writes {m : Nat} (hm : m ≤ 4) (s : State) :
    ∃ u, exec (.qsearch m) s = .next (complete (u.setRes0 (packQnos (s.searchMb m)))) ∧ Untouched s u ∧
      u.csr = { s.csr with
        status := { s.csr.status with qover := s.csr.status.qover || (s.searchMb m).any fun q => q.2 } } ∧
      u.mem = s.mem ∧
      (∀ j, j < 6 → u.blkAt (6 * m + j) = { s.blkAt (6 * m + j) with overBudget := (s.searchBlock m j).2 }) ∧
      (∀ b, b < 6 * m ∨ 6 * m + 6 ≤ b → u.blkAt b = s.blkAt b) ∧
      u.mbAt m = { s.mbAt m with qno := BitVec.ofNat 4 (minQno (s.searchMb m)) } ∧ ∀ n, n ≠ m → u.mbAt n = s.mbAt n := by
  refine ⟨applyQsearch m s, exec_qsearch hm s, untouched_applyQsearch m s, applyQsearch_csr m s, applyQsearch_mem m s,
    fun j hj => ?_, fun b hb => ?_, ?_, fun n hn => ?_⟩
  · rw [applyQsearch_blkAt s hm, if_pos (by omega), Nat.add_sub_cancel_left, searchMb_getD s m hj]
  · rw [applyQsearch_blkAt s hm, if_neg (by omega)]
  · rw [applyQsearch_mbAt, mbAt_setMb_self s _ (by omega)]
  · rw [applyQsearch_mbAt, mbAt_setMb_ne s _ hn]

/-- Settles O31: RES0 and OVER hold the six answers of the search, each as `searchBlock_spec` says. -/
theorem qsearchResult : Obligations.QsearchResult := by
  intro m s hm
  obtain ⟨u, hexec, hkeep, hcsr, hmem, hblk, hblk', hmb, hmb'⟩ := exec_qsearch_writes hm s
  obtain ⟨hupper, hq⟩ := packQnos_searchMb (s := s) (m := m)
  obtain ⟨hle, hleast⟩ := minQno_searchMb s m
  have hmin : (BitVec.ofNat 4 (minQno (s.searchMb m))).toNat = minQno (s.searchMb m) :=
    toNat_of_eq_ofNat rfl (Nat.lt_succ_of_le ((hle 0 (by decide)).trans (searchBlock_spec s m 0).1))
  have hov : ∀ j, j < 6 → (u.blkAt (6 * m + j)).overBudget = (s.searchBlock m j).2 := fun j hj => by rw [hblk j hj]
  refine ⟨_, hexec, completed_complete (hkeep.trans (untouched_setRes0 u _)), ?_⟩
  simp only [complete_res0, complete_res1, complete_res2, complete_bitpos, complete_ovfCount, complete_status,
    State.setRes0_res0, State.setRes0_res1, State.setRes0_res2, State.setRes0_bitpos, State.setRes0_ovfCount,
    State.setRes0_status, blkAt_complete, blkAt_setRes0, mbAt_complete, mbAt_setRes0, hcsr, true_and]
  refine ⟨fun a => by rw [complete_mem, State.setRes0_mem, hmem], hblk', hmb', hupper, fun j hj => ?_,
    ⟨_, hmb, fun j hj => ?_, ?_⟩, ?_⟩
  · rw [hov j hj, hq j hj]
    refine ⟨hblk j hj, ?_⟩
    simp only [← fitsAt_iff, Bool.not_eq_true]
    exact (searchBlock_spec s m j).2
  · rw [hmin, hq j hj]
    exact hle j hj
  · obtain ⟨j, hj, heq⟩ := hleast
    exact ⟨j, hj, by rw [hmin, hq j hj, heq]⟩
  · rw [Bool.or_eq_true, any_searchMb]
    exact or_congr_right (exists_congr fun j => and_congr_right fun hj => by rw [hov j hj])

end Sys2Proof.Machine
end

section
/-! The transforms (45_dct.md): the entries of each transform as the rules' sums, what FDCT, IDCT and NEED248 leave, and what
becomes of a flat block. -/

namespace Sys2Proof.Machine

open Sys2Proof

/-! ### The entries of a transform -/

/-- A double sum of the model, rounded, as the rules write it (45 R253). -/
theorem dctRound_sumTo2 {n m : Nat} {f g : Nat → Nat → Int} (h : ∀ i, i < n → ∀ j, j < m → f i j = g i j) :
    dctRound (sumTo n fun i => sumTo m (f i)) =
      sat16 (roundShift (Finset.sum (Finset.range n) fun i => Finset.sum (Finset.range m) (g i)) 32) := by
  rw [dctRound, sumTo_congr fun i hi => sumTo_congr (h i hi)]
  simp only [sumTo_eq]

/-- The row of a position in raster order (00 R13). -/
theorem raster_div (r : Nat) {k : Nat} (hk : k < 8) : (8 * r + k) / 8 = r := by omega

/-- The column of a position in raster order (00 R13). -/
theorem raster_mod (r : Nat) {k : Nat} (hk : k < 8) : (8 * r + k) % 8 = k := by omega

theorem at0_fdctBlock_false (c : List Int) {v u : Nat} (hv : v < 8) (hu : u < 8) :
    at0 (fdctBlock false c) (8 * v + u) = dctRound (sumTo 8 fun y => sumTo 8 fun x => m8 v y * m8 u x * rc c y x) := by
  rw [show fdctBlock false c = fdct88 c from rfl, fdct88, at0_mkBlock _ (by omega)]
  simp only [raster_div _ hu, raster_mod _ hu]

theorem at0_idctBlock_false (c : List Int) {y x : Nat} (hy : y < 8) (hx : x < 8) :
    at0 (idctBlock false c) (8 * y + x) = dctRound (sumTo 8 fun v => sumTo 8 fun u => m8 v y * m8 u x * rc c v u) := by
  rw [show idctBlock false c = idct88 c from rfl, idct88, at0_mkBlock _ (by omega)]
  simp only [raster_div _ hx, raster_mod _ hx]

/-- Rows 0..3 hold the transform of the sums of the row pairs (45 R255). -/
theorem at0_fdctBlock_true_sum (c : List Int) {v u : Nat} (hv : v < 4) (hu : u < 8) :
    at0 (fdctBlock true c) (8 * v + u) =
      dctRound (sumTo 4 fun z => sumTo 8 fun x => m4 v z * m8 u x * (rc c (2 * z) x + rc c (2 * z + 1) x)) := by
  rw [show fdctBlock true c = fdct248 c from rfl, fdct248, at0_mkBlock _ (by omega)]
  simp only [raster_div _ hu, raster_mod _ hu, if_pos hv]

/-- Rows 4..7 hold the transform of the differences of the row pairs (45 R255). -/
theorem at0_fdctBlock_true_diff (c : List Int) {v u : Nat} (hv : v < 4) (hu : u < 8) :
    at0 (fdctBlock true c) (8 * (v + 4) + u) =
      dctRound (sumTo 4 fun z => sumTo 8 fun x => m4 v z * m8 u x * (rc c (2 * z) x - rc c (2 * z + 1) x)) := by
  have hrow : ¬ v + 4 < 4 := by omega
  rw [show fdctBlock true c = fdct248 c from rfl, fdct248, at0_mkBlock _ (by omega)]
  simp only [raster_div _ hu, raster_mod _ hu, if_neg hrow, Nat.add_sub_cancel]

/-- The upper row of a pair comes from the sums F + F′ (45 R256). -/
theorem at0_idctBlock_true_even (c : List Int) {z x : Nat} (hz : z < 4) (hx : x < 8) :
    at0 (idctBlock true c) (8 * (2 * z) + x) =
      dctRound (sumTo 4 fun v => sumTo 8 fun u => m4 v z * m8 u x * (rc c v u + rc c (v + 4) u)) := by
  have hpair : 2 * z / 2 = z := by omega
  have heven : 2 * z % 2 = 0 := by omega
  rw [show idctBlock true c = idct248 c from rfl, idct248, at0_mkBlock _ (by omega)]
  simp only [raster_div _ hx, raster_mod _ hx, hpair, if_pos heven]

/-- The lower row of a pair comes from the differences F - F′ (45 R256). -/
theorem at0_idctBlock_true_odd (c : List Int) {z x : Nat} (hz : z < 4) (hx : x < 8) :
    at0 (idctBlock true c) (8 * (2 * z + 1) + x) =
      dctRound (sumTo 4 fun v => sumTo 8 fun u => m4 v z * m8 u x * (rc c v u - rc c (v + 4) u)) := by
  have hpair : (2 * z + 1) / 2 = z := by omega
  have hodd : ¬ (2 * z + 1) % 2 = 0 := by omega
  rw [show idctBlock true c = idct248 c from rfl, idct248, at0_mkBlock _ (by omega)]
  simp only [raster_div _ hx, raster_mod _ hx, hpair, if_neg hodd]

/-! ### FDCT and IDCT -/

theorem exec_fdct_coefs {b : Nat} (hb : b ≤ 29) (s : State) :
    ∃ t, exec (.fdct b) s = .next t ∧ OnlyBlock b s t ∧
      ∀ n, n < 64 → coef t.mem b n = at0 (fdctBlock (s.blkAt b).dctMode (s.coefs b)) n :=
  exec_setCoefs (withBlock_of_le hb _) (fdctBlock_length _ _) fun _ => fdctBlock_range _ _

theorem exec_idct_coefs {b : Nat} (hb : b ≤ 29) (s : State) :
    ∃ t, exec (.idct b) s = .next t ∧ OnlyBlock b s t ∧
      ∀ n, n < 64 → coef t.mem b n = at0 (idctBlock (s.blkAt b).dctMode (s.coefs b)) n :=
  exec_setCoefs (withBlock_of_le hb _) (idctBlock_length _ _) fun _ => idctBlock_range _ _

/-- Settles O32: each entry of `fdctBlock` in either mode, its sum taken over the coefficients the memory holds. -/
theorem fdctResult : Obligations.FdctResult := by
  intro b s hb
  obtain ⟨t, hexec, hframe, hcoef⟩ := exec_fdct_coefs hb s
  refine ⟨t, hexec, hframe, ?_⟩
  intro sample
  cases hmode : (s.blkAt b).dctMode <;> rw [hmode] at hcoef
  case false =>
    intro v u hv hu
    rw [hcoef _ (by omega), at0_fdctBlock_false _ hv hu]
    exact dctRound_sumTo2 fun y hy x hx => by rw [rc_coefs s b hy hx]
  case true =>
    intro v u hv hu
    constructor
    · rw [hcoef _ (by omega), at0_fdctBlock_true_sum _ hv hu]
      exact dctRound_sumTo2 fun z hz x hx => by rw [rc_coefs s b (by omega) hx, rc_coefs s b (by omega) hx]
    · rw [hcoef _ (by omega), at0_fdctBlock_true_diff _ hv hu]
      exact dctRound_sumTo2 fun z hz x hx => by rw [rc_coefs s b (by omega) hx, rc_coefs s b (by omega) hx]

/-- Settles O33: each entry of `idctBlock` in either mode, its sum taken over the coefficients the memory holds. -/
theorem idctResult : Obligations.IdctResult := by
  intro b s hb
  obtain ⟨t, hexec, hframe, hcoef⟩ := exec_idct_coefs hb s
  refine ⟨t, hexec, hframe, ?_⟩
  intro coefficient
  cases hmode : (s.blkAt b).dctMode <;> rw [hmode] at hcoef
  case false =>
    intro y x hy hx
    rw [hcoef _ (by omega), at0_idctBlock_false _ hy hx]
    exact dctRound_sumTo2 fun v hv u hu => by rw [rc_coefs s b hv hu]
  case true =>
    intro z x hz hx
    constructor
    · rw [hcoef _ (by omega), at0_idctBlock_true_even _ hz hx]
      exact dctRound_sumTo2 fun v hv u hu => by rw [rc_coefs s b (by omega) hu, rc_coefs s b (by omega) hu]
    · rw [hcoef _ (by omega), at0_idctBlock_true_odd _ hz hx]
      exact dctRound_sumTo2 fun v hv u hu => by rw [rc_coefs s b (by omega) hu, rc_coefs s b (by omega) hu]

/-! ### A flat block -/

theorem m8_eq_kcos : ∀ k < 8, ∀ n < 8, m8 k n = if k = 0 then 23171 else kcos ((2 * n + 1) * k) := by decide

theorem m4_eq_kcos : ∀ v < 4, ∀ z < 4, m4 v z = if v = 0 then 23171 else kcos (2 * v * (2 * z + 1)) := by decide

/-- Settles O34: FDCT leaves the block that `fdct_flat` describes, on which `idct_flat` says what IDCT does. -/
theorem flatBlock : Obligations.FlatBlock := by
  refine ⟨fun k n hk hn => m8_eq_kcos k hk n hn, fun v z hv hz => m4_eq_kcos v hv z hz, fun b s a hb hlo hhi hflat => ?_⟩
  obtain ⟨t, hst, -, hfwd⟩ := exec_fdct_coefs hb s
  obtain ⟨u, htu, -, hinv⟩ := exec_idct_coefs hb t
  have hspec : ∀ n, n < 64 → coef t.mem b n = if n = 0 then 8 * a else 0 := fun n hn => by
    rw [hfwd n hn, fdct_flat _ hlo hhi (fun k hk => by rw [at0_coefs s b hk, hflat k hk]) hn]
  have hdc : coef t.mem b 0 = 8 * a := hspec 0 (by decide)
  have hac : ∀ n, 1 ≤ n → n < 64 → coef t.mem b n = 0 := fun n h1 hn => by rw [hspec n hn, if_neg (by omega)]
  refine ⟨t, u, hst, htu, hdc, hac, fun n hn => ?_⟩
  rw [hinv n hn, idct_flat _ hlo hhi (by rw [at0_coefs t b (by decide), hdc])
    (fun k h1 hk => by rw [at0_coefs t b hk, hac k h1 hk]) hn]

/-! ### NEED248 -/

/-- 56 differences of two 16-bit values. -/
theorem activity_le (s : State) (b : Nat) : activity (s.coefs b) ≤ 3669960 := by
  rw [activity_eq]
  have hdiff : ∀ m n, (coef s.mem b m - coef s.mem b n).natAbs ≤ 65535 := fun m n => by
    have hm := coef_range s.mem b m
    have hn := coef_range s.mem b n
    omega
  have hrow : ∀ y, (Finset.sum (Finset.range 8) fun x =>
      (coef s.mem b (8 * (y + 1) + x) - coef s.mem b (8 * y + x)).natAbs) ≤ 524280 := fun y =>
    Finset.sum_le_card_nsmul _ _ 65535 fun x _ => hdiff _ _
  exact Finset.sum_le_card_nsmul _ _ 524280 fun y _ => hrow y

theorem exec_need248 {b : Nat} (hb : b ≤ 29) (s : State) : exec (.need248 b) s =
    .next (complete ((applyNeed248 b s).setRes0 (word32 (activity (s.coefs b))))) := exec_of_ok (withBlock_of_le hb _)

/-- Settles O35: V is `activity`, which fits RES0, and DCT_MODE is its strict comparison with THR248. -/
theorem need248Result : Obligations.Need248Result := by
  refine ⟨fun w h => decodeWord_of_op w h, fun b s => ⟨fun hb => ?_, failsWith_badIndex_of_withBlock rfl⟩⟩
  have hle := activity_le s b
  refine ⟨_, exec_need248 hb s, onlyBlkRes0_setBlk s b _ _, ?_⟩
  dsimp only
  rw [← activity_eq]
  exact ⟨toNat_word32 (hle.trans_lt (by decide)), hle, blkAt_setBlk_self s _ (by omega)⟩

end Sys2Proof.Machine
end

section
/-! The segment commands (46_segment.md): what VLC_DEC_SEG leaves of a segment and that it reads SEG alone, the fit step by groups,
what VLC_ENC_SEG writes, and the decode of an encoded segment. -/

namespace Sys2Proof.Machine

open Sys2Proof

/-! ### VLC_DEC_SEG -/

theorem exec_vlcDecSeg (s : State) : ∃ u, exec .vlcDecSeg s = .next (complete u) ∧ Untouched s u ∧
    VlcDecSegWrites s u (decodeSegment s.mem) :=
  ⟨_, exec_of_ok (i := .vlcDecSeg) rfl, untouched_vlcDecSeg s, vlcDecSeg_writes s⟩

section
variable {m : Memory} {b : Nat} {w : Work} (h : OwnPass m b w) (old : BlkMeta)
include h

theorem OwnPass.toNat_pos : (w.toBlk old).pos.toNat = w.pos :=
  toNat_of_eq_ofNat rfl (h.sound.pos_le.trans_lt (by decide))

theorem OwnPass.toNat_cls : (w.toBlk old).cls.toNat = w.cls :=
  toNat_of_eq_ofNat rfl (h.cls ▸ segPeek_lt m _ 2)

theorem OwnPass.toNat_offset (hb : b < 30) : (w.toBlk old).offset.toNat = w.offset :=
  toNat_of_eq_ofNat rfl ((h.offset_le.trans (endBit_le hb)).trans_lt (by decide))

theorem OwnPass.toNat_endPos (hb : b < 30) : (w.toBlk old).endPos.toNat = endBit b :=
  h.endPos ▸ toNat_of_eq_ofNat rfl (h.endPos.trans_le (endBit_le hb) |>.trans_lt (by decide))

end

/-- The EOBs of a macroblock, block by block (46 R290). -/
theorem eobCountOf_eq (m : Memory) {k : Nat} (hk : k < 5) :
    eobCountOf (decodeSegment m) k = ((List.range 6).map fun j => (workAt (decodeSegment m) (6 * k + j)).eob.toNat).sum := by
  rw [eobCountOf, ofMb_eq (decodeSegment_length m) hk, List.map_map]
  rfl

section
variable (m mem : Memory) {k : Nat} (hk : k < 5) (old : MbMeta)
include hk

theorem toNat_vlcError_mbOfSegment :
    (mbOfSegment mem (decodeSegment m) k old).vlcError.toNat = vlcErrorOf (decodeSegment m) k :=
  toNat_of_eq_ofNat rfl ((vlcErrorOf_le m hk).trans_lt (by decide))

theorem toNat_eobCount_mbOfSegment :
    (mbOfSegment mem (decodeSegment m) k old).eobCount.toNat = eobCountOf (decodeSegment m) k :=
  toNat_of_eq_ofNat rfl ((eobCountOf_le m hk).trans_lt (by decide))

end

/-- Settles O36: `vlcDecSeg_writes` names every write; the numbers fit their fields, because a block's result is sound
(`ownPass_workAt`), and a macroblock's errors and EOBs make six. -/
theorem vlcDecSegResult : Obligations.VlcDecSegResult := by
  intro s
  obtain ⟨u, hexec, hkeep, hw⟩ := exec_vlcDecSeg s
  have hpass := fun b hb => ownPass_workAt s.mem (b := b) hb
  refine ⟨_, hexec, completed_complete hkeep, ?_⟩
  simp only [complete_bitpos, complete_res0, complete_res1, complete_res2, complete_ovfCount, complete_status, complete_mem,
    blkAt_complete, mbAt_complete, hw.csr, true_and]
  refine ⟨fun a ha => (congrArg (·.byte a) (complete_mem u)).trans (hw.bytes a ha), fun b hb => ?_, fun m hm => ?_, ?_, ?_, ?_⟩
  · have h := hpass b hb
    have hoff := h.toNat_offset (s.blkAt b) hb
    have hend := h.toNat_endPos (s.blkAt b) hb
    have hpos := h.toNat_pos (s.blkAt b)
    rw [hw.blk b hb]
    refine ⟨(hw.coef b 0 hb (by decide)).trans h.dc, fun n hn => hw.coef b n hb hn, rfl, rfl, rfl, hpos, hoff, h.sound.counts,
      h.mode, (h.toNat_cls _).trans h.cls, rfl, hend, ?_, ?_, h.sound.eob_fin, fun hmark => ?_, fun hmark => ⟨h.unmarked hmark, ?_⟩⟩
    · exact hpos ▸ h.sound.pos_ge
    · exact hpos ▸ h.sound.pos_le
    · exact BitVec.eq_of_toNat_eq (by rw [hoff, hend, h.marked hmark])
    · rw [hoff, hend]; exact h.offset_le
  · have hsix := vlcErrorOf_add s.mem hm
    rw [hw.mb m hm, toNat_vlcError_mbOfSegment s.mem s.mem hm, toNat_eobCount_mbOfSegment s.mem s.mem hm]
    refine ⟨rfl, rfl, rfl, rfl, rfl, rfl, rfl, by omega, ?_⟩
    rw [eobCountOf_eq s.mem hm]
    exact congrArg List.sum (List.map_congr_left fun j hj => by
      rw [List.mem_range] at hj
      rw [hw.blk _ (by omega)]
      rfl)
  · rw [toNat_word32 ((vlcErrorTotal_le s.mem).trans_lt (by decide)), vlcErrorTotal]
    exact congrArg List.sum (List.map_congr_left fun m hm => by
      rw [List.mem_range] at hm
      rw [hw.mb m hm, toNat_vlcError_mbOfSegment s.mem s.mem hm])
  · rw [toNat_word32 ((eobTotal_le s.mem).trans_lt (by decide)), eobTotal]
    exact congrArg List.sum (List.map_congr_left fun m hm => by
      rw [List.mem_range] at hm
      rw [hw.mb m hm, toNat_eobCount_mbOfSegment s.mem s.mem hm])
  · rw [Bool.or_eq_true, decide_eq_true_iff, vlcErrorTotal_pos]
    exact or_congr_right (exists_congr fun b => and_congr_right fun hb => by
      rw [hw.blk b hb]
      rfl)

/-- Settles O37: both runs write the same results of the three passes (`decodeSegment_congr`), and QNO and STA are in SEG. -/
theorem vlcDecSegDependsOnSegOnly : Obligations.VlcDecSegDependsOnSegOnly := by
  intro s u hseg
  obtain ⟨s', hs, -, hws⟩ := exec_vlcDecSeg s
  obtain ⟨u', hu, -, hwu⟩ := exec_vlcDecSeg u
  rw [← decodeSegment_congr hseg] at hwu
  refine ⟨_, _, hs, hu, ?_⟩
  simp only [complete_mem, complete_res0, complete_res1, blkAt_complete, mbAt_complete]
  refine ⟨fun b n hb hn => ?_, fun b hb => ?_, fun m hm => ?_, ?_, ?_⟩
  · rw [hws.coef b n hb hn, hwu.coef b n hb hn]
  · rw [hws.blk b hb, hwu.blk b hb]
    rfl
  · have hbyte := hseg (80 * m + 3) (by omega)
    rw [hws.mb m hm, hwu.mb m hm]
    exact ⟨congrArg (·.extractLsb' 0 4) hbyte, congrArg (·.extractLsb' 4 4) hbyte, rfl, rfl⟩
  · rw [hws.csr, hwu.csr]
  · rw [hws.csr, hwu.csr]

/-! ### The fit step -/

theorem truncates_of_forall₂ {kept old : List (List Entry)} (h : List.Forall₂ (· <+: ·) kept old) : Truncates kept old := by
  obtain ⟨hlen, hpre⟩ := List.forall₂_iff_get.1 h
  refine ⟨hlen, fun b => ?_⟩
  by_cases hb : b < kept.length
  · rw [List.getD_eq_getElem _ _ hb, List.getD_eq_getElem _ _ (hlen ▸ hb)]
    exact hpre b hb (hlen ▸ hb)
  · rw [List.getD_eq_default _ _ (not_lt.1 hb)]
    exact List.nil_prefix

theorem fitStep_blocks (es : List (List Entry)) :
    (fitStep 1 es).1 = (List.range 30).flatMap fun b => (fitGroup (areaBits (b % 6)) [es.getD b []]).1 := by
  rw [fitStep, fitGroups, if_pos rfl, List.map_map, List.flatMap_map]
  rfl

theorem fitStep_mbs (es : List (List Entry)) :
    (fitStep 2 es).1 = (List.range 5).flatMap fun m => (fitGroup 536 (ofMb m es)).1 := by
  rw [fitStep, fitGroups, if_neg (by decide), if_pos rfl, List.map_map, List.flatMap_map]
  rfl

theorem fitStep_segment (es : List (List Entry)) : (fitStep 3 es).1 = (fitGroup 2680 es).1 := by
  rw [fitStep, fitGroups, if_neg (by decide), if_neg (by decide)]
  exact List.append_nil _

theorem fitGroup_length (cap : Nat) {es : List (List Entry)} (h : 4 * es.length ≤ cap) :
    (fitGroup cap es).1.length = es.length := (fitGroup_spec cap es h).1.length_eq

/-- Settles O39: the fit step cuts (`fitStep_cut`), and on each group of its PASSES it is `fitGroup`, which follows the rule. -/
theorem fitStepFits : Obligations.FitStepFits := by
  intro passes es hlen _ r
  obtain ⟨hcut, hcount⟩ := fitStep_cut passes hlen
  refine ⟨truncates_of_forall₂ hcut, hcount, ?_, ?_, ?_⟩
  · rintro rfl b hb
    have hcap : ∀ c, 4 * [es.getD c []].length ≤ areaBits (c % 6) := fun c => by
      rw [List.length_singleton, areaBits]
      split_ifs <;> omega
    have hone := fun c => (fitGroup_length _ (hcap c)).trans List.length_singleton
    have hkept : [(fitStep 1 es).1.getD b []] = (fitGroup (areaBits (b % 6)) [es.getD b []]).1 := by
      rw [fitStep_blocks, getD_flatMap_single _ _ _ hone hb]
      obtain ⟨x, hx⟩ := List.length_eq_one_iff.1 (hone b)
      rw [hx]
      rfl
    exact hkept ▸ fitGroup_rule _ _ (hcap b)
  · rintro rfl m hm
    have hsix : ∀ m, m < 5 → (ofMb m es).length = 6 := fun m hm => by
      rw [ofMb, List.length_take, List.length_drop]
      omega
    have hcap : ∀ m, m < 5 → 4 * (ofMb m es).length ≤ 536 := fun m hm => by rw [hsix m hm]; decide
    have hkept : ((fitStep 2 es).1.drop (6 * m)).take 6 = (fitGroup 536 (ofMb m es)).1 := by
      rw [fitStep_mbs]
      exact drop_take_flatMap _ 6 5 (fun k hk => (fitGroup_length _ (hcap k hk)).trans (hsix k hk)) hm
    exact hkept ▸ fitGroup_rule _ _ (hcap m hm)
  · rintro rfl
    exact fitStep_segment es ▸ fitGroup_rule 2680 es (by omega)

/-! ### VLC_ENC_SEG -/

theorem exec_vlcEncSeg {s : State} (h : ∀ b n, b < 30 → 1 ≤ n → n ≤ 63 → (coef s.mem b n).natAbs ≤ 255) :
    exec .vlcEncSeg s = .next (complete (encodeSegment s)) := by
  refine exec_of_ok ?_
  rw [bodyOf, vlcEncSeg, (allAmpOk_iff s).2 h, require_true]

section
variable (s : State)

theorem entries_length : s.entries.length = 30 := by rw [State.entries, List.length_map, List.length_range]

theorem fitStep_entries_length : (fitStep s.csr.ctrl.passes s.entries).1.length = 30 :=
  (fitStep_cut _ (entries_length s)).1.length_eq.trans (entries_length s)

/-- The entries of 30 blocks bound what the fit step removes (46 R295). -/
theorem fitStep_entries_trunc : (fitStep s.csr.ctrl.passes s.entries).2 ≤ 1890 := by
  have hcount := (fitStep_cut s.csr.ctrl.passes (entries_length s)).2
  have := entries_groupLen s
  omega

theorem fitStep_entries_bits : ((fitStep s.csr.ctrl.passes s.entries).1.map blockBits).sum ≤ 2680 := by
  have h := fitStep_bits s.csr.ctrl.passes (entries_length s)
  rwa [List.map_map, show List.length ∘ blockCode = blockBits from funext blockCode_length] at h

end

/-- The fields of block b's header in the segment written (46 R283, R299). -/
theorem EncodeSegmentWrites.header_fields {s u : State} {f : List (List Entry) × Nat} (h : EncodeSegmentWrites s u f) {b : Nat}
    (hb : b < 30) :
    segPeek u.mem (startBit b) 9 = (BitVec.ofInt 9 (sat (-256) 255 (coef s.mem b 0))).toNat ∧
      segBit u.mem (startBit b + 9) = (s.blkAt b).dctMode ∧ segPeek u.mem (startBit b + 10) 2 = (s.blkAt b).cls.toNat := by
  obtain ⟨hdc, hmode, hcls⟩ := header_getD (coef s.mem b 0) (s.blkAt b)
  refine ⟨segPeek_of_bits (BitVec.isLt _) fun i hi => (h.header b i hb (by omega)).trans (hdc i hi),
    (h.header b 9 hb (by decide)).trans hmode, segPeek_of_bits (BitVec.isLt _) fun i hi => ?_⟩
  rw [Nat.add_assoc]
  exact (h.header b (10 + i) hb (by omega)).trans (hcls i hi)

theorem toNat_addSaturating (c : Word) (n : Nat) : (addSaturating c n).toNat = min (c.toNat + n) 0xFFFFFFFF :=
  toNat_word32 (by omega)

/-- Settles O38: `encodeSegment_writes` names every write outside the AC areas, `encodeSegment_own` the codes in them; the counts
fit their registers. -/
theorem vlcEncSegResult : Obligations.VlcEncSegResult := by
  refine fun s => ⟨fun hamp => ?_, fun ⟨b, n, hb, h1, h63, hbig⟩ => failsWith_of_error (i := .vlcEncSeg) ?_⟩
  · have hexec := exec_vlcEncSeg hamp
    have hkeep := untouched_encodeSegment s
    have hw := encodeSegment_writes s
    have hown := fun b i hb => encodeSegment_own s (b := b) (i := i) hb
    have htrunc := fitStep_entries_trunc s
    have hbits := fitStep_entries_bits s
    generalize encodeSegment s = u at *
    refine ⟨_, hexec, completed_complete hkeep, ?_⟩
    rw [entries_eq]
    generalize fitStep s.csr.ctrl.passes s.entries = f at *
    simp only [complete_bitpos, complete_res0, complete_res1, complete_res2, complete_ovfCount, complete_status, complete_mem,
      hw.csr, true_and]
    refine ⟨⟨hw.blk, hw.mb⟩, hw.bytes, hw.byte3, fun b hb => hw.header_fields hb, fun b i hb hi ha => hown b i hb hi ha,
      toNat_word32 (by omega), toNat_word32 (by omega), toNat_addSaturating _ _, ?_⟩
    rw [Bool.or_eq_true, decide_eq_true_iff]
  · have hbad : s.allAmpOk = false :=
      Bool.eq_false_iff.2 fun hok => Nat.not_le.2 hbig ((allAmpOk_iff s).1 hok b n hb h1 h63)
    rw [bodyOf, vlcEncSeg, hbad, require_false]

/-- Settles O58: the placement writes the list of the rule (`allPairs_eq`), each position once; the positions of the areas it does
not write were cleared. -/
theorem segmentImage : Obligations.SegmentImage := by
  intro s hamp
  have hexec := exec_vlcEncSeg hamp
  have hreads := encodeSegment_reads s
  have hunused := fun b q hb => encodeSegment_unused s (b := b) (q := q) hb
  have hlen := fitStep_entries_length s
  have hbits := fitStep_bits s.csr.ctrl.passes (entries_length s)
  generalize encodeSegment s = u at *
  refine ⟨_, hexec, ?_⟩
  rw [entries_eq, complete_mem]
  generalize fitStep s.csr.ctrl.passes s.entries = f at *
  intro kept codes placed
  have hcodes : ∀ b, b < 30 → (f.1.map blockCode).getD b [] = codes b := fun b hb => by
    rw [List.getD_eq_getElem _ _ (by rw [List.length_map]; omega), List.getElem_map]
    exact congrArg blockCode (List.getD_eq_getElem _ _ (by omega)).symm
  have hplaced : allPairs (f.1.map blockCode) = placed := (allPairs_eq _).trans (placedBits_congr hcodes)
  have hnodup := (allPairs_positions (f.1.map blockCode)).1
  have htotal := placedBits_length (f.1.map blockCode) (by rw [List.length_map]; exact hlen) hbits
  rw [placedBits_congr hcodes, List.map_congr_left fun b hb => congrArg List.length (hcodes b (List.mem_range.1 hb))] at htotal
  rw [hplaced] at hreads hunused hnodup
  exact ⟨hreads, hnodup, htotal, fun b q hb hq hfree => hunused b q hb (acPlaces_eq b ▸ hq) hfree⟩

/-! ### VLC_DEC_SEG after VLC_ENC_SEG -/

/-- A macroblock whose six blocks all end with EOB counts them, and no error (46 R290). -/
theorem counts_of_all_eob {m : Memory} {k : Nat} (hk : k < 5)
    (h : ∀ j, j < 6 → (workAt (decodeSegment m) (6 * k + j)).eob = true) :
    eobCountOf (decodeSegment m) k = 6 ∧ vlcErrorOf (decodeSegment m) k = 0 := by
  have hsix : eobCountOf (decodeSegment m) k = 6 := by
    rw [eobCountOf_eq m hk, List.map_congr_left fun j hj => congrArg Bool.toNat (h j (List.mem_range.1 hj))]
    rfl
  exact ⟨hsix, by have := vlcErrorOf_add m hk; omega⟩

theorem extractLsb'_byte3_qno (x : MbMeta) : (byte3 x).extractLsb' 0 4 = x.qno :=
  BitVec.extractLsb'_append_eq_right

theorem extractLsb'_byte3_sta (x : MbMeta) : (byte3 x).extractLsb' 4 4 = x.sta :=
  BitVec.extractLsb'_append_eq_left

/-- Where the fit step removed nothing, it kept every block's entries (46 R295). -/
theorem fitStep_keeps (passes : BitVec 2) {es : List (List Entry)} (hl : es.length = 30) (h : (fitStep passes es).2 = 0) :
    (fitStep passes es).1 = es := by
  obtain ⟨hcut, hcount⟩ := fitStep_cut passes hl
  exact fit_keeps hcut (by omega)

/-- A block's entries and its DC give back the block (42 R159). -/
theorem fillEntries_entries (s : State) {b : Nat} (hb : b < 30) :
    fillEntries (zz (s.blkAt b).dctMode) 1 (s.entries.getD b []) ((List.replicate 64 0).set 0 (coef s.mem b 0)) = s.coefs b := by
  have hget : s.entries.getD b [] = blockEntries (s.coefs b) (s.blkAt b).dctMode := by
    rw [State.entries, List.getD_eq_getElem _ _ (by simpa using hb), List.getElem_map, List.getElem_range]
  rw [hget, ← at0_coefs s b (by decide)]
  exact fillEntries_blockEntries _ (coefs_length s b)

/-- Settles O40: every block of the encoded segment reads its own kept entries (`decode_encodeSegment`), so all six of a macroblock
have their EOB; the other fields are in the headers and in byte 3. -/
theorem segmentRoundTrip : Obligations.SegmentRoundTrip := by
  intro s hamp hdc
  have hexec := exec_vlcEncSeg hamp
  have hw := encodeSegment_writes s
  have hmirror := fun b hb => mirror_nil.1 (decode_encodeSegment s hamp hdc b hb)
  have htrunc := fitStep_entries_trunc s
  have hkeeps := fitStep_keeps s.csr.ctrl.passes (entries_length s)
  generalize encodeSegment s = e at *
  obtain ⟨u, hdec, -, hu⟩ := exec_vlcDecSeg (complete e)
  refine ⟨_, _, hexec, hdec, ?_⟩
  rw [entries_eq]
  simp only [complete_mem, complete_res0, blkAt_complete, mbAt_complete] at hu ⊢
  have hcoef : ∀ b n, b < 30 → n < 64 → coef u.mem b n = at0 (fillEntries (zz (s.blkAt b).dctMode) 1
      ((fitStep s.csr.ctrl.passes s.entries).1.getD b []) ((List.replicate 64 0).set 0 (coef s.mem b 0))) n :=
    fun b n hb hn => by
      obtain ⟨-, -, -, htgt⟩ := hmirror b hb
      rw [hu.coef b n hb hn, htgt]
  refine ⟨fun b hb => ?_, fun m hm => ?_, fun hres b n hb hn => ?_⟩
  · obtain ⟨hfin, heob, -, -⟩ := hmirror b hb
    obtain ⟨-, hmode, hcls⟩ := hw.header_fields hb
    have hpass := ownPass_workAt e.mem hb
    rw [hu.blk b hb]
    exact ⟨fun n hn => hcoef b n hb hn, hpass.mode.trans hmode,
      BitVec.eq_of_toNat_eq ((hpass.toNat_cls _).trans (hpass.cls.trans hcls)), hfin, heob⟩
  · obtain ⟨heobs, herrs⟩ := counts_of_all_eob (m := e.mem) hm fun j hj => (hmirror (6 * m + j) (by omega)).2.1
    rw [hu.mb m hm]
    refine ⟨?_, ?_, congrArg (BitVec.ofNat 8) herrs, congrArg (BitVec.ofNat 3) heobs⟩
    · exact (congrArg (·.extractLsb' 0 4) (hw.byte3 m hm)).trans (extractLsb'_byte3_qno _)
    · exact (congrArg (·.extractLsb' 4 4) (hw.byte3 m hm)).trans (extractLsb'_byte3_sta _)
  · have hword : word32 (fitStep s.csr.ctrl.passes s.entries).2 = 0 := (congrArg (·.res0) hw.csr).symm.trans hres
    have hzero : (fitStep s.csr.ctrl.passes s.entries).2 = 0 :=
      (toNat_word32 (htrunc.trans_lt (by decide))).symm.trans (congrArg BitVec.toNat hword)
    rw [hcoef b n hb hn, hkeeps hzero, fillEntries_entries s hb, at0_coefs s b hn]

end Sys2Proof.Machine
end

section
/-! NOP, DECODE_SEG and ENCODE_SEG (47 R320 to R322): the two end as the sequences of their single-stage commands (R323), and what
they leave. -/

namespace Sys2Proof.Machine

open Sys2Proof

/-- Settles O8: NOP's pseudocode writes nothing. -/
theorem nopResult : Obligations.NopResult :=
  ⟨fun w h => decodeWord_of_op w h, fun s => ⟨complete s, exec_of_ok rfl, completed_complete (.refl s), ⟨rfl, rfl, rfl⟩,
    ⟨rfl, rfl, rfl, rfl⟩, rfl, ⟨rfl, rfl⟩, fun _ => rfl⟩⟩

/-! ### DECODE_SEG -/

theorem exec_decodeSeg (s : State) : exec .decodeSeg s = .next (complete (decodeSeg s)) := exec_of_ok rfl

/-- After VLC_DEC_SEG the rest of the sequence is DECODE_SEG's loop, one block after another (47 R321, R323). -/
theorem execAll_decodeSteps (s : State) : execAll decodeSteps s = .next (complete (decodeSeg s)) := by
  have hdec : exec .vlcDecSeg s = .next (complete (vlcDecSeg s)) := exec_of_ok rfl
  rw [decodeSteps, execAll_cons_next hdec, decodeSeg]
  exact run_reconstruct_all _ (fun b hb => Nat.le_of_lt_succ (List.mem_range.1 hb)) (vlcDecSeg s)

/-- The transforms of the blocks write no register (44 R214, R220; 45 R254). -/
theorem decodeSeg_csr (s : State) : (decodeSeg s).csr = (vlcDecSeg s).csr :=
  foldl_eq State.csr reconstruct (fun _ _ => rfl) _ _

theorem bytesKeptOutside_decodeSeg (s : State) : BytesKeptOutside 0x1000 3840 s (decodeSeg s) := fun a ha =>
  (bytes_foldl reconstruct _ a (fun u _ hb => bytes_reconstruct u (List.mem_range.1 hb) ha) (vlcDecSeg s)).trans
    ((vlcDecSeg_writes s).bytes a ha)

/-- Settles O41: the commands of the sequence end where DECODE_SEG's loop ends, and of all of them only VLC_DEC_SEG writes
registers. -/
theorem decodeSegIsSequence : Obligations.DecodeSegIsSequence := by
  intro s
  have hexec := exec_decodeSeg s
  have hall := execAll_decodeSteps s
  have hkeep := untouched_decodeSeg s
  have hcsr := (decodeSeg_csr s).trans (vlcDecSeg_writes s).csr
  have hbytes := bytesKeptOutside_decodeSeg s
  generalize decodeSeg s = u at *
  refine ⟨complete u, hexec, hall, completed_complete hkeep, ?_⟩
  simp only [complete_bitpos, complete_res2, complete_ovfCount, complete_status, hcsr, true_and]
  exact fun a ha => (congrArg (·.byte a) (complete_mem u)).trans (hbytes a ha)

/-! ### ENCODE_SEG -/

/-- The check of VLC_ENC_SEG holds after QUANT of every block (47 R322). -/
theorem exec_encodeSeg (s : State) : exec .encodeSeg s = .next (complete (encodeSegment (encodePrepare s))) := by
  refine exec_of_ok (i := .encodeSeg) ?_
  rw [bodyOf, encodeSeg, vlcEncSeg, encodePrepare_ok, require_true]

theorem mem_of_bare {t u : State} (h : bare t = bare u) : t.mem = u.mem := congrArg (fun x => x.mem) h

/-- VLC_ENC_SEG overwrites RES0 and its completion DONE and ERRCODE, where the sequence differs from ENCODE_SEG's loops. -/
theorem exec_vlcEncSeg_of_bare {t u : State} (h : bare t = bare u) (hamp : u.allAmpOk = true) :
    exec .vlcEncSeg t = .next (complete (encodeSegment u)) := by
  have htamp := (allAmpOk_iff u).1 hamp
  rw [← mem_of_bare h] at htamp
  rw [exec_vlcEncSeg htamp, ← encodeSegment_bare t, h, encodeSegment_bare]

/-- The sequence of single-stage commands ends where ENCODE_SEG ends (47 R323). -/
theorem execAll_encodeSteps (s : State) :
    execAll (encodeSteps s.csr.ctrl) s = .next (complete (encodeSegment (encodePrepare s))) := by
  obtain ⟨t, ht, hbare⟩ := runs_prepare s
  rw [encodeSteps, ← List.append_assoc _ (List.map Instr.quant _), ← List.append_assoc, execAll_append_next ht,
    execAll_cons_next (exec_vlcEncSeg_of_bare hbare (encodePrepare_ok s)), execAll]

/-- Settles O42: before VLC_ENC_SEG the sequence is at ENCODE_SEG's state but for what VLC_ENC_SEG overwrites (`runs_prepare`); the
frame is `PrepareFrame` of the loops with what `encodeSegment_writes` leaves. -/
theorem encodeSegIsSequence : Obligations.EncodeSegIsSequence := by
  intro s
  have hexec := exec_encodeSeg s
  have hall := execAll_encodeSteps s
  have hkeep := (untouched_encodePrepare s).trans (untouched_encodeSegment (encodePrepare s))
  have hp := prepareFrame_prepare s
  have hw := encodeSegment_writes (encodePrepare s)
  generalize encodePrepare s = p at *
  generalize encodeSegment p = u at *
  refine ⟨complete u, hexec, hall, completed_complete hkeep, ?_⟩
  simp only [complete_bitpos, complete_res2, complete_status, complete_mb, complete_blk, mbAt_complete, hw.csr, hw.blk, hw.mb,
    mbAt_congr hw.mb]
  exact ⟨hp.bitpos, hp.res2, hp.vlcerr, hp.mb, hp.off, fun a hseg hcoef =>
    (congrArg (·.byte a) (complete_mem u)).trans ((hw.bytes a hseg).trans (hp.bytes a hcoef))⟩

end Sys2Proof.Machine
end

section
/-! The end of a command and the interrupt line (60_exceptions.md): what a step runs, how every command ends, an index out of
range, and IRQ. -/

namespace Sys2Proof.Machine

open Sys2Proof

/-! ### What a step runs -/

theorem step_wait {s : State} (hp : s.phase = .busy) (hw : s.wait ≠ 0) : step s = .next (busySlot s) := by
  simp only [step, hp, if_neg hw]

theorem runCaptured_ok {s : State} {i : Instr} (h : decodeWord s.csr.cmd = .ok i) : runCaptured s = exec i s := by
  simp only [runCaptured, h]

theorem step_command {s : State} {i : Instr} (hp : s.phase = .busy) (hw : s.wait = 0) (hd : decodeWord s.csr.cmd = .ok i) :
    step s = exec i s := (step_due hp hw).trans (runCaptured_ok hd)

theorem tableWord_toNat (v : Word) : tableWord 32 v.toNat = v := by
  rw [tableWord, Nat.mod_eq_of_lt v.isLt, BitVec.ofNat_toNat, BitVec.setWidth_eq]

theorem withFetchWord_toNat (s : State) (v : Word) : s.withFetchWord 32 v.toNat = s.capture v := by
  rw [State.withFetchWord, tableWord_toNat]

/-- Settles O4: `step` by the phase and the slots left; the placed word is the one captured, and it decodes back. -/
theorem stepRunsCommand : Obligations.StepRunsCommand := by
  refine ⟨fun s i => step_command, fun s => step_wait, fun s => step_idle, fun s i hwf => ?_⟩
  rw [withFetchWord_toNat]
  exact step_command rfl rfl (decodeWord_encode hwf)

/-! ### How a command ends -/

/-- A command that succeeds writes nothing of what `Untouched` names, and one that fails does so with a code of its own. -/
theorem exec_ends (i : Instr) (s : State) :
    ∃ t, exec i s = .next t ∧ (Completed s t ∨ ∃ e, e ≠ .illegalOp ∧ Failed e s t) := by
  rcases exec_cases i s with ⟨u, hu, hexec⟩ | ⟨e, he, hexec⟩
  · exact ⟨_, hexec, .inl (completed_complete (bodyOf_untouched hu))⟩
  · exact ⟨_, hexec, .inr ⟨e, bodyOf_error_ne he, failed_fail e s⟩⟩

theorem runCaptured_ends (s : State) : ∃ t, runCaptured s = .next t ∧ (Completed s t ∨ ∃ e, Failed e s t) := by
  cases hd : decodeWord s.csr.cmd with
  | error _ => exact ⟨_, runCaptured_error hd, .inr ⟨_, failed_fail .illegalOp s⟩⟩
  | ok i =>
    obtain ⟨t, hexec, hend⟩ := exec_ends i s
    exact ⟨t, (runCaptured_ok hd).trans hexec, hend.imp_right fun ⟨e, _, hfail⟩ => ⟨e, hfail⟩⟩

/-- Settles O6: a due step runs the captured word, which is a command or a reserved one. -/
theorem acceptedCommandCompletes : Obligations.AcceptedCommandCompletes := by
  refine ⟨exec_ends, fun s hp hw => ?_⟩
  rw [step_due hp hw]
  exact runCaptured_ends s

/-! ### An index out of range -/

/-- The commands of format B on block `b` (30 R101, R105). -/
def blockCommands (b : Nat) : List Instr :=
  [.vlcBlkBits b, .zzToScan b, .zzToNat b, .weightFwd b, .weightInv b, .classify b, .quant b, .dequant b, .fdct b, .idct b,
    .need248 b]

/-- The commands of format M on macroblock `m` (30 R101, R105). -/
def mbCommands (m : Nat) : List Instr := [.qsearch m, .placeMb m]

/-- Every command of format B checks its block index before anything else (60 R341). -/
theorem bodyOf_blockCommand {b : Nat} {i : Instr} (h : i ∈ blockCommands b) (s : State) :
    ∃ x, bodyOf i s = withBlock b x := by
  unfold blockCommands at h
  fin_cases h <;> exact ⟨_, rfl⟩

/-- Every command of format M checks its macroblock index before anything else (60 R341). -/
theorem bodyOf_mbCommand {m : Nat} {i : Instr} (h : i ∈ mbCommands m) (s : State) : ∃ x, bodyOf i s = withMb m x := by
  unfold mbCommands at h
  fin_cases h <;> exact ⟨_, rfl⟩

/-- Settles O7: `withBlock` and `withMb` come first in the pseudocode of these commands. -/
theorem badIndexFails : Obligations.BadIndexFails := by
  refine ⟨fun b s hb i hi => ?_, fun m s hm i hi => ?_⟩
  · obtain ⟨x, hx⟩ := bodyOf_blockCommand hi s
    exact failsWith_badIndex_of_withBlock hx hb
  · obtain ⟨x, hx⟩ := bodyOf_mbCommand hi s
    exact failsWith_of_error (hx.trans (withMb_of_lt hm x))

/-! ### The interrupt line -/

theorem irq_of_done {s t : State} (hdone : t.csr.status.done = true) (hctrl : t.csr.ctrl = s.csr.ctrl) :
    t.irq = s.csr.ctrl.irqEn := by
  rw [State.irq, hdone, hctrl, Bool.true_or, Bool.and_true]

/-- However a command ends, DONE is set and IRQ_EN kept (60 R344, R350). -/
theorem irq_of_exec {i : Instr} {s t : State} (h : exec i s = .next t) : t.irq = s.csr.ctrl.irqEn := by
  obtain ⟨u, hu, hend⟩ := exec_ends i s
  obtain rfl : u = t := Host.Outcome.next.inj (hu.symm.trans h)
  rcases hend with hok | ⟨e, -, hfail⟩
  · exact irq_of_done hok.done hok.ctrl
  · exact irq_of_done hfail.done hfail.ctrl

/-- A write of 1 to DONE and ERR lowers the line (10 R27). -/
theorem irq_setStatus_clear (s : State) {v : Word} (hdone : v.getLsbD 1 = true) (herr : v.getLsbD 2 = true) :
    (s.setStatus (s.csr.status.clear v)).irq = false := by
  simp [State.irq, Status.clear, hdone, herr]

/-- Settles O55: the line reads IRQ_EN, DONE and ERR and nothing else. -/
theorem interruptLine : Obligations.InterruptLine := by
  refine ⟨fun _ => rfl, fun _ _ _ => irq_of_exec, fun s v hdone herr => ?_, fun _ _ _ _ _ _ => rfl⟩
  rw [hostWrite_status]
  exact irq_setStatus_clear s hdone herr

end Sys2Proof.Machine
end

section
/-! Reset (70_reset_and_hazards.md R380 to R383): the CSRs after every kind of reset, the invariant at power-on, and what a soft
reset leaves of RAM and metadata. -/

namespace Sys2Proof.Machine

open Sys2Proof

/-! ### Power-on and the hardware reset input -/

theorem toWord_ctrl_reset : Csr.reset.ctrl.toWord = 0x0000002C := by decide

theorem statusWord_of_reset {s : State} (hphase : s.phase = .idle) (hcsr : s.csr = .reset) : s.statusWord = 0 := by
  rw [State.statusWord, hphase, hcsr]
  decide

/-- Settles O54: both resets leave the state IDLE with its CSRs at `Csr.reset`, and every read is of one of these. -/
theorem resetValues : Obligations.ResetValues := by
  intro s hs
  obtain ⟨hphase, hcsr⟩ : s.phase = .idle ∧ s.csr = .reset := by
    rcases hs with ⟨mem, blk, mb, rfl⟩ | ⟨u, rfl⟩ <;> exact ⟨rfl, rfl⟩
  simp only [readCsr, State.irq, statusWord_of_reset hphase hcsr, hphase, hcsr]
  exact ⟨trivial, trivial, toWord_ctrl_reset, rfl, trivial, rfl, rfl, rfl, rfl, rfl, rfl, rfl, rfl, rfl, rfl, rfl⟩

/-- Settles O57: the CSRs are reset, nothing is stalled, and the model's initial memory is empty. -/
theorem resetInv : Obligations.ResetInv := inv_of_reset sound_nil rfl rfl nofun

/-! ### RAM and metadata as the frames speak of them -/

section
variable {s t u : State}

theorem metaKept_congr (hblk : t.blk = u.blk) (hmb : t.mb = u.mb) : MetaKept s t ↔ MetaKept s u :=
  ⟨fun h => ⟨hblk.symm.trans h.blk, hmb.symm.trans h.mb⟩, fun h => ⟨hblk.trans h.blk, hmb.trans h.mb⟩⟩

theorem bytesKept_congr (hmem : t.mem = u.mem) : BytesKept s t ↔ BytesKept s u := by
  simp only [BytesKept, hmem]

theorem bytesKeptOutside_congr (hmem : t.mem = u.mem) (a n : Nat) : BytesKeptOutside a n s t ↔ BytesKeptOutside a n s u := by
  simp only [BytesKeptOutside, hmem]

theorem kept_of_eq (h : t.mem = s.mem ∧ t.blk = s.blk ∧ t.mb = s.mb) : MetaKept s t ∧ BytesKept s t := by
  obtain ⟨hmem, hblk, hmb⟩ := h
  exact ⟨⟨hblk, hmb⟩, fun a => congrArg (·.byte a) hmem⟩

end

theorem softReset_resets (s : State) :
    (softReset s).csr = Csr.reset ∧ (softReset s).phase = .idle ∧ (softReset s).port = s.port :=
  ⟨rfl, rfl, port_softReset s⟩

theorem softReset_idle {s : State} (hp : s.phase = .idle) :
    (softReset s).mem = s.mem ∧ (softReset s).blk = s.blk ∧ (softReset s).mb = s.mb := by
  simp only [softReset, hp, reduceCtorEq, if_false, true_and]

/-! ### What the abort of a command leaves alone -/

/-- A command that fails in a state stops at one of its checks: success would leave ERRCODE 0 (60 R344). -/
theorem bodyOf_error_of_failsWith {i : Instr} {s : State} {e : ErrCode} (h : failsWith i s e) :
    ∃ e', bodyOf i s = .error e' := by
  rcases exec_cases i s with ⟨u, hu, hexec⟩ | ⟨e', he', -⟩
  · obtain ⟨t, ht, hfail⟩ := h
    obtain rfl : complete u = t := Host.Outcome.next.inj (hexec.symm.trans ht)
    have hcode : e.number = 0 := hfail.errcode.symm.trans (completed_complete (bodyOf_untouched hu)).errcode
    cases e <;> exact absurd hcode (by decide)
  · exact ⟨e', he'⟩

theorem abortWrites_of_failsWith {i : Instr} {s : State} {e : ErrCode} (h : failsWith i s e) (k : Nat) :
    MetaKept s (abortWrites k i s) ∧ BytesKept s (abortWrites k i s) := by
  obtain ⟨e', he'⟩ := bodyOf_error_of_failsWith h
  exact kept_of_eq (abortWrites_of_error he' k)

/-- The rules of these commands write registers at most, so their abort frees nothing (70 R383). -/
theorem abortWrites_of_registers {i : Instr}
    (h : i ∈ [Instr.nop, .vlcEncSym, .vlcBits, .place411, .place420] ∨ i.op ∈ [0x08#8, 0x09#8, 0x10#8, 0x13#8])
    (k : Nat) (s : State) : abortWrites k i s = s := by
  rcases h with h | h
  · fin_cases h <;> rfl
  · cases i with
    | brPeek | brSkip | vlcDecSym | vlcBlkBits => rfl
    | _ => simp [Instr.op] at h

/-- The commands that write COEF[b] and nothing else of RAM and metadata (70 R383). -/
def coefCommands (b : Nat) : List Instr :=
  [.zzToScan b, .zzToNat b, .weightFwd b, .weightInv b, .quant b, .dequant b, .fdct b, .idct b]

/-- QUANT and DEQUANT free the AC coefficients, the others the whole block. -/
theorem abortWrites_coefCommand {b : Nat} {i : Instr} (h : i ∈ coefCommands b) (k : Nat) (s : State) :
    abortWrites k i s = abortCoefs k b s ∨ abortWrites k i s = abortAc k b s := by
  unfold coefCommands at h
  fin_cases h
  exacts [.inl rfl, .inl rfl, .inl rfl, .inl rfl, .inr rfl, .inr rfl, .inl rfl, .inl rfl]

theorem abortWrites_coefCommand_keeps {b : Nat} {i : Instr} (h : i ∈ coefCommands b) (k : Nat) (s : State) :
    MetaKept s (abortWrites k i s) ∧ BytesKeptOutside (coefAddr b 0) 128 s (abortWrites k i s) := by
  rcases abortWrites_coefCommand h k s with e | e <;> rw [e]
  · obtain ⟨hblk, hmb⟩ := meta_abortCoefs k b s
    exact ⟨⟨hblk, hmb⟩, fun _ => byte_abortCoefs k b s⟩
  · obtain ⟨hblk, hmb⟩ := meta_abortAc k b s
    exact ⟨⟨hblk, hmb⟩, fun _ => byte_abortAc k b s⟩

theorem coef_abortWrites_quant {b : Nat} {i : Instr} (h : i = .quant b ∨ i = .dequant b) (k : Nat) (s : State) :
    coef (abortWrites k i s).mem b 0 = coef s.mem b 0 := by
  rcases h with rfl | rfl <;> exact coef_abortAc k b s

theorem abortSegClear_keeps (k : Nat) (s : State) :
    MetaKept s (abortWrites k .segClear s) ∧ BytesKeptOutside 0x0400 400 s (abortWrites k .segClear s) :=
  ⟨⟨rfl, rfl⟩, fun _ ha => byte_abortSegBytes k 0 400 s.mem ha⟩

/-- An aborted BW_PUT whose checks pass frees its field, which ends inside SEG; one whose checks fail frees nothing. -/
theorem abortBwPut_keeps (k n : Nat) (s : State) :
    MetaKept s (abortBwPut k n s) ∧ BytesKeptOutside 0x0400 400 s (abortBwPut k n s) ∧
    ∀ p, p < s.csr.bitpos.toNat ∨ s.csr.bitpos.toNat + n ≤ p → segBit (abortBwPut k n s).mem p = segBit s.mem p := by
  unfold abortBwPut
  split
  · next hchecks =>
    have hfits : s.cursor + n ≤ 3200 := of_decide_eq_true (Bool.and_eq_true_iff.1 hchecks).2
    exact ⟨⟨rfl, rfl⟩, fun _ => byte_abortSegBits k s.mem hfits, fun _ => segBit_abortSegBits k s.cursor n s.mem⟩
  · exact ⟨⟨rfl, rfl⟩, fun _ _ => rfl, fun _ _ => rfl⟩

/-- A write of one field of BLK[b] leaves everything else as it was; without a record at `b` it leaves that field too. -/
theorem setBlk_field_keeps {α : Type} (field : BlkMeta → α) (set : α → BlkMeta → BlkMeta)
    (hset : ∀ x, set (field x) x = x) (s : State) (b : Nat) (v : α) :
    let t := s.setBlk b (set v (s.blkAt b))
    t.mb = s.mb ∧ BytesKept s t ∧ (∀ c, c ≠ b → t.blkAt c = s.blkAt c) ∧ ∃ w, t.blkAt b = set w (s.blkAt b) := by
  refine ⟨rfl, fun _ => rfl, fun _ hc => blkAt_setBlk_ne s _ hc, ?_⟩
  rcases blkAt_setBlk_or s b (set v (s.blkAt b)) b with ⟨-, h⟩ | h
  · exact ⟨v, h⟩
  · exact ⟨field (s.blkAt b), h.trans (hset _).symm⟩

theorem abortXy_keeps (k m : Nat) (s : State) :
    (abortXy k m s).blk = s.blk ∧ BytesKept s (abortXy k m s) ∧
    (∀ c, c ≠ m → (abortXy k m s).mbAt c = s.mbAt c) ∧
    ∃ x y, (abortXy k m s).mbAt m = { s.mbAt m with x := x, y := y } := by
  unfold abortXy
  split
  · refine ⟨rfl, fun _ => rfl, fun _ hc => mbAt_setMb_ne s _ hc, ?_⟩
    rcases mbAt_setMb_or s m { s.mbAt m with
      x := (freeMbWord k m 2).extractLsb' 0 10, y := (freeMbWord k m 2).extractLsb' 16 10 } m with ⟨-, h⟩ | h
    · exact ⟨_, _, h⟩
    · exact ⟨(s.mbAt m).x, (s.mbAt m).y, h⟩
  · exact ⟨rfl, fun _ => rfl, fun _ _ => rfl, (s.mbAt m).x, (s.mbAt m).y, rfl⟩

theorem abortEncSeg_keeps (k : Nat) (s : State) :
    MetaKept s (abortEncSeg k s) ∧
    ∀ a, a < 0x0400 ∨ 0x0400 + 400 ≤ a ∨ (a - 0x0400) % 80 < 3 → (abortEncSeg k s).mem.byte a = s.mem.byte a := by
  unfold abortEncSeg
  split
  · exact ⟨⟨rfl, rfl⟩, fun _ => byte_abortImage k s.mem⟩
  · exact ⟨⟨rfl, rfl⟩, fun _ _ => rfl⟩

/-! ### The soft reset -/

/-- Settles O53: while BUSY the RAM and the metadata are those of the abort of the command in flight (`softReset_busy`), and each
command's clause is what its own abort keeps. -/
theorem softResetKeeps : Obligations.SoftReset := by
  refine ⟨softReset_resets, fun s hp => kept_of_eq (softReset_idle hp),
    fun s e hp hd => kept_of_eq (softReset_reserved hp hd), fun s i hp hd => ?_⟩
  obtain ⟨hmem, hblk, hmb⟩ := softReset_busy hp hd
  simp only [metaKept_congr hblk hmb, bytesKept_congr hmem, bytesKeptOutside_congr hmem, blkAt_congr hblk, mbAt_congr hmb, hmem,
    hblk, hmb]
  refine ⟨fun ⟨_, hfail⟩ => abortWrites_of_failsWith hfail _, fun h => ?_, ?_,
    fun b h => abortWrites_coefCommand_keeps h _ s, fun b h => coef_abortWrites_quant h _ s, ?_, ?_, ?_, ?_, ?_⟩
  · rw [abortWrites_of_registers h]
    exact kept_of_eq ⟨rfl, rfl, rfl⟩
  · rintro rfl
    exact abortSegClear_keeps _ s
  · rintro n rfl
    obtain ⟨hmeta, hbytes, hbits⟩ := abortBwPut_keeps s.fresh n s
    exact ⟨hmeta, hbytes, fun p _ => hbits p⟩
  · rintro b rfl
    exact setBlk_field_keeps BlkMeta.cls (fun c x => { x with cls := c }) (fun _ => rfl) s b _
  · rintro b rfl
    exact setBlk_field_keeps BlkMeta.dctMode (fun d x => { x with dctMode := d }) (fun _ => rfl) s b _
  · rintro m rfl
    exact abortXy_keeps _ m s
  · rintro m rfl
    obtain ⟨hbytes, hqno, hothers, houtside, hover⟩ := abortQsearch_keeps s.fresh m s
    exact ⟨fun a => congrArg (·.byte a) hbytes, hothers, hqno, houtside, hover⟩

/-- Settles O59: what is kept is `AbortDecodeKeeps`, `abortEncSeg_keeps`, and of an aborted ENCODE_SEG the bytes, the blocks'
records and the macroblocks' records in turn. -/
theorem softResetSegment : Obligations.SoftResetSegment := by
  intro s i hp hd
  obtain ⟨hmem, hblk, hmb⟩ := softReset_busy hp hd
  simp only [metaKept_congr hblk hmb, bytesKeptOutside_congr hmem, blkAt_congr hblk, mbAt_congr hmb, hmem]
  refine ⟨fun h => ?_, ?_, ?_⟩
  · have hkeeps : AbortDecodeKeeps s (abortWrites s.fresh i s) := by
      rcases h with rfl | rfl <;> exact abortDecode_keeps _ s
    exact ⟨hkeeps.bytes, hkeeps.overBudget, hkeeps.place⟩
  · rintro rfl
    exact abortEncSeg_keeps _ s
  · rintro rfl
    exact ⟨fun _ => byte_abortEncode _ s, blkAt_abortEncode _ s, mbAt_abortEncode _ s⟩

end Sys2Proof.Machine
end
